-- ==== Sys2Proof/Word.lean ====
section
/-! DEFINITION. Word types of the sound core: bytes, output elements, and the index types of its engines (spec R3, R7, R9). -/

namespace Sys2Proof

/-- A register, a buffer byte, a sample byte, a ROM byte (R45). -/
abbrev Byte := BitVec 8

/-- One element of the output buffer: a signed 32-bit value (R45, R47). -/
abbrev OutElem := BitVec 32

/-- A part of the register images: part 0 or part 1 (R14). -/
abbrev Part := Fin 2

/-- An FM channel, 0..5 (R3). -/
abbrev FmCh := Fin 6

/-- A PCM channel j; its command id is 0x40 + j (R22). -/
abbrev PcmCh := Fin 8

/-- A rhythm channel, 0..5 (R24). -/
abbrev RhyCh := Fin 6

/-- An SSG tone channel: 0, 1, 2 are A, B, C (R240). -/
abbrev SsgCh := Fin 3

/-- An output lane, 0..15 (R25, R333). -/
abbrev Lane := Fin 16

/-- A level, velocity, volume or total level: 0..127. -/
abbrev Level7 := Fin 128

end Sys2Proof
end

