-- ==== Sys2Proof/Syntax.lean ====
section
/-! DEFINITION. The instructions of the sound core: level 1, the commands, and level 2, the chip register writes (spec D1,
R80, R82, R83, R87). One constructor per row of spec/opcode_table.json: a code that both FM and PCM serve has one row, and
one constructor, for each route. -/

namespace Sys2Proof

/-- One element of a command's argument list (R80): a mathematical integer or a finite byte sequence. -/
inductive Arg
  | int (v : Int)
  | buf (bytes : List Byte)
  deriving DecidableEq, Repr

/-- An operator of an FM channel: operator 1 (modulator) or operator 2 (carrier) (R16). -/
inductive OpSel
  | op1
  | op2
  deriving DecidableEq, Repr

/-- The instructions. Operands of commands are the integers and buffers of R80, not yet range-checked (R81, R11). Operands of
level-2 writes are the fields of the register address that the map of R15 names, and the byte written. -/
inductive Instr
  /-- Code 0 (R124). -/
  | reset
  /-- Code 1, FM route (R173). -/
  | keyonFm (chan note vel : Int)
  /-- Code 1, PCM route (R208). -/
  | keyonPcm (chan note vel : Int)
  /-- Code 2, FM route (R174). -/
  | keyoffFm (chan : Int)
  /-- Code 2, PCM route (R209). -/
  | keyoffPcm (chan : Int)
  /-- Code 3, FM route (R175). -/
  | setpanFm (chan pan : Int)
  /-- Code 3, PCM route (R210). -/
  | setpanPcm (chan pan : Int)
  /-- Code 4, FM route (R176). -/
  | setinstFm (chan prog : Int)
  /-- Code 4, PCM route (R211). -/
  | setinstPcm (chan prog : Int)
  /-- Code 7, FM route (R178). -/
  | setpitchFm (chan pitch : Int)
  /-- Code 7, PCM route (R214). -/
  | setpitchPcm (chan pitch : Int)
  /-- Code 8, FM route (R179). -/
  | setlevelFm (chan level : Int)
  /-- Code 8, PCM route (R215). -/
  | setlevelPcm (chan level : Int)
  /-- Code 9, FM route (R180). -/
  | choffFm (chan : Int)
  /-- Code 9, PCM route (R216). -/
  | choffPcm (chan : Int)
  /-- Code 5, FM bank (R177). -/
  | loadinstFm (chanType prog : Int) (data : List Byte)
  /-- Code 5, PCM bank (R212). -/
  | loadinstPcm (chanType prog : Int) (data : List Byte)
  /-- Code 17 (R303). -/
  | wrreg (part reg value : Int)
  /-- Code 19 (R304). -/
  | wrregb (part reg value : Int)
  /-- Code 20 (R305). -/
  | rdregb (part reg : Int)
  /-- Code 21 (R308). -/
  | setta (value : Int)
  /-- Code 22 (R309). -/
  | settb (value : Int)
  /-- Code 23 (R310). -/
  | enta (on : Int)
  /-- Code 24 (R310). -/
  | entb (on : Int)
  /-- Code 32 (R213). -/
  | ldsmp (dest size : Int) (data : List Byte)
  /-- Code 33 (R217). -/
  | reserve (n : Int)
  /-- Code 34 (R221). -/
  | ldwave (data : List Byte)
  /-- Code 35 (R222). -/
  | unwave (id : Int)
  /-- Code 37 (R218). -/
  | playfx (chan note vel : Int) (data : List Byte)
  /-- Code 39 (R216). -/
  | pcmoff (chan : Int)
  /-- Code 40 (R219). -/
  | fxq (chan : Int)
  /-- Code 50 (R173). -/
  | fmkeyon (chan note vel : Int)
  /-- Code 51 (R174). -/
  | fmkeyoff (chan : Int)
  /-- Code 52 (R175). -/
  | fmpan (chan pan : Int)
  /-- Code 53 (R176). -/
  | fminst (chan prog : Int)
  /-- Code 54 (R177). -/
  | fmload (prog : Int) (data : List Byte)
  /-- Code 56 (R178). -/
  | fmpitch (chan pitch : Int)
  /-- Code 57 (R179). -/
  | fmlevel (chan level : Int)
  /-- Code 58 (R181). -/
  | fmreset
  /-- Code 67 (R335). -/
  | setvol (lane level : Int)
  /-- Code 68 (R336). -/
  | rstvol
  /-- Code 69, a stub that takes any arguments (R337). -/
  | getvol (args : List Arg)
  /-- Code 70 (R338). -/
  | setmute (lane mute : Int)
  /-- Code 71, a stub that takes any arguments (R337). -/
  | cdtoggle (args : List Arg)
  /-- Code 72, a stub that takes any arguments (R337). -/
  | getvol2 (args : List Arg)
  /-- Code 73 (R339). -/
  | getmute (lane : Int)
  /-- Code 80 (R220). -/
  | pcmenv
  /-- Code 55, unsupported (R83, R126). -/
  | unsupported55 (args : List Arg)
  /-- Code 74, unsupported (R83, R126). -/
  | unsupported74 (args : List Arg)
  /-- Code 75, unsupported (R83, R126). -/
  | unsupported75 (args : List Arg)
  /-- Every other code that R82 does not list (R83). -/
  | unsupported (code : Int) (args : List Arg)
  /-- Part 0, 0x00 + 2i: tone period bits 7-0 of SSG channel i (R15, R242). -/
  | ssgToneLow (i : SsgCh) (v : Byte)
  /-- Part 0, 0x01 + 2i: tone period bits 11-8 of SSG channel i (R15, R242). -/
  | ssgToneHigh (i : SsgCh) (v : Byte)
  /-- Part 0, 0x06: noise period (R15, R243). -/
  | ssgNoisePeriod (v : Byte)
  /-- Part 0, 0x07: tone and noise disable bits (R15, R245). -/
  | ssgEnable (v : Byte)
  /-- Part 0, 0x08 + i: level and envelope select of SSG channel i (R15, R245). -/
  | ssgLevel (i : SsgCh) (v : Byte)
  /-- Part 0, 0x0B (`high = false`) or 0x0C (`high = true`): envelope period (R15, R244). -/
  | ssgEnvPeriod (high : Bool) (v : Byte)
  /-- Part 0, 0x0D: envelope shape (R15, R244). -/
  | ssgEnvShape (v : Byte)
  /-- Part 0, 0x10: rhythm key control (R15, R271). -/
  | rhythmKey (v : Byte)
  /-- Part 0, 0x11: rhythm total level (R15, R274). -/
  | rhythmTotalLevel (v : Byte)
  /-- Part 0, 0x18 + i: level and pan of rhythm channel i (R15, R275). -/
  | rhythmChannelLevel (i : RhyCh) (v : Byte)
  /-- Part 0, 0x24: Timer A bits 9-2 (R15, R307). -/
  | timerAHigh (v : Byte)
  /-- Part 0, 0x25: Timer A bits 1-0 (R15, R307). -/
  | timerALow (v : Byte)
  /-- Part 0, 0x26: Timer B (R15, R307). -/
  | timerB (v : Byte)
  /-- Part 0, 0x28: the FM key register (R15, R155). -/
  | fmKey (v : Byte)
  /-- 0x30 + s + c: DT and MUL of an operator (R15, R140). -/
  | fmDtMul (ch : FmCh) (op : OpSel) (v : Byte)
  /-- 0x40 + s + c: TL of an operator (R15, R140). -/
  | fmTl (ch : FmCh) (op : OpSel) (v : Byte)
  /-- 0x50 + s + c: KS and AR of an operator (R15, R140). -/
  | fmKsAr (ch : FmCh) (op : OpSel) (v : Byte)
  /-- 0x60 + s + c: AM (stored) and DR of an operator (R15, R140). -/
  | fmAmDr (ch : FmCh) (op : OpSel) (v : Byte)
  /-- 0x70 + s + c: SR of an operator (R15, R140). -/
  | fmSr (ch : FmCh) (op : OpSel) (v : Byte)
  /-- 0x80 + s + c: SL and RR of an operator (R15, R140). -/
  | fmSlRr (ch : FmCh) (op : OpSel) (v : Byte)
  /-- 0xA0 + c: fnum bits 7-0, loads block and fnum (R15, R157). -/
  | fmFnumLow (ch : FmCh) (v : Byte)
  /-- 0xA4 + c: block and fnum bits 10-8, into the latch (R15, R157). -/
  | fmBlockFnumHigh (ch : FmCh) (v : Byte)
  /-- 0xB0 + c: FB and ALG (R15, R141). -/
  | fmFbAlg (ch : FmCh) (v : Byte)
  /-- 0xB4 + c: L and R (R15, R141). -/
  | fmPan (ch : FmCh) (v : Byte)
  /-- Any other register of the valid range of its part: stored, no effect (R15). -/
  | storedOnly (part : Part) (reg : Nat) (v : Byte)
  deriving DecidableEq, Repr

/-- The spec's own encodings: a command is a code and an argument list (R80), a chip register write is a triple (R87). -/
inductive Encoded
  | command (code : Int) (args : List Arg)
  | regWrite (part reg value : Nat)
  deriving DecidableEq, Repr

end Sys2Proof
end

