-- ==== Sys2Proof/WellFormed.lean ====
section
/-! DEFINITION. Which terms of `Instr` are instructions: the ones whose fields an encoding of the spec carries (R15, R83, R84,
R85, R87). Range checks of command operands are no part of it: they come after decoding and give result codes (R81, R11). -/

namespace Sys2Proof

/-- R84: a channel argument with bit 0x40 set, and not negative, selects PCM. Anything else selects FM. -/
def pcmRoute (chan : Int) : Bool := decide (0 ≤ chan) && decide (chan / 64 % 2 = 1)

/-- The codes of R82 and the three that have a row of their own in the opcode table although R83 makes them unsupported. -/
def tabledCodes : List Int :=
  [0, 1, 2, 3, 4, 5, 7, 8, 9, 17, 19, 20, 21, 22, 23, 24, 32, 33, 34, 35, 37, 39, 40, 50, 51, 52, 53, 54, 55, 56, 57, 58] ++
  [67, 68, 69, 70, 71, 72, 73, 74, 75, 80]

/-- R15: the registers of a part, inside the valid range of R85, whose whole byte is stored and has no effect. -/
def storedOnlyReg (p : Part) (r : Nat) : Bool :=
  (decide (p = 0) &&
    (r == 0x0E || r == 0x0F || (decide (0x12 ≤ r) && decide (r ≤ 0x17)) || (decide (0x1E ≤ r) && decide (r ≤ 0x23)) ||
      r == 0x27 || (decide (0x29 ≤ r) && decide (r ≤ 0x2F)))) ||
  (decide (0x30 ≤ r) && decide (r ≤ 0x8F) && (r % 4 == 3 || r / 4 % 4 == 1 || r / 4 % 4 == 2)) ||
  (decide (0x90 ≤ r) && decide (r ≤ 0x9F)) || r == 0xA3 || (decide (0xA7 ≤ r) && decide (r ≤ 0xAF)) || r == 0xB3

/-- The well-formedness check. The two routes of a shared code are told apart by the channel argument (R84, R85); the code of
`unsupported` is one that no other constructor stands for (R83); `storedOnly` names a stored-only register (R15). -/
def Instr.wf : Instr → Bool
  | .keyonFm c _ _ | .keyoffFm c | .setpanFm c _ | .setinstFm c _ | .setpitchFm c _ | .setlevelFm c _ | .choffFm c => !pcmRoute c
  | .loadinstFm c _ _ => !pcmRoute c
  | .keyonPcm c _ _ | .keyoffPcm c | .setpanPcm c _ | .setinstPcm c _ | .setpitchPcm c _ | .setlevelPcm c _ | .choffPcm c => pcmRoute c
  | .loadinstPcm c _ _ => pcmRoute c
  | .unsupported code _ => !tabledCodes.contains code
  | .storedOnly p r _ => storedOnlyReg p r
  | .reset | .fmreset | .rstvol | .pcmenv => true
  | .wrreg _ _ _ | .wrregb _ _ _ | .rdregb _ _ | .setta _ | .settb _ | .enta _ | .entb _ => true
  | .ldsmp _ _ _ | .reserve _ | .ldwave _ | .unwave _ | .playfx _ _ _ _ | .pcmoff _ | .fxq _ => true
  | .fmkeyon _ _ _ | .fmkeyoff _ | .fmpan _ _ | .fminst _ _ | .fmload _ _ | .fmpitch _ _ | .fmlevel _ _ => true
  | .setvol _ _ | .getvol _ | .setmute _ _ | .cdtoggle _ | .getvol2 _ | .getmute _ => true
  | .unsupported55 _ | .unsupported74 _ | .unsupported75 _ => true
  | .ssgToneLow _ _ | .ssgToneHigh _ _ | .ssgNoisePeriod _ | .ssgEnable _ | .ssgLevel _ _ | .ssgEnvPeriod _ _ | .ssgEnvShape _ => true
  | .rhythmKey _ | .rhythmTotalLevel _ | .rhythmChannelLevel _ _ | .timerAHigh _ | .timerALow _ | .timerB _ | .fmKey _ => true
  | .fmDtMul _ _ _ | .fmTl _ _ _ | .fmKsAr _ _ _ | .fmAmDr _ _ _ | .fmSr _ _ _ | .fmSlRr _ _ _ => true
  | .fmFnumLow _ _ | .fmBlockFnumHigh _ _ | .fmFbAlg _ _ | .fmPan _ _ => true

/-- `i` is an instruction. -/
abbrev Instr.WellFormed (i : Instr) : Prop := i.wf = true

/-- A level-2 instruction: a chip register write (D1, R87). Every other instruction is a command. -/
def Instr.isRegWrite : Instr → Bool
  | .ssgToneLow _ _ | .ssgToneHigh _ _ | .ssgNoisePeriod _ | .ssgEnable _ | .ssgLevel _ _ | .ssgEnvPeriod _ _ | .ssgEnvShape _ => true
  | .rhythmKey _ | .rhythmTotalLevel _ | .rhythmChannelLevel _ _ | .timerAHigh _ | .timerALow _ | .timerB _ | .fmKey _ => true
  | .fmDtMul _ _ _ | .fmTl _ _ _ | .fmKsAr _ _ _ | .fmAmDr _ _ _ | .fmSr _ _ _ | .fmSlRr _ _ _ => true
  | .fmFnumLow _ _ | .fmBlockFnumHigh _ _ | .fmFbAlg _ _ | .fmPan _ _ | .storedOnly _ _ _ => true
  | .keyonFm _ _ _ | .keyoffFm _ | .setpanFm _ _ | .setinstFm _ _ | .setpitchFm _ _ | .setlevelFm _ _ | .choffFm _ => false
  | .keyonPcm _ _ _ | .keyoffPcm _ | .setpanPcm _ _ | .setinstPcm _ _ | .setpitchPcm _ _ | .setlevelPcm _ _ | .choffPcm _ => false
  | .loadinstFm _ _ _ | .loadinstPcm _ _ _ | .reset | .fmreset | .rstvol | .pcmenv => false
  | .wrreg _ _ _ | .wrregb _ _ _ | .rdregb _ _ | .setta _ | .settb _ | .enta _ | .entb _ => false
  | .ldsmp _ _ _ | .reserve _ | .ldwave _ | .unwave _ | .playfx _ _ _ _ | .pcmoff _ | .fxq _ => false
  | .fmkeyon _ _ _ | .fmkeyoff _ | .fmpan _ _ | .fminst _ _ | .fmload _ _ | .fmpitch _ _ | .fmlevel _ _ => false
  | .setvol _ _ | .getvol _ | .setmute _ _ | .cdtoggle _ | .getvol2 _ | .getmute _ => false
  | .unsupported55 _ | .unsupported74 _ | .unsupported75 _ | .unsupported _ _ => false

end Sys2Proof
end

