-- ==== Sys2Proof/Decode.lean ====
section
/-! DEFINITION. Decoding and encoding: the command format (spec R80-R86), the register addresses of the map of R15 (R87, R88),
the byte form that stands for them on a wire (assumption log entry 4), and the encoder. -/

namespace Sys2Proof

/-! ## Register addresses (R15, R88) -/

/-- The part of an FM channel: `ch div 3` (R88). -/
def fmPart (ch : FmCh) : Part := if ch.val < 3 then 0 else 1

/-- The channel-in-part of an FM channel: `ch mod 3` (R88). -/
def fmIdx (ch : FmCh) : Nat := ch.val % 3

/-- The slot offset of an operator (R16, R88). -/
def slotOffset : OpSel → Nat
  | .op1 => 0x00
  | .op2 => 0x0C

/-- The address of operator `op` of channel `ch` in row `row` (R88). -/
def opReg (row : Nat) (op : OpSel) (ch : FmCh) : Nat := row + slotOffset op + fmIdx ch

/-- The address of a channel register of `ch` (R88). -/
def chReg (row : Nat) (ch : FmCh) : Nat := row + fmIdx ch

/-- Channel `ch = 3p + c` (R15). -/
def fmChannel (p : Part) (c : Nat) : FmCh := Fin.ofNat 6 (3 * p.val + c)

/-- R85: the registers that commands 17, 19 and 20 accept. -/
def regInRange (p : Part) (r : Nat) : Bool :=
  if p = 0 then decide (r ≤ 0xB6) else decide (0x30 ≤ r) && decide (r ≤ 0xB6)

/-! ## The register decoding (R8, R15) -/

/-- `REG_MAP`, the register decoding of a block (R8, R15). The block's registers are the rows of the table of R15, and the two images are
kept by row. `row` gives the row that an address of the host selects; `layout`, at an address, turns the byte that the host writes there
into the byte in R15's bit layout. Both can be undone: no two addresses select one register (R40), and every field takes every value (R15).
The valid range (R85) is one of addresses and of rows alike. Assumption log entry 19. -/
structure RegMap where
  row : Part × Nat ≃ Part × Nat
  layout : Part × Nat → (Byte ≃ Byte)
  valid : ∀ a, regInRange (row a).1 (row a).2 = regInRange a.1 a.2

/-- The default of R8, the map of R15 itself: an address selects its own row, and a byte is in R15's layout. -/
def RegMap.standard : RegMap := { row := Equiv.refl _, layout := fun _ => Equiv.refl _, valid := fun _ => rfl }

/-! ## Errors -/

/-- Why an encoding is rejected. -/
inductive DecodeError
  /-- R81: the argument list does not fit the listed code. -/
  | argShape (code : Int)
  /-- R87: no register write has this part, register or value. -/
  | register (part reg value : Nat)
  deriving DecidableEq, Repr

/-! ## Level 1: commands (R81, R82, R83, R84) -/

/-- `isPcm` of R120. -/
def isPcm (x : Int) : Bool := decide (0 ≤ x) && x.toNat.testBit 6

/-- An argument list of no elements. -/
def args0 (code : Int) (args : List Arg) (i : Instr) : Except DecodeError Instr :=
  match args with
  | [] => .ok i
  | _ => .error (.argShape code)

/-- One integer. -/
def args1 (code : Int) (args : List Arg) (f : Int → Instr) : Except DecodeError Instr :=
  match args with
  | [.int a] => .ok (f a)
  | _ => .error (.argShape code)

/-- Two integers. -/
def args2 (code : Int) (args : List Arg) (f : Int → Int → Instr) : Except DecodeError Instr :=
  match args with
  | [.int a, .int b] => .ok (f a b)
  | _ => .error (.argShape code)

/-- Three integers. -/
def args3 (code : Int) (args : List Arg) (f : Int → Int → Int → Instr) : Except DecodeError Instr :=
  match args with
  | [.int a, .int b, .int c] => .ok (f a b c)
  | _ => .error (.argShape code)

/-- One buffer. -/
def argsB (code : Int) (args : List Arg) (f : List Byte → Instr) : Except DecodeError Instr :=
  match args with
  | [.buf d] => .ok (f d)
  | _ => .error (.argShape code)

/-- An integer and a buffer. -/
def args1B (code : Int) (args : List Arg) (f : Int → List Byte → Instr) : Except DecodeError Instr :=
  match args with
  | [.int a, .buf d] => .ok (f a d)
  | _ => .error (.argShape code)

/-- Two integers and a buffer. -/
def args2B (code : Int) (args : List Arg) (f : Int → Int → List Byte → Instr) : Except DecodeError Instr :=
  match args with
  | [.int a, .int b, .buf d] => .ok (f a b d)
  | _ => .error (.argShape code)

/-- Three integers and a buffer. -/
def args3B (code : Int) (args : List Arg) (f : Int → Int → Int → List Byte → Instr) : Except DecodeError Instr :=
  match args with
  | [.int a, .int b, .int c, .buf d] => .ok (f a b c d)
  | _ => .error (.argShape code)

/-- The command map of R82 with the routes of R84 and R85, for a code that is not negative. A code without a row of its own is
unsupported whatever its arguments are (R81, R83). -/
def decodeCode (n : Nat) (args : List Arg) : Except DecodeError Instr :=
  match n with
  | 0 => args0 0 args .reset
  | 1 => args3 1 args fun c n v => if isPcm c then .keyonPcm c n v else .keyonFm c n v
  | 2 => args1 2 args fun c => if isPcm c then .keyoffPcm c else .keyoffFm c
  | 3 => args2 3 args fun c p => if isPcm c then .setpanPcm c p else .setpanFm c p
  | 4 => args2 4 args fun c p => if isPcm c then .setinstPcm c p else .setinstFm c p
  | 5 => args2B 5 args fun c p d => if isPcm c then .loadinstPcm c p d else .loadinstFm c p d
  | 7 => args2 7 args fun c p => if isPcm c then .setpitchPcm c p else .setpitchFm c p
  | 8 => args2 8 args fun c l => if isPcm c then .setlevelPcm c l else .setlevelFm c l
  | 9 => args1 9 args fun c => if isPcm c then .choffPcm c else .choffFm c
  | 17 => args3 17 args .wrreg
  | 19 => args3 19 args .wrregb
  | 20 => args2 20 args .rdregb
  | 21 => args1 21 args .setta
  | 22 => args1 22 args .settb
  | 23 => args1 23 args .enta
  | 24 => args1 24 args .entb
  | 32 => args2B 32 args .ldsmp
  | 33 => args1 33 args .reserve
  | 34 => argsB 34 args .ldwave
  | 35 => args1 35 args .unwave
  | 37 => args3B 37 args .playfx
  | 39 => args1 39 args .pcmoff
  | 40 => args1 40 args .fxq
  | 50 => args3 50 args .fmkeyon
  | 51 => args1 51 args .fmkeyoff
  | 52 => args2 52 args .fmpan
  | 53 => args2 53 args .fminst
  | 54 => args1B 54 args .fmload
  | 55 => .ok (.unsupported55 args)
  | 56 => args2 56 args .fmpitch
  | 57 => args2 57 args .fmlevel
  | 58 => args0 58 args .fmreset
  | 67 => args2 67 args .setvol
  | 68 => args0 68 args .rstvol
  | 69 => .ok (.getvol args)
  | 70 => args2 70 args .setmute
  | 71 => .ok (.cdtoggle args)
  | 72 => .ok (.getvol2 args)
  | 73 => args1 73 args .getmute
  | 74 => .ok (.unsupported74 args)
  | 75 => .ok (.unsupported75 args)
  | 80 => args0 80 args .pcmenv
  | _ => .ok (.unsupported n args)

/-- Decoding of a command (R81): every negative code is unsupported (R83). -/
def decodeCommand (code : Int) (args : List Arg) : Except DecodeError Instr :=
  if code < 0 then .ok (.unsupported code args) else decodeCode code.toNat args

/-! ## Level 2: chip register writes (R15, R87) -/

/-- The operator rows 0x30..0x8F: slots 0x00 and 0x0C are operators 1 and 2; slots 0x04, 0x08 and c = 3 are stored only. -/
def decodeOpRow (p : Part) (r : Nat) (v : Byte) : Instr :=
  let c := r % 4
  let slot := r / 4 % 4
  if c = 3 ∨ slot = 1 ∨ slot = 2 then .storedOnly p r v
  else
    let ch := fmChannel p c
    let op := if slot = 0 then OpSel.op1 else OpSel.op2
    match r / 16 with
    | 3 => .fmDtMul ch op v
    | 4 => .fmTl ch op v
    | 5 => .fmKsAr ch op v
    | 6 => .fmAmDr ch op v
    | 7 => .fmSr ch op v
    | _ => .fmSlRr ch op v

/-- The registers from 0x30 on, the same in both parts (R15). -/
def decodeFmReg (p : Part) (r : Nat) (v : Byte) : Instr :=
  if r ≤ 0x8F then decodeOpRow p r v
  else if 0xA0 ≤ r ∧ r ≤ 0xA2 then .fmFnumLow (fmChannel p (r - 0xA0)) v
  else if 0xA4 ≤ r ∧ r ≤ 0xA6 then .fmBlockFnumHigh (fmChannel p (r - 0xA4)) v
  else if 0xB0 ≤ r ∧ r ≤ 0xB2 then .fmFbAlg (fmChannel p (r - 0xB0)) v
  else if 0xB4 ≤ r ∧ r ≤ 0xB6 then .fmPan (fmChannel p (r - 0xB4)) v
  else .storedOnly p r v

/-- The registers of part 0 below 0x30 (R15). -/
def decodeLowReg (r : Nat) (v : Byte) : Instr :=
  if r ≤ 0x05 then
    if r % 2 = 0 then .ssgToneLow (Fin.ofNat 3 (r / 2)) v else .ssgToneHigh (Fin.ofNat 3 (r / 2)) v
  else if r = 0x06 then .ssgNoisePeriod v
  else if r = 0x07 then .ssgEnable v
  else if r ≤ 0x0A then .ssgLevel (Fin.ofNat 3 (r - 0x08)) v
  else if r = 0x0B then .ssgEnvPeriod false v
  else if r = 0x0C then .ssgEnvPeriod true v
  else if r = 0x0D then .ssgEnvShape v
  else if r = 0x10 then .rhythmKey v
  else if r = 0x11 then .rhythmTotalLevel v
  else if 0x18 ≤ r ∧ r ≤ 0x1D then .rhythmChannelLevel (Fin.ofNat 6 (r - 0x18)) v
  else if r = 0x24 then .timerAHigh v
  else if r = 0x25 then .timerALow v
  else if r = 0x26 then .timerB v
  else if r = 0x28 then .fmKey v
  else .storedOnly 0 r v

/-- The instruction that writes the byte `v` to row `r` of part `p` (R15). -/
def decodeRow (p : Part) (r : Nat) (v : Byte) : Instr := if r < 0x30 then decodeLowReg r v else decodeFmReg p r v

/-- Decoding of a chip register write under a register map. Addresses outside the valid range of their part are rejected by name (R87). -/
def decodeReg (M : RegMap) (part reg value : Nat) : Except DecodeError Instr :=
  if h : part < 2 ∧ value < 256 then
    let a : Part × Nat := (⟨part, h.1⟩, reg)
    if regInRange a.1 a.2 then .ok (decodeRow (M.row a).1 (M.row a).2 (M.layout a (BitVec.ofNat 8 value)))
    else .error (.register part reg value)
  else .error (.register part reg value)

/-- The decoder under a register map: total, rejecting by name. -/
def decodeWith (M : RegMap) : Encoded → Except DecodeError Instr
  | .command code args => decodeCommand code args
  | .regWrite part reg value => decodeReg M part reg value

/-- The decoder of this block, whose map is the one of R15 (`Machine.params`). -/
def decode (e : Encoded) : Except DecodeError Instr := decodeWith .standard e

/-! ## The encoder (R82, R15) -/

/-- A register write of `v` to register `r` of part `p`. -/
def encReg (p : Part) (r : Nat) (v : Byte) : Encoded := .regWrite p.val r v.toNat

/-- The encoding of an instruction, from the table of R82 and the map of R15. -/
def encode : Instr → Encoded
  | .reset => .command 0 []
  | .keyonFm c n v | .keyonPcm c n v => .command 1 [.int c, .int n, .int v]
  | .keyoffFm c | .keyoffPcm c => .command 2 [.int c]
  | .setpanFm c p | .setpanPcm c p => .command 3 [.int c, .int p]
  | .setinstFm c p | .setinstPcm c p => .command 4 [.int c, .int p]
  | .loadinstFm c p d | .loadinstPcm c p d => .command 5 [.int c, .int p, .buf d]
  | .setpitchFm c p | .setpitchPcm c p => .command 7 [.int c, .int p]
  | .setlevelFm c l | .setlevelPcm c l => .command 8 [.int c, .int l]
  | .choffFm c | .choffPcm c => .command 9 [.int c]
  | .wrreg p r v => .command 17 [.int p, .int r, .int v]
  | .wrregb p r v => .command 19 [.int p, .int r, .int v]
  | .rdregb p r => .command 20 [.int p, .int r]
  | .setta v => .command 21 [.int v]
  | .settb v => .command 22 [.int v]
  | .enta on => .command 23 [.int on]
  | .entb on => .command 24 [.int on]
  | .ldsmp a n d => .command 32 [.int a, .int n, .buf d]
  | .reserve n => .command 33 [.int n]
  | .ldwave d => .command 34 [.buf d]
  | .unwave id => .command 35 [.int id]
  | .playfx c n v d => .command 37 [.int c, .int n, .int v, .buf d]
  | .pcmoff c => .command 39 [.int c]
  | .fxq c => .command 40 [.int c]
  | .fmkeyon c n v => .command 50 [.int c, .int n, .int v]
  | .fmkeyoff c => .command 51 [.int c]
  | .fmpan c p => .command 52 [.int c, .int p]
  | .fminst c p => .command 53 [.int c, .int p]
  | .fmload p d => .command 54 [.int p, .buf d]
  | .fmpitch c p => .command 56 [.int c, .int p]
  | .fmlevel c l => .command 57 [.int c, .int l]
  | .fmreset => .command 58 []
  | .setvol l v => .command 67 [.int l, .int v]
  | .rstvol => .command 68 []
  | .getvol args => .command 69 args
  | .setmute l m => .command 70 [.int l, .int m]
  | .cdtoggle args => .command 71 args
  | .getvol2 args => .command 72 args
  | .getmute l => .command 73 [.int l]
  | .pcmenv => .command 80 []
  | .unsupported55 args => .command 55 args
  | .unsupported74 args => .command 74 args
  | .unsupported75 args => .command 75 args
  | .unsupported code args => .command code args
  | .ssgToneLow i v => encReg 0 (0x00 + 2 * i.val) v
  | .ssgToneHigh i v => encReg 0 (0x01 + 2 * i.val) v
  | .ssgNoisePeriod v => encReg 0 0x06 v
  | .ssgEnable v => encReg 0 0x07 v
  | .ssgLevel i v => encReg 0 (0x08 + i.val) v
  | .ssgEnvPeriod high v => encReg 0 (if high then 0x0C else 0x0B) v
  | .ssgEnvShape v => encReg 0 0x0D v
  | .rhythmKey v => encReg 0 0x10 v
  | .rhythmTotalLevel v => encReg 0 0x11 v
  | .rhythmChannelLevel i v => encReg 0 (0x18 + i.val) v
  | .timerAHigh v => encReg 0 0x24 v
  | .timerALow v => encReg 0 0x25 v
  | .timerB v => encReg 0 0x26 v
  | .fmKey v => encReg 0 0x28 v
  | .fmDtMul ch op v => encReg (fmPart ch) (opReg 0x30 op ch) v
  | .fmTl ch op v => encReg (fmPart ch) (opReg 0x40 op ch) v
  | .fmKsAr ch op v => encReg (fmPart ch) (opReg 0x50 op ch) v
  | .fmAmDr ch op v => encReg (fmPart ch) (opReg 0x60 op ch) v
  | .fmSr ch op v => encReg (fmPart ch) (opReg 0x70 op ch) v
  | .fmSlRr ch op v => encReg (fmPart ch) (opReg 0x80 op ch) v
  | .fmFnumLow ch v => encReg (fmPart ch) (chReg 0xA0 ch) v
  | .fmBlockFnumHigh ch v => encReg (fmPart ch) (chReg 0xA4 ch) v
  | .fmFbAlg ch v => encReg (fmPart ch) (chReg 0xB0 ch) v
  | .fmPan ch v => encReg (fmPart ch) (chReg 0xB4 ch) v
  | .storedOnly p r v => encReg p r v

/-! ## The byte form (assumption log entry 4)

The spec gives commands no byte form: a code and integers of any size. This model lays an encoding out in bytes so that words can
be handed to it: byte 0 is the code; an integer argument is four bytes and a buffer argument a four-byte length and its bytes, all
little-endian, integers in two's complement; arguments stand in the order of R82. A first byte of 0xFF marks a chip register write: part,
register and value follow, a byte each. Bytes that are missing at the end read as zero. -/

/-- What an argument of a wire form is: an integer or a buffer. -/
inductive ArgKind
  | int
  | buf
  deriving DecidableEq, Repr

/-- The argument kinds of a code (R82); none for the codes that take any arguments. -/
def argKinds (code : Nat) : List ArgKind :=
  if code ∈ [2, 9, 21, 22, 23, 24, 33, 35, 39, 40, 51, 73] then [.int]
  else if code ∈ [3, 4, 7, 8, 20, 52, 53, 56, 57, 67, 70] then [.int, .int]
  else if code ∈ [1, 17, 19, 50] then [.int, .int, .int]
  else if code = 34 then [.buf]
  else if code = 54 then [.int, .buf]
  else if code ∈ [5, 32] then [.int, .int, .buf]
  else if code = 37 then [.int, .int, .int, .buf]
  else []

/-- `n` bytes of the number `w`, the least significant first. -/
def bytesOf (w : Nat) : Nat → List Byte
  | 0 => []
  | n + 1 => BitVec.ofNat 8 w :: bytesOf (w / 256) n

/-- Read the arguments of the kinds given from the number `w`. -/
def wireArgs (w : Nat) : List ArgKind → List Arg
  | [] => []
  | .int :: ks => .int (BitVec.ofNat 32 w).toInt :: wireArgs (w / 2 ^ 32) ks
  | .buf :: ks => .buf (bytesOf (w / 2 ^ 32) (w % 2 ^ 32)) :: wireArgs (w / 2 ^ (32 + 8 * (w % 2 ^ 32))) ks

/-- The encoding that the bytes of `w` stand for. -/
def wireEncoded (w : Nat) : Encoded :=
  if w % 256 = 0xFF then .regWrite (w / 2 ^ 8 % 256) (w / 2 ^ 16 % 256) (w / 2 ^ 24 % 256)
  else .command ((w % 256 : Nat) : Int) (wireArgs (w / 256) (argKinds (w % 256)))

/-- The number that a byte sequence spells, its first byte the least significant. -/
def natOfBytes : List Byte → Nat
  | [] => 0
  | b :: bs => b.toNat + 256 * natOfBytes bs

/-- Decoding of any bytes: total, rejecting by name. -/
def decodeBytes (bs : List Byte) : Except DecodeError Instr := decode (wireEncoded (natOfBytes bs))

/-- The instruction the decoder reads from the word `w` of `nbits` bits; the bits above are zero. -/
def decodeTableWord (nbits w : Nat) : Option Instr :=
  match decode (wireEncoded (w % 2 ^ nbits)) with
  | .ok i => some i
  | .error _ => none

end Sys2Proof
end

