-- ==== Sys2Proof/Config.lean ====
section
/-! DEFINITION. The implementation parameters of the sound core (spec R8): the record of all of them, with the properties
the spec requires, and the values the source leaves open as ONE opaque constant that nothing in Lean can evaluate. The
spec's own default values are in Machine/Params.lean. -/

namespace Sys2Proof

/-- How the two operators of an FM channel connect (R141, R153, R154). -/
inductive Connection
  | serial
  | parallel
  deriving DecidableEq, Repr, Inhabited

/-- One audible entry of `RHY_LEVEL` (R274): multiply, shift right, mask. -/
structure RhyScale where
  mul : Nat
  shift : Nat
  mask : Int
  deriving DecidableEq, Repr, Inhabited

/-- The parameters that R8 marks `OPEN`, each with the property the spec requires of it. A value of this type is a
well-formed choice of all of them: R390 refuses to construct a block from any other. The default field values only show
that the type is inhabited; no statement can see them (`Config.openTables` has no body). -/
structure OpenTables where
  /-- `SAMPLE_RATE`, positive (D2); only `PCM_STEP` reads it (R403). -/
  sampleRate : Nat := 1
  sampleRate_pos : 0 < sampleRate := by decide
  /-- `EXTERNAL_LOCKING` (D4, R366). -/
  externalLocking : Bool := false
  /-- `RATE_TAB` (R143). -/
  rateTab : Fin 64 → Nat := fun _ => 0
  /-- `SHIFT_TAB` (R143). -/
  shiftTab : Fin 64 → Nat := fun _ => 0
  /-- `ADT`, the source's attackDecayTable (R144). -/
  adt : Nat → Nat := fun _ => 0
  /-- `SINLOG` (R151). -/
  sinlog : Fin 1024 → Fin 832 → Int := fun _ _ => 0
  /-- `FREQ_BASE` (R148). -/
  freqBase : Fin 8 → Fin 2048 → Nat := fun _ _ => 0
  /-- `DT_TAB` (R148). -/
  dtTab : Fin 8 → Fin 32 → Int := fun _ _ => 0
  /-- `MUL2`, twice the frequency multiple (R148). -/
  mul2 : Fin 16 → Nat := fun _ => 0
  /-- `SL_TARGET` (R145). -/
  slTarget : Fin 16 → Fin 1024 := fun _ => 0
  /-- `KEYCODE` (R142). -/
  keycode : Fin 8 → Fin 2048 → Fin 32 := fun _ _ => 0
  /-- `FB_SHIFT` (R152). -/
  fbShift : Fin 8 → Nat := fun _ => 0
  /-- `MOD_SHIFT` (R153). -/
  modShift : Nat := 0
  /-- `ATTACK_STEP`: level and increment to the new level (R146). -/
  attackStep : Nat → Nat → Int := fun l _ => l
  /-- R146: the attack moves the level toward 0. -/
  attackStep_le : ∀ l i, attackStep l i ≤ l := by intro l i; simp
  /-- `FNUM_TAB` (R170). -/
  fnumTab : Fin 12 → Nat := fun _ => 0
  /-- `FREQ_FLOOR` (R170). -/
  freqFloor : Nat := 0
  /-- `FREQ_CEIL` (R170). -/
  freqCeil : Nat := 0
  freqFloor_le : freqFloor ≤ freqCeil := by decide
  freqCeil_le : freqCeil ≤ 2047 := by decide
  /-- `PITCH_SCALE` (R170, D23). -/
  pitchScale : Int → Int := fun _ => 0
  pitchScale_zero : pitchScale 0 = 0 := by rfl
  /-- `TL_SCALE`: instrument total level, velocity, channel level to the written total level (R172, D45). -/
  tlScale : Level7 → Level7 → Level7 → Level7 := fun tl _ _ => tl
  tlScale_velocity : ∀ tl v v' l, v ≤ v' → tlScale tl v' l ≤ tlScale tl v l := by intros; simp
  tlScale_level : ∀ tl v l l', l ≤ l' → tlScale tl v l' ≤ tlScale tl v l := by intros; simp
  tlScale_full : ∀ tl, tlScale tl 127 127 = tl := by intros; rfl
  /-- `FM_DEFAULT_INSTRUMENT`: the default 48 bytes of each FM program (R190, D50). -/
  fmDefault : Fin 128 → Vector Byte 48 := fun _ => Vector.replicate 48 0
  /-- `PCM_PITCH_STEP` (R202, D23). -/
  pcmPitchStep : Int → Nat := fun _ => 0
  /-- `PCM_STEP`: rate, rate offset, base note, note, pitch step to the cursor increment (R202, D56). -/
  pcmStep : Nat → Int → Nat → Nat → Nat → Nat := fun r _ _ _ _ => (r * 65536) / sampleRate
  pcmStep_base : ∀ r n, pcmStep r 0 n n (pcmPitchStep 0) = (r * 65536) / sampleRate := by intros; rfl
  /-- `SSG_VOL_TAB` (R245). -/
  ssgVolTab : Fin 16 → Nat := fun _ => 0
  /-- `SSG_ENV_TAB` (R245). -/
  ssgEnvTab : Fin 32 → Nat := fun _ => 0
  /-- `RHY_ROM` (R40, R277). -/
  rhyRom : List Byte := []
  /-- `RHY_START` (R277). -/
  rhyStart : RhyCh → Nat := fun _ => 0
  /-- `RHY_END` (R277). -/
  rhyEnd : RhyCh → Nat := fun _ => 0
  /-- R42: the rhythm offsets lie inside the ROM. -/
  rhy_ok : ∀ i, rhyStart i ≤ rhyEnd i ∧ rhyEnd i ≤ rhyRom.length := by intro i; simp
  /-- `RHY_STEP` (R272). -/
  rhyStep : Fin 49 → Nat := fun _ => 0
  /-- `RHY_ADJ` (R272). -/
  rhyAdj : Fin 8 → Int := fun _ => 0
  /-- `RHY_ATTEN` (R274). -/
  rhyAtten : Fin 64 → Fin 32 → Nat := fun _ _ => 0
  /-- `RHY_LEVEL`; `none` is the spec's `silent` (R274). -/
  rhyLevel : Nat → Option RhyScale := fun _ => none
  /-- `TA_UNIT`, positive (R307). -/
  taUnit : Nat := 1
  taUnit_pos : 0 < taUnit := by decide
  /-- `TB_UNIT`, positive (R307). -/
  tbUnit : Nat := 1
  tbUnit_pos : 0 < tbUnit := by decide
  deriving Inhabited

/-- Every parameter of R8: the `OPEN` ones and the ones for which the spec gives a default. -/
structure Params extends OpenTables where
  /-- `REG_MAP` (R15, D28 to D30). -/
  regMap : RegMap
  /-- `HEADER_BIG_ENDIAN` (R43, D8). -/
  headerBigEndian : Bool
  /-- `CONNECT` (R141, D31). -/
  connect : Fin 8 → Connection
  /-- `TL_SHIFT` (R150, D43). -/
  tlShift : Nat
  /-- `PCM_NULL_INSTRUMENT` (R226, D53). -/
  pcmNull : Vector Byte 128
  /-- `PCM_ENV_SCALE` (R204, D54). -/
  pcmEnvScale : Nat
  /-- `RESERVE_ROOM` (R217, D59). -/
  reserveRoom : Nat
  /-- `RESERVE_LIMIT` (R217, D59). -/
  reserveLimit : Nat
  /-- `PCM_OUT_SHIFT` (R207, D57). -/
  pcmOutShift : Nat
  /-- `SSG_TONE_UNIT`, positive (R242). -/
  ssgToneUnit : Nat
  ssgToneUnit_pos : 0 < ssgToneUnit
  /-- `SSG_NOISE_UNIT`, positive (R243). -/
  ssgNoiseUnit : Nat
  ssgNoiseUnit_pos : 0 < ssgNoiseUnit
  /-- `SSG_ENV_UNIT`, positive (R244). -/
  ssgEnvUnit : Nat
  ssgEnvUnit_pos : 0 < ssgEnvUnit
  /-- `SSG_LFSR_INIT`, non-zero (R243). -/
  ssgLfsrInit : BitVec 17
  ssgLfsrInit_ne : ssgLfsrInit ≠ 0
  /-- `SSG_QUEUE_CAP`, positive (R241). -/
  ssgQueueCap : Nat
  ssgQueueCap_pos : 0 < ssgQueueCap
  /-- `RHY_DIV`, positive (R273). -/
  rhyDiv : Nat
  rhyDiv_pos : 0 < rhyDiv

/-- The `OPEN` parameters of this block: a free value. It has no body, so no proof can see any of its values; only the
properties its type carries (the ones the spec requires) are known. Assumption log entry 1. -/
opaque Config.openTables : OpenTables

end Sys2Proof
end

