-- ==== Sys2Proof/Machine/Params.lean ====
section
/-! DEFINITION. The parameters of this model's block: the `OPEN` ones are the free values of Config.lean, the others have the
defaults of spec R8 (each the spec's own decision; assumption log entry 2). -/

namespace Sys2Proof.Machine

/-- `CONNECT` (D31): algorithm 7 is parallel, 0 to 6 are serial. -/
def defaultConnect (alg : Fin 8) : Connection := if alg = 7 then .parallel else .serial

/-- The parameters of the block. -/
def params : Params :=
  { Config.openTables with
    regMap := .standard
    headerBigEndian := false
    connect := defaultConnect
    tlShift := 3
    pcmNull := Vector.replicate 128 0
    pcmEnvScale := 8
    reserveRoom := 8192
    reserveLimit := 65535
    pcmOutShift := 7
    ssgToneUnit := 1
    ssgToneUnit_pos := by decide
    ssgNoiseUnit := 1
    ssgNoiseUnit_pos := by decide
    ssgEnvUnit := 1
    ssgEnvUnit_pos := by decide
    ssgLfsrInit := 1
    ssgLfsrInit_ne := by decide
    ssgQueueCap := 64
    ssgQueueCap_pos := by decide
    rhyDiv := 1
    rhyDiv_pos := by decide }

end Sys2Proof.Machine
end

