-- ==== Sys2Proof/Machine/State.lean ====
section
/-! DEFINITION. The state of the sound core (spec 10_state.md), as plain data, with its value after construction (R390); the
results of commands (R80, R86); the host's steps (R123, R371); the ways a step can stop. -/

namespace Sys2Proof.Machine

/-! ## Results (R80, R86) -/

/-- The result codes of R86. Codes 11 and 12 do not exist. -/
inductive Rc
  | success
  | badChannel
  | busy
  | badValue
  | unsupported
  | budget
  | emptyData
  | needsReserved
  | instrumentMiss
  | waveMiss
  | duplicateWave
  | loopRegion
  deriving DecidableEq, Repr

/-- The number of a result code (R86). -/
def Rc.code : Rc → Nat
  | .success => 0
  | .badChannel => 1
  | .busy => 2
  | .badValue => 3
  | .unsupported => 4
  | .budget => 5
  | .emptyData => 6
  | .needsReserved => 7
  | .instrumentMiss => 8
  | .waveMiss => 9
  | .duplicateWave => 10
  | .loopRegion => 13

/-- The result of a command: a result code and an optional out-value (R80, R122). -/
structure CmdResult where
  rc : Rc
  out : Option Int
  deriving DecidableEq, Repr

/-! ## The host's steps (R120, R123, R363, R371) -/

/-- The name of a host procedure. The procedure itself is the host's; `HostProc` holds what its calls issue. -/
abbrev ProcId := Nat

/-- One operation of the host interface (R371). -/
inductive HostCall
  /-- `processCommand(code, args)` (R120). -/
  | command (code : Int) (args : List Arg)
  /-- `produce(buffer, offset, count)` (R330). -/
  | produce (buffer : List OutElem) (offset count : Int)
  /-- `setCallbacks(a, b)` (R364). -/
  | setCallbacks (a b : Option ProcId)
  /-- `setVolumeMasks(a, b)` (R334). -/
  | setVolumeMasks (a b : Int)
  deriving DecidableEq, Repr

/-- One step of the host. `overlaps` says that the host lets this step begin while an earlier step of the other actor is still
running (R366). -/
structure HostStep where
  overlaps : Bool
  call : HostCall
  deriving DecidableEq, Repr

/-- What a host procedure issues when a timer calls it (R363): one list of calls for each of its coming firings, then the same
list at every later firing. Assumption log entry 5. -/
structure HostProc where
  id : ProcId
  upcoming : List (List HostCall)
  thereafter : List HostCall
  deriving DecidableEq, Repr

/-! ## Memories (R40) -/

/-- One part of a register image: 256 bytes (R14). -/
abbrev RegImage := Vector Byte 256

/-- A register image: two parts (R14). -/
abbrev RegFile := Vector RegImage 2

/-- A byte memory in canonical form: addresses strictly rising, no byte that is zero listed; an unlisted byte reads as zero, the
reset contents of `pcmRam` (R20). -/
abbrev Memory := List Host.Cell

/-- An FM program block (R92). -/
abbrev FmProgram := Vector Byte 48

/-- A PCM program block (R94). -/
abbrev PcmProgram := Vector Byte 128

/-! ## FM (R16, R18, R19) -/

/-- The envelope states of an FM operator (R16). -/
inductive EgState
  | ready
  | attacking
  | decaying
  | sustaining
  | releasing
  deriving DecidableEq, Repr

/-- The dynamic state of one operator (R16). -/
structure Operator where
  /-- `eg`. -/
  eg : EgState
  /-- `level`: attenuation, 0 loudest, 1023 silent. -/
  level : Nat
  /-- `tick`: accumulated tick count. -/
  tick : BitVec 32
  /-- `phase`: the phase accumulator. -/
  phase : BitVec 32
  /-- `key`: the key bit as last written to register 0x28. -/
  key : Bool
  /-- `out`: the output of the last tick. -/
  out : Int
  deriving DecidableEq, Repr

/-- The chip state of one FM channel (R16, R18). -/
structure FmChannel where
  op1 : Operator
  op2 : Operator
  /-- `fb0`: operator 1's output two ticks ago. -/
  fb0 : Int
  /-- `fb1`: operator 1's output one tick ago. -/
  fb1 : Int
  /-- `block`. -/
  block : Fin 8
  /-- `fnum`. -/
  fnum : Fin 2048
  deriving DecidableEq, Repr

/-- The FM voice engine's state of one channel (R19). -/
structure FmVoice where
  /-- The channel's bit of `fmPlaying`. -/
  playing : Bool
  /-- `fmNote`: last key-on note minus 12. -/
  note : Fin 96
  /-- `fmPitch`. -/
  pitch : Int
  /-- `fmProgram`. -/
  program : Fin 128
  /-- `fmLevel`. -/
  level : Level7
  /-- `fmVelocity`. -/
  velocity : Level7
  deriving DecidableEq, Repr

/-! ## PCM (R20, R21, R22) -/

/-- The header fields and sample bytes of a wave table (R21, R95) that playback uses. -/
structure Sample where
  size : Nat
  loopStart : Nat
  loopLen : Nat
  rate : Nat
  rateOffset : Int
  baseNote : Nat
  data : List Byte
  deriving DecidableEq, Repr

/-- A wave-table record of `waves` (R21). -/
structure WaveRec where
  name : List Byte
  id : Int
  sample : Sample
  deriving DecidableEq, Repr

/-- A channel's sample source (R22): a table of `waves`, by its id, or (`none`) a private effect copy. -/
structure Source where
  waveId : Option Int
  sample : Sample
  deriving DecidableEq, Repr

/-- The phases of the PCM envelope (R22, R204). -/
inductive PcmEnvState
  | off
  | attack
  | decay
  | sustain
  | release
  | effect
  deriving DecidableEq, Repr

/-- The state of one PCM channel (R22). -/
structure PcmChannel where
  reserved : Bool
  keyPressed : Bool
  activeKey : Bool
  activeEffect : Bool
  activeOutput : Bool
  program : Fin 32
  /-- `pcmLevel`. -/
  level : Level7
  panL : Fin 16
  panR : Fin 16
  /-- `pcmPitch`. -/
  pitch : Int
  note : Level7
  velocity : Level7
  src : Option Source
  loopEnd : Nat
  /-- `pos`: playback cursor, 16 fractional bits. -/
  pos : Nat
  /-- `step`: cursor increment per tick, 16 fractional bits. -/
  step : Nat
  envState : PcmEnvState
  envLevel : Nat
  envStep : Nat
  envFull : Nat
  envSus : Nat
  envTL : Byte
  envAR : Byte
  envDR : Byte
  envSL : Byte
  envSR : Byte
  envRR : Byte
  deriving DecidableEq, Repr

/-! ## SSG, rhythm, timers, faults (R23 to R26) -/

/-- The SSG (R23). -/
structure Ssg where
  /-- `ssgReg`: the applied registers 0..13. -/
  regs : Vector Byte 14
  toneCnt : Vector Nat 3
  sq : Vector Bool 3
  noiseCnt : Nat
  lfsr : BitVec 17
  envCnt : Nat
  envCount : Fin 32
  envAttack : Bool
  envHolding : Bool
  /-- `ssgQueue`: writes waiting for the next tick, oldest first. -/
  queue : List (Fin 14 × Byte)
  deriving DecidableEq, Repr

/-- One rhythm channel (R24). -/
structure RhyChannel where
  active : Bool
  pos : Nat
  stop : Nat
  high : Bool
  acc : Int
  idx : Fin 49
  s0 : Int
  s1 : Int
  deriving DecidableEq, Repr

/-- One timer with its callback (R25). -/
structure Timer where
  on : Bool
  cnt : Nat
  callback : Option ProcId
  deriving DecidableEq, Repr

/-- The sticky fault flags (R26, R362). -/
structure FaultFlags where
  /-- `F_SSG_QUEUE_OVERFLOW`. -/
  ssgQueueOverflow : Bool
  /-- `F_PRODUCE_REENTRY`. -/
  produceReentry : Bool
  /-- `F_BUFFER_BOUNDS`. -/
  bufferBounds : Bool
  /-- `F_LOCK_VIOLATION`. -/
  lockViolation : Bool
  deriving DecidableEq, Repr

/-! ## The state -/

/-- The state of the block (R14 to R26), followed by the model's own fields: the host's side (assumption log entries 3, 5, 6). -/
structure State where
  /-- `chipReg` (R14). -/
  chipReg : RegFile
  /-- `shadow` (R14). -/
  shadow : RegFile
  /-- `fnumLatch` (R14): block 5-3, fnum high 2-0. -/
  fnumLatch : Vector (BitVec 6) 2
  /-- The operators and frequency of each FM channel (R16, R18). -/
  fm : Vector FmChannel 6
  /-- The FM voice engine (R19). -/
  voice : Vector FmVoice 6
  /-- `fmBank` (R19). -/
  fmBank : Vector FmProgram 128
  /-- `pcmBank` (R20). -/
  pcmBank : Vector PcmProgram 32
  /-- `waves`, in load order (R20). -/
  waves : List WaveRec
  /-- `waveTotal` (R20). -/
  waveTotal : Nat
  /-- `reservedCount` (R20). -/
  reservedCount : Nat
  /-- `pcmRam` (R20). -/
  pcmRam : Memory
  /-- The PCM channels (R22). -/
  pcm : Vector PcmChannel 8
  /-- The SSG (R23). -/
  ssg : Ssg
  /-- The rhythm channels (R24). -/
  rhy : Vector RhyChannel 6
  /-- `rhyDivCnt` (R24). -/
  rhyDivCnt : Nat
  /-- Timer A (R25). -/
  timerA : Timer
  /-- Timer B (R25). -/
  timerB : Timer
  /-- `vol` (R25). -/
  vol : Vector Level7 16
  /-- `mute`, 1 as true (R25). -/
  mute : Vector Bool 16
  /-- `maskA`: FM channels in the sfx group (R25). -/
  maskA : BitVec 6
  /-- `maskB`: PCM channels in the sfx group (R25). -/
  maskB : BitVec 8
  /-- `faults` (R26). -/
  faults : FaultFlags
  /-- The sticky `refused` mark (R26, R365). -/
  refused : Bool
  /-- `inProduce` (R26). -/
  inProduce : Bool
  /-- `EXTERNAL_LOCKING` as the block was constructed with it (R390, R369). -/
  externalLocking : Bool
  /-- Model: the steps the host will take, the next one first (assumption log entry 3). -/
  pending : List HostStep
  /-- Model: the host's procedures (assumption log entry 5). -/
  hostProcs : List HostProc
  /-- Model: the host's output buffer, as the last `produce` that passed its checks left it (R40, R47; assumption log entry 6). -/
  outBuffer : List OutElem
  /-- Model: the result the last step gave to the host, if that step has one (R122; assumption log entry 6). -/
  result : Option CmdResult
  /-- Model: the results given to the callbacks of the last `produce`, oldest first; `none` for a refused command (R122, R363;
  assumption log entry 6). -/
  callbackResults : List (Option CmdResult)
  deriving DecidableEq, Repr

/-! ## How a step can stop -/

/-- Faults that stop the machine. The spec has none: R360, "No failure stops the block". Its four fault flags are state (R26), and a
step that raises one goes on. -/
inductive Fault
  deriving DecidableEq, Repr

/-- Refusals that stop the machine. The spec's own refusal (R365) is no stop: it sets the sticky mark `State.refused`, and the next step
runs. -/
inductive Refusal
  /-- Raised by an arm of `exec` whose instruction has no meaning yet; no arm is left so. Safe. -/
  | notModelled (mnemonic : String)
  deriving DecidableEq, Repr

/-! ## Values after construction (R390, and the reset columns of 10_state.md) -/

/-- An operator after construction (R16). -/
def Operator.reset : Operator := { eg := .ready, level := 1023, tick := 0, phase := 0, key := false, out := 0 }

/-- The chip state of an FM channel after construction (R16, R18). -/
def FmChannel.reset : FmChannel := { op1 := .reset, op2 := .reset, fb0 := 0, fb1 := 0, block := 0, fnum := 0 }

/-- The voice state of an FM channel after construction (R19). -/
def FmVoice.reset : FmVoice := { playing := false, note := 0, pitch := 0, program := 0, level := 127, velocity := 127 }

/-- A PCM channel after construction (R22). -/
def PcmChannel.reset : PcmChannel :=
  { reserved := false, keyPressed := false, activeKey := false, activeEffect := false, activeOutput := false
    program := 0, level := 127, panL := 15, panR := 15, pitch := 0, note := 0, velocity := 0
    src := none, loopEnd := 0, pos := 0, step := 0
    envState := .off, envLevel := 0, envStep := 0, envFull := 0, envSus := 0
    envTL := 0, envAR := 0, envDR := 0, envSL := 0, envSR := 0, envRR := 0 }

/-- The SSG after construction (R23). -/
def Ssg.reset (P : Params) : Ssg :=
  { regs := Vector.replicate 14 0, toneCnt := Vector.replicate 3 0, sq := Vector.replicate 3 false, noiseCnt := 0
    lfsr := P.ssgLfsrInit, envCnt := 0, envCount := 0, envAttack := false, envHolding := true, queue := [] }

/-- A rhythm channel after construction (R24). -/
def RhyChannel.reset : RhyChannel :=
  { active := false, pos := 0, stop := 0, high := true, acc := 0, idx := 0, s0 := 0, s1 := 0 }

/-- A timer after construction (R25). -/
def Timer.reset : Timer := { on := false, cnt := 0, callback := none }

/-- No fault flag is set after construction (R26). -/
def FaultFlags.reset : FaultFlags :=
  { ssgQueueOverflow := false, produceReentry := false, bufferBounds := false, lockViolation := false }

/-- A register of the FM area after the FM reset sequence (R14, R190): default program 0 in the operator rows and in 0xB0 + c (its total
levels unscaled, R190), both sides in 0xB4 + c, zero elsewhere. -/
def resetFmReg (P : Params) (r : Nat) : Byte :=
  if 0x30 ≤ r ∧ r ≤ 0x8F ∧ r % 4 ≠ 3 then (P.fmDefault 0)[8 + 4 * (r / 16 - 3) + r / 4 % 4]?.getD 0
  else if 0xB0 ≤ r ∧ r ≤ 0xB2 then (P.fmDefault 0)[32]
  else if 0xB4 ≤ r ∧ r ≤ 0xB6 then 0xC0
  else 0

/-- `shadow` after construction; the same in both parts (R14, R390). -/
def resetShadow (P : Params) : RegImage := Vector.ofFn fun r => resetFmReg P r.val

/-- `chipReg` of part 0 after construction: the image of `shadow`, but for register 0x28 (R390). -/
def resetChip0 (P : Params) : RegImage := (resetShadow P).set 0x28 0x06

/-- The block right after construction (R390): every field at the value of its reset column. The host has no step waiting and no
procedure, and no result has been given. -/
def State.reset : State :=
  { chipReg := #v[resetChip0 params, resetShadow params]
    shadow := #v[resetShadow params, resetShadow params]
    fnumLatch := Vector.replicate 2 0
    fm := Vector.replicate 6 .reset
    voice := Vector.replicate 6 .reset
    fmBank := Vector.ofFn params.fmDefault
    pcmBank := Vector.replicate 32 params.pcmNull
    waves := []
    waveTotal := 0
    reservedCount := 0
    pcmRam := []
    pcm := Vector.replicate 8 .reset
    ssg := .reset params
    rhy := Vector.replicate 6 .reset
    rhyDivCnt := 0
    timerA := .reset
    timerB := .reset
    vol := Vector.replicate 16 127
    mute := Vector.replicate 16 false
    maskA := 0
    maskB := 0
    faults := .reset
    refused := false
    inProduce := false
    externalLocking := params.externalLocking
    pending := []
    hostProcs := []
    outBuffer := []
    result := none
    callbackResults := [] }

end Sys2Proof.Machine
end

