-- ==== Sys2Proof/Machine/Ops.lean ====
section
/-! DEFINITION. The named operations over memories and registers: byte order and sign (spec R9, R43), the byte memory (R40), the
register images (R14), the channels, the ways a command ends (R80, R122), and refusing a step (R365). -/

namespace Sys2Proof.Machine

/-! ## Numbers (R9) -/

/-- `sext_32` of a natural number. -/
def sext32 (n : Nat) : Int := (BitVec.ofNat 32 n).toInt

/-- `sext_16` of a natural number. -/
def sext16 (n : Nat) : Int := (BitVec.ofNat 16 n).toInt

/-- `sext_8` of a byte: the value of a PCM sample (R99). -/
def sext8 (b : Byte) : Int := b.toInt

/-- `asr(v, n)`: floor division by `2^n` (R9). -/
def asr (v : Int) (n : Nat) : Int := v / (2 ^ n : Nat)

/-- `a quot b`: division that truncates toward zero (R9). -/
def quot (a b : Int) : Int := Int.tdiv a b

/-- `clamp(v, lo, hi)` (R9). -/
def clamp (v lo hi : Int) : Int := min hi (max lo v)

/-- Bitwise AND of two's-complement integers of unbounded width (R274). -/
def intAnd : Int → Int → Int
  | .ofNat m, .ofNat n => .ofNat (m &&& n)
  | .ofNat m, .negSucc n => .ofNat (m - (m &&& n))
  | .negSucc m, .ofNat n => .ofNat (n - (n &&& m))
  | .negSucc m, .negSucc n => .negSucc (m ||| n)

/-! ## Byte order (R10, R43) -/

/-- Byte `i` of a buffer; rules check the length before they read (R10). -/
def bufByte (buf : List Byte) (i : Nat) : Byte := buf.getD i 0

/-- The bytes of a field, the least significant first. -/
def leNat : List Byte → Nat
  | [] => 0
  | b :: bs => b.toNat + 256 * leNat bs

/-- `MemRead(buf, a, n)`: little-endian unless `HEADER_BIG_ENDIAN` (R10, R43). -/
def memRead (P : Params) (buf : List Byte) (a n : Nat) : Nat :=
  let bytes := (List.range n).map fun k => bufByte buf (a + k)
  leNat (if P.headerBigEndian then bytes.reverse else bytes)

/-! ## The byte memory (R20, R40) -/

/-- The byte at an address; an unlisted address reads as zero. -/
def Memory.read (m : Memory) (a : Nat) : Byte :=
  match m with
  | [] => 0
  | (b, w) :: t => if a = b then w else Memory.read t a

/-- Write a byte, keeping the canonical form: a zero byte is not listed. -/
def Memory.write (m : Memory) (a : Nat) (v : Byte) : Memory :=
  match m with
  | [] => if v = 0 then [] else [(a, v)]
  | (b, w) :: t =>
    if a < b then (if v = 0 then (b, w) :: t else (a, v) :: (b, w) :: t)
    else if a = b then (if v = 0 then t else (a, v) :: t)
    else (b, w) :: Memory.write t a v

/-- Write bytes at rising addresses. -/
def Memory.writeBytes (m : Memory) (a : Nat) : List Byte → Memory
  | [] => m
  | v :: vs => Memory.writeBytes (Memory.write m a v) (a + 1) vs

/-- The canonical form from address `lo` on: addresses strictly rising and below 65536, no zero byte listed. -/
def Memory.wfFrom (lo : Nat) (m : Memory) : Bool :=
  match m with
  | [] => true
  | (a, v) :: t => decide (lo ≤ a) && decide (a < 65536) && decide (v ≠ 0) && Memory.wfFrom (a + 1) t

/-- The canonical form of `pcmRam`. -/
def Memory.wf (m : Memory) : Bool := Memory.wfFrom 0 m

/-! ## Register images (R14) -/

/-- A register of an image; an address past 255 names none and reads zero. -/
def RegFile.read (f : RegFile) (p : Part) (r : Nat) : Byte := f[p.val][r]?.getD 0

/-- Set a register of an image; an address past 255 names none. -/
def RegFile.write (f : RegFile) (p : Part) (r : Nat) (v : Byte) : RegFile := f.set p.val (f[p.val].setIfInBounds r v)

/-- `chipReg[p][r]` (R14). -/
def State.chip (s : State) (p : Part) (r : Nat) : Byte := RegFile.read s.chipReg p r

/-- `shadow[p][r]` (R14). -/
def State.shad (s : State) (p : Part) (r : Nat) : Byte := RegFile.read s.shadow p r

/-- `chipReg[p][r] <- v` (R300). -/
def State.setChip (s : State) (p : Part) (r : Nat) (v : Byte) : State := { s with chipReg := RegFile.write s.chipReg p r v }

/-- `shadow[p][r] <- v` (R301). -/
def State.setShad (s : State) (p : Part) (r : Nat) (v : Byte) : State := { s with shadow := RegFile.write s.shadow p r v }

/-! ## Channels -/

/-- Replace the chip state of an FM channel. -/
def State.setFm (s : State) (ch : FmCh) (c : FmChannel) : State := { s with fm := s.fm.set ch.val c }

/-- Replace the voice state of an FM channel. -/
def State.setVoice (s : State) (ch : FmCh) (v : FmVoice) : State := { s with voice := s.voice.set ch.val v }

/-- Replace a PCM channel. -/
def State.setPcm (s : State) (j : PcmCh) (c : PcmChannel) : State := { s with pcm := s.pcm.set j.val c }

/-- Replace a rhythm channel. -/
def State.setRhy (s : State) (i : RhyCh) (c : RhyChannel) : State := { s with rhy := s.rhy.set i.val c }

/-- The FM channels in index order (R10: loops run lowest first). -/
def fmChannels : List FmCh := [0, 1, 2, 3, 4, 5]

/-- The PCM channels in index order. -/
def pcmChannels : List PcmCh := [0, 1, 2, 3, 4, 5, 6, 7]

/-- The rhythm channels in index order. -/
def rhyChannels : List RhyCh := [0, 1, 2, 3, 4, 5]

/-- The SSG channels in index order. -/
def ssgChannels : List SsgCh := [0, 1, 2]

/-! ## How a command ends (R10, R80, R122) -/

/-- `return c`: end the command with a result code and no out-value. -/
def reply (rc : Rc) (s : State) : Host.Outcome State Fault Refusal := .next { s with result := some { rc := rc, out := none } }

/-- `return (0, v)`: end a query with its out-value. -/
def answer (v : Int) (s : State) : Host.Outcome State Fault Refusal := .next { s with result := some { rc := .success, out := some v } }

/-- A refusal of the spec (R365): the sticky mark is set, there is no result, nothing else changes. -/
def refuse (s : State) : State := { s with refused := true, result := none }

/-- Go on with the next state, or stop as the first step stopped. -/
def andThen (o : Host.Outcome State Fault Refusal) (f : State → Host.Outcome State Fault Refusal) : Host.Outcome State Fault Refusal :=
  match o with
  | .next s => f s
  | .fault r => .fault r
  | .refused r => .refused r

end Sys2Proof.Machine
end

