-- ==== Sys2Proof/Machine/Operands.lean ====
section
/-! DEFINITION. Operand forms: the ranges of command operands (spec R11, R84, R85), the fields of register bytes (R9, R140, R141,
R240, R270, R307), and the encodings of pan and timer values (R90, R91). -/

namespace Sys2Proof.Machine

/-! ## Command operands (R11, R84, R85) -/

/-- `x in 0..n-1`, with the number it is; every other integer, a negative one too, fails the check (R11). -/
def index? (n : Nat) (x : Int) : Option (Fin n) :=
  if h : 0 ≤ x ∧ x < n then some ⟨x.toNat, by omega⟩ else none

/-- An FM channel operand: 0..5 (R84). -/
def fmChan? (chan : Int) : Option FmCh := index? 6 chan

/-- A PCM channel operand: `j = chan − 0x40` in 0..7 (R84). -/
def pcmChan? (chan : Int) : Option PcmCh := index? 8 (chan - 0x40)

/-- An operand in 0..127: velocity, level, pan, PCM note, FM program (R85). -/
def level7? (x : Int) : Option Level7 := index? 128 x

/-- An FM note operand: 12..107, stored as note − 12 (R85, R173). -/
def fmNote? (note : Int) : Option (Fin 96) := index? 96 (note - 12)

/-- A PCM program operand: 0..31 (R85). -/
def pcmProg? (prog : Int) : Option (Fin 32) := index? 32 prog

/-- A pitch operand: −8192..8191 (R85). -/
def pitchInRange (pitch : Int) : Bool := decide (-8192 ≤ pitch) && decide (pitch ≤ 8191)

/-- The part and register operands of commands 17, 19 and 20 (R85, R303). -/
def register? (part reg : Int) : Option (Part × Nat) :=
  match index? 2 part with
  | none => none
  | some p => if 0 ≤ reg ∧ regInRange p reg.toNat then some (p, reg.toNat) else none

/-- A register byte operand: 0..255 (R85). -/
def byte? (value : Int) : Option Byte :=
  match index? 256 value with
  | none => none
  | some v => some (BitVec.ofNat 8 v.val)

/-- A lane operand: 0..15 (R85). -/
def lane? (lane : Int) : Option Lane := index? 16 lane

/-- An operand that is 0 or 1: timer enable, mute (R85). -/
def flag? (x : Int) : Option Bool := if x = 0 then some false else if x = 1 then some true else none

/-! ## Fields of bytes (R9) -/

/-- The field of `n` values whose lowest bit is bit `lo`: `v[hi:lo]` with `n = 2^(hi − lo + 1)`. -/
def field (lo n : Nat) [NeZero n] (v : Byte) : Fin n := Fin.ofNat n (v.toNat / 2 ^ lo)

/-- `v[i]`. -/
def bit (i : Nat) (v : Byte) : Bool := v.getLsbD i

/-- A byte of an FM program block (R92). -/
def FmProgram.byte (B : FmProgram) (i : Nat) : Byte := B[i]?.getD 0

/-- A byte of a PCM program block (R94). -/
def PcmProgram.byte (B : PcmProgram) (i : Nat) : Byte := B[i]?.getD 0

/-! ## FM fields (R140, R141) -/

/-- The static fields of an FM operator (R140). -/
structure OpFields where
  dt : Fin 8
  mul : Fin 16
  tl : Level7
  ks : Fin 4
  ar : Fin 32
  dr : Fin 32
  sr : Fin 32
  sl : Fin 16
  rr : Fin 16
  deriving DecidableEq, Repr

/-- The static fields of operator `op` of channel `ch`, read from `chipReg` when they are used (R140). -/
def opFields (s : State) (ch : FmCh) (op : OpSel) : OpFields :=
  let reg := fun row => s.chip (fmPart ch) (opReg row op ch)
  { dt := field 4 8 (reg 0x30)
    mul := field 0 16 (reg 0x30)
    tl := field 0 128 (reg 0x40)
    ks := field 6 4 (reg 0x50)
    ar := field 0 32 (reg 0x50)
    dr := field 0 32 (reg 0x60)
    sr := field 0 32 (reg 0x70)
    sl := field 4 16 (reg 0x80)
    rr := field 0 16 (reg 0x80) }

/-- The channel fields of an FM channel (R141). -/
structure ChFields where
  fb : Fin 8
  alg : Fin 8
  left : Bool
  right : Bool
  deriving DecidableEq, Repr

/-- The channel fields of channel `ch`, read from `chipReg` when they are used (R141). -/
def chFields (s : State) (ch : FmCh) : ChFields :=
  { fb := field 3 8 (s.chip (fmPart ch) (chReg 0xB0 ch))
    alg := field 0 8 (s.chip (fmPart ch) (chReg 0xB0 ch))
    left := bit 7 (s.chip (fmPart ch) (chReg 0xB4 ch))
    right := bit 6 (s.chip (fmPart ch) (chReg 0xB4 ch)) }

/-- The key register value of R89: the operator bits over the part and the channel-in-part. -/
def keyValue (opbits : Nat) (ch : FmCh) : Byte := BitVec.ofNat 8 (opbits * 16 + (fmPart ch).val * 4 + fmIdx ch)

/-! ## Pan (R90) -/

/-- FM pan to the bits L and R of 0xB4 + c (R90, R175). -/
def fmPanBits (pan : Level7) : Byte := if pan.val < 64 then 0x80 else if pan.val = 64 then 0xC0 else 0x40

/-- PCM pan to `panL` (R90, R210). -/
def pcmPanL (pan : Level7) : Fin 16 := Fin.ofNat 16 ((127 - pan.val) / 8)

/-- PCM pan to `panR` (R90, R210). -/
def pcmPanR (pan : Level7) : Fin 16 := Fin.ofNat 16 (pan.val / 8)

/-! ## SSG fields (R240), from the applied registers -/

/-- `tonePeriod[i]`, 12 bits. -/
def Ssg.tonePeriod (g : Ssg) (i : SsgCh) : Nat :=
  (field 0 16 (g.regs[2 * i.val + 1]?.getD 0)).val * 256 + (g.regs[2 * i.val]?.getD 0).toNat

/-- `noisePeriod`, 5 bits. -/
def Ssg.noisePeriod (g : Ssg) : Nat := (field 0 32 g.regs[6]).val

/-- `toneDis[i]`. -/
def Ssg.toneDis (g : Ssg) (i : SsgCh) : Bool := bit i.val g.regs[7]

/-- `noiseDis[i]`. -/
def Ssg.noiseDis (g : Ssg) (i : SsgCh) : Bool := bit (3 + i.val) g.regs[7]

/-- `vol[i]`, 4 bits. -/
def Ssg.vol (g : Ssg) (i : SsgCh) : Fin 16 := field 0 16 (g.regs[8 + i.val]?.getD 0)

/-- `M[i]`, envelope select. -/
def Ssg.envSelect (g : Ssg) (i : SsgCh) : Bool := bit 4 (g.regs[8 + i.val]?.getD 0)

/-- `envPeriod`, 16 bits. -/
def Ssg.envPeriod (g : Ssg) : Nat := g.regs[12].toNat * 256 + g.regs[11].toNat

/-- `CONT`. -/
def Ssg.cont (g : Ssg) : Bool := bit 3 g.regs[13]

/-- `ATT`. -/
def Ssg.att (g : Ssg) : Bool := bit 2 g.regs[13]

/-- `ALT`. -/
def Ssg.alt (g : Ssg) : Bool := bit 1 g.regs[13]

/-- `HOLD`. -/
def Ssg.hold (g : Ssg) : Bool := bit 0 g.regs[13]

/-! ## Rhythm fields (R270) -/

/-- `RTL`, the shared total level. -/
def rhyTotalLevel (s : State) : Fin 64 := field 0 64 (s.chip 0 0x11)

/-- `IL[i]`, the channel level. -/
def rhyChannelLevel (s : State) (i : RhyCh) : Fin 32 := field 0 32 (s.chip 0 (0x18 + i.val))

/-- `Lr[i]`. -/
def rhyLeft (s : State) (i : RhyCh) : Bool := bit 7 (s.chip 0 (0x18 + i.val))

/-- `Rr[i]`. -/
def rhyRight (s : State) (i : RhyCh) : Bool := bit 6 (s.chip 0 (0x18 + i.val))

/-! ## Timer values (R91, R307) -/

/-- Timer A's 10-bit value. -/
def timerAValue (s : State) : Nat := (s.chip 0 0x24).toNat * 4 + (field 0 4 (s.chip 0 0x25)).val

/-- Timer B's 8-bit value. -/
def timerBValue (s : State) : Nat := (s.chip 0 0x26).toNat

/-- `periodA`, in ticks. -/
def periodA (P : Params) (s : State) : Nat := (1024 - timerAValue s) * P.taUnit

/-- `periodB`, in ticks. -/
def periodB (P : Params) (s : State) : Nat := (256 - timerBValue s) * P.tbUnit

end Sys2Proof.Machine
end

