-- ==== Sys2Proof/Machine/Flags.lean ====
section
/-! DEFINITION. The flags: the sticky fault flags (spec R26, R362), the playing flag of an FM channel (R19) and the flags of a PCM
channel (R22, R200). -/

namespace Sys2Proof.Machine

/-! ## Fault flags: `raise F` (R10, R362). No operation clears one (R26). -/

/-- `raise F_SSG_QUEUE_OVERFLOW`. -/
def raiseSsgQueueOverflow (s : State) : State := { s with faults := { s.faults with ssgQueueOverflow := true } }

/-- `raise F_PRODUCE_REENTRY`. -/
def raiseProduceReentry (s : State) : State := { s with faults := { s.faults with produceReentry := true } }

/-- `raise F_BUFFER_BOUNDS`. -/
def raiseBufferBounds (s : State) : State := { s with faults := { s.faults with bufferBounds := true } }

/-- `raise F_LOCK_VIOLATION`. -/
def raiseLockViolation (s : State) : State := { s with faults := { s.faults with lockViolation := true } }

/-! ## The FM playing flag (R19, R173, R174) -/

/-- Set or clear bit `ch` of `fmPlaying`. -/
def State.setPlaying (s : State) (ch : FmCh) (on : Bool) : State := s.setVoice ch { s.voice[ch] with playing := on }

/-- `fmPlaying` as the 6-bit mask of R19. -/
def State.fmPlaying (s : State) : BitVec 6 :=
  BitVec.ofNat 6 ((fmChannels.map fun ch => if s.voice[ch].playing then 2 ^ ch.val else 0).sum)

/-! ## The PCM flags (R200) -/

/-- `PcmStop` on one channel: every flag but `reserved` is cleared, the envelope is off and the source is gone; the channel's
parameters are kept (R200). -/
def PcmChannel.stopped (c : PcmChannel) : PcmChannel :=
  { c with
    keyPressed := false, activeKey := false, activeEffect := false, activeOutput := false
    envState := .off, envLevel := 0, envStep := 0, src := none, pos := 0, step := 0 }

/-- `PcmStop(j)` (R200). -/
def pcmStop (j : PcmCh) (s : State) : State := s.setPcm j s.pcm[j].stopped

end Sys2Proof.Machine
end

