-- ==== Sys2Proof/Machine/FmOperator.lean ====
section
/-! DEFINITION. The FM operator pair (spec 41_fm_operator.md): envelope timing and state machine, phase, output, the pair's tick, the
key register and the frequency latch. -/

namespace Sys2Proof.Machine

/-! ## Envelope (R142 to R145) -/

/-- `kc`, the key code of a channel (R142). -/
def keyCode (P : Params) (c : FmChannel) : Fin 32 := P.keycode c.block c.fnum

/-- The base rate of an envelope state (R143); Ready has none. -/
def baseRate (f : OpFields) : EgState → Nat
  | .ready => 0
  | .attacking => f.ar.val
  | .decaying => f.dr.val
  | .sustaining => f.sr.val
  | .releasing => 2 * f.rr.val + 1

/-- The effective rate (R143): 0 for base 0, else `min(63, 2 × base + (kc >> (3 − KS)))`. -/
def effRate (f : OpFields) (kc : Fin 32) (st : EgState) : Fin 64 :=
  if baseRate f st = 0 then 0 else Fin.ofNat 64 (min 63 (2 * baseRate f st + kc.val / 2 ^ (3 - f.ks.val)))

/-- `inc`, the increment of an envelope update (R144). -/
def envInc (P : Params) (rate shift : Nat) (t : BitVec 32) : Nat := P.adt (rate + t.toNat / 2 ^ shift % 8)

/-- The update of R145 in one envelope state, with the increment `inc`. -/
def envUpdate (P : Params) (f : OpFields) (inc : Nat) (o : Operator) : Operator :=
  match o.eg with
  | .ready => o
  | .attacking =>
    let l := (max 0 (P.attackStep o.level inc)).toNat
    { o with level := l, eg := if l = 0 then (if f.sl ≠ 0 then .decaying else .sustaining) else .attacking }
  | .decaying =>
    let l := min 1023 (o.level + inc)
    { o with level := l, eg := if (P.slTarget f.sl).val ≤ l then .sustaining else .decaying }
  | .sustaining => { o with level := min 1023 (o.level + inc) }
  | .releasing =>
    let l := min 1023 (o.level + inc)
    { o with level := l, eg := if l = 1023 then .ready else .releasing }

/-- `EnvStep` (R145): the tick counter grows, and an update happens when it is a multiple of `2^shift` (R144). -/
def envStep (P : Params) (f : OpFields) (kc : Fin 32) (o : Operator) : Operator :=
  if o.eg = .ready then o
  else
    let eff := effRate f kc o.eg
    let t := o.tick + 1
    if t.toNat % 2 ^ P.shiftTab eff = 0 then envUpdate P f (envInc P (P.rateTab eff) (P.shiftTab eff) t) { o with tick := t }
    else { o with tick := t }

/-! ## Phase and output (R148 to R153) -/

/-- `phaseInc` (R148): a negative sum wraps modulo 2^32. -/
def phaseInc (P : Params) (f : OpFields) (c : FmChannel) : BitVec 32 :=
  BitVec.ofInt 32 (asr (((P.freqBase c.block c.fnum : Int) + P.dtTab f.dt (keyCode P c)) * P.mul2 f.mul) 1)

/-- The log-sine index: the top ten bits of the phase plus the modulation, modulo 1024 (R149, R150). -/
def sineIndex (phase : BitVec 32) (pm : Int) : Fin 1024 :=
  Fin.ofNat 1024 ((((phase.toNat / 2 ^ 22 : Nat) : Int) + pm) % 1024).toNat

/-- The attenuation of an operator: total level and envelope level (R150). -/
def attenuation (P : Params) (f : OpFields) (o : Operator) : Nat := f.tl.val * 2 ^ P.tlShift + o.level

/-- The output of an operator that is not Ready: silent from 832 on (R150, R151). -/
def sineOut (P : Params) (f : OpFields) (pm : Int) (o : Operator) : Int :=
  if h : attenuation P f o < 832 then P.sinlog (sineIndex o.phase pm) ⟨attenuation P f o, h⟩ else 0

/-- `OpOut` (R150): the output from the phase before its advance. A Ready operator outputs 0 and keeps its phase. -/
def opOut (P : Params) (f : OpFields) (c : FmChannel) (pm : Int) (o : Operator) : Operator :=
  if o.eg = .ready then { o with out := 0 }
  else { o with out := sineOut P f pm o, phase := o.phase + phaseInc P f c }

/-- `pm1`, the feedback of operator 1 (R152). -/
def feedback (P : Params) (cf : ChFields) (c : FmChannel) : Int :=
  if cf.fb = 0 then 0 else asr (c.fb0 + c.fb1) (P.fbShift cf.fb)

/-- `pm2`, the modulation of operator 2 by operator 1's output of this tick (R153). -/
def modulation (P : Params) (cf : ChFields) (out1 : Int) : Int :=
  match P.connect cf.alg with
  | .serial => asr out1 P.modShift
  | .parallel => 0

/-! ## The channel tick (R154) -/

/-- A stereo contribution. -/
structure Stereo where
  left : Int
  right : Int
  deriving DecidableEq, Repr

/-- One tick of an operator: `EnvStep`, then `OpOut` with the phase modulation `pm` (R154). -/
def opTick (P : Params) (f : OpFields) (c : FmChannel) (pm : Int) (o : Operator) : Operator :=
  opOut P f c pm (envStep P f (keyCode P c) o)

/-- The pair's state after one tick (R154). -/
def fmChannelNext (P : Params) (f1 f2 : OpFields) (cf : ChFields) (c : FmChannel) : FmChannel :=
  let o1 := opTick P f1 c (feedback P cf c) c.op1
  let o2 := opTick P f2 c (modulation P cf o1.out) c.op2
  { c with op1 := o1, op2 := o2, fb0 := c.fb1, fb1 := o1.out }

/-- The channel's contribution, from the pair's state after the tick (R154). -/
def fmChannelOut (P : Params) (cf : ChFields) (c : FmChannel) : Stereo :=
  let y := match P.connect cf.alg with
    | .serial => c.op2.out
    | .parallel => c.op1.out + c.op2.out
  { left := if cf.left then y else 0, right := if cf.right then y else 0 }

/-- `FmChannelTick(ch)`: the state part (R154). No other channel and no register takes part in it. -/
def fmChannelTick (P : Params) (ch : FmCh) (s : State) : State :=
  s.setFm ch (fmChannelNext P (opFields s ch .op1) (opFields s ch .op2) (chFields s ch) s.fm[ch])

/-- Step 3 of a tick: the six channels in order (R331). -/
def fmTick (P : Params) (s : State) : State := fmChannels.foldl (fun s ch => fmChannelTick P ch s) s

/-- `(fmL[ch], fmR[ch])` after step 3 (R154). -/
def fmOut (P : Params) (s : State) (ch : FmCh) : Stereo := fmChannelOut P (chFields s ch) s.fm[ch]

/-! ## The key register (R155) -/

/-- The effect of one key bit on its operator: an edge starts the attack with phase 0, or the release unless Ready (R155). -/
def keyBit (on : Bool) (o : Operator) : Operator :=
  if on && !o.key then { o with eg := .attacking, phase := 0, key := on }
  else if !on && o.key && decide (o.eg ≠ .ready) then { o with eg := .releasing, key := on }
  else { o with key := on }

/-- `KeyWrite(v)` (R155). -/
def keyWrite (v : Byte) (s : State) : State :=
  let c := field 0 4 v
  if c = 3 then s
  else
    let ch : FmCh := Fin.ofNat 6 ((if bit 2 v then 3 else 0) + c.val)
    s.setFm ch { s.fm[ch] with op1 := keyBit (bit 4 v) s.fm[ch].op1, op2 := keyBit (bit 7 v) s.fm[ch].op2 }

/-! ## The frequency latch (R157) -/

/-- A write of 0xA4 + c: the latch of the part (R157). -/
def latchWrite (p : Part) (v : Byte) (s : State) : State :=
  { s with fnumLatch := s.fnumLatch.set p.val (BitVec.ofNat 6 v.toNat) }

/-- A write of 0xA0 + c: block and fnum of channel 3p + c from the latch and the value (R157). -/
def freqLoad (p : Part) (c : Nat) (v : Byte) (s : State) : State :=
  let ch := fmChannel p c
  let latch := s.fnumLatch[p].toNat
  s.setFm ch { s.fm[ch] with block := Fin.ofNat 8 (latch / 8), fnum := Fin.ofNat 2048 (latch % 8 * 256 + v.toNat) }

end Sys2Proof.Machine
end

