-- ==== Sys2Proof/Machine/Rhythm.lean ====
section
/-! DEFINITION. The ADPCM rhythm channels (spec 45_rhythm.md): key control, the decoder, the level rescale, the output. -/

namespace Sys2Proof.Machine

/-! ## Key control (R271) -/

/-- A channel right after a key-on: at its start offset with a cleared decoder (R271). -/
def rhyStarted (P : Params) (i : RhyCh) : RhyChannel :=
  { active := true, pos := P.rhyStart i, stop := P.rhyEnd i, high := true, acc := 0, idx := 0, s0 := 0, s1 := 0 }

/-- The effect of a key write on channel `i` (R271). -/
def rhyKey (P : Params) (v : Byte) (s : State) (i : RhyCh) : State :=
  if bit i.val v then s.setRhy i (if bit 7 v then { s.rhy[i] with active := false } else rhyStarted P i) else s

/-- `RhyKeyWrite(v)` (R271). -/
def rhyKeyWrite (P : Params) (v : Byte) (s : State) : State := rhyChannels.foldl (rhyKey P v) s

/-! ## The decoder (R272, R273) -/

/-- `d`, the size of a nibble's delta (R272). -/
def rhyDelta (P : Params) (idx : Fin 49) (m : Fin 8) : Nat := P.rhyStep idx * (2 * m.val + 1) / 8

/-- The decoder's step for the nibble `x` (R272): accumulator, index and the two recent samples. -/
def rhyNibble (P : Params) (x : Fin 16) (c : RhyChannel) : RhyChannel :=
  let m : Fin 8 := Fin.ofNat 8 x.val
  let d : Int := rhyDelta P c.idx m
  let acc := clamp (c.acc + (if 8 ≤ x.val then -d else d)) (-2048) 2047
  { c with
    acc := acc
    idx := Fin.ofNat 49 (clamp ((c.idx.val : Int) + P.rhyAdj m) 0 48).toNat
    s0 := c.s1
    s1 := acc }

/-- `RhyDecode(i)` (R272): at the end offset the channel stops; otherwise one nibble, the high one of a byte first. -/
def rhyDecode (P : Params) (c : RhyChannel) : RhyChannel :=
  if c.stop ≤ c.pos then { c with active := false }
  else
    let b := P.rhyRom.getD c.pos 0
    rhyNibble P (if c.high then field 4 16 b else field 0 16 b)
      { c with pos := if c.high then c.pos else c.pos + 1, high := !c.high }

/-- Decode one nibble of channel `i` if it is active (R273). -/
def rhyDecodeActive (P : Params) (s : State) (i : RhyCh) : State :=
  if s.rhy[i].active then s.setRhy i (rhyDecode P s.rhy[i]) else s

/-- The divider and decodes of a tick (R273, R276). -/
def rhyTick (P : Params) (s : State) : State :=
  if P.rhyDiv ≤ s.rhyDivCnt + 1 then rhyChannels.foldl (rhyDecodeActive P) { s with rhyDivCnt := 0 }
  else { s with rhyDivCnt := s.rhyDivCnt + 1 }

/-! ## Output (R274, R275) -/

/-- `RESCALE(i, s)` at the attenuation of the channel (R274). -/
def rhyRescale (P : Params) (rtl : Fin 64) (il : Fin 32) (x : Int) : Int :=
  match P.rhyLevel (P.rhyAtten rtl il) with
  | none => 0
  | some k => intAnd (asr (x * k.mul) k.shift) k.mask

/-- `y[i]` (R275). -/
def rhyMono (P : Params) (rtl : Fin 64) (il : Fin 32) (c : RhyChannel) : Int :=
  if c.active then quot (rhyRescale P rtl il c.s0 + rhyRescale P rtl il c.s1) 2 else 0

/-- `(rhyL[i], rhyR[i])` after step 6 (R275). -/
def rhyOut (P : Params) (s : State) (i : RhyCh) : Stereo :=
  let y := rhyMono P (rhyTotalLevel s) (rhyChannelLevel s i) s.rhy[i]
  { left := if rhyLeft s i then y else 0, right := if rhyRight s i then y else 0 }

end Sys2Proof.Machine
end

