-- ==== Sys2Proof/Machine/Ssg.lean ====
section
/-! DEFINITION. The square/noise generator (spec 44_ssg.md): the write queue, the tone, noise and envelope counters, the output. -/

namespace Sys2Proof.Machine

/-! ## The write queue (R241) -/

/-- `SsgEnqueue(r, v)`: a full queue drops the entry and raises the sticky fault (R241). -/
def ssgEnqueue (P : Params) (r : Fin 14) (v : Byte) (s : State) : State :=
  if s.ssg.queue.length = P.ssgQueueCap then raiseSsgQueueOverflow s
  else { s with ssg := { s.ssg with queue := s.ssg.queue ++ [(r, v)] } }

/-- `EnvRestart()` (R244). -/
def Ssg.envRestart (g : Ssg) : Ssg := { g with envCount := 31, envAttack := g.att, envHolding := false, envCnt := 0 }

/-- One drained write: the applied register takes the value, and register 13 restarts the envelope (R241). -/
def Ssg.apply (g : Ssg) (w : Fin 14 × Byte) : Ssg :=
  let g' := { g with regs := g.regs.set w.1.val w.2 }
  if w.1 = 13 then g'.envRestart else g'

/-- `SsgDrain()`: every queued write, oldest first; then the queue is empty (R241). -/
def Ssg.drain (g : Ssg) : Ssg := { g.queue.foldl Ssg.apply g with queue := [] }

/-- Step 1 of a tick (R331). -/
def ssgDrain (s : State) : State := { s with ssg := s.ssg.drain }

/-! ## Tone, noise, envelope (R242 to R244) -/

/-- The tone step of channel `i` (R242). -/
def Ssg.toneStep (P : Params) (g : Ssg) (i : SsgCh) : Ssg :=
  let n := g.toneCnt[i] + 1
  if max 1 (g.tonePeriod i) * P.ssgToneUnit ≤ n then
    { g with toneCnt := g.toneCnt.set i.val 0, sq := g.sq.set i.val (!g.sq[i]) }
  else { g with toneCnt := g.toneCnt.set i.val n }

/-- One step of the noise shift register (R243). -/
def lfsrStep (l : BitVec 17) : BitVec 17 :=
  (l >>> 1) ||| (if Bool.xor (l.getLsbD 0) (l.getLsbD 3) then 0x10000 else 0)

/-- The noise step (R243). -/
def Ssg.noiseStep (P : Params) (g : Ssg) : Ssg :=
  let n := g.noiseCnt + 1
  if max 1 g.noisePeriod * P.ssgNoiseUnit ≤ n then { g with noiseCnt := 0, lfsr := lfsrStep g.lfsr }
  else { g with noiseCnt := n }

/-- `EnvStepCycle()`: once per envelope period (R244). -/
def Ssg.envCycle (g : Ssg) : Ssg :=
  if g.envCount ≠ 0 then { g with envCount := Fin.ofNat 32 (g.envCount.val - 1) }
  else if !g.cont then { g with envHolding := true, envAttack := false }
  else if g.hold then { g with envHolding := true, envAttack := if g.alt then !g.envAttack else g.envAttack }
  else { g with envCount := 31, envAttack := if g.alt then !g.envAttack else g.envAttack }

/-- The envelope period step of a tick, while the envelope is not holding (R244, R246). -/
def Ssg.envPeriodStep (P : Params) (g : Ssg) : Ssg :=
  if g.envHolding then g
  else
    let n := g.envCnt + 1
    if max 1 g.envPeriod * P.ssgEnvUnit ≤ n then Ssg.envCycle { g with envCnt := 0 } else { g with envCnt := n }

/-- `envLvl` (R244). -/
def Ssg.envLvl (g : Ssg) : Fin 32 := if g.envAttack then Fin.ofNat 32 (31 - g.envCount.val) else g.envCount

/-! ## Output (R245, R246) -/

/-- `gate[i]` (R245). -/
def Ssg.gate (g : Ssg) (i : SsgCh) : Bool := (g.sq[i] || g.toneDis i) && (g.lfsr.getLsbD 0 || g.noiseDis i)

/-- `amp[i]` (R245). -/
def Ssg.amp (P : Params) (g : Ssg) (i : SsgCh) : Nat := if g.envSelect i then P.ssgEnvTab g.envLvl else P.ssgVolTab (g.vol i)

/-- `ssgOut` (R245). -/
def Ssg.out (P : Params) (g : Ssg) : Int :=
  (((ssgChannels.map fun i => if g.gate i then Ssg.amp P g i else 0).sum : Nat) : Int)

/-- The counters' part of `SsgTick()`: tones, noise, envelope (R246). -/
def Ssg.tick (P : Params) (g : Ssg) : Ssg :=
  Ssg.envPeriodStep P (Ssg.noiseStep P (ssgChannels.foldl (Ssg.toneStep P) g))

/-- Step 5 of a tick (R331). -/
def ssgTick (P : Params) (s : State) : State := { s with ssg := Ssg.tick P s.ssg }

end Sys2Proof.Machine
end

