-- ==== Sys2Proof/Machine/Registers.lean ====
section
/-! DEFINITION. Register access and timers (spec 46_registers_timers.md): the two write operations, the effect of each register, the
meanings of codes 17 and 19 to 24. -/

namespace Sys2Proof.Machine

/-! ## Write operations (R300 to R302) -/

/-- `RegEffect(p, r, v)` (R302): a register without an entry has no effect of its own. -/
def regEffect (P : Params) (p : Part) (r : Nat) (v : Byte) (s : State) : State :=
  if p = 0 ∧ r ≤ 0x0D then ssgEnqueue P (Fin.ofNat 14 r) v s
  else if p = 0 ∧ r = 0x10 then rhyKeyWrite P v s
  else if p = 0 ∧ r = 0x28 then keyWrite v s
  else if 0xA4 ≤ r ∧ r ≤ 0xA6 then latchWrite p v s
  else if 0xA0 ≤ r ∧ r ≤ 0xA2 then freqLoad p (r - 0xA0) v s
  else s

/-- `writeRaw(p, r, v)` (R300): the chip register, then its effect; `shadow` is not touched. -/
def writeRaw (P : Params) (p : Part) (r : Nat) (v : Byte) (s : State) : State := regEffect P p r v (s.setChip p r v)

/-- `writeShadowed(p, r, v)` (R301): the shadow, then a raw write. -/
def writeShadowed (P : Params) (p : Part) (r : Nat) (v : Byte) (s : State) : State := writeRaw P p r v (s.setShad p r v)

/-! ## Register commands (R303 to R305)

The host names a register by an address of `REG_MAP`: `P.regMap` gives the row of R15 that the address selects, and turns the byte into
R15's layout and back. Commands that write registers of their own name rows. -/

/-- `WriteRegister` (R303). -/
def writeRegister (P : Params) (part reg value : Int) (s : State) : Host.Outcome State Fault Refusal :=
  match register? part reg, byte? value with
  | some a, some v => reply .success (writeRaw P (P.regMap.row a).1 (P.regMap.row a).2 (P.regMap.layout a v) s)
  | _, _ => reply .badValue s

/-- `WriteRegisterBuffered` (R304). -/
def writeRegisterBuffered (P : Params) (part reg value : Int) (s : State) : Host.Outcome State Fault Refusal :=
  match register? part reg, byte? value with
  | some a, some v => reply .success (writeShadowed P (P.regMap.row a).1 (P.regMap.row a).2 (P.regMap.layout a v) s)
  | _, _ => reply .badValue s

/-- `ReadRegisterBuffered` (R305): the shadow byte, and no change. -/
def readRegisterBuffered (P : Params) (part reg : Int) (s : State) : Host.Outcome State Fault Refusal :=
  match register? part reg with
  | some a => answer ((P.regMap.layout a).symm (s.shad (P.regMap.row a).1 (P.regMap.row a).2)).toNat s
  | none => reply .badValue s

/-- `WRREG` (code 17, R303). -/
def execWrreg (part reg value : Int) (s : State) : Host.Outcome State Fault Refusal := writeRegister params part reg value s

/-- `WRREGB` (code 19, R304). -/
def execWrregb (part reg value : Int) (s : State) : Host.Outcome State Fault Refusal := writeRegisterBuffered params part reg value s

/-- `RDREGB` (code 20, R305). -/
def execRdregb (part reg : Int) (s : State) : Host.Outcome State Fault Refusal := readRegisterBuffered params part reg s

/-! ## Timers (R308 to R310) -/

/-- The two buffered writes of a Timer A value (R91, R308): bits 7-2 of register 0x25 keep their shadow value. -/
def writeTimerA (P : Params) (v : Nat) (s : State) : State :=
  let s1 := writeShadowed P 0 0x24 (BitVec.ofNat 8 (v / 4)) s
  writeShadowed P 0 0x25 ((s1.shad 0 0x25 &&& 0xFC) ||| BitVec.ofNat 8 (v % 4)) s1

/-- `SETTA` (code 21, R308). -/
def execSetta (value : Int) (s : State) : Host.Outcome State Fault Refusal :=
  match index? 1024 value with
  | some v => reply .success (writeTimerA params v.val s)
  | none => reply .badValue s

/-- `SETTB` (code 22, R309). -/
def execSettb (value : Int) (s : State) : Host.Outcome State Fault Refusal :=
  match byte? value with
  | some v => reply .success (writeShadowed params 0 0x26 v s)
  | none => reply .badValue s

/-- `EnableTimer` on one timer (R310): enabling restarts the count, disabling keeps it. -/
def Timer.enable (on : Bool) (t : Timer) : Timer := if on then { t with on := true, cnt := 0 } else { t with on := false }

/-- `ENTA` (code 23, R310). -/
def execEnta (on : Int) (s : State) : Host.Outcome State Fault Refusal :=
  match flag? on with
  | some b => reply .success { s with timerA := Timer.enable b s.timerA }
  | none => reply .badValue s

/-- `ENTB` (code 24, R310). -/
def execEntb (on : Int) (s : State) : Host.Outcome State Fault Refusal :=
  match flag? on with
  | some b => reply .success { s with timerB := Timer.enable b s.timerB }
  | none => reply .badValue s

/-! ## Level 2: a chip register write by itself (D1, R87, R300)

Each is the raw write of R300 to the address that the map of R15 gives its row. A level-2 write has no result. -/

/-- Part 0, 0x00 + 2i. -/
def execSsgToneLow (i : SsgCh) (v : Byte) (s : State) : Host.Outcome State Fault Refusal := .next (writeRaw params 0 (0x00 + 2 * i.val) v s)

/-- Part 0, 0x01 + 2i. -/
def execSsgToneHigh (i : SsgCh) (v : Byte) (s : State) : Host.Outcome State Fault Refusal := .next (writeRaw params 0 (0x01 + 2 * i.val) v s)

/-- Part 0, 0x06. -/
def execSsgNoisePeriod (v : Byte) (s : State) : Host.Outcome State Fault Refusal := .next (writeRaw params 0 0x06 v s)

/-- Part 0, 0x07. -/
def execSsgEnable (v : Byte) (s : State) : Host.Outcome State Fault Refusal := .next (writeRaw params 0 0x07 v s)

/-- Part 0, 0x08 + i. -/
def execSsgLevel (i : SsgCh) (v : Byte) (s : State) : Host.Outcome State Fault Refusal := .next (writeRaw params 0 (0x08 + i.val) v s)

/-- Part 0, 0x0B and 0x0C. -/
def execSsgEnvPeriod (high : Bool) (v : Byte) (s : State) : Host.Outcome State Fault Refusal :=
  .next (writeRaw params 0 (if high then 0x0C else 0x0B) v s)

/-- Part 0, 0x0D. -/
def execSsgEnvShape (v : Byte) (s : State) : Host.Outcome State Fault Refusal := .next (writeRaw params 0 0x0D v s)

/-- Part 0, 0x10. -/
def execRhythmKey (v : Byte) (s : State) : Host.Outcome State Fault Refusal := .next (writeRaw params 0 0x10 v s)

/-- Part 0, 0x11. -/
def execRhythmTotalLevel (v : Byte) (s : State) : Host.Outcome State Fault Refusal := .next (writeRaw params 0 0x11 v s)

/-- Part 0, 0x18 + i. -/
def execRhythmChannelLevel (i : RhyCh) (v : Byte) (s : State) : Host.Outcome State Fault Refusal :=
  .next (writeRaw params 0 (0x18 + i.val) v s)

/-- Part 0, 0x24. -/
def execTimerAHigh (v : Byte) (s : State) : Host.Outcome State Fault Refusal := .next (writeRaw params 0 0x24 v s)

/-- Part 0, 0x25. -/
def execTimerALow (v : Byte) (s : State) : Host.Outcome State Fault Refusal := .next (writeRaw params 0 0x25 v s)

/-- Part 0, 0x26. -/
def execTimerB (v : Byte) (s : State) : Host.Outcome State Fault Refusal := .next (writeRaw params 0 0x26 v s)

/-- Part 0, 0x28. -/
def execFmKey (v : Byte) (s : State) : Host.Outcome State Fault Refusal := .next (writeRaw params 0 0x28 v s)

/-- 0x30 + s + c. -/
def execFmDtMul (ch : FmCh) (op : OpSel) (v : Byte) (s : State) : Host.Outcome State Fault Refusal :=
  .next (writeRaw params (fmPart ch) (opReg 0x30 op ch) v s)

/-- 0x40 + s + c. -/
def execFmTl (ch : FmCh) (op : OpSel) (v : Byte) (s : State) : Host.Outcome State Fault Refusal :=
  .next (writeRaw params (fmPart ch) (opReg 0x40 op ch) v s)

/-- 0x50 + s + c. -/
def execFmKsAr (ch : FmCh) (op : OpSel) (v : Byte) (s : State) : Host.Outcome State Fault Refusal :=
  .next (writeRaw params (fmPart ch) (opReg 0x50 op ch) v s)

/-- 0x60 + s + c. -/
def execFmAmDr (ch : FmCh) (op : OpSel) (v : Byte) (s : State) : Host.Outcome State Fault Refusal :=
  .next (writeRaw params (fmPart ch) (opReg 0x60 op ch) v s)

/-- 0x70 + s + c. -/
def execFmSr (ch : FmCh) (op : OpSel) (v : Byte) (s : State) : Host.Outcome State Fault Refusal :=
  .next (writeRaw params (fmPart ch) (opReg 0x70 op ch) v s)

/-- 0x80 + s + c. -/
def execFmSlRr (ch : FmCh) (op : OpSel) (v : Byte) (s : State) : Host.Outcome State Fault Refusal :=
  .next (writeRaw params (fmPart ch) (opReg 0x80 op ch) v s)

/-- 0xA0 + c. -/
def execFmFnumLow (ch : FmCh) (v : Byte) (s : State) : Host.Outcome State Fault Refusal :=
  .next (writeRaw params (fmPart ch) (chReg 0xA0 ch) v s)

/-- 0xA4 + c. -/
def execFmBlockFnumHigh (ch : FmCh) (v : Byte) (s : State) : Host.Outcome State Fault Refusal :=
  .next (writeRaw params (fmPart ch) (chReg 0xA4 ch) v s)

/-- 0xB0 + c. -/
def execFmFbAlg (ch : FmCh) (v : Byte) (s : State) : Host.Outcome State Fault Refusal :=
  .next (writeRaw params (fmPart ch) (chReg 0xB0 ch) v s)

/-- 0xB4 + c. -/
def execFmPan (ch : FmCh) (v : Byte) (s : State) : Host.Outcome State Fault Refusal :=
  .next (writeRaw params (fmPart ch) (chReg 0xB4 ch) v s)

/-- Any other register: stored, no effect. -/
def execStoredOnly (p : Part) (r : Nat) (v : Byte) (s : State) : Host.Outcome State Fault Refusal := .next (writeRaw params p r v s)

end Sys2Proof.Machine
end

