-- ==== Sys2Proof/Machine/FmVoice.lean ====
section
/-! DEFINITION. The FM voice engine (spec 42_fm_voice.md): note to frequency, total level scaling, the FM route of the shared commands,
the FM-only commands, the FM reset. -/

namespace Sys2Proof.Machine

/-! ## Helpers (R170 to R172) -/

/-- The block and the fnum, before the final clamp, that `FmFreq` finds for a note other than 0 (R170). -/
def fmFreqShifted (P : Params) (b : Nat) (f : Int) : Nat × Int :=
  if f < P.freqFloor then (if b = 0 then (b, (P.freqFloor : Int)) else (b - 1, f + P.freqFloor))
  else if (P.freqCeil : Int) < f then (if b = 7 then (b, (P.freqCeil : Int)) else (b + 1, f - P.freqFloor))
  else (b, f)

/-- `FmFreq(n, pitch)`: block and fnum (R170). -/
def fmFreq (P : Params) (n : Fin 96) (pitch : Int) : Nat × Nat :=
  if n.val = 0 then (0, P.freqFloor)
  else
    let bf := fmFreqShifted P ((n.val - 1) / 12) ((P.fnumTab (Fin.ofNat 12 (n.val - 1)) : Int) + P.pitchScale pitch)
    (bf.1, (clamp bf.2 P.freqFloor P.freqCeil).toNat)

/-- `FmWriteFreq(ch)`: the high register first (R171). -/
def fmWriteFreq (P : Params) (ch : FmCh) (s : State) : State :=
  let bf := fmFreq P s.voice[ch].note s.voice[ch].pitch
  writeShadowed P (fmPart ch) (chReg 0xA0 ch) (BitVec.ofNat 8 bf.2)
    (writeShadowed P (fmPart ch) (chReg 0xA4 ch) (BitVec.ofNat 8 (bf.1 * 8 + bf.2 / 256)) s)

/-- A total level byte scaled by velocity and level; bit 7 is kept (R172). -/
def scaledTl (P : Params) (t : Byte) (velocity level : Level7) : Byte :=
  (t &&& 0x80) ||| BitVec.ofNat 8 (P.tlScale (field 0 128 t) velocity level).val

/-- The slots 0 and 3 of the two operators (R92, R172). -/
def operatorSlots : List Nat := [0, 3]

/-- `FmWriteTL(ch)` (R172). -/
def fmWriteTl (P : Params) (ch : FmCh) (s : State) : State :=
  let v := s.voice[ch]
  operatorSlots.foldl
    (fun s j => writeShadowed P (fmPart ch) (0x40 + 4 * j + fmIdx ch)
      (scaledTl P (FmProgram.byte s.fmBank[v.program] (12 + j)) v.velocity v.level) s) s

/-- The raw key-off write of R89. -/
def fmKeyOffWrite (P : Params) (ch : FmCh) (s : State) : State := writeRaw P 0 0x28 (keyValue 0 ch) s

/-- The raw key-on write of R89: both operators. -/
def fmKeyOnWrite (P : Params) (ch : FmCh) (s : State) : State := writeRaw P 0 0x28 (keyValue 9 ch) s

/-- "Writes the buffered sustain level": each operator's 0x80-row register again, from the shadow (R173, D46). -/
def fmRewriteSustain (P : Params) (ch : FmCh) (s : State) : State :=
  operatorSlots.foldl
    (fun s j => writeShadowed P (fmPart ch) (0x80 + 4 * j + fmIdx ch) (s.shad (fmPart ch) (0x80 + 4 * j + fmIdx ch)) s) s

/-! ## The effects of the commands, after their checks -/

/-- `FmKeyOn` past its checks (R173). -/
def fmKeyOnEffect (P : Params) (ch : FmCh) (note : Fin 96) (vel : Level7) (s : State) : State :=
  fmRewriteSustain P ch
    (fmKeyOnWrite P ch
      (fmKeyOffWrite P ch
        (fmWriteTl P ch
          (fmWriteFreq P ch (s.setVoice ch { s.voice[ch] with playing := true, note := note, velocity := vel })))))

/-- `FmKeyOff` past its check (R174). -/
def fmKeyOffEffect (P : Params) (ch : FmCh) (s : State) : State := fmKeyOffWrite P ch (s.setPlaying ch false)

/-- `FmSetPan` past its checks (R175). -/
def fmSetPanEffect (P : Params) (ch : FmCh) (pan : Level7) (s : State) : State :=
  writeShadowed P (fmPart ch) (chReg 0xB4 ch) (fmPanBits pan ||| (s.shad (fmPart ch) (chReg 0xB4 ch) &&& 0x3F)) s

/-- The rows of an FM program block: register row and first byte (R92, R176). -/
def programRows : List (Nat × Nat) := [(0x30, 8), (0x40, 12), (0x50, 16), (0x60, 20), (0x70, 24), (0x80, 28)]

/-- The byte set-instrument writes to slot `j` of a row: total levels of the operators are scaled (R176). -/
def programByte (P : Params) (B : FmProgram) (v : FmVoice) (row base j : Nat) : Byte :=
  if row = 0x40 ∧ (j = 0 ∨ j = 3) then scaledTl P (FmProgram.byte B (base + j)) v.velocity v.level else FmProgram.byte B (base + j)

/-- The register writes of `FmSetInst` (R176): row by row, slot 0 to 3, then FB/ALG. -/
def fmWriteProgram (P : Params) (ch : FmCh) (B : FmProgram) (v : FmVoice) (s : State) : State :=
  writeShadowed P (fmPart ch) (chReg 0xB0 ch) B[32]
    (programRows.foldl
      (fun s rb => [0, 1, 2, 3].foldl
        (fun s j => writeShadowed P (fmPart ch) (rb.1 + 4 * j + fmIdx ch) (programByte P B v rb.1 rb.2 j) s) s) s)

/-- `FmSetInst` past its checks (R176). -/
def fmSetInstEffect (P : Params) (ch : FmCh) (prog : Fin 128) (s : State) : State :=
  fmWriteProgram P ch s.fmBank[prog] s.voice[ch] (s.setVoice ch { s.voice[ch] with program := prog })

/-- `FmSetPitch` past its checks (R178). -/
def fmSetPitchEffect (P : Params) (ch : FmCh) (pitch : Int) (s : State) : State :=
  fmWriteFreq P ch (s.setVoice ch { s.voice[ch] with pitch := pitch })

/-- `FmSetLevel` past its checks (R179). -/
def fmSetLevelEffect (P : Params) (ch : FmCh) (level : Level7) (s : State) : State :=
  fmWriteTl P ch (s.setVoice ch { s.voice[ch] with level := level })

/-- An operator silenced at once (R180). -/
def Operator.silenced (o : Operator) : Operator := { o with eg := .ready, level := 1023 }

/-- Both operators of a channel silenced (R180). -/
def fmSilence (ch : FmCh) (s : State) : State :=
  s.setFm ch { s.fm[ch] with op1 := s.fm[ch].op1.silenced, op2 := s.fm[ch].op2.silenced }

/-- `FmChOff` past its check (R180). -/
def fmChOffEffect (P : Params) (ch : FmCh) (s : State) : State := fmSilence ch (fmKeyOffWrite P ch (s.setPlaying ch false))

/-! ## The handlers: checks in order, then the effect (R121, R173 to R180) -/

/-- `FmKeyOn` (R173). -/
def fmKeyOn (P : Params) (chan note vel : Int) (s : State) : Host.Outcome State Fault Refusal :=
  match fmChan? chan with
  | none => reply .badChannel s
  | some ch =>
    match fmNote? note with
    | none => reply .badValue s
    | some n =>
      match level7? vel with
      | none => reply .badValue s
      | some v => if s.voice[ch].playing then reply .busy s else reply .success (fmKeyOnEffect P ch n v s)

/-- `FmKeyOff` (R174). -/
def fmKeyOff (P : Params) (chan : Int) (s : State) : Host.Outcome State Fault Refusal :=
  match fmChan? chan with
  | none => reply .badChannel s
  | some ch => reply .success (fmKeyOffEffect P ch s)

/-- `FmSetPan` (R175). -/
def fmSetPan (P : Params) (chan pan : Int) (s : State) : Host.Outcome State Fault Refusal :=
  match fmChan? chan with
  | none => reply .badChannel s
  | some ch =>
    match level7? pan with
    | none => reply .badValue s
    | some p => reply .success (fmSetPanEffect P ch p s)

/-- `FmSetInst` (R176). -/
def fmSetInst (P : Params) (chan prog : Int) (s : State) : Host.Outcome State Fault Refusal :=
  match fmChan? chan with
  | none => reply .badChannel s
  | some ch =>
    match level7? prog with
    | none => reply .badValue s
    | some p => reply .success (fmSetInstEffect P ch p s)

/-- The first 48 bytes of a buffer (R177). -/
def fmProgramOf (data : List Byte) : FmProgram := Vector.ofFn fun k => bufByte data k.val

/-- `FmLoadInst` (R177). -/
def fmLoadInst (prog : Int) (data : List Byte) (s : State) : Host.Outcome State Fault Refusal :=
  match level7? prog with
  | none => reply .badValue s
  | some p =>
    if data.length < 48 then reply .emptyData s
    else reply .success { s with fmBank := s.fmBank.set p.val (fmProgramOf data) }

/-- `FmSetPitch` (R178). -/
def fmSetPitch (P : Params) (chan pitch : Int) (s : State) : Host.Outcome State Fault Refusal :=
  match fmChan? chan with
  | none => reply .badChannel s
  | some ch => if pitchInRange pitch then reply .success (fmSetPitchEffect P ch pitch s) else reply .badValue s

/-- `FmSetLevel` (R179). -/
def fmSetLevel (P : Params) (chan level : Int) (s : State) : Host.Outcome State Fault Refusal :=
  match fmChan? chan with
  | none => reply .badChannel s
  | some ch =>
    match level7? level with
    | none => reply .badValue s
    | some l => reply .success (fmSetLevelEffect P ch l s)

/-- `FmChOff` (R180). -/
def fmChOff (P : Params) (chan : Int) (s : State) : Host.Outcome State Fault Refusal :=
  match fmChan? chan with
  | none => reply .badChannel s
  | some ch => reply .success (fmChOffEffect P ch s)

/-! ## FM reset (R190) -/

/-- The voice, chip and bank fields of `FmReset`, before its register writes (R190). -/
def fmClear (P : Params) (s : State) : State :=
  { s with
    voice := Vector.replicate 6 .reset
    fmBank := Vector.ofFn P.fmDefault
    fm := Vector.replicate 6 .reset
    fnumLatch := Vector.replicate 2 0 }

/-- The FM area of part 0 that `FmReset` zeroes: 0x20..0xB6 without the timer registers 0x24..0x27 (R190). -/
def fmArea0 : List Nat := List.range' 0x20 4 ++ List.range' 0x28 0x8F

/-- The FM area of part 1: 0x30..0xB6 (R190). -/
def fmArea1 : List Nat := List.range' 0x30 0x87

/-- Buffered zero writes to the registers listed, in order (R190). -/
def zeroRegs (P : Params) (p : Part) (regs : List Nat) (s : State) : State := regs.foldl (fun s r => writeShadowed P p r 0 s) s

/-- The last loop of `FmReset` on one channel: key-off, program 0, both sides (R190). -/
def fmResetChannel (P : Params) (s : State) (ch : FmCh) : State :=
  writeShadowed P (fmPart ch) (chReg 0xB4 ch) 0xC0 (fmSetInstEffect P ch 0 (fmKeyOffWrite P ch s))

/-- `FmReset()` (R190). -/
def fmReset (P : Params) (s : State) : State :=
  fmChannels.foldl (fmResetChannel P) (zeroRegs P 1 fmArea1 (zeroRegs P 0 fmArea0 (fmClear P s)))

/-! ## The meanings -/

/-- `KEYON`, FM route (R173). -/
def execKeyonFm (chan note vel : Int) (s : State) : Host.Outcome State Fault Refusal := fmKeyOn params chan note vel s

/-- `KEYOFF`, FM route (R174). -/
def execKeyoffFm (chan : Int) (s : State) : Host.Outcome State Fault Refusal := fmKeyOff params chan s

/-- `SETPAN`, FM route (R175). -/
def execSetpanFm (chan pan : Int) (s : State) : Host.Outcome State Fault Refusal := fmSetPan params chan pan s

/-- `SETINST`, FM route (R176). -/
def execSetinstFm (chan prog : Int) (s : State) : Host.Outcome State Fault Refusal := fmSetInst params chan prog s

/-- `LOADINST`, FM bank (R177). -/
def execLoadinstFm (_chanType prog : Int) (data : List Byte) (s : State) : Host.Outcome State Fault Refusal := fmLoadInst prog data s

/-- `SETPITCH`, FM route (R178). -/
def execSetpitchFm (chan pitch : Int) (s : State) : Host.Outcome State Fault Refusal := fmSetPitch params chan pitch s

/-- `SETLEVEL`, FM route (R179). -/
def execSetlevelFm (chan level : Int) (s : State) : Host.Outcome State Fault Refusal := fmSetLevel params chan level s

/-- `CHOFF`, FM route (R180). -/
def execChoffFm (chan : Int) (s : State) : Host.Outcome State Fault Refusal := fmChOff params chan s

/-- `FMKEYON` (code 50, R173). -/
def execFmkeyon (chan note vel : Int) (s : State) : Host.Outcome State Fault Refusal := fmKeyOn params chan note vel s

/-- `FMKEYOFF` (code 51, R174). -/
def execFmkeyoff (chan : Int) (s : State) : Host.Outcome State Fault Refusal := fmKeyOff params chan s

/-- `FMPAN` (code 52, R175). -/
def execFmpan (chan pan : Int) (s : State) : Host.Outcome State Fault Refusal := fmSetPan params chan pan s

/-- `FMINST` (code 53, R176). -/
def execFminst (chan prog : Int) (s : State) : Host.Outcome State Fault Refusal := fmSetInst params chan prog s

/-- `FMLOAD` (code 54, R177). -/
def execFmload (prog : Int) (data : List Byte) (s : State) : Host.Outcome State Fault Refusal := fmLoadInst prog data s

/-- `FMPITCH` (code 56, R178). -/
def execFmpitch (chan pitch : Int) (s : State) : Host.Outcome State Fault Refusal := fmSetPitch params chan pitch s

/-- `FMLEVEL` (code 57, R179). -/
def execFmlevel (chan level : Int) (s : State) : Host.Outcome State Fault Refusal := fmSetLevel params chan level s

/-- `FMRESET` (code 58, R181). -/
def execFmreset (s : State) : Host.Outcome State Fault Refusal := reply .success (fmReset params s)

end Sys2Proof.Machine
end

