-- ==== Sys2Proof/Machine/Pcm.lean ====
section
/-! DEFINITION. The PCM playback engine (spec 43_pcm.md): lookup, envelope, playback, the PCM route of the shared commands, the effect
partition, the wave-table store, the PCM reset. -/

namespace Sys2Proof.Machine

/-! ## Helpers (R201 to R203) -/

/-- A PCM program entry (R97). -/
structure PcmEntry where
  tl : Byte
  ar : Byte
  dr : Byte
  sl : Byte
  sr : Byte
  rr : Byte
  waveId : Int
  deriving DecidableEq, Repr

/-- Entry `i` of a PCM program block (R94, R97, R98). -/
def pcmEntry (P : Params) (B : PcmProgram) (i : Nat) : PcmEntry :=
  { tl := PcmProgram.byte B (16 * i + 1)
    ar := PcmProgram.byte B (16 * i + 2)
    dr := PcmProgram.byte B (16 * i + 3)
    sl := PcmProgram.byte B (16 * i + 4)
    sr := PcmProgram.byte B (16 * i + 5)
    rr := PcmProgram.byte B (16 * i + 6)
    waveId := sext32 (memRead P B.toList (16 * i + 8) 4) }

/-- The least entry whose breakpoint the note does not pass (R201). -/
def pcmEntryFor? (B : PcmProgram) (note : Level7) : Option Nat :=
  [0, 1, 2, 3, 4, 5, 6, 7].find? fun i => decide (note.val ≤ (PcmProgram.byte B (16 * i)).toNat)

/-- The record of `waves` with an id (R201, R222). -/
def findWave? (waves : List WaveRec) (id : Int) : Option WaveRec := waves.find? fun w => decide (w.id = id)

/-- `PcmLookup(prog, note)`: an entry and its wave table, or the code of the miss (R201). -/
def pcmLookup (P : Params) (prog : Fin 32) (note : Level7) (s : State) : Except Rc (PcmEntry × WaveRec) :=
  match pcmEntryFor? s.pcmBank[prog] note with
  | none => .error .instrumentMiss
  | some i =>
    match findWave? s.waves (pcmEntry P s.pcmBank[prog] i).waveId with
    | none => .error .waveMiss
    | some w => .ok (pcmEntry P s.pcmBank[prog] i, w)

/-- `PcmStepOf` of a sample at a note and a pitch (R202). -/
def pcmStepOf (P : Params) (w : Sample) (note : Level7) (pitch : Int) : Nat :=
  P.pcmStep w.rate w.rateOffset w.baseNote note.val (P.pcmPitchStep pitch)

/-- The loop end of a source (R203). -/
def Sample.loopEndOf (w : Sample) : Nat := if 0 < w.loopLen then w.loopStart + w.loopLen else w.size

/-! ## Envelope (R204 to R206) -/

/-- `envFull` (R204). -/
def envFullOf (P : Params) (tl : Byte) (level velocity : Level7) : Nat :=
  P.pcmEnvScale * ((tl.toNat * level.val * velocity.val) / 16129)

/-- `envSus` (R204). -/
def envSusOf (full : Nat) (sl : Byte) : Nat := min full ((full * sl.toNat) / 127)

/-- `EnterSustain` (R205). -/
def PcmChannel.enterSustain (c : PcmChannel) : PcmChannel :=
  { c with envState := .sustain, envStep := if c.envSR.toNat = 0 then 0 else max 1 (c.envSus / c.envSR.toNat) }

/-- `EnterDecay` (R205): decay never raises the level. -/
def PcmChannel.enterDecay (c : PcmChannel) : PcmChannel :=
  if c.envDR.toNat = 0 then PcmChannel.enterSustain { c with envLevel := min c.envLevel c.envSus }
  else if c.envLevel ≤ c.envSus then c.enterSustain
  else { c with envStep := max 1 ((c.envFull - c.envSus) / c.envDR.toNat), envState := .decay }

/-- `EnterAttack` (R205): rate 127 is instant zero, rate 0 instant full. -/
def PcmChannel.enterAttack (c : PcmChannel) : PcmChannel :=
  if c.envAR.toNat = 127 then PcmChannel.enterDecay { c with envLevel := 0 }
  else if c.envAR.toNat = 0 then PcmChannel.enterDecay { c with envLevel := c.envFull }
  else { c with envLevel := 0, envStep := max 1 (c.envFull / c.envAR.toNat), envState := .attack }

/-- `EnterRelease` (R205): rate 0 stops at once. -/
def PcmChannel.enterRelease (c : PcmChannel) : PcmChannel :=
  if c.envRR.toNat = 0 then c.stopped else { c with envStep := max 1 (c.envLevel / c.envRR.toNat), envState := .release }

/-- A level that falls by the step, and a channel that stops at level 0 (R206). -/
def PcmChannel.fall (c : PcmChannel) : PcmChannel :=
  if c.envLevel - c.envStep = 0 then PcmChannel.stopped { c with envLevel := 0 } else { c with envLevel := c.envLevel - c.envStep }

/-- `PcmEnvAdvance(j)` on one channel (R206). -/
def PcmChannel.envAdvance (c : PcmChannel) : PcmChannel :=
  if !c.activeOutput then c
  else match c.envState with
    | .attack =>
      if c.envFull ≤ c.envLevel + c.envStep then PcmChannel.enterDecay { c with envLevel := c.envFull }
      else { c with envLevel := c.envLevel + c.envStep }
    | .decay =>
      let l := max c.envSus (c.envLevel - c.envStep)
      if l ≤ c.envSus then PcmChannel.enterSustain { c with envLevel := l } else { c with envLevel := l }
    | .sustain => if c.envStep ≠ 0 then c.fall else c
    | .release => c.fall
    | .effect => c
    | .off => c

/-- `PcmEnvAll()` (R220). -/
def pcmEnvAll (s : State) : State := pcmChannels.foldl (fun s j => s.setPcm j s.pcm[j].envAdvance) s

/-! ## Playback (R207) -/

/-- The cursor after wrapping back by whole loops until it is below the end (R207, D55): the least number of loops that does. -/
def wrapCursor (pos loopEnd loopLen : Nat) : Nat :=
  if loopEnd * 65536 ≤ pos then pos - ((pos - loopEnd * 65536) / (loopLen * 65536) + 1) * (loopLen * 65536) else pos

/-- The sample at the integer part of the cursor (R99, R207). -/
def PcmChannel.sampleAt (c : PcmChannel) (w : Sample) : Int := sext8 (w.data.getD (c.pos / 65536) 0)

/-- `(pcmL[j], pcmR[j])`: from the state before the cursor advances (R207). -/
def PcmChannel.out (P : Params) (c : PcmChannel) : Stereo :=
  if !c.activeOutput then { left := 0, right := 0 }
  else match c.src with
    | none => { left := 0, right := 0 }
    | some w =>
      { left := asr (c.sampleAt w.sample * c.envLevel * c.panL.val) P.pcmOutShift
        right := asr (c.sampleAt w.sample * c.envLevel * c.panR.val) P.pcmOutShift }

/-- The cursor part of `PcmChannelTick(j)` (R207): advance; at the loop end wrap back, or stop if there is no loop. -/
def PcmChannel.advance (c : PcmChannel) : PcmChannel :=
  if !c.activeOutput then c
  else match c.src with
    | none => c
    | some w =>
      let pos := c.pos + c.step
      if c.loopEnd * 65536 ≤ pos then
        if 0 < w.sample.loopLen then { c with pos := wrapCursor pos c.loopEnd w.sample.loopLen }
        else PcmChannel.stopped { c with pos := pos }
      else { c with pos := pos }

/-- Step 4 of a tick: the eight channels in order (R331). -/
def pcmTick (s : State) : State := pcmChannels.foldl (fun s j => s.setPcm j s.pcm[j].advance) s

/-! ## The effects of the commands, after their checks -/

/-- A channel that starts a note (R208, past the checks). -/
def PcmChannel.keyedOn (P : Params) (c : PcmChannel) (e : PcmEntry) (w : WaveRec) (note vel : Level7) : PcmChannel :=
  let full := envFullOf P e.tl c.level vel
  PcmChannel.enterAttack
    { c.stopped with
      keyPressed := true, activeKey := true, activeOutput := true, note := note, velocity := vel
      src := some { waveId := some w.id, sample := w.sample }
      loopEnd := w.sample.loopEndOf, pos := 0, step := pcmStepOf P w.sample note c.pitch
      envTL := e.tl, envAR := e.ar, envDR := e.dr, envSL := e.sl, envSR := e.sr, envRR := e.rr
      envFull := full, envSus := envSusOf full e.sl }

/-- A channel whose key is released (R209, past the check). -/
def PcmChannel.keyedOff (c : PcmChannel) : PcmChannel :=
  if c.activeKey && c.keyPressed then PcmChannel.enterRelease { c with keyPressed := false } else c

/-- A channel with a new pitch (R214, past the checks): a sounding music note takes its new step at once. -/
def PcmChannel.pitched (P : Params) (c : PcmChannel) (pitch : Int) : PcmChannel :=
  if c.activeKey then
    match c.src with
    | some w => { c with pitch := pitch, step := pcmStepOf P w.sample c.note pitch }
    | none => { c with pitch := pitch }
  else { c with pitch := pitch }

/-- A channel that starts an effect (R218, past the checks). -/
def PcmChannel.effectOn (P : Params) (c : PcmChannel) (w : Sample) (note vel : Level7) : PcmChannel :=
  { c.stopped with
    activeEffect := true, activeOutput := true, note := note, velocity := vel
    src := some { waveId := none, sample := w }
    loopEnd := w.loopEndOf, pos := 0, step := pcmStepOf P w note c.pitch
    envState := .effect, envLevel := P.pcmEnvScale * ((c.level.val * vel.val) / 127) }

/-- The re-partition of one channel (R217): stopped if its flag changes. -/
def reserveChannel (n : Nat) (s : State) (j : PcmCh) : State :=
  let nr := decide (8 - n ≤ j.val)
  if nr = s.pcm[j].reserved then s else s.setPcm j { s.pcm[j].stopped with reserved := nr }

/-- `PcmReserve` past its checks (R217). -/
def pcmReserveEffect (n : Nat) (s : State) : State := { pcmChannels.foldl (reserveChannel n) s with reservedCount := n }

/-! ## The handlers: checks in order, then the effect (R121) -/

/-- `PcmKeyOn` (R208). -/
def pcmKeyOn (P : Params) (chan note vel : Int) (s : State) : Host.Outcome State Fault Refusal :=
  match pcmChan? chan with
  | none => reply .badChannel s
  | some j =>
    match level7? note with
    | none => reply .badValue s
    | some n =>
      match level7? vel with
      | none => reply .badValue s
      | some v =>
        if s.pcm[j].reserved && s.pcm[j].activeKey then reply .busy s
        else match pcmLookup P s.pcm[j].program n s with
          | .error rc => reply rc s
          | .ok (e, w) => reply .success (s.setPcm j (s.pcm[j].keyedOn P e w n v))

/-- `PcmKeyOff` (R209). -/
def pcmKeyOff (chan : Int) (s : State) : Host.Outcome State Fault Refusal :=
  match pcmChan? chan with
  | none => reply .badChannel s
  | some j => reply .success (s.setPcm j s.pcm[j].keyedOff)

/-- `PcmSetPan` (R210). -/
def pcmSetPan (chan pan : Int) (s : State) : Host.Outcome State Fault Refusal :=
  match pcmChan? chan with
  | none => reply .badChannel s
  | some j =>
    match level7? pan with
    | none => reply .badValue s
    | some p => reply .success (s.setPcm j { s.pcm[j] with panL := pcmPanL p, panR := pcmPanR p })

/-- `PcmSetInst` (R211). -/
def pcmSetInst (chan prog : Int) (s : State) : Host.Outcome State Fault Refusal :=
  match pcmChan? chan with
  | none => reply .badChannel s
  | some j =>
    match pcmProg? prog with
    | none => reply .badValue s
    | some p => reply .success (s.setPcm j { s.pcm[j] with program := p })

/-- The first 128 bytes of a buffer (R212). -/
def pcmProgramOf (data : List Byte) : PcmProgram := Vector.ofFn fun k => bufByte data k.val

/-- `PcmLoadInst` (R212). -/
def pcmLoadInst (prog : Int) (data : List Byte) (s : State) : Host.Outcome State Fault Refusal :=
  match pcmProg? prog with
  | none => reply .badValue s
  | some p =>
    if data.length < 128 then reply .emptyData s
    else reply .success { s with pcmBank := s.pcmBank.set p.val (pcmProgramOf data) }

/-- `PcmLoadSamples` (R213). -/
def pcmLoadSamples (dest size : Int) (data : List Byte) (s : State) : Host.Outcome State Fault Refusal :=
  match index? 65536 dest with
  | none => reply .badValue s
  | some a =>
    if size ≤ 0 then reply .emptyData s
    else if (data.length : Int) < size then reply .emptyData s
    else if 65536 < dest + size then reply .budget s
    else reply .success { s with pcmRam := Memory.writeBytes s.pcmRam a.val (data.take size.toNat) }

/-- `PcmSetPitch` (R214). -/
def pcmSetPitch (P : Params) (chan pitch : Int) (s : State) : Host.Outcome State Fault Refusal :=
  match pcmChan? chan with
  | none => reply .badChannel s
  | some j => if pitchInRange pitch then reply .success (s.setPcm j (s.pcm[j].pitched P pitch)) else reply .badValue s

/-- `PcmSetLevel` (R215). -/
def pcmSetLevel (chan level : Int) (s : State) : Host.Outcome State Fault Refusal :=
  match pcmChan? chan with
  | none => reply .badChannel s
  | some j =>
    match level7? level with
    | none => reply .badValue s
    | some l => reply .success (s.setPcm j { s.pcm[j] with level := l })

/-- `PcmOff` (R216). -/
def pcmOff (chan : Int) (s : State) : Host.Outcome State Fault Refusal :=
  match pcmChan? chan with
  | none => reply .badChannel s
  | some j => reply .success (pcmStop j s)

/-- `PcmReserve` (R217). -/
def pcmReserve (P : Params) (n : Int) (s : State) : Host.Outcome State Fault Refusal :=
  match index? 9 n with
  | none => reply .badValue s
  | some k =>
    if P.reserveLimit < k.val * P.reserveRoom + s.waveTotal then reply .budget s else reply .success (pcmReserveEffect k.val s)

/-! ## Wave tables (R95, R96, R218, R221, R222) -/

/-- A wave-table header as it stands in a buffer (R95); `size` is signed. -/
structure WaveHeader where
  name : List Byte
  id : Int
  size : Int
  loopStart : Nat
  loopLen : Nat
  rate : Nat
  rateOffset : Int
  baseNote : Nat
  deriving DecidableEq, Repr

/-- The header of a buffer of at least 32 bytes (R95). -/
def waveHeader (P : Params) (buf : List Byte) : WaveHeader :=
  { name := buf.take 8
    id := sext32 (memRead P buf 8 4)
    size := sext32 (memRead P buf 12 4)
    loopStart := memRead P buf 16 4
    loopLen := memRead P buf 20 4
    rate := memRead P buf 24 2
    rateOffset := sext16 (memRead P buf 26 2)
    baseNote := memRead P buf 28 4 % 65536 }

/-- The sample that a header and its buffer give (R95, R218, R221). -/
def WaveHeader.sample (h : WaveHeader) (buf : List Byte) : Sample :=
  { size := h.size.toNat, loopStart := h.loopStart, loopLen := h.loopLen, rate := h.rate, rateOffset := h.rateOffset
    baseNote := h.baseNote, data := (buf.drop 32).take h.size.toNat }

/-- The header checks of `PLAYFX`, in its order; the code of the first that fails (R218). -/
def effectCheck (P : Params) (buf : List Byte) : Option Rc :=
  if buf.length < 32 then some .emptyData
  else
    let h := waveHeader P buf
    if h.size < 0 then some .badValue
    else if h.size < h.loopStart + h.loopLen then some .loopRegion
    else if h.size = 0 then some .emptyData
    else if (buf.length : Int) < 32 + h.size then some .emptyData
    else none

/-- `PcmPlayEffect` (R218). -/
def pcmPlayEffect (P : Params) (chan note vel : Int) (data : List Byte) (s : State) : Host.Outcome State Fault Refusal :=
  match pcmChan? chan with
  | none => reply .badChannel s
  | some j =>
    match level7? note with
    | none => reply .badValue s
    | some n =>
      match level7? vel with
      | none => reply .badValue s
      | some v =>
        if !s.pcm[j].reserved then reply .needsReserved s
        else if s.pcm[j].activeEffect then reply .busy s
        else match effectCheck P data with
          | some rc => reply rc s
          | none => reply .success (s.setPcm j (s.pcm[j].effectOn P ((waveHeader P data).sample data) n v))

/-- `PcmEffectPlaying` (R219). -/
def pcmEffectPlaying (chan : Int) (s : State) : Host.Outcome State Fault Refusal :=
  match pcmChan? chan with
  | none => reply .badChannel s
  | some j => answer (if s.pcm[j].reserved && s.pcm[j].activeEffect then 1 else 0) s

/-- The checks of `LDWAVE`, in its order; the code of the first that fails (R221). -/
def loadCheck (P : Params) (buf : List Byte) (s : State) : Option Rc :=
  if 128 ≤ s.waves.length then some .budget
  else if buf.length < 32 then some .emptyData
  else
    let h := waveHeader P buf
    if h.size < 0 then some .badValue
    else if h.size = 0 then some .emptyData
    else if (buf.length : Int) < 32 + h.size then some .emptyData
    else if 65504 < (s.waveTotal : Int) + h.size then some .budget
    else if (findWave? s.waves h.id).isSome then some .duplicateWave
    else if h.size < h.loopStart + h.loopLen then some .loopRegion
    else none

/-- The record that `LDWAVE` appends (R221). -/
def waveRecOf (P : Params) (buf : List Byte) : WaveRec :=
  let h := waveHeader P buf
  { name := h.name, id := h.id, sample := h.sample buf }

/-- `PcmLoadWave` (R221). -/
def pcmLoadWave (P : Params) (data : List Byte) (s : State) : Host.Outcome State Fault Refusal :=
  match loadCheck P data s with
  | some rc => reply rc s
  | none =>
    reply .success
      { s with waves := s.waves ++ [waveRecOf P data], waveTotal := s.waveTotal + (waveRecOf P data).sample.size }

/-- Stop the channels that play from a table the test names (R222). -/
def stopPlaying (plays : Int → Bool) (s : State) : State :=
  pcmChannels.foldl
    (fun s j => match s.pcm[j].src with
      | some { waveId := some id, sample := _ } => if plays id then pcmStop j s else s
      | _ => s) s

/-- `PcmUnloadWave` (R222). -/
def pcmUnloadWave (id : Int) (s : State) : Host.Outcome State Fault Refusal :=
  if id = -1 then reply .success { stopPlaying (fun _ => true) s with waves := [], waveTotal := 0 }
  else match findWave? s.waves id with
    | none => reply .waveMiss s
    | some w =>
      reply .success
        { stopPlaying (fun k => decide (k = id)) s with
          waves := s.waves.filter fun x => decide (x.id ≠ id), waveTotal := s.waveTotal - w.sample.size }

/-! ## PCM reset (R226) -/

/-- `PcmReset()` (R226). -/
def pcmReset (P : Params) (s : State) : State :=
  { s with
    reservedCount := 0
    pcmBank := Vector.replicate 32 P.pcmNull
    waves := []
    waveTotal := 0
    pcm := Vector.replicate 8 .reset }

/-! ## The meanings -/

/-- `KEYON`, PCM route (R208). -/
def execKeyonPcm (chan note vel : Int) (s : State) : Host.Outcome State Fault Refusal := pcmKeyOn params chan note vel s

/-- `KEYOFF`, PCM route (R209). -/
def execKeyoffPcm (chan : Int) (s : State) : Host.Outcome State Fault Refusal := pcmKeyOff chan s

/-- `SETPAN`, PCM route (R210). -/
def execSetpanPcm (chan pan : Int) (s : State) : Host.Outcome State Fault Refusal := pcmSetPan chan pan s

/-- `SETINST`, PCM route (R211). -/
def execSetinstPcm (chan prog : Int) (s : State) : Host.Outcome State Fault Refusal := pcmSetInst chan prog s

/-- `LOADINST`, PCM bank (R212). -/
def execLoadinstPcm (_chanType prog : Int) (data : List Byte) (s : State) : Host.Outcome State Fault Refusal := pcmLoadInst prog data s

/-- `SETPITCH`, PCM route (R214). -/
def execSetpitchPcm (chan pitch : Int) (s : State) : Host.Outcome State Fault Refusal := pcmSetPitch params chan pitch s

/-- `SETLEVEL`, PCM route (R215). -/
def execSetlevelPcm (chan level : Int) (s : State) : Host.Outcome State Fault Refusal := pcmSetLevel chan level s

/-- `CHOFF`, PCM route (R216). -/
def execChoffPcm (chan : Int) (s : State) : Host.Outcome State Fault Refusal := pcmOff chan s

/-- `LDSMP` (code 32, R213). -/
def execLdsmp (dest size : Int) (data : List Byte) (s : State) : Host.Outcome State Fault Refusal := pcmLoadSamples dest size data s

/-- `RESERVE` (code 33, R217). -/
def execReserve (n : Int) (s : State) : Host.Outcome State Fault Refusal := pcmReserve params n s

/-- `LDWAVE` (code 34, R221). -/
def execLdwave (data : List Byte) (s : State) : Host.Outcome State Fault Refusal := pcmLoadWave params data s

/-- `UNWAVE` (code 35, R222). -/
def execUnwave (id : Int) (s : State) : Host.Outcome State Fault Refusal := pcmUnloadWave id s

/-- `PLAYFX` (code 37, R218). -/
def execPlayfx (chan note vel : Int) (data : List Byte) (s : State) : Host.Outcome State Fault Refusal :=
  pcmPlayEffect params chan note vel data s

/-- `PCMOFF` (code 39, R216). -/
def execPcmoff (chan : Int) (s : State) : Host.Outcome State Fault Refusal := pcmOff chan s

/-- `FXQ` (code 40, R219). -/
def execFxq (chan : Int) (s : State) : Host.Outcome State Fault Refusal := pcmEffectPlaying chan s

/-- `PCMENV` (code 80, R220). -/
def execPcmenv (s : State) : Host.Outcome State Fault Refusal := reply .success (pcmEnvAll s)

end Sys2Proof.Machine
end

