-- ==== Sys2Proof/Machine/Control.lean ====
section
/-! DEFINITION. The reset command and the unsupported codes (spec 40_dispatch.md: R124, R126; 30_encoding.md R83). -/

namespace Sys2Proof.Machine

/-- `RESET` (code 0, R124): the FM engine, then the PCM engine. -/
def execReset (s : State) : Host.Outcome State Fault Refusal := reply .success (pcmReset params (fmReset params s))

/-- Code 55: `(4, none)`, no change (R83, R126). -/
def execUnsupported55 (_args : List Arg) (s : State) : Host.Outcome State Fault Refusal := reply .unsupported s

/-- Code 74: `(4, none)`, no change (R83, R126). -/
def execUnsupported74 (_args : List Arg) (s : State) : Host.Outcome State Fault Refusal := reply .unsupported s

/-- Code 75: `(4, none)`, no change (R83, R126). -/
def execUnsupported75 (_args : List Arg) (s : State) : Host.Outcome State Fault Refusal := reply .unsupported s

/-- Every unlisted code: `(4, none)`, no change (R83, R126). -/
def execUnsupported (_code : Int) (_args : List Arg) (s : State) : Host.Outcome State Fault Refusal := reply .unsupported s

end Sys2Proof.Machine
end

