-- ==== Sys2Proof/Machine/Mixer.lean ====
section
/-! DEFINITION. The mixer and output routing (spec 47_mixer.md): the mix of one tick, and the meanings of codes 67 to 73. -/

namespace Sys2Proof.Machine

/-! ## Mix (R332, R333) -/

/-- `s` with the masks given: the state that a mix of other masks reads. -/
def State.withMasks (s : State) (maskA : BitVec 6) (maskB : BitVec 8) : State := { s with maskA := maskA, maskB := maskB }

/-- `scale(x, l)` (R332): 0 if the lane is muted, else `(x × vol) quot 127`. -/
def laneScale (s : State) (x : Int) (l : Lane) : Int := if s.mute[l] then 0 else quot (x * s.vol[l].val) 127

/-- FM channel `ch` is in the sfx group (R332). -/
def fmInSfx (s : State) (ch : FmCh) : Bool := s.maskA.getLsbD ch.val

/-- PCM channel `j` is in the sfx group (R332). -/
def pcmInSfx (s : State) (j : PcmCh) : Bool := s.maskB.getLsbD j.val

/-- The sum of the contributions of the FM and PCM channels of one group on one side (R332). -/
def groupSum (s : State) (sfx : Bool) (fm : FmCh → Int) (pcm : PcmCh → Int) : Int :=
  (fmChannels.map fun ch => if fmInSfx s ch = sfx then fm ch else 0).sum +
    (pcmChannels.map fun j => if pcmInSfx s j = sfx then pcm j else 0).sum

/-- The music group on one side: its FM and PCM channels, the SSG and the rhythm channels (R332). -/
def musicSum (s : State) (fm : FmCh → Int) (pcm : PcmCh → Int) (ssg : Int) (rhy : RhyCh → Int) : Int :=
  groupSum s false fm pcm + ssg + (rhyChannels.map rhy).sum

/-- `Mix()` (R332): `(L, R)` from the engines' outputs of this tick. Lanes 0, 1 are music left and right, 2, 3 sfx left and right
(R333). -/
def mix (s : State) (fm : FmCh → Stereo) (pcm : PcmCh → Stereo) (ssg : Int) (rhy : RhyCh → Stereo) : Stereo :=
  { left :=
      laneScale s (musicSum s (fun ch => (fm ch).left) (fun j => (pcm j).left) ssg fun i => (rhy i).left) 0 +
        laneScale s (groupSum s true (fun ch => (fm ch).left) fun j => (pcm j).left) 2
    right :=
      laneScale s (musicSum s (fun ch => (fm ch).right) (fun j => (pcm j).right) ssg fun i => (rhy i).right) 1 +
        laneScale s (groupSum s true (fun ch => (fm ch).right) fun j => (pcm j).right) 3 }

/-- `wrap32(buffer[e] + v)` written back to element `e` (R47). -/
def addElem (buf : List OutElem) (e : Nat) (v : Int) : List OutElem := buf.set e (buf.getD e 0 + BitVec.ofInt 32 v)

/-- Add one stereo pair at element `e` (R331, step 7). -/
def addPair (buf : List OutElem) (e : Nat) (y : Stereo) : List OutElem := addElem (addElem buf e y.left) (e + 1) y.right

/-! ## Volume and mute commands (R335 to R339) -/

/-- `SETVOL` (code 67, R335). -/
def execSetvol (lane level : Int) (s : State) : Host.Outcome State Fault Refusal :=
  match lane? lane, level7? level with
  | some l, some v => reply .success { s with vol := s.vol.set l.val v }
  | _, _ => reply .badValue s

/-- `RSTVOL` (code 68, R336): every lane to 127; mutes are not changed. -/
def execRstvol (s : State) : Host.Outcome State Fault Refusal := reply .success { s with vol := Vector.replicate 16 127 }

/-- `GETVOL` (code 69, R337), a stub. -/
def execGetvol (_args : List Arg) (s : State) : Host.Outcome State Fault Refusal := reply .success s

/-- `SETMUTE` (code 70, R338). -/
def execSetmute (lane mute : Int) (s : State) : Host.Outcome State Fault Refusal :=
  match lane? lane, flag? mute with
  | some l, some m => reply .success { s with mute := s.mute.set l.val m }
  | _, _ => reply .badValue s

/-- `CDTOGGLE` (code 71, R337), a stub. -/
def execCdtoggle (_args : List Arg) (s : State) : Host.Outcome State Fault Refusal := reply .success s

/-- `GETVOL2` (code 72, R337), a stub. -/
def execGetvol2 (_args : List Arg) (s : State) : Host.Outcome State Fault Refusal := reply .success s

/-- `GETMUTE` (code 73, R339). -/
def execGetmute (lane : Int) (s : State) : Host.Outcome State Fault Refusal :=
  match lane? lane with
  | some l => answer (if s.mute[l] then 1 else 0) s
  | none => reply .badValue s

end Sys2Proof.Machine
end

