-- ==== Sys2Proof/Machine/Dispatch.lean ====
section
/-! DEFINITION. The dispatch: one arm per instruction, each one call of the instruction's meaning (spec R120, stages 3 and 4). -/

namespace Sys2Proof.Machine

def exec (i : Instr) (s : State) : Host.Outcome State Fault Refusal :=
  match i with
  | .reset => Sys2Proof.Machine.execReset s
  | .keyonFm chan note vel => Sys2Proof.Machine.execKeyonFm chan note vel s
  | .keyonPcm chan note vel => Sys2Proof.Machine.execKeyonPcm chan note vel s
  | .keyoffFm chan => Sys2Proof.Machine.execKeyoffFm chan s
  | .keyoffPcm chan => Sys2Proof.Machine.execKeyoffPcm chan s
  | .setpanFm chan pan => Sys2Proof.Machine.execSetpanFm chan pan s
  | .setpanPcm chan pan => Sys2Proof.Machine.execSetpanPcm chan pan s
  | .setinstFm chan prog => Sys2Proof.Machine.execSetinstFm chan prog s
  | .setinstPcm chan prog => Sys2Proof.Machine.execSetinstPcm chan prog s
  | .setpitchFm chan pitch => Sys2Proof.Machine.execSetpitchFm chan pitch s
  | .setpitchPcm chan pitch => Sys2Proof.Machine.execSetpitchPcm chan pitch s
  | .setlevelFm chan level => Sys2Proof.Machine.execSetlevelFm chan level s
  | .setlevelPcm chan level => Sys2Proof.Machine.execSetlevelPcm chan level s
  | .choffFm chan => Sys2Proof.Machine.execChoffFm chan s
  | .choffPcm chan => Sys2Proof.Machine.execChoffPcm chan s
  | .loadinstFm chanType prog data => Sys2Proof.Machine.execLoadinstFm chanType prog data s
  | .loadinstPcm chanType prog data => Sys2Proof.Machine.execLoadinstPcm chanType prog data s
  | .wrreg part reg value => Sys2Proof.Machine.execWrreg part reg value s
  | .wrregb part reg value => Sys2Proof.Machine.execWrregb part reg value s
  | .rdregb part reg => Sys2Proof.Machine.execRdregb part reg s
  | .setta value => Sys2Proof.Machine.execSetta value s
  | .settb value => Sys2Proof.Machine.execSettb value s
  | .enta on => Sys2Proof.Machine.execEnta on s
  | .entb on => Sys2Proof.Machine.execEntb on s
  | .ldsmp dest size data => Sys2Proof.Machine.execLdsmp dest size data s
  | .reserve n => Sys2Proof.Machine.execReserve n s
  | .ldwave data => Sys2Proof.Machine.execLdwave data s
  | .unwave id => Sys2Proof.Machine.execUnwave id s
  | .playfx chan note vel data => Sys2Proof.Machine.execPlayfx chan note vel data s
  | .pcmoff chan => Sys2Proof.Machine.execPcmoff chan s
  | .fxq chan => Sys2Proof.Machine.execFxq chan s
  | .fmkeyon chan note vel => Sys2Proof.Machine.execFmkeyon chan note vel s
  | .fmkeyoff chan => Sys2Proof.Machine.execFmkeyoff chan s
  | .fmpan chan pan => Sys2Proof.Machine.execFmpan chan pan s
  | .fminst chan prog => Sys2Proof.Machine.execFminst chan prog s
  | .fmload prog data => Sys2Proof.Machine.execFmload prog data s
  | .fmpitch chan pitch => Sys2Proof.Machine.execFmpitch chan pitch s
  | .fmlevel chan level => Sys2Proof.Machine.execFmlevel chan level s
  | .fmreset => Sys2Proof.Machine.execFmreset s
  | .setvol lane level => Sys2Proof.Machine.execSetvol lane level s
  | .rstvol => Sys2Proof.Machine.execRstvol s
  | .getvol args => Sys2Proof.Machine.execGetvol args s
  | .setmute lane mute => Sys2Proof.Machine.execSetmute lane mute s
  | .cdtoggle args => Sys2Proof.Machine.execCdtoggle args s
  | .getvol2 args => Sys2Proof.Machine.execGetvol2 args s
  | .getmute lane => Sys2Proof.Machine.execGetmute lane s
  | .pcmenv => Sys2Proof.Machine.execPcmenv s
  | .unsupported55 args => Sys2Proof.Machine.execUnsupported55 args s
  | .unsupported74 args => Sys2Proof.Machine.execUnsupported74 args s
  | .unsupported75 args => Sys2Proof.Machine.execUnsupported75 args s
  | .unsupported code args => Sys2Proof.Machine.execUnsupported code args s
  | .ssgToneLow n v => Sys2Proof.Machine.execSsgToneLow n v s
  | .ssgToneHigh n v => Sys2Proof.Machine.execSsgToneHigh n v s
  | .ssgNoisePeriod v => Sys2Proof.Machine.execSsgNoisePeriod v s
  | .ssgEnable v => Sys2Proof.Machine.execSsgEnable v s
  | .ssgLevel n v => Sys2Proof.Machine.execSsgLevel n v s
  | .ssgEnvPeriod high v => Sys2Proof.Machine.execSsgEnvPeriod high v s
  | .ssgEnvShape v => Sys2Proof.Machine.execSsgEnvShape v s
  | .rhythmKey v => Sys2Proof.Machine.execRhythmKey v s
  | .rhythmTotalLevel v => Sys2Proof.Machine.execRhythmTotalLevel v s
  | .rhythmChannelLevel n v => Sys2Proof.Machine.execRhythmChannelLevel n v s
  | .timerAHigh v => Sys2Proof.Machine.execTimerAHigh v s
  | .timerALow v => Sys2Proof.Machine.execTimerALow v s
  | .timerB v => Sys2Proof.Machine.execTimerB v s
  | .fmKey v => Sys2Proof.Machine.execFmKey v s
  | .fmDtMul ch op v => Sys2Proof.Machine.execFmDtMul ch op v s
  | .fmTl ch op v => Sys2Proof.Machine.execFmTl ch op v s
  | .fmKsAr ch op v => Sys2Proof.Machine.execFmKsAr ch op v s
  | .fmAmDr ch op v => Sys2Proof.Machine.execFmAmDr ch op v s
  | .fmSr ch op v => Sys2Proof.Machine.execFmSr ch op v s
  | .fmSlRr ch op v => Sys2Proof.Machine.execFmSlRr ch op v s
  | .fmFnumLow ch v => Sys2Proof.Machine.execFmFnumLow ch v s
  | .fmBlockFnumHigh ch v => Sys2Proof.Machine.execFmBlockFnumHigh ch v s
  | .fmFbAlg ch v => Sys2Proof.Machine.execFmFbAlg ch v s
  | .fmPan ch v => Sys2Proof.Machine.execFmPan ch v s
  | .storedOnly part reg v => Sys2Proof.Machine.execStoredOnly part reg v s

end Sys2Proof.Machine
end

