-- ==== Sys2Proof/Machine/Produce.lean ====
section
/-! DEFINITION. `processCommand`, the host operations, the timers with their callbacks, and `produce` (spec 40_dispatch.md R120, R123;
46_registers_timers.md R311; 47_mixer.md R330, R331; 60_exceptions.md R362 to R366). -/

namespace Sys2Proof.Machine

/-! ## Host operations other than `produce` (R120, R334, R364) -/

/-- `processCommand(code, args)` (R120): decode, then run the handler. Arguments that do not fit a listed code are refused (R81, R365). -/
def processCommand (code : Int) (args : List Arg) (s : State) : Host.Outcome State Fault Refusal :=
  match decode (.command code args) with
  | .ok i => exec i s
  | .error _ => .next (refuse s)

/-- `setCallbacks(a, b)` (R364). It has no result code (R123). -/
def setCallbacks (a b : Option ProcId) (s : State) : State :=
  { s with timerA := { s.timerA with callback := a }, timerB := { s.timerB with callback := b }, result := none }

/-- `setVolumeMasks(a, b)`: `maskA <- a & 0x3F`, `maskB <- b & 0xFF` (R334). They take effect from the next tick: see `tick`. It has
no result code (R123). -/
def setVolumeMasks (a b : Int) (s : State) : State :=
  { s with maskA := BitVec.ofInt 6 a, maskB := BitVec.ofInt 8 b, result := none }

/-! ## Callbacks (R363) -/

/-- A `produce` while `inProduce` is true: the fault is raised and the call is refused (R330, R362). -/
def reenter (s : State) : State := refuse (raiseProduceReentry s)

/-- One step that a callback issues (R363). A command's result goes to the callback. Masks that a callback sets stand in
their fields at once, and the mix reads them from the next tick on (R334): see `tick`. DESIGN CHOICE: assumption log entry 20. -/
def nestedCall (call : HostCall) (s : State) : Host.Outcome State Fault Refusal :=
  match call with
  | .command code args =>
    andThen (processCommand code args s) fun t => .next { t with result := none, callbackResults := t.callbackResults ++ [t.result] }
  | .produce _ _ _ => .next (reenter s)
  | .setCallbacks a b => .next (setCallbacks a b s)
  | .setVolumeMasks a b => .next (setVolumeMasks a b s)

/-- The steps of one firing, in order (R363). -/
def nestedCalls : List HostCall → State → Host.Outcome State Fault Refusal
  | [], s => .next s
  | c :: cs, s => andThen (nestedCall c s) (nestedCalls cs)

/-- The calls that a procedure issues now. -/
def HostProc.callsNow (h : HostProc) : List HostCall :=
  match h.upcoming with
  | [] => h.thereafter
  | c :: _ => c

/-- A procedure after one call of it. -/
def HostProc.called (h : HostProc) : HostProc := { h with upcoming := h.upcoming.drop 1 }

/-- The calls that procedure `id` issues now: none if the host has no such procedure. -/
def procCalls (id : ProcId) (s : State) : List HostCall :=
  match s.hostProcs.find? fun h => h.id == id with
  | some h => h.callsNow
  | none => []

/-- Procedure `id` has been called once more. -/
def procCalled (id : ProcId) (s : State) : State :=
  { s with hostProcs := s.hostProcs.map fun h => if h.id == id then h.called else h }

/-- `run callback[t]()` (R363); nothing if none is registered. -/
def runCallback (cb : Option ProcId) (s : State) : Host.Outcome State Fault Refusal :=
  match cb with
  | none => .next s
  | some id => nestedCalls (procCalls id s) (procCalled id s)

/-! ## Timers (R311) -/

/-- `TimerTick(A)` (R311). -/
def timerTickA (P : Params) (s : State) : Host.Outcome State Fault Refusal :=
  if !s.timerA.on then .next s
  else if periodA P s ≤ s.timerA.cnt + 1 then runCallback s.timerA.callback { s with timerA := { s.timerA with cnt := 0 } }
  else .next { s with timerA := { s.timerA with cnt := s.timerA.cnt + 1 } }

/-- `TimerTick(B)` (R311): after the callback the PCM envelopes advance. -/
def timerTickB (P : Params) (s : State) : Host.Outcome State Fault Refusal :=
  if !s.timerB.on then .next s
  else if periodB P s ≤ s.timerB.cnt + 1 then
    andThen (runCallback s.timerB.callback { s with timerB := { s.timerB with cnt := 0 } }) fun t => .next (pcmEnvAll t)
  else .next { s with timerB := { s.timerB with cnt := s.timerB.cnt + 1 } }

/-! ## Ticks (R331) -/

/-- Steps 3 to 7 of a tick: the engines in order, the mix with the masks `maskA` and `maskB`, and the pair added at element `e` (R331). -/
def engines (P : Params) (e : Nat) (maskA : BitVec 6) (maskB : BitVec 8) (s : State) : State :=
  let s3 := fmTick P s
  let s4 := pcmTick s3
  let s6 := rhyTick P (ssgTick P s4)
  let y := mix (s6.withMasks maskA maskB) (fmOut P s3) (fun j => PcmChannel.out P s3.pcm[j]) (Ssg.out P s6.ssg) (rhyOut P s6)
  { s6 with outBuffer := addPair s6.outBuffer e y }

/-- `Tick(buffer, e)` (R331). The mix takes the masks that stood when the tick began, since masks set by a callback at step 2 take effect
from the next tick (R334). -/
def tick (P : Params) (e : Nat) (s : State) : Host.Outcome State Fault Refusal :=
  andThen (timerTickA P (ssgDrain s)) fun s1 => andThen (timerTickB P s1) fun s2 => .next (engines P e s.maskA s.maskB s2)

/-- `n` ticks, the first at element `e` (R330). -/
def ticks (P : Params) : Nat → Nat → State → Host.Outcome State Fault Refusal
  | 0, _, s => .next s
  | n + 1, e, s => andThen (tick P e s) (ticks P n (e + 2))

/-- The window of a `produce` call lies inside its buffer (R47, R330). -/
def windowOk (buffer : List OutElem) (offset count : Int) : Bool :=
  decide (0 ≤ offset) && decide (0 ≤ count) && decide (offset + 2 * count ≤ buffer.length)

/-- `produce(buffer, offset, count)` (R330). -/
def produce (P : Params) (buffer : List OutElem) (offset count : Int) (s : State) : Host.Outcome State Fault Refusal :=
  if s.inProduce then .next (reenter s)
  else if !windowOk buffer offset count then .next { raiseBufferBounds s with result := none }
  else
    andThen (ticks P count.toNat offset.toNat { s with inProduce := true, outBuffer := buffer, callbackResults := [], result := none })
      fun t => .next { t with inProduce := false }

/-! ## One host step (R48, R366) -/

/-- One operation of the host interface, as a step of its own (R371). -/
def hostCall (call : HostCall) (s : State) : Host.Outcome State Fault Refusal :=
  match call with
  | .command code args => processCommand code args s
  | .produce buffer offset count => produce params buffer offset count s
  | .setCallbacks a b => .next (setCallbacks a b s)
  | .setVolumeMasks a b => .next (setVolumeMasks a b s)

/-- An overlap under external locking: the fault is raised and the later step is refused (R366). -/
def lockViolated (s : State) : State := refuse (raiseLockViolation s)

/-- One step of the host: without external locking the block's lock makes an overlapping step wait, so it runs as usual (R366). -/
def hostStep (h : HostStep) (s : State) : Host.Outcome State Fault Refusal :=
  if h.overlaps && s.externalLocking then .next (lockViolated s) else hostCall h.call s

/-- The host operation that a table word stands for: the command it encodes, or, for a register write, the command 17 that carries it
(R87). -/
def callOfEncoded : Encoded → HostCall
  | .command code args => .command code args
  | .regWrite part reg value => .command 17 [.int part, .int reg, .int value]

end Sys2Proof.Machine
end

