-- ==== Sys2Proof/Machine/Step.lean ====
section
/-! DEFINITION. The step of the machine: the next step of the host (spec R48), or nothing while the host is idle (R373). -/

namespace Sys2Proof.Machine

/-- One step: the host's next step, if there is one. Between host steps the state does not change (R373). -/
def step (s : State) : Host.Outcome State Fault Refusal :=
  match s.pending with
  | [] => .next s
  | h :: rest => hostStep h { s with pending := rest }

/-- The state in which the host's next step is the instruction of the word `w` of `nbits` bits (assumption log entries 3, 4). -/
def State.withFetchWord (s : State) (nbits w : Nat) : State :=
  { s with pending := { overlaps := false, call := callOfEncoded (wireEncoded (w % 2 ^ nbits)) } :: s.pending }

end Sys2Proof.Machine
end

