-- ==== Sys2Proof/Safety.lean ====
section
/-! DEFINITION. What a safe run is, and the invariant of the machine (spec 10_state.md R21, R28; 20_memory.md R42; 43_pcm.md R207): the
terms the statements are made in. -/

namespace Sys2Proof.Machine

/-! ## Safe runs -/

/-- No fault flag is set and no step has been refused (R26, R362, R365): the run so far is one the spec gives a meaning to. -/
def State.clean (s : State) : Prop := s.faults = FaultFlags.reset ∧ s.refused = false

/-! ## How a command ends, and what it leaves alone -/

/-- `s` with the result `(rc, out)` given to the host (R80, R122). -/
def State.returning (s : State) (rc : Rc) (out : Option Int) : State := { s with result := some { rc := rc, out := out } }

/-- The instruction ends with the code `rc`, no out-value, and no other change (R121, R122). -/
def Fails (i : Instr) (s : State) (rc : Rc) : Prop := exec i s = .next (s.returning rc none)

/-- Every chip register but the ones listed reads as before. -/
def ChipSame (s t : State) (W : List (Part × Nat)) : Prop := ∀ (q : Part) (x : Nat), (q, x) ∉ W → t.chip q x = s.chip q x

/-- Every shadow register but the ones listed reads as before. -/
def ShadSame (s t : State) (W : List (Part × Nat)) : Prop := ∀ (q : Part) (x : Nat), (q, x) ∉ W → t.shad q x = s.shad q x

/-- The FM area of the register images (R14): part 0 0x20-0x23 and 0x28-0xB6, part 1 0x30-0xB6. -/
def fmArea (p : Part) (r : Nat) : Prop := if p = 0 then (0x20 ≤ r ∧ r ≤ 0x23) ∨ (0x28 ≤ r ∧ r ≤ 0xB6) else 0x30 ≤ r ∧ r ≤ 0xB6

/-! ## The engines an instruction belongs to (R1, R82, R302) -/

/-- The parts of the block whose state an instruction may change. -/
inductive Engine
  /-- The register images (R14). -/
  | registers
  /-- The FM chip channels, voices and program bank (R16, R18, R19). -/
  | fm
  /-- The PCM channels, the program bank and the wave store (R20, R22). -/
  | pcm
  /-- `pcmRam` (R20). -/
  | sampleRam
  /-- The SSG (R23). -/
  | ssg
  /-- The rhythm channels (R24). -/
  | rhythm
  /-- The two timers (R25). -/
  | timers
  /-- Volumes and mutes (R25). -/
  | lanes
  deriving DecidableEq, Repr

/-- The parts that an instruction may change: by its handler (R82), or by the effect of the register it writes (R302). -/
def enginesOf : Instr → List Engine
  | .reset => [.registers, .fm, .pcm]
  | .keyonFm _ _ _ | .keyoffFm _ | .setpanFm _ _ | .setinstFm _ _ | .setpitchFm _ _ | .setlevelFm _ _ | .choffFm _ | .fmkeyon _ _ _
  | .fmkeyoff _ | .fmpan _ _ | .fminst _ _ | .fmpitch _ _ | .fmlevel _ _ | .fmreset => [.registers, .fm]
  | .loadinstFm _ _ _ | .fmload _ _ => [.fm]
  | .keyonPcm _ _ _ | .keyoffPcm _ | .setpanPcm _ _ | .setinstPcm _ _ | .setpitchPcm _ _ | .setlevelPcm _ _ | .choffPcm _
  | .loadinstPcm _ _ _ | .reserve _ | .ldwave _ | .unwave _ | .playfx _ _ _ _ | .pcmoff _ | .pcmenv => [.pcm]
  | .ldsmp _ _ _ => [.sampleRam]
  | .wrreg _ _ _ | .wrregb _ _ _ => [.registers, .fm, .ssg, .rhythm]
  | .setta _ | .settb _ => [.registers]
  | .enta _ | .entb _ => [.timers]
  | .setvol _ _ | .rstvol | .setmute _ _ => [.lanes]
  | .rdregb _ _ | .fxq _ | .getvol _ | .cdtoggle _ | .getvol2 _ | .getmute _ | .unsupported55 _ | .unsupported74 _ | .unsupported75 _
  | .unsupported _ _ => []
  | .ssgToneLow _ _ | .ssgToneHigh _ _ | .ssgNoisePeriod _ | .ssgEnable _ | .ssgLevel _ _ | .ssgEnvPeriod _ _ | .ssgEnvShape _ =>
    [.registers, .ssg]
  | .rhythmKey _ => [.registers, .rhythm]
  | .fmKey _ | .fmFnumLow _ _ | .fmBlockFnumHigh _ _ => [.registers, .fm]
  | .rhythmTotalLevel _ | .rhythmChannelLevel _ _ | .timerAHigh _ | .timerALow _ | .timerB _ | .fmDtMul _ _ _ | .fmTl _ _ _
  | .fmKsAr _ _ _ | .fmAmDr _ _ _ | .fmSr _ _ _ | .fmSlRr _ _ _ | .fmFbAlg _ _ | .fmPan _ _ | .storedOnly _ _ _ => [.registers]

/-! ## The shape of commands (R81, R82) -/

/-- The codes that R82 lists. -/
def listedCodes : List Int :=
  [0, 1, 2, 3, 4, 5, 7, 8, 9, 17, 19, 20, 21, 22, 23, 24, 32, 33, 34, 35, 37, 39, 40] ++
  [50, 51, 52, 53, 54, 56, 57, 58, 67, 68, 69, 70, 71, 72, 73, 80]

/-- The arguments have the kinds listed, one by one (R81). -/
def argsFit : List ArgKind → List Arg → Bool
  | [], [] => true
  | .int :: ks, .int _ :: as => argsFit ks as
  | .buf :: ks, .buf _ :: as => argsFit ks as
  | _, _ => false

/-- The argument list fits the code: codes 69, 71 and 72 take any (R81). -/
def shapeOk (code : Int) (args : List Arg) : Bool := decide (code ∈ [69, 71, 72]) || argsFit (argKinds code.toNat) args

/-! ## Well-formed parts -/

/-- The fields of a sample lie in their ranges, its data has its size, its loop region lies inside it (R21, R96). -/
structure Sample.Ok (w : Sample) : Prop where
  size_pos : 1 ≤ w.size
  data_length : w.data.length = w.size
  loop_le : w.loopStart + w.loopLen ≤ w.size
  rate_lt : w.rate < 2 ^ 16
  rateOffset_ge : -2 ^ 15 ≤ w.rateOffset
  rateOffset_lt : w.rateOffset < 2 ^ 15
  baseNote_lt : w.baseNote < 2 ^ 16

/-- A wave-table record is well formed (R21). -/
structure WaveRec.Ok (w : WaveRec) : Prop where
  name_length : w.name.length = 8
  id_ge : -2 ^ 31 ≤ w.id
  id_lt : w.id < 2 ^ 31
  size_le : w.sample.size ≤ 65504
  sample_ok : w.sample.Ok

/-- A source is a table of the store, or a private copy (R22). -/
def Source.OfStore (waves : List WaveRec) (src : Source) : Prop :=
  match src.waveId with
  | some id => ∃ w ∈ waves, w.id = id ∧ w.sample = src.sample
  | none => True

/-- A running channel has a well-formed source that the store still holds, the source's loop end, and a cursor below it (R28, R203,
R207). -/
def PcmChannel.SourceOk (waves : List WaveRec) (c : PcmChannel) : Prop :=
  match c.src with
  | none => c.activeOutput = false
  | some src =>
    c.activeOutput = true ∧ src.sample.Ok ∧ src.OfStore waves ∧ c.loopEnd = src.sample.loopEndOf ∧ c.pos < c.loopEnd * 65536 ∧
      (src.waveId = none ↔ c.activeEffect = true)

/-- The flags of a channel agree (R22): a running channel plays a note or an effect, never both; a held key is a note's; an effect plays
on a reserved channel only (R218). -/
structure PcmChannel.FlagsOk (c : PcmChannel) : Prop where
  output_iff : c.activeOutput = (c.activeKey || c.activeEffect)
  exclusive : (c.activeKey && c.activeEffect) = false
  pressed : c.keyPressed = true → c.activeKey = true
  effect_reserved : c.activeEffect = true → c.reserved = true
  pitch_ok : pitchInRange c.pitch = true

/-- `x` is a 12-bit signed sample (R7, R24). -/
def is12 (x : Int) : Prop := -2048 ≤ x ∧ x ≤ 2047

/-- A rhythm channel's decoder values are samples, and its end lies in the ROM (R28, R42). -/
structure RhyChannel.Ok (P : Params) (c : RhyChannel) : Prop where
  acc_ok : is12 c.acc
  s0_ok : is12 c.s0
  s1_ok : is12 c.s1
  stop_le : c.stop ≤ P.rhyRom.length

/-! ## The invariant -/

/-- What holds of the block at every moment, inside a `produce` call too (R28 and the rules named at its parts). -/
structure BlockInv (P : Params) (s : State) : Prop where
  /-- R28. -/
  total_eq : s.waveTotal = (s.waves.map fun w => w.sample.size).sum
  /-- R28, R41. -/
  total_le : s.waveTotal ≤ 65504
  /-- R28. -/
  count_le : s.waves.length ≤ 128
  /-- R21: no two records have one id. -/
  ids_nodup : (s.waves.map fun w => w.id).Nodup
  waves_ok : ∀ w ∈ s.waves, w.Ok
  /-- R28: the reserved channels are the top ones. -/
  reserved_le : s.reservedCount ≤ 8
  reserved_iff : ∀ j : PcmCh, s.pcm[j].reserved = decide (8 - s.reservedCount ≤ j.val)
  source_ok : ∀ j : PcmCh, s.pcm[j].SourceOk s.waves
  flags_ok : ∀ j : PcmCh, s.pcm[j].FlagsOk
  /-- R28: envelope levels of the FM operators. -/
  level_le : ∀ ch : FmCh, s.fm[ch].op1.level ≤ 1023 ∧ s.fm[ch].op2.level ≤ 1023
  pitch_ok : ∀ ch : FmCh, pitchInRange s.voice[ch].pitch = true
  rhy_ok : ∀ i : RhyCh, s.rhy[i].Ok P
  /-- R28, R241. -/
  queue_le : s.ssg.queue.length ≤ P.ssgQueueCap
  /-- R243: the noise register never locks at 0. -/
  lfsr_ne : s.ssg.lfsr ≠ 0
  /-- The canonical form of `pcmRam`. -/
  ram_wf : s.pcmRam.wf = true
  /-- R362, R365, R366: these two faults come with a refusal, the second only under external locking. -/
  reentry_refused : s.faults.produceReentry = true → s.refused = true
  lock_refused : s.faults.lockViolation = true → s.refused = true ∧ s.externalLocking = true

/-- The invariant between host steps: the block's, and no `produce` call is running (R26). -/
structure Inv (s : State) : Prop where
  block : BlockInv params s
  idle : s.inProduce = false

end Sys2Proof.Machine
end

