-- ==== Sys2Proof/Certificates/Slice0/Obligations.lean ====
section
/-! DEFINITION. The statements about the model, for the provers: one `def Obligations.<Name> : Prop` each, listed in OBLIGATIONS.json. -/

open Sys2Proof Sys2Proof.Machine

/-! ## Encoding -/

/-- Decoding the encoding of a well-formed instruction gives it back, with every operand (R82, R84, R85, R87, R88). -/
def Obligations.DecodeEncode : Prop := ∀ i : Instr, i.WellFormed → decode (encode i) = .ok i

/-- What the decoder gives is well-formed, and encodes to what was decoded: each encoding has one meaning. -/
def Obligations.EncodeDecode : Prop := ∀ (e : Encoded) (i : Instr), decode e = .ok i → i.WellFormed ∧ encode i = e

/-- R81: an unlisted code gives `(4, none)` and changes nothing, whatever its arguments are; a listed code with fitting arguments is run
as the instruction it decodes to; a listed code with other arguments is refused: the mark is set, there is no result. -/
def Obligations.CommandDecoding : Prop :=
  ∀ (code : Int) (args : List Arg) (s : State),
    (code ∉ listedCodes → processCommand code args s = .next (s.returning .unsupported none)) ∧
    (code ∈ listedCodes → shapeOk code args = true →
      ∃ i, decode (.command code args) = .ok i ∧ processCommand code args s = exec i s) ∧
    (code ∈ listedCodes → shapeOk code args = false → processCommand code args s = .next { s with refused := true, result := none })

/-- R84: bit 6 of a channel argument that is not negative selects PCM, anything else FM; a channel outside the engine's range gives 1,
whatever the other arguments are, in the shared, the FM-only and the PCM-only codes. -/
def Obligations.ChannelRouting : Prop :=
  (∀ c a b : Int, 0 ≤ c → c / 64 % 2 = 1 →
    decode (.command 1 [.int c, .int a, .int b]) = .ok (.keyonPcm c a b) ∧
    decode (.command 2 [.int c]) = .ok (.keyoffPcm c) ∧
    decode (.command 3 [.int c, .int a]) = .ok (.setpanPcm c a) ∧
    decode (.command 4 [.int c, .int a]) = .ok (.setinstPcm c a) ∧
    decode (.command 7 [.int c, .int a]) = .ok (.setpitchPcm c a) ∧
    decode (.command 8 [.int c, .int a]) = .ok (.setlevelPcm c a) ∧
    decode (.command 9 [.int c]) = .ok (.choffPcm c)) ∧
  (∀ c a b : Int, c < 0 ∨ c / 64 % 2 = 0 →
    decode (.command 1 [.int c, .int a, .int b]) = .ok (.keyonFm c a b) ∧
    decode (.command 2 [.int c]) = .ok (.keyoffFm c) ∧
    decode (.command 3 [.int c, .int a]) = .ok (.setpanFm c a) ∧
    decode (.command 4 [.int c, .int a]) = .ok (.setinstFm c a) ∧
    decode (.command 7 [.int c, .int a]) = .ok (.setpitchFm c a) ∧
    decode (.command 8 [.int c, .int a]) = .ok (.setlevelFm c a) ∧
    decode (.command 9 [.int c]) = .ok (.choffFm c)) ∧
  (∀ (c a b : Int) (d : List Byte) (s : State), c < 0x40 ∨ 0x47 < c →
    ∀ i ∈ [Instr.keyonPcm c a b, .keyoffPcm c, .setpanPcm c a, .setinstPcm c a, .setpitchPcm c a, .setlevelPcm c a, .choffPcm c,
        .playfx c a b d, .pcmoff c, .fxq c], Fails i s .badChannel) ∧
  (∀ (c a b : Int) (s : State), c < 0 ∨ 5 < c →
    ∀ i ∈ [Instr.keyonFm c a b, .keyoffFm c, .setpanFm c a, .setinstFm c a, .setpitchFm c a, .setlevelFm c a, .choffFm c,
        .fmkeyon c a b, .fmkeyoff c, .fmpan c a, .fminst c a, .fmpitch c a, .fmlevel c a], Fails i s .badChannel)

/-- A few encodings of the spec, read from its tables: R103, R82 and the map of R15. -/
def Obligations.DecodedWords : Prop :=
  decode (.command 1 [.int 0, .int 60, .int 100]) = .ok (.keyonFm 0 60 100) ∧
  decode (.command 1 [.int 0x41, .int 60, .int 100]) = .ok (.keyonPcm 0x41 60 100) ∧
  decode (.command 19 [.int 1, .int 0xB4, .int 0xC0]) = .ok (.wrregb 1 0xB4 0xC0) ∧
  decode (.command 6 []) = .ok (.unsupported 6 []) ∧
  decode (.regWrite 0 0x28 0x91) = .ok (.fmKey 0x91) ∧
  decode (.regWrite 1 0x4E 0x12) = .ok (.fmTl 5 .op2 0x12) ∧
  decode (.regWrite 0 0x1D 0xDF) = .ok (.rhythmChannelLevel 5 0xDF)

/-! ## The step -/

/-- The host's next command, if it decodes to `i` and does not overlap under external locking, runs `i`; a level-2 word runs as the
command 17 that carries it; with nothing pending the state stays as it is (R48, R120, R373; assumption log entries 3 and 4). -/
def Obligations.StepRunsDecoded : Prop :=
  (∀ (s : State) (h : HostStep) (rest : List HostStep) (code : Int) (args : List Arg) (i : Instr),
    s.pending = h :: rest → h.call = .command code args → (h.overlaps = true → s.externalLocking = false) →
    decode (.command code args) = .ok i → step s = exec i { s with pending := rest }) ∧
  (∀ (s : State) (nbits w : Nat) (code : Int) (args : List Arg) (i : Instr),
    wireEncoded (w % 2 ^ nbits) = .command code args → decode (.command code args) = .ok i →
    step (s.withFetchWord nbits w) = exec i s) ∧
  (∀ (s t : State) (nbits w p r v : Nat) (i : Instr),
    wireEncoded (w % 2 ^ nbits) = .regWrite p r v → decode (.regWrite p r v) = .ok i → exec i s = .next t →
    step (s.withFetchWord nbits w) = .next (t.returning .success none)) ∧
  (∀ s : State, s.pending = [] → step s = .next s)

/-- R360: no failure stops the block. Every step gives a next state; every command gives a result code. An idle step is the model's
(assumption log entry 3). -/
def Obligations.NothingStops : Prop :=
  (∀ s : State, ∃ t, step s = .next t) ∧
  (∀ (i : Instr) (s : State), ∃ t, exec i s = .next t ∧ (i.isRegWrite = false → t.result.isSome = true))

/-- R121, R122: a command that returns a non-zero result code has changed no state and gives no out-value; an out-value comes from RDREGB,
FXQ and GETMUTE alone, which give one whenever they succeed. -/
def Obligations.CommandResults : Prop :=
  ∀ (i : Instr) (s t : State) (r : CmdResult), i.isRegWrite = false → exec i s = .next t → t.result = some r →
    (r.rc.code ≠ 0 → t = s.returning r.rc none) ∧
    (r.out.isSome = true ↔ r.rc = .success ∧ ((∃ p x, i = .rdregb p x) ∨ (∃ c, i = .fxq c) ∨ (∃ l, i = .getmute l)))

/-- R26: no step clears a fault flag or the refused mark. -/
def Obligations.FaultsAreSticky : Prop :=
  ∀ s t : State, step s = .next t →
    (s.faults.ssgQueueOverflow = true → t.faults.ssgQueueOverflow = true) ∧
    (s.faults.produceReentry = true → t.faults.produceReentry = true) ∧
    (s.faults.bufferBounds = true → t.faults.bufferBounds = true) ∧
    (s.faults.lockViolation = true → t.faults.lockViolation = true) ∧
    (s.refused = true → t.refused = true)

/-- What every instruction leaves alone. Only LDSMP changes a byte of `pcmRam` (R40, R213); no instruction touches the applied registers, the
counters or the noise register of the SSG, and its queue only grows (R27, R49); none touches the masks, the callbacks, `inProduce`, the lock
setting, the refused mark (R26, R369) or the rhythm divider. -/
def Obligations.WhatEveryInstructionLeavesAlone : Prop :=
  ∀ (i : Instr) (s t : State), exec i s = .next t →
    ((∀ a n d, i ≠ .ldsmp a n d) → ∀ a : Nat, Memory.read t.pcmRam a = Memory.read s.pcmRam a) ∧
    t.ssg = { s.ssg with queue := t.ssg.queue } ∧ s.ssg.queue <+: t.ssg.queue ∧
    t.timerA.callback = s.timerA.callback ∧ t.timerB.callback = s.timerB.callback ∧
    t.maskA = s.maskA ∧ t.maskB = s.maskB ∧ t.inProduce = s.inProduce ∧ t.externalLocking = s.externalLocking ∧
    t.refused = s.refused ∧ t.rhyDivCnt = s.rhyDivCnt

/-! ## Register writes (R300 to R306) -/

/-- R300, R301, R302: a raw write sets the chip register, leaves the shadow alone, and has the effect of its address and no other; a buffered
write sets the shadow and makes the raw write, so that both images hold the value, and nothing else of them changes. -/
def Obligations.RegisterWrites : Prop :=
  ∀ (P : Params) (p : Part) (r : Nat) (v : Byte) (s : State), r < 256 →
    let t := writeRaw P p r v s
    t.chip p r = v ∧ ChipSame s t [(p, r)] ∧ t.shadow = s.shadow ∧
    (p = 0 → r ≤ 0x0D → ∃ r14 : Fin 14, r14.val = r ∧ t = ssgEnqueue P r14 v (s.setChip p r v)) ∧
    (p = 0 → r = 0x10 → t = rhyKeyWrite P v (s.setChip p r v)) ∧
    (p = 0 → r = 0x28 → t = keyWrite v (s.setChip p r v)) ∧
    (0xA4 ≤ r → r ≤ 0xA6 → t = latchWrite p v (s.setChip p r v)) ∧
    (0xA0 ≤ r → r ≤ 0xA2 → t = freqLoad p (r - 0xA0) v (s.setChip p r v)) ∧
    (¬(p = 0 ∧ (r ≤ 0x0D ∨ r = 0x10 ∨ r = 0x28)) → ¬(0xA4 ≤ r ∧ r ≤ 0xA6) → ¬(0xA0 ≤ r ∧ r ≤ 0xA2) → t = s.setChip p r v) ∧
    let u := writeShadowed P p r v s
    u = writeRaw P p r v (s.setShad p r v) ∧ u.shad p r = v ∧ u.chip p r = v ∧ ChipSame s u [(p, r)] ∧ ShadSame s u [(p, r)]

/-- D1, R87: a level-2 instruction makes the raw write of the triple it encodes, and nothing else. This is the completion of all its
constructors. That a write is an instruction by itself is the reading of assumption log entry 4. -/
def Obligations.LevelTwoCompletes : Prop :=
  ∀ (i : Instr) (p : Part) (r : Nat) (v : Byte) (s : State), encode i = .regWrite p.val r v.toNat →
    exec i s = .next (writeRaw params p r v s)

/-- R303, R304, R305: WRREG makes a raw write, WRREGB a buffered one, RDREGB gives the shadow byte; a part, register or value out of
range gives code 3. -/
def Obligations.RegisterCommands : Prop :=
  (∀ (p : Part) (r : Nat) (v : Byte) (s : State), (if p = 0 then r ≤ 0xB6 else 0x30 ≤ r ∧ r ≤ 0xB6) →
    exec (.wrreg p.val r v.toNat) s = .next ((writeRaw params p r v s).returning .success none) ∧
    exec (.wrregb p.val r v.toNat) s = .next ((writeShadowed params p r v s).returning .success none) ∧
    exec (.rdregb p.val r) s = .next (s.returning .success (some (s.shad p r).toNat))) ∧
  (∀ (part reg value : Int) (s : State),
    ¬((part = 0 ∧ 0 ≤ reg ∧ reg ≤ 0xB6) ∨ (part = 1 ∧ 0x30 ≤ reg ∧ reg ≤ 0xB6)) →
    Fails (.wrreg part reg value) s .badValue ∧ Fails (.wrregb part reg value) s .badValue ∧ Fails (.rdregb part reg) s .badValue) ∧
  (∀ (part reg value : Int) (s : State), value < 0 ∨ 255 < value →
    Fails (.wrreg part reg value) s .badValue ∧ Fails (.wrregb part reg value) s .badValue)

/-- R306: WRREGB then RDREGB gives the value back, for every register of the range, and under every register map too; RDREGB outside the
range gives 3. R8, R15, R303 to R305 (`REG_MAP`): under every register map, WRREG and WRREGB write the row that the address selects with the
byte in R15's layout, RDREGB turns it back, a level-2 word decodes to the write that WRREG makes, and no two addresses select one row. This
block's map is R15's own: an address is its own row, and a byte is in its layout. The form of a map is the model's (assumption log entry 19);
the spec derives R306 from R301, R302, R304 and R305. -/
def Obligations.RegisterMapAndRoundTrip : Prop :=
  (∀ (p : Part) (r : Nat) (v : Byte) (s : State), (if p = 0 then r ≤ 0xB6 else 0x30 ≤ r ∧ r ≤ 0xB6) →
    ∃ t, exec (.wrregb p.val r v.toNat) s = .next t ∧ t.result = some { rc := .success, out := none } ∧
      ∃ u, exec (.rdregb p.val r) t = .next u ∧ u.result = some { rc := .success, out := some (v.toNat : Int) }) ∧
  (∀ (P : Params) (p : Part) (r : Nat) (v : Byte) (s : State), (if p = 0 then r ≤ 0xB6 else 0x30 ≤ r ∧ r ≤ 0xB6) →
    ∃ t, writeRegisterBuffered P p.val r v.toNat s = .next t ∧ t.result = some { rc := .success, out := none } ∧
      ∃ u, readRegisterBuffered P p.val r t = .next u ∧ u.result = some { rc := .success, out := some (v.toNat : Int) }) ∧
  (∀ (p : Part) (reg : Int) (s : State), ¬(if p = 0 then 0 ≤ reg ∧ reg ≤ 0xB6 else 0x30 ≤ reg ∧ reg ≤ 0xB6) →
    Fails (.rdregb p.val reg) s .badValue) ∧
  (∀ (P : Params) (p : Part) (r : Nat) (v : Byte) (s : State), (if p = 0 then r ≤ 0xB6 else 0x30 ≤ r ∧ r ≤ 0xB6) →
    let q := (P.regMap.row (p, r)).1
    let x := (P.regMap.row (p, r)).2
    let w := P.regMap.layout (p, r) v
    (if q = 0 then x ≤ 0xB6 else 0x30 ≤ x ∧ x ≤ 0xB6) ∧
    writeRegister P p.val r v.toNat s = .next ((writeRaw P q x w s).returning .success none) ∧
    writeRegisterBuffered P p.val r v.toNat s = .next ((writeShadowed P q x w s).returning .success none) ∧
    (∃ b : Byte, P.regMap.layout (p, r) b = s.shad q x ∧
      readRegisterBuffered P p.val r s = .next (s.returning .success (some b.toNat))) ∧
    ∃ i, decodeWith P.regMap (.regWrite p.val r v.toNat) = .ok i ∧ i.wf = true ∧ encode i = .regWrite q.val x w.toNat) ∧
  (∀ (P : Params) (a b : Part × Nat), P.regMap.row a = P.regMap.row b → a = b) ∧
  ∀ (a : Part × Nat) (v : Byte), params.regMap.row a = a ∧ params.regMap.layout a v = v

/-! ## FM key register, latch, operator pair -/

/-- R155: on a write of the key register, bits 1-0 equal to 3 name no channel; else each operator of the channel named takes its key bit:
an off-to-on edge starts the attack with phase 0, an on-to-off edge the release unless Ready, and no edge does nothing. The bit layout is
the spec's own (I3). -/
def Obligations.KeyRegister : Prop :=
  ∀ (P : Params) (v : Byte) (s : State),
    let t := writeRaw P 0 0x28 v s
    let next := fun (on : Bool) (o : Operator) =>
      { o with
        key := on
        eg := if on = true ∧ o.key = false then .attacking
          else if on = false ∧ o.key = true ∧ o.eg ≠ .ready then .releasing else o.eg
        phase := if on = true ∧ o.key = false then 0 else o.phase }
    (v.toNat % 4 = 3 → t = s.setChip 0 0x28 v) ∧
    (∀ ch : FmCh, v.toNat % 4 = fmIdx ch → v.getLsbD 2 = decide ((fmPart ch).val = 1) →
      t = (s.setChip 0 0x28 v).setFm ch
        { s.fm[ch] with op1 := next (v.getLsbD 4) s.fm[ch].op1, op2 := next (v.getLsbD 7) s.fm[ch].op2 })

/-- R157: a write of 0xA4 + c sets the latch of the part and nothing else; a write of 0xA0 + c loads block and fnum of channel 3p + c from
the latch and the value; the latch is shared by the part and keeps its value. The latch is the spec's own (I3). -/
def Obligations.FrequencyLatch : Prop :=
  ∀ (P : Params) (ch : FmCh) (v : Byte) (s : State),
    writeRaw P (fmPart ch) (0xA4 + fmIdx ch) v s =
      { s.setChip (fmPart ch) (0xA4 + fmIdx ch) v with fnumLatch := s.fnumLatch.set (fmPart ch).val (BitVec.ofNat 6 v.toNat) } ∧
    (∃ (block : Fin 8) (fnum : Fin 2048),
      block.val = s.fnumLatch[fmPart ch].toNat / 8 ∧ fnum.val = s.fnumLatch[fmPart ch].toNat % 8 * 256 + v.toNat ∧
      writeRaw P (fmPart ch) (0xA0 + fmIdx ch) v s =
        (s.setChip (fmPart ch) (0xA0 + fmIdx ch) v).setFm ch { s.fm[ch] with block := block, fnum := fnum }) ∧
    (∀ r, r = 0xA3 ∨ r = 0xA7 → writeRaw P (fmPart ch) r v s = s.setChip (fmPart ch) r v)

/-- R140, R141, R143, R270: the fields of an operator, of a channel and of the rhythm unit are the bits of the chip registers that the tables
name, read now; the effective rate is 0 for base 0, else twice the base plus the scaled key code, at most 63. The layouts and the rate formula
are the spec's own (I3, I6). -/
def Obligations.FieldsAndRate : Prop :=
  (∀ (s : State) (ch : FmCh) (op : OpSel),
    let o := match op with
      | .op1 => 0
      | .op2 => 0x0C
    let reg := fun (row : Nat) => (s.chip (fmPart ch) (row + o + fmIdx ch)).toNat
    let f := opFields s ch op
    f.dt.val = reg 0x30 / 16 % 8 ∧ f.mul.val = reg 0x30 % 16 ∧ f.tl.val = reg 0x40 % 128 ∧ f.ks.val = reg 0x50 / 64 ∧
    f.ar.val = reg 0x50 % 32 ∧ f.dr.val = reg 0x60 % 32 ∧ f.sr.val = reg 0x70 % 32 ∧ f.sl.val = reg 0x80 / 16 ∧
    f.rr.val = reg 0x80 % 16) ∧
  (∀ (s : State) (ch : FmCh),
    let k := chFields s ch
    k.fb.val = (s.chip (fmPart ch) (0xB0 + fmIdx ch)).toNat / 8 % 8 ∧ k.alg.val = (s.chip (fmPart ch) (0xB0 + fmIdx ch)).toNat % 8 ∧
    k.left = (s.chip (fmPart ch) (0xB4 + fmIdx ch)).getLsbD 7 ∧ k.right = (s.chip (fmPart ch) (0xB4 + fmIdx ch)).getLsbD 6) ∧
  (∀ (s : State) (i : RhyCh),
    (rhyTotalLevel s).val = (s.chip 0 0x11).toNat % 64 ∧ (rhyChannelLevel s i).val = (s.chip 0 (0x18 + i.val)).toNat % 32 ∧
    rhyLeft s i = (s.chip 0 (0x18 + i.val)).getLsbD 7 ∧ rhyRight s i = (s.chip 0 (0x18 + i.val)).getLsbD 6) ∧
  ∀ (f : OpFields) (kc : Fin 32) (st : EgState), st ≠ .ready →
    let base := match st with
      | .ready => 0
      | .attacking => f.ar.val
      | .decaying => f.dr.val
      | .sustaining => f.sr.val
      | .releasing => 2 * f.rr.val + 1
    (base = 0 → (effRate f kc st).val = 0) ∧
    (base ≠ 0 → (effRate f kc st).val = min 63 (2 * base + kc.val / 2 ^ (3 - f.ks.val)))

/-- R145, with R144: one envelope step, by the state it starts in; the pair is that of the effective rate (R143). -/
def Obligations.EnvelopeStep : Prop :=
  ∀ (P : Params) (f : OpFields) (kc : Fin 32) (o : Operator), o.level ≤ 1023 →
    let t := o.tick + 1
    let eff := effRate f kc o.eg
    let inc := P.adt (P.rateTab eff + t.toNat / 2 ^ P.shiftTab eff % 8)
    let o' := envStep P f kc o
    (o.eg = .ready → o' = o) ∧
    (o.eg ≠ .ready → o'.tick = t ∧ o'.phase = o.phase ∧ o'.key = o.key ∧ o'.out = o.out) ∧
    (o.eg ≠ .ready → t.toNat % 2 ^ P.shiftTab eff ≠ 0 → o'.level = o.level ∧ o'.eg = o.eg) ∧
    (t.toNat % 2 ^ P.shiftTab eff = 0 →
      (o.eg = .attacking →
        (o'.level : Int) = max 0 (P.attackStep o.level inc) ∧
        o'.eg = if o'.level = 0 then (if f.sl.val = 0 then .sustaining else .decaying) else .attacking) ∧
      (o.eg = .decaying →
        o'.level = min 1023 (o.level + inc) ∧ o'.eg = if (P.slTarget f.sl).val ≤ o'.level then .sustaining else .decaying) ∧
      (o.eg = .sustaining → o'.level = min 1023 (o.level + inc) ∧ o'.eg = .sustaining) ∧
      (o.eg = .releasing → o'.level = min 1023 (o.level + inc) ∧ o'.eg = if o'.level = 1023 then .ready else .releasing))

/-- R147: while an operator stays in Attacking its level does not rise; while it stays in another state it does not fall; the level and
the state change only on the ticks of R144. The spec derives it from R144 to R146. -/
def Obligations.EnvelopeMonotone : Prop :=
  ∀ (P : Params) (f : OpFields) (kc : Fin 32) (o : Operator), o.level ≤ 1023 →
    (o.eg = .attacking → (envStep P f kc o).level ≤ o.level) ∧
    (o.eg ≠ .attacking → o.level ≤ (envStep P f kc o).level) ∧
    ((envStep P f kc o).level ≠ o.level ∨ (envStep P f kc o).eg ≠ o.eg →
      o.eg ≠ .ready ∧ (o.tick + 1).toNat % 2 ^ P.shiftTab (effRate f kc o.eg) = 0)

/-- R148, R150: the output of one operator. A Ready one outputs 0 and keeps its phase; any other is silent from attenuation 832 on, else
outputs the log-sine entry at its phase index plus the modulation, modulo 1024, and advances its phase by the increment of R148. The scale
of TL is the spec's own (I6). -/
def Obligations.OperatorOutput : Prop :=
  ∀ (P : Params) (f : OpFields) (c : FmChannel) (pm : Int) (o : Operator) (idx : Fin 1024),
    (((o.phase.toNat / 2 ^ 22 : Nat) : Int) + pm - idx.val) % 1024 = 0 →
    let atten := f.tl.val * 2 ^ P.tlShift + o.level
    let kc := P.keycode c.block c.fnum
    let inc := BitVec.ofInt 32 ((((P.freqBase c.block c.fnum : Int) + P.dtTab f.dt kc) * P.mul2 f.mul) / 2)
    let o' := opOut P f c pm o
    (o.eg = .ready → o' = { o with out := 0 }) ∧
    (o.eg ≠ .ready → o' = { o with out := o'.out, phase := o.phase + inc } ∧ (832 ≤ atten → o'.out = 0) ∧
      ∀ h : atten < 832, o'.out = P.sinlog idx ⟨atten, h⟩)

/-- R152, R153, R154: one tick of an operator pair. Operator 1 is modulated by its last two outputs unless FB is 0, operator 2 by operator
1's output of this tick in the serial connection; the feedback buffer always shifts; block and fnum stay; serial hears operator 2, parallel
the sum, on the sides that L and R open. Step 3 of a tick (R331) runs each channel once, from its own state and registers, and changes nothing
else. -/
def Obligations.OperatorPairTick : Prop :=
  (∀ (P : Params) (s : State),
    (∀ ch : FmCh, (fmTick P s).fm[ch] = fmChannelNext P (opFields s ch .op1) (opFields s ch .op2) (chFields s ch) s.fm[ch]) ∧
    fmTick P s = { s with fm := (fmTick P s).fm }) ∧
  ∀ (P : Params) (f1 f2 : OpFields) (cf : ChFields) (c : FmChannel),
    let kc := P.keycode c.block c.fnum
    let c' := fmChannelNext P f1 f2 cf c
    let pm1 := if cf.fb.val = 0 then 0 else asr (c.fb0 + c.fb1) (P.fbShift cf.fb)
    let pm2 := if P.connect cf.alg = .serial then asr c'.op1.out P.modShift else 0
    let y := if P.connect cf.alg = .serial then c'.op2.out else c'.op1.out + c'.op2.out
    c'.op1 = opOut P f1 c pm1 (envStep P f1 kc c.op1) ∧ c'.op2 = opOut P f2 c pm2 (envStep P f2 kc c.op2) ∧
    c'.fb0 = c.fb1 ∧ c'.fb1 = c'.op1.out ∧ c'.block = c.block ∧ c'.fnum = c.fnum ∧
    fmChannelOut P cf c' = { left := if cf.left = true then y else 0, right := if cf.right = true then y else 0 }

/-! ## FM voice commands (R170 to R190) -/

/-- R170: the frequency of a note and a pitch. Note 0 gives block 0 and the floor; any other note starts at `(n - 1) div 12` and the table
entry plus the scaled pitch, shifts by at most one block, and is clamped; block and fnum never leave their ranges. The form of the shift
is the spec's own (D44, I13). -/
def Obligations.FmFrequency : Prop :=
  ∀ (P : Params) (n : Fin 96) (pitch : Int),
    let b := (n.val - 1) / 12
    let f : Int := P.fnumTab ⟨(n.val - 1) % 12, Nat.mod_lt _ (by decide)⟩ + P.pitchScale pitch
    let r := fmFreq P n pitch
    (n.val = 0 → r = (0, P.freqFloor)) ∧
    (n.val ≠ 0 → P.freqFloor ≤ f → f ≤ P.freqCeil → r.1 = b ∧ (r.2 : Int) = f) ∧
    (n.val ≠ 0 → f < P.freqFloor →
      (b = 0 → r = (0, P.freqFloor)) ∧
      (b ≠ 0 → r.1 = b - 1 ∧ (r.2 : Int) = max (P.freqFloor : Int) (min (P.freqCeil : Int) (f + P.freqFloor)))) ∧
    (n.val ≠ 0 → P.freqCeil < f →
      (b = 7 → r = (7, P.freqCeil)) ∧
      (b ≠ 7 → r.1 = b + 1 ∧ (r.2 : Int) = max (P.freqFloor : Int) (min (P.freqCeil : Int) (f - P.freqFloor)))) ∧
    r.1 ≤ 7 ∧ P.freqFloor ≤ r.2 ∧ r.2 ≤ P.freqCeil

/-- R173 (codes 1 and 50): the checks of FM key-on in order, and its effect: playing flag, note, velocity; the frequency pair through the
latch; both total levels; the key strobe, after which both operators attack from their level with phase 0; the sustain rewrite from the
shadow. Nothing else changes. -/
def Obligations.FmKeyOn : Prop :=
  (∀ (chan note vel : Int) (s : State), ∀ i ∈ [Instr.keyonFm chan note vel, .fmkeyon chan note vel],
    (chan < 0 ∨ 5 < chan → Fails i s .badChannel) ∧
    (0 ≤ chan → chan ≤ 5 → note < 12 ∨ 107 < note ∨ vel < 0 ∨ 127 < vel → Fails i s .badValue)) ∧
  (∀ (ch : FmCh) (n : Fin 96) (v : Level7) (s : State),
    ∀ i ∈ [Instr.keyonFm ch.val (n.val + 12) v.val, .fmkeyon ch.val (n.val + 12) v.val],
    (s.voice[ch].playing = true → Fails i s .busy) ∧
    (s.voice[ch].playing = false → ∃ t, exec i s = .next t ∧
      let p := fmPart ch
      let c := fmIdx ch
      let bf := fmFreq params n s.voice[ch].pitch
      let B := s.fmBank[s.voice[ch].program]
      let on := fun (o : Operator) => { o with eg := .attacking, phase := 0, key := true }
      t.result = some { rc := .success, out := none } ∧
      t.voice = s.voice.set ch.val { s.voice[ch] with playing := true, note := n, velocity := v } ∧
      t.fm = s.fm.set ch.val
        { s.fm[ch] with
          op1 := on s.fm[ch].op1, op2 := on s.fm[ch].op2, block := Fin.ofNat 8 bf.1, fnum := Fin.ofNat 2048 bf.2 } ∧
      t.fnumLatch = s.fnumLatch.set p.val (BitVec.ofNat 6 (bf.1 * 8 + bf.2 / 256)) ∧
      (∀ img : Part → Nat → Byte, img = t.chip ∨ img = t.shad →
        img p (0xA4 + c) = BitVec.ofNat 8 (bf.1 * 8 + bf.2 / 256) ∧ img p (0xA0 + c) = BitVec.ofNat 8 bf.2 ∧
        img p (0x40 + c) = scaledTl params (FmProgram.byte B 12) v s.voice[ch].level ∧
        img p (0x4C + c) = scaledTl params (FmProgram.byte B 15) v s.voice[ch].level) ∧
      t.chip p (0x80 + c) = s.shad p (0x80 + c) ∧ t.chip p (0x8C + c) = s.shad p (0x8C + c) ∧
      t.chip 0 0x28 = BitVec.ofNat 8 (0x90 + p.val * 4 + c) ∧
      ShadSame s t [(p, 0xA4 + c), (p, 0xA0 + c), (p, 0x40 + c), (p, 0x4C + c)] ∧
      ChipSame s t [(p, 0xA4 + c), (p, 0xA0 + c), (p, 0x40 + c), (p, 0x4C + c), (p, 0x80 + c), (p, 0x8C + c), (0, 0x28)] ∧
      t = { s with
        chipReg := t.chipReg, shadow := t.shadow, fnumLatch := t.fnumLatch, fm := t.fm, voice := t.voice, result := t.result }))

/-- R174 (codes 2 and 51) and R180 (code 9): key-off clears the playing flag and writes the key register raw; keyed operators release, a
Ready one stays; channel-off also silences both operators at once. Nothing else changes. -/
def Obligations.FmKeyOffAndChannelOff : Prop :=
  (∀ (chan : Int) (s : State), chan < 0 ∨ 5 < chan → ∀ i ∈ [Instr.keyoffFm chan, .fmkeyoff chan, .choffFm chan], Fails i s .badChannel) ∧
  ∀ (ch : FmCh) (s : State),
    let v := BitVec.ofNat 8 ((fmPart ch).val * 4 + fmIdx ch)
    let voice' := s.voice.set ch.val { s.voice[ch] with playing := false }
    let off := fun (o : Operator) => { o with key := false, eg := if o.key = true ∧ o.eg ≠ .ready then .releasing else o.eg }
    let dead := fun (o : Operator) => { o with key := false, eg := .ready, level := 1023 }
    (∀ i ∈ [Instr.keyoffFm ch.val, .fmkeyoff ch.val],
      exec i s = .next (State.returning
        { s with
          chipReg := RegFile.write s.chipReg 0 0x28 v, voice := voice'
          fm := s.fm.set ch.val { s.fm[ch] with op1 := off s.fm[ch].op1, op2 := off s.fm[ch].op2 } } .success none)) ∧
    exec (.choffFm ch.val) s = .next (State.returning
      { s with
        chipReg := RegFile.write s.chipReg 0 0x28 v, voice := voice'
        fm := s.fm.set ch.val { s.fm[ch] with op1 := dead s.fm[ch].op1, op2 := dead s.fm[ch].op2 } } .success none)

/-- R175, R90 (codes 3 and 52): FM pan writes the two side bits of 0xB4 + c over the shadow's low bits, to both images, and nothing else; a
pan out of range gives 3. -/
def Obligations.FmSetPan : Prop :=
  (∀ (chan a : Int) (s : State), chan < 0 ∨ 5 < chan → ∀ i ∈ [Instr.setpanFm chan a, .fmpan chan a], Fails i s .badChannel) ∧
  (∀ (ch : FmCh) (pan : Int) (s : State), pan < 0 ∨ 127 < pan → Fails (.setpanFm ch.val pan) s .badValue ∧ Fails (.fmpan ch.val pan) s .badValue) ∧
  ∀ (ch : FmCh) (pan : Level7) (s : State), ∀ i ∈ [Instr.setpanFm ch.val pan.val, .fmpan ch.val pan.val],
    let lr : Byte := if pan.val < 64 then 0x80 else if pan.val = 64 then 0xC0 else 0x40
    let v := lr ||| (s.shad (fmPart ch) (0xB4 + fmIdx ch) &&& 0x3F)
    exec i s = .next (State.returning
      { s with
        chipReg := RegFile.write s.chipReg (fmPart ch) (0xB4 + fmIdx ch) v
        shadow := RegFile.write s.shadow (fmPart ch) (0xB4 + fmIdx ch) v } .success none)

/-- R176, R92 (codes 4 and 53): FM set-instrument stores the program number and writes its 25 register bytes to both images, the two
operators' total levels scaled; no other register and nothing else changes; a program out of range gives 3. -/
def Obligations.FmSetInstrument : Prop :=
  (∀ (chan a : Int) (s : State), chan < 0 ∨ 5 < chan → ∀ i ∈ [Instr.setinstFm chan a, .fminst chan a], Fails i s .badChannel) ∧
  (∀ (ch : FmCh) (prog : Int) (s : State), prog < 0 ∨ 127 < prog →
    Fails (.setinstFm ch.val prog) s .badValue ∧ Fails (.fminst ch.val prog) s .badValue) ∧
  ∀ (ch : FmCh) (prog : Fin 128) (s : State), ∀ i ∈ [Instr.setinstFm ch.val prog.val, .fminst ch.val prog.val],
    ∃ t, exec i s = .next t ∧
      let p := fmPart ch
      let c := fmIdx ch
      let B := s.fmBank[prog]
      t = State.returning
        { s with chipReg := t.chipReg, shadow := t.shadow, voice := s.voice.set ch.val { s.voice[ch] with program := prog } }
        .success none ∧
      (∀ img : Part → Nat → Byte, img = t.chip ∨ img = t.shad →
        (∀ row : Fin 6, ∀ j : Fin 4,
          img p (0x30 + 16 * row.val + 4 * j.val + c) =
            if row.val = 1 ∧ (j.val = 0 ∨ j.val = 3) then
              scaledTl params (FmProgram.byte B (12 + j.val)) s.voice[ch].velocity s.voice[ch].level
            else FmProgram.byte B (8 + 4 * row.val + j.val)) ∧
        img p (0xB0 + c) = FmProgram.byte B 32) ∧
      (∀ (q : Part) (x : Nat), ¬(q = p ∧ ((0x30 ≤ x ∧ x ≤ 0x8F ∧ x % 4 = c) ∨ x = 0xB0 + c)) →
        t.chip q x = s.chip q x ∧ t.shad q x = s.shad q x)

/-- R177, R212, R93 (codes 5 and 54): a program load copies the first 48 or 128 bytes of the buffer into the bank and changes nothing else;
a program out of range gives 3, a short buffer 6. -/
def Obligations.LoadInstrument : Prop :=
  ∀ (chanType prog : Int) (data : List Byte) (s : State),
    (∀ i ∈ [Instr.loadinstFm chanType prog data, .fmload prog data],
      (prog < 0 ∨ 127 < prog → Fails i s .badValue) ∧
      (0 ≤ prog → prog ≤ 127 → data.length < 48 → Fails i s .emptyData) ∧
      (∀ k : Fin 128, prog = k.val → 48 ≤ data.length →
        ∃ B : FmProgram, B.toList = data.take 48 ∧
          exec i s = .next (State.returning { s with fmBank := s.fmBank.set k.val B } .success none))) ∧
    (prog < 0 ∨ 31 < prog → Fails (.loadinstPcm chanType prog data) s .badValue) ∧
    (0 ≤ prog → prog ≤ 31 → data.length < 128 → Fails (.loadinstPcm chanType prog data) s .emptyData) ∧
    (∀ k : Fin 32, prog = k.val → 128 ≤ data.length →
      ∃ B : PcmProgram, B.toList = data.take 128 ∧
        exec (.loadinstPcm chanType prog data) s = .next (State.returning { s with pcmBank := s.pcmBank.set k.val B } .success none))

/-- R178, R171 (codes 7 and 56): FM set-pitch stores the pitch and writes the frequency pair of the stored note, high register first, so the
latch loads both halves; nothing else changes; a pitch out of range gives 3. The range of the pitch is the spec's own (I5). -/
def Obligations.FmSetPitch : Prop :=
  (∀ (chan a : Int) (s : State), chan < 0 ∨ 5 < chan → ∀ i ∈ [Instr.setpitchFm chan a, .fmpitch chan a], Fails i s .badChannel) ∧
  (∀ (ch : FmCh) (pitch : Int) (s : State), pitch < -8192 ∨ 8191 < pitch →
    Fails (.setpitchFm ch.val pitch) s .badValue ∧ Fails (.fmpitch ch.val pitch) s .badValue) ∧
  ∀ (ch : FmCh) (pitch : Int) (s : State), -8192 ≤ pitch → pitch ≤ 8191 → ∀ i ∈ [Instr.setpitchFm ch.val pitch, .fmpitch ch.val pitch],
    let p := fmPart ch
    let c := fmIdx ch
    let bf := fmFreq params s.voice[ch].note pitch
    let hi := BitVec.ofNat 8 (bf.1 * 8 + bf.2 / 256)
    let lo := BitVec.ofNat 8 bf.2
    exec i s = .next (State.returning
      { s with
        chipReg := RegFile.write (RegFile.write s.chipReg p (0xA4 + c) hi) p (0xA0 + c) lo
        shadow := RegFile.write (RegFile.write s.shadow p (0xA4 + c) hi) p (0xA0 + c) lo
        fnumLatch := s.fnumLatch.set p.val (BitVec.ofNat 6 (bf.1 * 8 + bf.2 / 256))
        fm := s.fm.set ch.val { s.fm[ch] with block := Fin.ofNat 8 bf.1, fnum := Fin.ofNat 2048 bf.2 }
        voice := s.voice.set ch.val { s.voice[ch] with pitch := pitch } } .success none)

/-- R179, R172 (codes 8 and 57): FM set-level stores the level and rewrites both total levels from the program, with the channel's velocity
and the new level; nothing else changes; a level out of range gives 3. The scaled total level keeps bit 7 of the program's byte; at full
velocity and level it is the byte itself; a higher velocity or level never attenuates more. -/
def Obligations.FmSetLevel : Prop :=
  (∀ (chan a : Int) (s : State), chan < 0 ∨ 5 < chan → ∀ i ∈ [Instr.setlevelFm chan a, .fmlevel chan a], Fails i s .badChannel) ∧
  (∀ (ch : FmCh) (level : Int) (s : State), level < 0 ∨ 127 < level →
    Fails (.setlevelFm ch.val level) s .badValue ∧ Fails (.fmlevel ch.val level) s .badValue) ∧
  (∀ (P : Params) (b : Byte) (v v' l l' : Level7),
    (scaledTl P b v l).getLsbD 7 = b.getLsbD 7 ∧ scaledTl P b 127 127 = b ∧
    (v ≤ v' → l ≤ l' → (scaledTl P b v' l').toNat % 128 ≤ (scaledTl P b v l).toNat % 128)) ∧
  ∀ (ch : FmCh) (level : Level7) (s : State), ∀ i ∈ [Instr.setlevelFm ch.val level.val, .fmlevel ch.val level.val],
    let p := fmPart ch
    let c := fmIdx ch
    let B := s.fmBank[s.voice[ch].program]
    let tl := fun (k : Nat) => scaledTl params (FmProgram.byte B k) s.voice[ch].velocity level
    exec i s = .next (State.returning
      { s with
        chipReg := RegFile.write (RegFile.write s.chipReg p (0x40 + c) (tl 12)) p (0x4C + c) (tl 15)
        shadow := RegFile.write (RegFile.write s.shadow p (0x40 + c) (tl 12)) p (0x4C + c) (tl 15)
        voice := s.voice.set ch.val { s.voice[ch] with level := level } } .success none)

/-- R182: two key-ons of a channel with no key-off between: the second returns 2 and changes nothing. With stored note 0, every set-pitch
that returns 0 leaves block 0 and the floor. The spec derives both from its other rules. -/
def Obligations.BusyAndFloor : Prop :=
  (∀ (ch : FmCh) (note note' vel vel' : Int) (s t : State), exec (.keyonFm ch.val note vel) s = .next t →
    t.result = some { rc := .success, out := none } → 12 ≤ note' → note' ≤ 107 → 0 ≤ vel' → vel' ≤ 127 →
    exec (.keyonFm ch.val note' vel') t = .next (t.returning .busy none)) ∧
  (∀ (ch : FmCh) (pitch : Int) (s t : State), s.voice[ch].note = 0 → exec (.setpitchFm ch.val pitch) s = .next t →
    t.result = some { rc := .success, out := none } → t.fm[ch].block.val = 0 ∧ t.fm[ch].fnum.val = params.freqFloor)

/-! ## PCM (R200 to R223) -/

/-- R208, R201, R203, R204 (code 1, PCM): the checks of PCM key-on in order, and its effect: the least entry whose breakpoint the note does
not pass, its wave table, and a channel that starts from the table's beginning in the attack of the entry's envelope. No other channel and
nothing else changes. -/
def Obligations.PcmKeyOn : Prop :=
  (∀ (chan a b : Int) (s : State), chan < 0x40 ∨ 0x47 < chan → Fails (.keyonPcm chan a b) s .badChannel) ∧
  (∀ (j : PcmCh) (note vel : Int) (s : State), note < 0 ∨ 127 < note ∨ vel < 0 ∨ 127 < vel →
    Fails (.keyonPcm (0x40 + j.val) note vel) s .badValue) ∧
  ∀ (j : PcmCh) (n v : Level7) (s : State),
    let i := Instr.keyonPcm (0x40 + j.val) n.val v.val
    let B := s.pcmBank[s.pcm[j].program]
    let byte := fun (e k : Nat) => PcmProgram.byte B (16 * e + k)
    let id := fun (e : Nat) => sext32 (memRead params B.toList (16 * e + 8) 4)
    let busy := s.pcm[j].reserved = true ∧ s.pcm[j].activeKey = true
    (busy → Fails i s .busy) ∧
    (¬busy → (∀ e : Fin 8, (byte e.val 0).toNat < n.val) → Fails i s .instrumentMiss) ∧
    (∀ e : Fin 8, ¬busy → n.val ≤ (byte e.val 0).toNat → (∀ k : Fin 8, k < e → (byte k.val 0).toNat < n.val) →
      ((∀ w ∈ s.waves, w.id ≠ id e.val) → Fails i s .waveMiss) ∧
      (∀ w ∈ s.waves, (s.waves.map fun x => x.id).Nodup → w.id = id e.val →
        let full := params.pcmEnvScale * ((byte e.val 1).toNat * s.pcm[j].level.val * v.val / 16129)
        exec i s = .next (State.returning
          (s.setPcm j (PcmChannel.enterAttack
            { s.pcm[j] with
              keyPressed := true, activeKey := true, activeEffect := false, activeOutput := true, note := n, velocity := v
              src := some { waveId := some w.id, sample := w.sample }
              loopEnd := if 0 < w.sample.loopLen then w.sample.loopStart + w.sample.loopLen else w.sample.size
              pos := 0
              step := params.pcmStep w.sample.rate w.sample.rateOffset w.sample.baseNote n.val (params.pcmPitchStep s.pcm[j].pitch)
              envState := .off, envLevel := 0, envStep := 0, envFull := full
              envSus := min full (full * (byte e.val 4).toNat / 127)
              envTL := byte e.val 1, envAR := byte e.val 2, envDR := byte e.val 3, envSL := byte e.val 4, envSR := byte e.val 5
              envRR := byte e.val 6 })) .success none)))

/-- R205, R206, R220 (code 80): PCMENV advances the envelope of every running channel, and changes nothing else. Entering: attack rate 127
starts at level 0 and rate 0 at full level, both in decay; any other rate in Attack at level 0. Decay rate 0 goes to sustain at no more than
the sustain level; a level at or below it goes on to sustain; else Decay. Each step is the distance over the rate, at least 1; sustain rate 0
holds; release rate 0 stops. Advancing: an attack rises to full and enters decay; a decay falls to sustain; a sustain with a step and a
release fall to 0 and stop; an effect stays. -/
def Obligations.PcmEnvelope : Prop :=
  (∀ s : State, ∃ t : State, exec .pcmenv s = .next (t.returning .success none) ∧ t = { s with pcm := t.pcm } ∧
    ∀ j : PcmCh, t.pcm[j] = s.pcm[j].envAdvance) ∧
  (∀ c : PcmChannel,
    let sustained := fun (l : Nat) =>
      { c with envState := .sustain, envLevel := l, envStep := if c.envSR = 0 then 0 else max 1 (c.envSus / c.envSR.toNat) }
    let decayed := fun (l : Nat) =>
      if c.envDR = 0 then sustained (min l c.envSus)
      else if l ≤ c.envSus then sustained l
      else { c with envState := .decay, envLevel := l, envStep := max 1 ((c.envFull - c.envSus) / c.envDR.toNat) }
    c.enterSustain = sustained c.envLevel ∧ c.enterDecay = decayed c.envLevel ∧
    (c.envAR = 127 → c.enterAttack = decayed 0) ∧
    (c.envAR = 0 → c.enterAttack = decayed c.envFull) ∧
    (c.envAR ≠ 127 → c.envAR ≠ 0 →
      c.enterAttack = { c with envState := .attack, envLevel := 0, envStep := max 1 (c.envFull / c.envAR.toNat) }) ∧
    (c.envRR = 0 → c.enterRelease = c.stopped) ∧
    (c.envRR ≠ 0 → c.enterRelease = { c with envState := .release, envStep := max 1 (c.envLevel / c.envRR.toNat) })) ∧
  ∀ c : PcmChannel,
    (c.activeOutput = false → c.envAdvance = c) ∧
    (c.activeOutput = true →
      (c.envState = .attack →
        (c.envLevel + c.envStep < c.envFull → c.envAdvance = { c with envLevel := c.envLevel + c.envStep }) ∧
        (c.envFull ≤ c.envLevel + c.envStep → c.envAdvance = PcmChannel.enterDecay { c with envLevel := c.envFull })) ∧
      (c.envState = .decay →
        (c.envSus + c.envStep < c.envLevel → c.envAdvance = { c with envLevel := c.envLevel - c.envStep }) ∧
        (c.envLevel ≤ c.envSus + c.envStep → c.envAdvance = PcmChannel.enterSustain { c with envLevel := c.envSus })) ∧
      (c.envState = .sustain → c.envStep = 0 → c.envAdvance = c) ∧
      ((c.envState = .sustain ∧ c.envStep ≠ 0) ∨ c.envState = .release →
        (c.envStep < c.envLevel → c.envAdvance = { c with envLevel := c.envLevel - c.envStep }) ∧
        (c.envLevel ≤ c.envStep → c.envAdvance = c.stopped)) ∧
      (c.envState = .effect ∨ c.envState = .off → c.envAdvance = c))

/-- R207: one playback tick of a running channel. The sample is inside the data; each side is its product with the level and the pan,
shifted; the cursor advances by the step and, at the loop end, stops the channel if there is no loop, else goes back by whole loops until it
is below the end. A channel that does not run contributes 0 and stays. -/
def Obligations.PcmPlayback : Prop :=
  (∀ (P : Params) (c : PcmChannel), c.activeOutput = false → c.out P = { left := 0, right := 0 } ∧ c.advance = c) ∧
  ∀ (P : Params) (waves : List WaveRec) (c : PcmChannel) (src : Source), c.SourceOk waves → c.src = some src →
    let w := src.sample
    let x := c.pos + c.step
    c.pos / 65536 < w.data.length ∧
    (∀ b, w.data[c.pos / 65536]? = some b →
      c.out P = { left := asr (b.toInt * c.envLevel * c.panL.val) P.pcmOutShift
                  right := asr (b.toInt * c.envLevel * c.panR.val) P.pcmOutShift }) ∧
    (x < c.loopEnd * 65536 → c.advance = { c with pos := x }) ∧
    (c.loopEnd * 65536 ≤ x → w.loopLen = 0 → c.advance = c.stopped) ∧
    (c.loopEnd * 65536 ≤ x → 0 < w.loopLen → ∃ k pos, 0 < k ∧ x = pos + k * (w.loopLen * 65536) ∧ pos < c.loopEnd * 65536 ∧
      c.loopEnd * 65536 ≤ pos + w.loopLen * 65536 ∧ c.advance = { c with pos := pos })

/-- R209 (code 2, PCM): key-off releases a held music note once, and leaves anything else as it is; it returns 0. -/
def Obligations.PcmKeyOff : Prop :=
  (∀ (chan : Int) (s : State), chan < 0x40 ∨ 0x47 < chan → Fails (.keyoffPcm chan) s .badChannel) ∧
  ∀ (j : PcmCh) (s : State),
    (s.pcm[j].activeKey = true → s.pcm[j].keyPressed = true →
      exec (.keyoffPcm (0x40 + j.val)) s =
        .next (State.returning (s.setPcm j (PcmChannel.enterRelease { s.pcm[j] with keyPressed := false })) .success none)) ∧
    (s.pcm[j].activeKey = false ∨ s.pcm[j].keyPressed = false →
      exec (.keyoffPcm (0x40 + j.val)) s = .next (s.returning .success none))

/-- R210, R211, R214, R215 (codes 3, 4, 7, 8, PCM): pan, program, pitch and level are stored in the channel and nothing else changes, but
that a new pitch gives a sounding music note its new step; values out of range give 3. The range of the pitch is the spec's own (I5). -/
def Obligations.PcmParameters : Prop :=
  (∀ (chan a : Int) (s : State), chan < 0x40 ∨ 0x47 < chan →
    ∀ i ∈ [Instr.setpanPcm chan a, .setinstPcm chan a, .setpitchPcm chan a, .setlevelPcm chan a], Fails i s .badChannel) ∧
  (∀ (j : PcmCh) (x : Int) (s : State),
    (x < 0 ∨ 127 < x → Fails (.setpanPcm (0x40 + j.val) x) s .badValue ∧ Fails (.setlevelPcm (0x40 + j.val) x) s .badValue) ∧
    (x < 0 ∨ 31 < x → Fails (.setinstPcm (0x40 + j.val) x) s .badValue) ∧
    (x < -8192 ∨ 8191 < x → Fails (.setpitchPcm (0x40 + j.val) x) s .badValue)) ∧
  ∀ (j : PcmCh) (s : State),
    let done := fun (c : PcmChannel) => Host.Outcome.next (State.returning (s.setPcm j c) .success none)
    (∀ pan : Level7, ∃ l r : Fin 16, l.val = (127 - pan.val) / 8 ∧ r.val = pan.val / 8 ∧
      exec (.setpanPcm (0x40 + j.val) pan.val) s = done { s.pcm[j] with panL := l, panR := r }) ∧
    (∀ prog : Fin 32, exec (.setinstPcm (0x40 + j.val) prog.val) s = done { s.pcm[j] with program := prog }) ∧
    (∀ level : Level7, exec (.setlevelPcm (0x40 + j.val) level.val) s = done { s.pcm[j] with level := level }) ∧
    (∀ pitch : Int, -8192 ≤ pitch → pitch ≤ 8191 →
      (s.pcm[j].activeKey = false → exec (.setpitchPcm (0x40 + j.val) pitch) s = done { s.pcm[j] with pitch := pitch }) ∧
      (∀ src, s.pcm[j].activeKey = true → s.pcm[j].src = some src →
        exec (.setpitchPcm (0x40 + j.val) pitch) s =
          done { s.pcm[j] with
            pitch := pitch
            step := params.pcmStep src.sample.rate src.sample.rateOffset src.sample.baseNote s.pcm[j].note.val
              (params.pcmPitchStep pitch) }))

/-- R213 (code 32): LDSMP copies `size` bytes to `pcmRam` from `dest` on, byte by byte, and changes nothing else; its checks in order give
3, 6, 6 and 5. -/
def Obligations.LoadSamples : Prop :=
  ∀ (dest size : Int) (data : List Byte) (s : State), s.pcmRam.wf = true →
    (dest < 0 ∨ 65535 < dest → Fails (.ldsmp dest size data) s .badValue) ∧
    (0 ≤ dest → dest ≤ 65535 → size ≤ 0 ∨ data.length < size → Fails (.ldsmp dest size data) s .emptyData) ∧
    (0 ≤ dest → dest ≤ 65535 → 0 < size → size ≤ data.length → 65536 < dest + size → Fails (.ldsmp dest size data) s .budget) ∧
    (0 ≤ dest → 0 < size → size ≤ data.length → dest + size ≤ 65536 →
      ∃ t, exec (.ldsmp dest size data) s = .next t ∧ t = State.returning { s with pcmRam := t.pcmRam } .success none ∧
        t.pcmRam.wf = true ∧
        (∀ k : Nat, k < size → Memory.read t.pcmRam (dest.toNat + k) = data.getD k 0) ∧
        (∀ a : Nat, a < dest ∨ dest + size ≤ a → Memory.read t.pcmRam a = Memory.read s.pcmRam a))

/-- R200, R216 (codes 9 and 39, PCM): the channel is stopped: its flags but `reserved` are cleared, the envelope is off, the source is gone;
its parameters stay, and nothing else changes. -/
def Obligations.PcmChannelOff : Prop :=
  (∀ (chan : Int) (s : State), chan < 0x40 ∨ 0x47 < chan → ∀ i ∈ [Instr.choffPcm chan, .pcmoff chan], Fails i s .badChannel) ∧
  ∀ (j : PcmCh) (s : State), ∀ i ∈ [Instr.choffPcm (0x40 + j.val), .pcmoff (0x40 + j.val)],
    exec i s = .next (State.returning
      (s.setPcm j
        { s.pcm[j] with
          keyPressed := false, activeKey := false, activeEffect := false, activeOutput := false
          envState := .off, envLevel := 0, envStep := 0, src := none, pos := 0, step := 0 }) .success none)

/-- R217 (code 33): RESERVE makes the top `n` channels the effect partition; a channel whose flag changes is stopped, any other is left; 3 for
a count out of range, 5 past the limit. The room and the limit are the spec's own defaults (I10; assumption log entry 2). -/
def Obligations.Reserve : Prop :=
  (∀ (n : Int) (s : State), n < 0 ∨ 8 < n → Fails (.reserve n) s .badValue) ∧
  ∀ (n : Nat) (s : State), n ≤ 8 →
    (params.reserveLimit < n * params.reserveRoom + s.waveTotal → Fails (.reserve n) s .budget) ∧
    (n * params.reserveRoom + s.waveTotal ≤ params.reserveLimit →
      ∃ t, exec (.reserve n) s = .next t ∧
        t = State.returning { s with pcm := t.pcm, reservedCount := n } .success none ∧
        ∀ j : PcmCh,
          (s.pcm[j].reserved = decide (8 - n ≤ j.val) → t.pcm[j] = s.pcm[j]) ∧
          (s.pcm[j].reserved ≠ decide (8 - n ≤ j.val) → t.pcm[j] = { s.pcm[j].stopped with reserved := decide (8 - n ≤ j.val) }))

/-- R218, R95 (code 37): the checks of PLAYFX in order, and its effect: the buffer's own table becomes the channel's private source, played
from its beginning at a constant level. No other channel and nothing else changes. -/
def Obligations.PlayEffect : Prop :=
  (∀ (chan a b : Int) (d : List Byte) (s : State), chan < 0x40 ∨ 0x47 < chan → Fails (.playfx chan a b d) s .badChannel) ∧
  (∀ (j : PcmCh) (note vel : Int) (data : List Byte) (s : State), note < 0 ∨ 127 < note ∨ vel < 0 ∨ 127 < vel →
    Fails (.playfx (0x40 + j.val) note vel data) s .badValue) ∧
  ∀ (j : PcmCh) (n v : Level7) (data : List Byte) (s : State),
    let i := Instr.playfx (0x40 + j.val) n.val v.val data
    let h := waveHeader params data
    (s.pcm[j].reserved = false → Fails i s .needsReserved) ∧
    (s.pcm[j].reserved = true → s.pcm[j].activeEffect = true → Fails i s .busy) ∧
    (s.pcm[j].reserved = true → s.pcm[j].activeEffect = false →
      (data.length < 32 → Fails i s .emptyData) ∧
      (32 ≤ data.length → h.size < 0 → Fails i s .badValue) ∧
      (32 ≤ data.length → 0 ≤ h.size → h.size < h.loopStart + h.loopLen → Fails i s .loopRegion) ∧
      (32 ≤ data.length → 0 ≤ h.size → (h.loopStart + h.loopLen : Int) ≤ h.size → h.size = 0 ∨ data.length < 32 + h.size →
        Fails i s .emptyData) ∧
      (0 < h.size → (h.loopStart + h.loopLen : Int) ≤ h.size → 32 + h.size ≤ data.length →
        let w : Sample :=
          { size := h.size.toNat, loopStart := h.loopStart, loopLen := h.loopLen, rate := h.rate, rateOffset := h.rateOffset
            baseNote := h.baseNote, data := (data.drop 32).take h.size.toNat }
        exec i s = .next (State.returning
          (s.setPcm j
            { s.pcm[j] with
              keyPressed := false, activeKey := false, activeEffect := true, activeOutput := true, note := n, velocity := v
              src := some { waveId := none, sample := w }
              loopEnd := if 0 < w.loopLen then w.loopStart + w.loopLen else w.size
              pos := 0
              step := params.pcmStep w.rate w.rateOffset w.baseNote n.val (params.pcmPitchStep s.pcm[j].pitch)
              envState := .effect, envStep := 0, envLevel := params.pcmEnvScale * (s.pcm[j].level.val * v.val / 127) })
          .success none)))

/-- R95, R43: the header fields, byte by byte, little-endian, of a buffer of at least 32 bytes. -/
def Obligations.WaveHeaderFields : Prop :=
  ∀ buf : List Byte,
    let b := fun (k : Nat) => (buf.getD k 0).toNat
    let h := waveHeader params buf
    h.name = buf.take 8 ∧
    h.id = sext32 (b 8 + b 9 * 256 + b 10 * 65536 + b 11 * 16777216) ∧
    h.size = sext32 (b 12 + b 13 * 256 + b 14 * 65536 + b 15 * 16777216) ∧
    h.loopStart = b 16 + b 17 * 256 + b 18 * 65536 + b 19 * 16777216 ∧
    h.loopLen = b 20 + b 21 * 256 + b 22 * 65536 + b 23 * 16777216 ∧
    h.rate = b 24 + b 25 * 256 ∧
    h.rateOffset = sext16 (b 26 + b 27 * 256) ∧
    h.baseNote = b 28 + b 29 * 256

/-- R219 (code 40): FXQ gives 1 for an effect sounding on a reserved channel, 0 otherwise, and changes nothing. -/
def Obligations.EffectQuery : Prop :=
  (∀ (chan : Int) (s : State), chan < 0x40 ∨ 0x47 < chan → Fails (.fxq chan) s .badChannel) ∧
  ∀ (j : PcmCh) (s : State),
    exec (.fxq (0x40 + j.val)) s =
      .next (s.returning .success (some (if s.pcm[j].reserved = true ∧ s.pcm[j].activeEffect = true then 1 else 0)))

/-- R221 (code 34): the checks of LDWAVE in order, and its effect: one record appended to the store, its size added to the total. -/
def Obligations.LoadWave : Prop :=
  ∀ (data : List Byte) (s : State),
    let i := Instr.ldwave data
    let h := waveHeader params data
    let fits := s.waves.length < 128 ∧ 0 < h.size ∧ 32 + h.size ≤ data.length
    (128 ≤ s.waves.length → Fails i s .budget) ∧
    (s.waves.length < 128 → data.length < 32 → Fails i s .emptyData) ∧
    (s.waves.length < 128 → 32 ≤ data.length → h.size < 0 → Fails i s .badValue) ∧
    (s.waves.length < 128 → 32 ≤ data.length → 0 ≤ h.size → h.size = 0 ∨ data.length < 32 + h.size → Fails i s .emptyData) ∧
    (fits → 65504 < s.waveTotal + h.size → Fails i s .budget) ∧
    (fits → s.waveTotal + h.size ≤ 65504 → (∃ w ∈ s.waves, w.id = h.id) → Fails i s .duplicateWave) ∧
    (fits → s.waveTotal + h.size ≤ 65504 → (∀ w ∈ s.waves, w.id ≠ h.id) → h.size < h.loopStart + h.loopLen →
      Fails i s .loopRegion) ∧
    (fits → s.waveTotal + h.size ≤ 65504 → (∀ w ∈ s.waves, w.id ≠ h.id) → (h.loopStart + h.loopLen : Int) ≤ h.size →
      exec i s = .next (State.returning
        { s with
          waves := s.waves ++
            [{ name := data.take 8, id := h.id
               sample :=
                 { size := h.size.toNat, loopStart := h.loopStart, loopLen := h.loopLen, rate := h.rate, rateOffset := h.rateOffset
                   baseNote := h.baseNote, data := (data.drop 32).take h.size.toNat } }]
          waveTotal := s.waveTotal + h.size.toNat } .success none))

/-- R222 (code 35): UNWAVE -1 empties the store, any other id removes its one table or gives 9; the channels that play a removed table are
stopped, no other channel and nothing else changes. -/
def Obligations.UnloadWave : Prop :=
  ∀ (id : Int) (s : State), (s.waves.map fun w => w.id).Nodup →
    (id ≠ -1 → (∀ w ∈ s.waves, w.id ≠ id) → Fails (.unwave id) s .waveMiss) ∧
    (id = -1 ∨ (∃ w ∈ s.waves, w.id = id) → ∃ t, exec (.unwave id) s = .next t ∧
      t = State.returning { s with pcm := t.pcm, waves := t.waves, waveTotal := t.waveTotal } .success none ∧
      (id = -1 → t.waves = [] ∧ t.waveTotal = 0) ∧
      (∀ w ∈ s.waves, w.id = id → id ≠ -1 →
        t.waves = s.waves.filter (fun x => decide (x.id ≠ id)) ∧ t.waveTotal = s.waveTotal - w.sample.size) ∧
      ∀ j : PcmCh,
        ((∃ src k, s.pcm[j].src = some src ∧ src.waveId = some k ∧ (id = -1 ∨ k = id)) → t.pcm[j] = s.pcm[j].stopped) ∧
        ((∀ src k, s.pcm[j].src = some src → src.waveId = some k → id ≠ -1 ∧ k ≠ id) → t.pcm[j] = s.pcm[j]))

/-! ## SSG (R241 to R246) -/

/-- R241: a write offered to a full queue is dropped and raises the sticky fault, any other is appended; the drain at the start of a tick
leaves each register with the last value queued for it, restarts the envelope if register 13 was queued, empties the queue, and leaves the
counters, the noise register and everything else alone. The layout of register 13 is the spec's own (I17). -/
def Obligations.SsgQueue : Prop :=
  (∀ (P : Params) (r : Fin 14) (v : Byte) (s : State),
    (s.ssg.queue.length = P.ssgQueueCap → ssgEnqueue P r v s = { s with faults := { s.faults with ssgQueueOverflow := true } }) ∧
    (s.ssg.queue.length ≠ P.ssgQueueCap →
      ssgEnqueue P r v s = { s with ssg := { s.ssg with queue := s.ssg.queue ++ [(r, v)] } })) ∧
  ∀ s : State,
    let g := (ssgDrain s).ssg
    let restarted := ∃ v, ((13 : Fin 14), v) ∈ s.ssg.queue
    ssgDrain s = { s with ssg := g } ∧ g.queue = [] ∧
    (∀ r : Fin 14, g.regs[r] = (((s.ssg.queue.filter fun w => decide (w.1 = r)).getLast?).map fun w => w.2).getD s.ssg.regs[r]) ∧
    (restarted → g.envCount = 31 ∧ g.envAttack = g.regs[(13 : Fin 14)].getLsbD 2 ∧ g.envHolding = false ∧ g.envCnt = 0) ∧
    (¬restarted → g.envCount = s.ssg.envCount ∧ g.envAttack = s.ssg.envAttack ∧ g.envHolding = s.ssg.envHolding ∧
      g.envCnt = s.ssg.envCnt) ∧
    g.toneCnt = s.ssg.toneCnt ∧ g.sq = s.ssg.sq ∧ g.noiseCnt = s.ssg.noiseCnt ∧ g.lfsr = s.ssg.lfsr

/-- R242 to R246: on each tick every tone counter, the noise counter and, unless it holds, the envelope counter grow by 1; a counter that
reaches its period, or is past it, resets and toggles its square, steps the noise register, which is never 0, or steps the envelope; the
registers and the queue stay. The output is the sum of the open channels' amplitudes. The register layout and the noise taps are the
spec's own (I17). -/
def Obligations.SsgTickRule : Prop :=
  ∀ (P : Params) (g : Ssg),
    let g' := Ssg.tick P g
    let noisePeriod := max 1 (g.regs[(6 : Fin 14)].toNat % 32) * P.ssgNoiseUnit
    (∀ i : SsgCh,
      let low : Fin 14 := ⟨2 * i.val, by omega⟩
      let high : Fin 14 := ⟨2 * i.val + 1, by omega⟩
      let period := max 1 (g.regs[high].toNat % 16 * 256 + g.regs[low].toNat) * P.ssgToneUnit
      (g.toneCnt[i] + 1 < period → g'.toneCnt[i] = g.toneCnt[i] + 1 ∧ g'.sq[i] = g.sq[i]) ∧
      (period ≤ g.toneCnt[i] + 1 → g'.toneCnt[i] = 0 ∧ g'.sq[i] = !g.sq[i])) ∧
    (g.noiseCnt + 1 < noisePeriod → g'.noiseCnt = g.noiseCnt + 1 ∧ g'.lfsr = g.lfsr) ∧
    (noisePeriod ≤ g.noiseCnt + 1 → g'.noiseCnt = 0 ∧
      ∀ k : Nat, k < 17 → g'.lfsr.getLsbD k = if k = 16 then Bool.xor (g.lfsr.getLsbD 0) (g.lfsr.getLsbD 3) else g.lfsr.getLsbD (k + 1)) ∧
    (g.lfsr ≠ 0 → g'.lfsr ≠ 0) ∧ g'.regs = g.regs ∧ g'.queue = g.queue ∧
    (let envPeriod := max 1 (g.regs[(12 : Fin 14)].toNat * 256 + g.regs[(11 : Fin 14)].toNat) * P.ssgEnvUnit
      let env := fun (x : Ssg) => (x.envCount, x.envAttack, x.envHolding)
      (g.envHolding = true → g'.envCnt = g.envCnt ∧ env g' = env g) ∧
      (g.envHolding = false → g.envCnt + 1 < envPeriod → g'.envCnt = g.envCnt + 1 ∧ env g' = env g) ∧
      (g.envHolding = false → envPeriod ≤ g.envCnt + 1 → g'.envCnt = 0 ∧ env g' = env g.envCycle)) ∧
    Ssg.out P g = ∑ i : SsgCh,
      let level : Fin 14 := ⟨8 + i.val, by omega⟩
      let mixer := g.regs[(7 : Fin 14)]
      let open' := (g.sq[i] = true ∨ mixer.getLsbD i.val = true) ∧ (g.lfsr.getLsbD 0 = true ∨ mixer.getLsbD (3 + i.val) = true)
      if open' then
        ((if g.regs[level].getLsbD 4 = true then P.ssgEnvTab (if g.envAttack = true then 31 - g.envCount else g.envCount)
          else P.ssgVolTab ⟨g.regs[level].toNat % 16, Nat.mod_lt _ (by decide)⟩ : Nat) : Int)
      else 0

/-- R244: the envelope shapes. From a restart, the level after `n` periods ramps up (ATT) or down through 32 levels. Then with CONT clear it
stays at 0; with CONT and HOLD it stays at the end level, inverted if ALT; with CONT alone it repeats, alternating if ALT. The shape
algorithm is the spec's own (I17). -/
def Obligations.SsgEnvelopeShapes : Prop :=
  ∀ (g : Ssg) (n : Nat),
    let shape := g.regs[(13 : Fin 14)]
    let cont := shape.getLsbD 3
    let att := shape.getLsbD 2
    let alt := shape.getLsbD 1
    let hold := shape.getLsbD 0
    let period := fun (x : Ssg) => if x.envHolding = true then x else x.envCycle
    let level := (period^[n] g.envRestart).envLvl.val
    let ramp := fun (up : Bool) (k : Nat) => if up = true then k else 31 - k
    (n < 32 → level = ramp att n) ∧
    (32 ≤ n → cont = false → level = 0) ∧
    (32 ≤ n → cont = true → hold = true → level = ramp (Bool.xor att alt) 31) ∧
    (cont = true → hold = false → level = ramp (Bool.xor att (alt && decide (n / 32 % 2 = 1))) (n % 32))

/-! ## Rhythm (R271 to R276) -/

/-- R271: a write of the rhythm key register acts on the channels whose bit is set: a key-on restarts the channel at its start with a cleared
decoder, DUMP stops it; the other channels and everything else stay. The layout is the spec's own (I3). -/
def Obligations.RhythmKey : Prop :=
  ∀ (P : Params) (v : Byte) (s : State),
    let t := rhyKeyWrite P v s
    t = { s with rhy := t.rhy } ∧
    ∀ i : RhyCh,
      (v.getLsbD i.val = false → t.rhy[i] = s.rhy[i]) ∧
      (v.getLsbD i.val = true → v.getLsbD 7 = true → t.rhy[i] = { s.rhy[i] with active := false }) ∧
      (v.getLsbD i.val = true → v.getLsbD 7 = false →
        t.rhy[i] =
          { active := true, pos := P.rhyStart i, stop := P.rhyEnd i, high := true, acc := 0, idx := 0, s0 := 0, s1 := 0 })

/-- R272, R273, R274, R275: every RHY_DIV ticks each active channel decodes one nibble of the ROM byte at its offset, the high one first: the
accumulator moves by the delta and is clamped to 12 bits, the index moves and is clamped to 0..48, the last sample becomes the older one; at
the end offset the channel stops. The output of an active channel is the truncated mean of its two rescaled samples. The nibble order and the
sign bit (R100, R101) are the spec's own (I14), and so is the multiplier of the rescale (D78). -/
def Obligations.RhythmTick : Prop :=
  (∀ (P : Params) (s : State),
    let t := rhyTick P s
    (s.rhyDivCnt + 1 < P.rhyDiv → t = { s with rhyDivCnt := s.rhyDivCnt + 1 }) ∧
    (P.rhyDiv ≤ s.rhyDivCnt + 1 → t = { s with rhyDivCnt := 0, rhy := t.rhy } ∧
      ∀ i : RhyCh, t.rhy[i] = if s.rhy[i].active = true then rhyDecode P s.rhy[i] else s.rhy[i])) ∧
  (∀ (P : Params) (c : RhyChannel), c.stop ≤ c.pos → rhyDecode P c = { c with active := false }) ∧
  (∀ (P : Params) (c : RhyChannel) (b : Byte) (m : Fin 8), c.Ok P → c.pos < c.stop → P.rhyRom[c.pos]? = some b →
    let x := if c.high = true then b.toNat / 16 else b.toNat % 16
    m.val = x % 8 →
    let d : Int := (P.rhyStep c.idx * (2 * m.val + 1) / 8 : Nat)
    let acc := max (-2048) (min 2047 (c.acc + if x < 8 then d else -d))
    ∃ idx : Fin 49, (idx.val : Int) = max 0 (min 48 ((c.idx.val : Int) + P.rhyAdj m)) ∧
      rhyDecode P c =
        { c with
          pos := if c.high = true then c.pos else c.pos + 1
          high := !c.high, acc := acc, idx := idx, s0 := c.s1, s1 := acc }) ∧
  (∀ (P : Params) (c : RhyChannel), c.Ok P → c.pos < c.stop → c.pos < P.rhyRom.length) ∧
  (∀ (P : Params) (rtl : Fin 64) (il : Fin 32) (c : RhyChannel),
    (c.active = false → rhyMono P rtl il c = 0) ∧
    (c.active = true → P.rhyLevel (P.rhyAtten rtl il) = none → rhyMono P rtl il c = 0) ∧
    (∀ k, c.active = true → P.rhyLevel (P.rhyAtten rtl il) = some k →
      let rescale := fun (x : Int) => intAnd (asr (x * k.mul) k.shift) k.mask
      rhyMono P rtl il c = Int.tdiv (rescale c.s0 + rescale c.s1) 2))

/-! ## Timers (R307 to R311) -/

/-- R308, R309, R310 (codes 21 to 24): the timer values go to registers 0x24 to 0x26 through buffered writes, bits 7-2 of 0x25 kept from the
shadow; enabling restarts the count, disabling keeps it; nothing else changes; values out of range give 3. -/
def Obligations.TimerCommands : Prop :=
  (∀ (x : Int) (s : State),
    (x < 0 ∨ 1023 < x → Fails (.setta x) s .badValue) ∧ (x < 0 ∨ 255 < x → Fails (.settb x) s .badValue) ∧
    (x ≠ 0 → x ≠ 1 → Fails (.enta x) s .badValue ∧ Fails (.entb x) s .badValue)) ∧
  ∀ s : State,
    (∀ v : Nat, v ≤ 1023 →
      let hi := BitVec.ofNat 8 (v / 4)
      let lo := (s.shad 0 0x25 &&& 0xFC) ||| BitVec.ofNat 8 (v % 4)
      exec (.setta v) s = .next (State.returning
        { s with
          chipReg := RegFile.write (RegFile.write s.chipReg 0 0x24 hi) 0 0x25 lo
          shadow := RegFile.write (RegFile.write s.shadow 0 0x24 hi) 0 0x25 lo } .success none)) ∧
    (∀ v : Byte, exec (.settb v.toNat) s = .next (State.returning
      { s with chipReg := RegFile.write s.chipReg 0 0x26 v, shadow := RegFile.write s.shadow 0 0x26 v } .success none)) ∧
    exec (.enta 1) s = .next (State.returning { s with timerA := { s.timerA with on := true, cnt := 0 } } .success none) ∧
    exec (.enta 0) s = .next (State.returning { s with timerA := { s.timerA with on := false } } .success none) ∧
    exec (.entb 1) s = .next (State.returning { s with timerB := { s.timerB with on := true, cnt := 0 } } .success none) ∧
    exec (.entb 0) s = .next (State.returning { s with timerB := { s.timerB with on := false } } .success none)

/-- R307, R311, R363, R122: a timer that is off stays; an enabled one counts, and at its period, or past it, resets and runs its callback's calls,
after which Timer B advances the PCM envelopes. The periods come from the chip registers and are at least 1. A value written by SETTA is the
value read. What a callback issues runs at once and in order: a command runs as it does outside a tick, and its result goes to the callback,
not to the host; an empty list of calls does nothing. A procedure issues its next list of calls, or, when those are used up, its last one;
firing it uses that list up, and no other procedure changes; a name without a procedure issues nothing. The layout and the periods are the
spec's own (I18); what a procedure issues is data of the model (assumption log entry 5), and so is the place of the results (entry 6). -/
def Obligations.TimersAndCallbacks : Prop :=
  (∀ (P : Params) (s : State),
    periodA P s = (1024 - ((s.chip 0 0x24).toNat * 4 + (s.chip 0 0x25).toNat % 4)) * P.taUnit ∧ 1 ≤ periodA P s ∧
    periodB P s = (256 - (s.chip 0 0x26).toNat) * P.tbUnit ∧ 1 ≤ periodB P s ∧
    (s.timerA.on = false → timerTickA P s = .next s) ∧ (s.timerB.on = false → timerTickB P s = .next s) ∧
    (s.timerA.on = true →
      (s.timerA.cnt + 1 < periodA P s → timerTickA P s = .next { s with timerA := { s.timerA with cnt := s.timerA.cnt + 1 } }) ∧
      (periodA P s ≤ s.timerA.cnt + 1 →
        timerTickA P s = runCallback s.timerA.callback { s with timerA := { s.timerA with cnt := 0 } })) ∧
    (s.timerB.on = true →
      (s.timerB.cnt + 1 < periodB P s → timerTickB P s = .next { s with timerB := { s.timerB with cnt := s.timerB.cnt + 1 } }) ∧
      (periodB P s ≤ s.timerB.cnt + 1 →
        ∀ t, runCallback s.timerB.callback { s with timerB := { s.timerB with cnt := 0 } } = .next t →
          timerTickB P s = .next (pcmEnvAll t)))) ∧
  (∀ s : State, runCallback none s = .next s) ∧
  (∀ (s : State) (id : ProcId), runCallback (some id) s = nestedCalls (procCalls id s) (procCalled id s)) ∧
  (∀ (s t : State) (v : Nat), v ≤ 1023 → exec (.setta v) s = .next t → timerAValue t = v) ∧
  (∀ (code : Int) (args : List Arg) (s : State), ∃ t, processCommand code args s = .next t ∧ t.callbackResults = s.callbackResults ∧
    nestedCall (.command code args) s = .next { t with result := none, callbackResults := s.callbackResults ++ [t.result] }) ∧
  (∀ s : State, nestedCalls [] s = .next s) ∧
  (∀ (c : HostCall) (cs : List HostCall) (s : State), ∃ t u, nestedCall c s = .next t ∧ nestedCalls cs t = .next u ∧
    nestedCalls (c :: cs) s = .next u) ∧
  (∀ (id : ProcId) (before after : List HostProc) (h : HostProc) (s : State), s.hostProcs = before ++ h :: after → h.id = id →
    (∀ x ∈ before, x.id ≠ id) →
    (∀ (c : List HostCall) (cs : List (List HostCall)), h.upcoming = c :: cs → procCalls id s = c) ∧
    (h.upcoming = [] → procCalls id s = h.thereafter)) ∧
  (∀ (id : ProcId) (s : State), (∀ x ∈ s.hostProcs, x.id ≠ id) → procCalls id s = [] ∧ procCalled id s = s) ∧
  (∀ (id : ProcId) (s : State),
    procCalled id s = { s with hostProcs := (procCalled id s).hostProcs } ∧
    (procCalled id s).hostProcs.length = s.hostProcs.length ∧
    ∀ (k : Nat) (h : HostProc), s.hostProcs[k]? = some h →
      (procCalled id s).hostProcs[k]? = some (if h.id = id then { h with upcoming := h.upcoming.tail } else h))

/-! ## `produce`, the tick and the mix (R330 to R332) -/

/-- R331: one tick drains the SSG queue, ticks Timer A, then Timer B (R311, with their callbacks, and the PCM envelopes after Timer B's), and then,
from the state these leave, runs each FM and PCM channel once, the SSG and the rhythm channels, and adds the mixed pair to its two buffer
elements, modulo 2^32; no other element, no register and nothing else changes. Neither timer touches the buffer; with no timer enabled the
engines run from the drained state. The mix reads volumes and mutes as the callbacks left them, and the masks as they stood when the tick
began: masks that a callback sets take effect from the next tick (R334; that their fields change at once is the model's choice, assumption
log entry 20). The buffer and the results are the model's own fields (assumption log entry 6). -/
def Obligations.TickRule : Prop :=
  ∀ (P : Params) (e : Nat) (s : State), ∃ a b : State,
    timerTickA P (ssgDrain s) = .next a ∧ timerTickB P a = .next b ∧ a.outBuffer = s.outBuffer ∧ b.outBuffer = s.outBuffer ∧
    (s.timerA.on = false → a = ssgDrain s) ∧ (a.timerB.on = false → b = a) ∧
    (e + 1 < s.outBuffer.length → ∃ t, tick P e s = .next t ∧
      t.fm = (fmTick P b).fm ∧ (∀ j : PcmCh, t.pcm[j] = b.pcm[j].advance) ∧ t.ssg = Ssg.tick P b.ssg ∧
      t.rhy = (rhyTick P b).rhy ∧ t.rhyDivCnt = (rhyTick P b).rhyDivCnt ∧
      t = { b with fm := t.fm, pcm := t.pcm, ssg := t.ssg, rhy := t.rhy, rhyDivCnt := t.rhyDivCnt, outBuffer := t.outBuffer } ∧
      let y := mix { b with maskA := s.maskA, maskB := s.maskB } (fun ch => fmChannelOut P (chFields b ch) t.fm[ch]) (fun j => b.pcm[j].out P) (Ssg.out P t.ssg)
        (fun i =>
          { left := if rhyLeft b i = true then rhyMono P (rhyTotalLevel b) (rhyChannelLevel b i) t.rhy[i] else 0
            right := if rhyRight b i = true then rhyMono P (rhyTotalLevel b) (rhyChannelLevel b i) t.rhy[i] else 0 })
      t.outBuffer.length = s.outBuffer.length ∧
      t.outBuffer[e]? = (s.outBuffer[e]?).map (fun x => x + BitVec.ofInt 32 y.left) ∧
      t.outBuffer[e + 1]? = (s.outBuffer[e + 1]?).map (fun x => x + BitVec.ofInt 32 y.right) ∧
      ∀ k : Nat, k ≠ e → k ≠ e + 1 → t.outBuffer[k]? = s.outBuffer[k]?)

/-- R47, R330, R362: a `produce` inside a `produce` raises the re-entry fault and is refused; a window outside the buffer raises the bounds
fault and changes nothing else; any other call sets `inProduce`, runs `count` ticks in order, tick `k` at element `offset + 2k`, and clears
`inProduce`; it leaves every element outside its window as it was. The buffer and the results are the model's own fields (assumption log entry 6). -/
def Obligations.ProduceRule : Prop :=
  ∀ (buffer : List OutElem) (offset count : Int) (s : State),
    (s.inProduce = true →
      produce params buffer offset count s =
        .next { s with faults := { s.faults with produceReentry := true }, refused := true, result := none }) ∧
    (s.inProduce = false → offset < 0 ∨ count < 0 ∨ buffer.length < offset + 2 * count →
      produce params buffer offset count s = .next { s with faults := { s.faults with bufferBounds := true }, result := none }) ∧
    (s.inProduce = false → 0 ≤ offset → 0 ≤ count → offset + 2 * count ≤ buffer.length →
      ∃ (run : Nat → State) (t : State), produce params buffer offset count s = .next t ∧
        run 0 = { s with inProduce := true, outBuffer := buffer, callbackResults := [], result := none } ∧
        (∀ k : Nat, k < count → tick params (offset.toNat + 2 * k) (run k) = .next (run (k + 1))) ∧
        t = { run count.toNat with inProduce := false } ∧ t.outBuffer.length = buffer.length ∧
        (∀ k : Nat, k < offset ∨ offset + 2 * count ≤ k → t.outBuffer[k]? = buffer[k]?) ∧
        (count = 0 → t = { s with outBuffer := buffer, callbackResults := [], result := none }))

/-- R332: the mix. Each side is the music group scaled by its lane plus the sfx group scaled by its own; a mask bit puts an FM or PCM channel
into the sfx group; a muted lane gives 0; at full volume and unmuted the mix is the plain sum of every engine. The split of the masks is
the spec's own (I11). -/
def Obligations.MixRule : Prop :=
  (∀ (s : State) (x : Int) (l : Lane),
    (s.mute[l] = true → laneScale s x l = 0) ∧ (s.mute[l] = false → laneScale s x l = Int.tdiv (x * s.vol[l].val) 127) ∧
    (s.mute[l] = false → s.vol[l] = 127 → laneScale s x l = x)) ∧
  ∀ (s : State) (fm : FmCh → Stereo) (pcm : PcmCh → Stereo) (ssg : Int) (rhy : RhyCh → Stereo),
    let group := fun (sfx : Bool) (f : FmCh → Int) (p : PcmCh → Int) =>
      (∑ ch : FmCh, if s.maskA.getLsbD ch.val = sfx then f ch else 0) + ∑ j : PcmCh, if s.maskB.getLsbD j.val = sfx then p j else 0
    let fL := fun ch => (fm ch).left
    let fR := fun ch => (fm ch).right
    let pL := fun j => (pcm j).left
    let pR := fun j => (pcm j).right
    mix s fm pcm ssg rhy =
      { left := laneScale s (group false fL pL + ssg + ∑ i : RhyCh, (rhy i).left) 0 + laneScale s (group true fL pL) 2
        right := laneScale s (group false fR pR + ssg + ∑ i : RhyCh, (rhy i).right) 1 + laneScale s (group true fR pR) 3 } ∧
    ((∀ l : Lane, s.mute[l] = false ∧ s.vol[l] = 127) →
      mix s fm pcm ssg rhy =
        { left := (∑ ch : FmCh, (fm ch).left) + (∑ j : PcmCh, (pcm j).left) + ssg + ∑ i : RhyCh, (rhy i).left
          right := (∑ ch : FmCh, (fm ch).right) + (∑ j : PcmCh, (pcm j).right) + ssg + ∑ i : RhyCh, (rhy i).right })

/-- R335, R336, R337, R338, R339, R126 (codes 67 to 73, 55, 74, 75 and the unlisted ones): volumes and mutes are set and read by lane, RSTVOL
sets every volume to 127 and no mute, the stubs return 0 and the unsupported codes 4 whatever their arguments are; nothing else changes. -/
def Obligations.VolumeAndStubs : Prop :=
  (∀ (lane x : Int) (s : State),
    (lane < 0 ∨ 15 < lane → Fails (.setvol lane x) s .badValue ∧ Fails (.setmute lane x) s .badValue ∧ Fails (.getmute lane) s .badValue) ∧
    (x < 0 ∨ 127 < x → Fails (.setvol lane x) s .badValue) ∧ (x ≠ 0 → x ≠ 1 → Fails (.setmute lane x) s .badValue)) ∧
  (∀ (l : Lane) (v : Level7) (s : State),
    exec (.setvol l.val v.val) s = .next (State.returning { s with vol := s.vol.set l.val v } .success none) ∧
    exec (.setmute l.val 1) s = .next (State.returning { s with mute := s.mute.set l.val true } .success none) ∧
    exec (.setmute l.val 0) s = .next (State.returning { s with mute := s.mute.set l.val false } .success none) ∧
    exec (.getmute l.val) s = .next (s.returning .success (some (if s.mute[l] = true then 1 else 0)))) ∧
  (∀ s : State, ∃ t, exec .rstvol s = .next (State.returning { s with vol := t } .success none) ∧ ∀ l : Lane, t[l] = 127) ∧
  (∀ (args : List Arg) (code : Int) (s : State),
    (∀ i ∈ [Instr.getvol args, .cdtoggle args, .getvol2 args], exec i s = .next (s.returning .success none)) ∧
    (∀ i ∈ [Instr.unsupported55 args, .unsupported74 args, .unsupported75 args, .unsupported code args],
      exec i s = .next (s.returning .unsupported none)))

/-! ## The host (R123, R334, R362 to R366) -/

/-- R334, R362, R364, R365, R366: `setCallbacks` and `setVolumeMasks` set their fields, the masks cut to 6 and 8 bits; a callback may do both,
and its `produce` raises the re-entry fault and is refused; an overlap under external locking raises the lock fault and is refused, and
without it runs as usual. That the masks of a callback stand in their fields at once, while its tick still mixes with the old ones
(`TickRule`), is the model's choice (assumption log entry 20). So are the mark of an overlap on the host's step (entry 7) and the result none
(entry 6). -/
def Obligations.HostOperations : Prop :=
  (∀ (a b : Option ProcId) (s : State), ∀ o ∈ [hostCall (.setCallbacks a b) s, nestedCall (.setCallbacks a b) s],
    o = .next { s with
      timerA := { s.timerA with callback := a }, timerB := { s.timerB with callback := b }, result := none }) ∧
  (∀ (a b : Int) (s : State), ∀ o ∈ [hostCall (.setVolumeMasks a b) s, nestedCall (.setVolumeMasks a b) s],
    ∃ t, o = .next t ∧ t = { s with maskA := t.maskA, maskB := t.maskB, result := none } ∧
      (t.maskA.toNat : Int) = a % 64 ∧ (t.maskB.toNat : Int) = b % 256) ∧
  (∀ (b : List OutElem) (o n : Int) (s : State),
    nestedCall (.produce b o n) s =
      .next { s with faults := { s.faults with produceReentry := true }, refused := true, result := none }) ∧
  (∀ (h : HostStep) (s : State),
    (h.overlaps = true → s.externalLocking = true →
      hostStep h s = .next { s with faults := { s.faults with lockViolation := true }, refused := true, result := none }) ∧
    (h.overlaps = false ∨ s.externalLocking = false → hostStep h s = hostCall h.call s))

/-! ## Reset and invariants -/

/-- R124, R125, R181, R391, R392 (codes 0 and 58): after RESET every field marked "reset" in 10_state.md, and every register of the FM area,
has its value after construction, and every other field and register is as before; FMRESET does the FM half of it. The spec derives the
values from R124, R190 and R226. -/
def Obligations.ResetCommands : Prop :=
  ∀ s : State,
    (∃ t, exec .fmreset s = .next t ∧
      t = State.returning
        { s with
          chipReg := t.chipReg, shadow := t.shadow
          fnumLatch := State.reset.fnumLatch, fm := State.reset.fm, voice := State.reset.voice, fmBank := State.reset.fmBank }
        .success none ∧
      ∀ (p : Part) (r : Nat),
        (fmArea p r → t.chip p r = State.reset.chip p r ∧ t.shad p r = State.reset.shad p r) ∧
        (¬fmArea p r → t.chip p r = s.chip p r ∧ t.shad p r = s.shad p r)) ∧
    (∃ t, exec .reset s = .next t ∧
      t = State.returning
        { s with
          chipReg := t.chipReg, shadow := t.shadow
          fnumLatch := State.reset.fnumLatch, fm := State.reset.fm, voice := State.reset.voice, fmBank := State.reset.fmBank
          pcm := State.reset.pcm, pcmBank := State.reset.pcmBank, waves := [], waveTotal := 0, reservedCount := 0 }
        .success none ∧
      ∀ (p : Part) (r : Nat),
        (fmArea p r → t.chip p r = State.reset.chip p r ∧ t.shad p r = State.reset.shad p r) ∧
        (¬fmArea p r → t.chip p r = s.chip p r ∧ t.shad p r = s.shad p r))

/-- R390: the state after construction is what the construction sequence leaves: every field zero, the lock setting, the noise register, the
envelope and rhythm flags and the volumes set, then the FM reset, then the PCM reset. The host's side starts empty, which is the model's choice (assumption
log entry 17); `State.reset` is written out, and this statement says that the sequence leaves it (entry 13). -/
def Obligations.Construction : Prop :=
  ∀ blank : State,
    (∀ (p : Part) (r : Nat), blank.chip p r = 0 ∧ blank.shad p r = 0) →
    blank.pcmRam = [] → blank.ssg = Ssg.reset params → blank.rhy = Vector.replicate 6 .reset → blank.rhyDivCnt = 0 →
    blank.timerA = .reset → blank.timerB = .reset → (∀ l : Lane, blank.vol[l] = 127 ∧ blank.mute[l] = false) →
    blank.maskA = 0 → blank.maskB = 0 → blank.faults = .reset → blank.refused = false → blank.inProduce = false →
    blank.externalLocking = params.externalLocking → blank.pending = [] → blank.hostProcs = [] → blank.outBuffer = [] →
    blank.result = none → blank.callbackResults = [] →
    State.reset = pcmReset params (fmReset params blank)

/-- The reset columns of 10_state.md at some fields, and the invariant, right after construction (R14, R19, R22 to R26, R28). -/
def Obligations.ResetInvariant : Prop :=
  Inv State.reset ∧ State.reset.clean ∧ State.reset.chip 0 0x28 = 0x06 ∧ State.reset.shad 0 0x28 = 0 ∧
  State.reset.ssg.lfsr = params.ssgLfsrInit ∧ State.reset.ssg.envHolding = true ∧
  (∀ ch : FmCh, State.reset.voice[ch].level = 127 ∧ State.reset.fm[ch].op1.level = 1023) ∧
  (∀ j : PcmCh, State.reset.pcm[j].level = 127 ∧ State.reset.pcm[j].panL = 15 ∧ State.reset.pcm[j].panR = 15) ∧
  (∀ l : Lane, State.reset.vol[l] = 127 ∧ State.reset.mute[l] = false) ∧ State.reset.timerA.on = false ∧ State.reset.timerB.on = false

/-- The invariant is kept by every step, from every state that has it, whatever the host does (R28, R21, R42, R207, R218, R243). -/
def Obligations.InvariantKept : Prop := ∀ s t : State, Inv s → step s = .next t → Inv t

/-! ## Engines -/

/-- R302, R371: an instruction changes only the engines it belongs to (`enginesOf`), and every instruction goes on. The engines: the
register images, FM (chip, voices, bank), PCM (channels, banks, store), the sample RAM, the SSG with its overflow fault, the rhythm channels,
the timers, the lanes. That a write is an instruction by itself is the reading of assumption log entry 4. -/
def Obligations.EachInstructionKeepsToItsEngines : Prop :=
  ∀ (i : Instr) (s : State), i.wf = true → ∃ t, exec i s = .next t ∧
    (Engine.registers ∉ enginesOf i → t.chipReg = s.chipReg ∧ t.shadow = s.shadow) ∧
    (Engine.fm ∉ enginesOf i → t.fm = s.fm ∧ t.fnumLatch = s.fnumLatch ∧ t.voice = s.voice ∧ t.fmBank = s.fmBank) ∧
    (Engine.pcm ∉ enginesOf i → t.pcm = s.pcm ∧ t.pcmBank = s.pcmBank ∧ t.waves = s.waves ∧ t.waveTotal = s.waveTotal ∧
      t.reservedCount = s.reservedCount) ∧
    (Engine.sampleRam ∉ enginesOf i → t.pcmRam = s.pcmRam) ∧
    (Engine.ssg ∉ enginesOf i → t.ssg = s.ssg ∧ t.faults = s.faults) ∧
    (Engine.rhythm ∉ enginesOf i → t.rhy = s.rhy) ∧
    (Engine.timers ∉ enginesOf i → t.timerA = s.timerA ∧ t.timerB = s.timerB) ∧
    (Engine.lanes ∉ enginesOf i → t.vol = s.vol ∧ t.mute = s.mute)
end

