-- ==== Sys2Proof/Laws/State.lean ====
section
/-! SUPPORT. What each named update of State leaves in each field, true by unfolding; and what the ends of a command are. -/

namespace Sys2Proof.Machine

variable (s : State)

/-! ### `setChip` -/

@[simp] theorem setChip_chipReg (p : Part) (r : Nat) (v : Byte) : (s.setChip p r v).chipReg = RegFile.write s.chipReg p r v := rfl
@[simp] theorem setChip_shadow (p : Part) (r : Nat) (v : Byte) : (s.setChip p r v).shadow = s.shadow := rfl
@[simp] theorem setChip_fnumLatch (p : Part) (r : Nat) (v : Byte) : (s.setChip p r v).fnumLatch = s.fnumLatch := rfl
@[simp] theorem setChip_fm (p : Part) (r : Nat) (v : Byte) : (s.setChip p r v).fm = s.fm := rfl
@[simp] theorem setChip_voice (p : Part) (r : Nat) (v : Byte) : (s.setChip p r v).voice = s.voice := rfl
@[simp] theorem setChip_fmBank (p : Part) (r : Nat) (v : Byte) : (s.setChip p r v).fmBank = s.fmBank := rfl
@[simp] theorem setChip_pcmBank (p : Part) (r : Nat) (v : Byte) : (s.setChip p r v).pcmBank = s.pcmBank := rfl
@[simp] theorem setChip_waves (p : Part) (r : Nat) (v : Byte) : (s.setChip p r v).waves = s.waves := rfl
@[simp] theorem setChip_waveTotal (p : Part) (r : Nat) (v : Byte) : (s.setChip p r v).waveTotal = s.waveTotal := rfl
@[simp] theorem setChip_reservedCount (p : Part) (r : Nat) (v : Byte) : (s.setChip p r v).reservedCount = s.reservedCount := rfl
@[simp] theorem setChip_pcmRam (p : Part) (r : Nat) (v : Byte) : (s.setChip p r v).pcmRam = s.pcmRam := rfl
@[simp] theorem setChip_pcm (p : Part) (r : Nat) (v : Byte) : (s.setChip p r v).pcm = s.pcm := rfl
@[simp] theorem setChip_ssg (p : Part) (r : Nat) (v : Byte) : (s.setChip p r v).ssg = s.ssg := rfl
@[simp] theorem setChip_rhy (p : Part) (r : Nat) (v : Byte) : (s.setChip p r v).rhy = s.rhy := rfl
@[simp] theorem setChip_rhyDivCnt (p : Part) (r : Nat) (v : Byte) : (s.setChip p r v).rhyDivCnt = s.rhyDivCnt := rfl
@[simp] theorem setChip_timerA (p : Part) (r : Nat) (v : Byte) : (s.setChip p r v).timerA = s.timerA := rfl
@[simp] theorem setChip_timerB (p : Part) (r : Nat) (v : Byte) : (s.setChip p r v).timerB = s.timerB := rfl
@[simp] theorem setChip_vol (p : Part) (r : Nat) (v : Byte) : (s.setChip p r v).vol = s.vol := rfl
@[simp] theorem setChip_mute (p : Part) (r : Nat) (v : Byte) : (s.setChip p r v).mute = s.mute := rfl
@[simp] theorem setChip_maskA (p : Part) (r : Nat) (v : Byte) : (s.setChip p r v).maskA = s.maskA := rfl
@[simp] theorem setChip_maskB (p : Part) (r : Nat) (v : Byte) : (s.setChip p r v).maskB = s.maskB := rfl
@[simp] theorem setChip_faults (p : Part) (r : Nat) (v : Byte) : (s.setChip p r v).faults = s.faults := rfl
@[simp] theorem setChip_refused (p : Part) (r : Nat) (v : Byte) : (s.setChip p r v).refused = s.refused := rfl
@[simp] theorem setChip_inProduce (p : Part) (r : Nat) (v : Byte) : (s.setChip p r v).inProduce = s.inProduce := rfl
@[simp] theorem setChip_externalLocking (p : Part) (r : Nat) (v : Byte) : (s.setChip p r v).externalLocking = s.externalLocking := rfl
@[simp] theorem setChip_pending (p : Part) (r : Nat) (v : Byte) : (s.setChip p r v).pending = s.pending := rfl
@[simp] theorem setChip_hostProcs (p : Part) (r : Nat) (v : Byte) : (s.setChip p r v).hostProcs = s.hostProcs := rfl
@[simp] theorem setChip_outBuffer (p : Part) (r : Nat) (v : Byte) : (s.setChip p r v).outBuffer = s.outBuffer := rfl
@[simp] theorem setChip_result (p : Part) (r : Nat) (v : Byte) : (s.setChip p r v).result = s.result := rfl
@[simp] theorem setChip_callbackResults (p : Part) (r : Nat) (v : Byte) : (s.setChip p r v).callbackResults = s.callbackResults := rfl

/-! ### `setShad` -/

@[simp] theorem setShad_chipReg (p : Part) (r : Nat) (v : Byte) : (s.setShad p r v).chipReg = s.chipReg := rfl
@[simp] theorem setShad_shadow (p : Part) (r : Nat) (v : Byte) : (s.setShad p r v).shadow = RegFile.write s.shadow p r v := rfl
@[simp] theorem setShad_fnumLatch (p : Part) (r : Nat) (v : Byte) : (s.setShad p r v).fnumLatch = s.fnumLatch := rfl
@[simp] theorem setShad_fm (p : Part) (r : Nat) (v : Byte) : (s.setShad p r v).fm = s.fm := rfl
@[simp] theorem setShad_voice (p : Part) (r : Nat) (v : Byte) : (s.setShad p r v).voice = s.voice := rfl
@[simp] theorem setShad_fmBank (p : Part) (r : Nat) (v : Byte) : (s.setShad p r v).fmBank = s.fmBank := rfl
@[simp] theorem setShad_pcmBank (p : Part) (r : Nat) (v : Byte) : (s.setShad p r v).pcmBank = s.pcmBank := rfl
@[simp] theorem setShad_waves (p : Part) (r : Nat) (v : Byte) : (s.setShad p r v).waves = s.waves := rfl
@[simp] theorem setShad_waveTotal (p : Part) (r : Nat) (v : Byte) : (s.setShad p r v).waveTotal = s.waveTotal := rfl
@[simp] theorem setShad_reservedCount (p : Part) (r : Nat) (v : Byte) : (s.setShad p r v).reservedCount = s.reservedCount := rfl
@[simp] theorem setShad_pcmRam (p : Part) (r : Nat) (v : Byte) : (s.setShad p r v).pcmRam = s.pcmRam := rfl
@[simp] theorem setShad_pcm (p : Part) (r : Nat) (v : Byte) : (s.setShad p r v).pcm = s.pcm := rfl
@[simp] theorem setShad_ssg (p : Part) (r : Nat) (v : Byte) : (s.setShad p r v).ssg = s.ssg := rfl
@[simp] theorem setShad_rhy (p : Part) (r : Nat) (v : Byte) : (s.setShad p r v).rhy = s.rhy := rfl
@[simp] theorem setShad_rhyDivCnt (p : Part) (r : Nat) (v : Byte) : (s.setShad p r v).rhyDivCnt = s.rhyDivCnt := rfl
@[simp] theorem setShad_timerA (p : Part) (r : Nat) (v : Byte) : (s.setShad p r v).timerA = s.timerA := rfl
@[simp] theorem setShad_timerB (p : Part) (r : Nat) (v : Byte) : (s.setShad p r v).timerB = s.timerB := rfl
@[simp] theorem setShad_vol (p : Part) (r : Nat) (v : Byte) : (s.setShad p r v).vol = s.vol := rfl
@[simp] theorem setShad_mute (p : Part) (r : Nat) (v : Byte) : (s.setShad p r v).mute = s.mute := rfl
@[simp] theorem setShad_maskA (p : Part) (r : Nat) (v : Byte) : (s.setShad p r v).maskA = s.maskA := rfl
@[simp] theorem setShad_maskB (p : Part) (r : Nat) (v : Byte) : (s.setShad p r v).maskB = s.maskB := rfl
@[simp] theorem setShad_faults (p : Part) (r : Nat) (v : Byte) : (s.setShad p r v).faults = s.faults := rfl
@[simp] theorem setShad_refused (p : Part) (r : Nat) (v : Byte) : (s.setShad p r v).refused = s.refused := rfl
@[simp] theorem setShad_inProduce (p : Part) (r : Nat) (v : Byte) : (s.setShad p r v).inProduce = s.inProduce := rfl
@[simp] theorem setShad_externalLocking (p : Part) (r : Nat) (v : Byte) : (s.setShad p r v).externalLocking = s.externalLocking := rfl
@[simp] theorem setShad_pending (p : Part) (r : Nat) (v : Byte) : (s.setShad p r v).pending = s.pending := rfl
@[simp] theorem setShad_hostProcs (p : Part) (r : Nat) (v : Byte) : (s.setShad p r v).hostProcs = s.hostProcs := rfl
@[simp] theorem setShad_outBuffer (p : Part) (r : Nat) (v : Byte) : (s.setShad p r v).outBuffer = s.outBuffer := rfl
@[simp] theorem setShad_result (p : Part) (r : Nat) (v : Byte) : (s.setShad p r v).result = s.result := rfl
@[simp] theorem setShad_callbackResults (p : Part) (r : Nat) (v : Byte) : (s.setShad p r v).callbackResults = s.callbackResults := rfl

/-! ### `setFm` -/

@[simp] theorem setFm_chipReg (ch : FmCh) (c : FmChannel) : (s.setFm ch c).chipReg = s.chipReg := rfl
@[simp] theorem setFm_shadow (ch : FmCh) (c : FmChannel) : (s.setFm ch c).shadow = s.shadow := rfl
@[simp] theorem setFm_fnumLatch (ch : FmCh) (c : FmChannel) : (s.setFm ch c).fnumLatch = s.fnumLatch := rfl
@[simp] theorem setFm_fm (ch : FmCh) (c : FmChannel) : (s.setFm ch c).fm = s.fm.set ch.val c := rfl
@[simp] theorem setFm_voice (ch : FmCh) (c : FmChannel) : (s.setFm ch c).voice = s.voice := rfl
@[simp] theorem setFm_fmBank (ch : FmCh) (c : FmChannel) : (s.setFm ch c).fmBank = s.fmBank := rfl
@[simp] theorem setFm_pcmBank (ch : FmCh) (c : FmChannel) : (s.setFm ch c).pcmBank = s.pcmBank := rfl
@[simp] theorem setFm_waves (ch : FmCh) (c : FmChannel) : (s.setFm ch c).waves = s.waves := rfl
@[simp] theorem setFm_waveTotal (ch : FmCh) (c : FmChannel) : (s.setFm ch c).waveTotal = s.waveTotal := rfl
@[simp] theorem setFm_reservedCount (ch : FmCh) (c : FmChannel) : (s.setFm ch c).reservedCount = s.reservedCount := rfl
@[simp] theorem setFm_pcmRam (ch : FmCh) (c : FmChannel) : (s.setFm ch c).pcmRam = s.pcmRam := rfl
@[simp] theorem setFm_pcm (ch : FmCh) (c : FmChannel) : (s.setFm ch c).pcm = s.pcm := rfl
@[simp] theorem setFm_ssg (ch : FmCh) (c : FmChannel) : (s.setFm ch c).ssg = s.ssg := rfl
@[simp] theorem setFm_rhy (ch : FmCh) (c : FmChannel) : (s.setFm ch c).rhy = s.rhy := rfl
@[simp] theorem setFm_rhyDivCnt (ch : FmCh) (c : FmChannel) : (s.setFm ch c).rhyDivCnt = s.rhyDivCnt := rfl
@[simp] theorem setFm_timerA (ch : FmCh) (c : FmChannel) : (s.setFm ch c).timerA = s.timerA := rfl
@[simp] theorem setFm_timerB (ch : FmCh) (c : FmChannel) : (s.setFm ch c).timerB = s.timerB := rfl
@[simp] theorem setFm_vol (ch : FmCh) (c : FmChannel) : (s.setFm ch c).vol = s.vol := rfl
@[simp] theorem setFm_mute (ch : FmCh) (c : FmChannel) : (s.setFm ch c).mute = s.mute := rfl
@[simp] theorem setFm_maskA (ch : FmCh) (c : FmChannel) : (s.setFm ch c).maskA = s.maskA := rfl
@[simp] theorem setFm_maskB (ch : FmCh) (c : FmChannel) : (s.setFm ch c).maskB = s.maskB := rfl
@[simp] theorem setFm_faults (ch : FmCh) (c : FmChannel) : (s.setFm ch c).faults = s.faults := rfl
@[simp] theorem setFm_refused (ch : FmCh) (c : FmChannel) : (s.setFm ch c).refused = s.refused := rfl
@[simp] theorem setFm_inProduce (ch : FmCh) (c : FmChannel) : (s.setFm ch c).inProduce = s.inProduce := rfl
@[simp] theorem setFm_externalLocking (ch : FmCh) (c : FmChannel) : (s.setFm ch c).externalLocking = s.externalLocking := rfl
@[simp] theorem setFm_pending (ch : FmCh) (c : FmChannel) : (s.setFm ch c).pending = s.pending := rfl
@[simp] theorem setFm_hostProcs (ch : FmCh) (c : FmChannel) : (s.setFm ch c).hostProcs = s.hostProcs := rfl
@[simp] theorem setFm_outBuffer (ch : FmCh) (c : FmChannel) : (s.setFm ch c).outBuffer = s.outBuffer := rfl
@[simp] theorem setFm_result (ch : FmCh) (c : FmChannel) : (s.setFm ch c).result = s.result := rfl
@[simp] theorem setFm_callbackResults (ch : FmCh) (c : FmChannel) : (s.setFm ch c).callbackResults = s.callbackResults := rfl

/-! ### `setVoice` -/

@[simp] theorem setVoice_chipReg (ch : FmCh) (v : FmVoice) : (s.setVoice ch v).chipReg = s.chipReg := rfl
@[simp] theorem setVoice_shadow (ch : FmCh) (v : FmVoice) : (s.setVoice ch v).shadow = s.shadow := rfl
@[simp] theorem setVoice_fnumLatch (ch : FmCh) (v : FmVoice) : (s.setVoice ch v).fnumLatch = s.fnumLatch := rfl
@[simp] theorem setVoice_fm (ch : FmCh) (v : FmVoice) : (s.setVoice ch v).fm = s.fm := rfl
@[simp] theorem setVoice_voice (ch : FmCh) (v : FmVoice) : (s.setVoice ch v).voice = s.voice.set ch.val v := rfl
@[simp] theorem setVoice_fmBank (ch : FmCh) (v : FmVoice) : (s.setVoice ch v).fmBank = s.fmBank := rfl
@[simp] theorem setVoice_pcmBank (ch : FmCh) (v : FmVoice) : (s.setVoice ch v).pcmBank = s.pcmBank := rfl
@[simp] theorem setVoice_waves (ch : FmCh) (v : FmVoice) : (s.setVoice ch v).waves = s.waves := rfl
@[simp] theorem setVoice_waveTotal (ch : FmCh) (v : FmVoice) : (s.setVoice ch v).waveTotal = s.waveTotal := rfl
@[simp] theorem setVoice_reservedCount (ch : FmCh) (v : FmVoice) : (s.setVoice ch v).reservedCount = s.reservedCount := rfl
@[simp] theorem setVoice_pcmRam (ch : FmCh) (v : FmVoice) : (s.setVoice ch v).pcmRam = s.pcmRam := rfl
@[simp] theorem setVoice_pcm (ch : FmCh) (v : FmVoice) : (s.setVoice ch v).pcm = s.pcm := rfl
@[simp] theorem setVoice_ssg (ch : FmCh) (v : FmVoice) : (s.setVoice ch v).ssg = s.ssg := rfl
@[simp] theorem setVoice_rhy (ch : FmCh) (v : FmVoice) : (s.setVoice ch v).rhy = s.rhy := rfl
@[simp] theorem setVoice_rhyDivCnt (ch : FmCh) (v : FmVoice) : (s.setVoice ch v).rhyDivCnt = s.rhyDivCnt := rfl
@[simp] theorem setVoice_timerA (ch : FmCh) (v : FmVoice) : (s.setVoice ch v).timerA = s.timerA := rfl
@[simp] theorem setVoice_timerB (ch : FmCh) (v : FmVoice) : (s.setVoice ch v).timerB = s.timerB := rfl
@[simp] theorem setVoice_vol (ch : FmCh) (v : FmVoice) : (s.setVoice ch v).vol = s.vol := rfl
@[simp] theorem setVoice_mute (ch : FmCh) (v : FmVoice) : (s.setVoice ch v).mute = s.mute := rfl
@[simp] theorem setVoice_maskA (ch : FmCh) (v : FmVoice) : (s.setVoice ch v).maskA = s.maskA := rfl
@[simp] theorem setVoice_maskB (ch : FmCh) (v : FmVoice) : (s.setVoice ch v).maskB = s.maskB := rfl
@[simp] theorem setVoice_faults (ch : FmCh) (v : FmVoice) : (s.setVoice ch v).faults = s.faults := rfl
@[simp] theorem setVoice_refused (ch : FmCh) (v : FmVoice) : (s.setVoice ch v).refused = s.refused := rfl
@[simp] theorem setVoice_inProduce (ch : FmCh) (v : FmVoice) : (s.setVoice ch v).inProduce = s.inProduce := rfl
@[simp] theorem setVoice_externalLocking (ch : FmCh) (v : FmVoice) : (s.setVoice ch v).externalLocking = s.externalLocking := rfl
@[simp] theorem setVoice_pending (ch : FmCh) (v : FmVoice) : (s.setVoice ch v).pending = s.pending := rfl
@[simp] theorem setVoice_hostProcs (ch : FmCh) (v : FmVoice) : (s.setVoice ch v).hostProcs = s.hostProcs := rfl
@[simp] theorem setVoice_outBuffer (ch : FmCh) (v : FmVoice) : (s.setVoice ch v).outBuffer = s.outBuffer := rfl
@[simp] theorem setVoice_result (ch : FmCh) (v : FmVoice) : (s.setVoice ch v).result = s.result := rfl
@[simp] theorem setVoice_callbackResults (ch : FmCh) (v : FmVoice) : (s.setVoice ch v).callbackResults = s.callbackResults := rfl

/-! ### `setPlaying` -/

@[simp] theorem setPlaying_chipReg (ch : FmCh) (on : Bool) : (s.setPlaying ch on).chipReg = s.chipReg := rfl
@[simp] theorem setPlaying_shadow (ch : FmCh) (on : Bool) : (s.setPlaying ch on).shadow = s.shadow := rfl
@[simp] theorem setPlaying_fnumLatch (ch : FmCh) (on : Bool) : (s.setPlaying ch on).fnumLatch = s.fnumLatch := rfl
@[simp] theorem setPlaying_fm (ch : FmCh) (on : Bool) : (s.setPlaying ch on).fm = s.fm := rfl
@[simp] theorem setPlaying_voice (ch : FmCh) (on : Bool) : (s.setPlaying ch on).voice = s.voice.set ch.val { s.voice[ch] with playing := on } := rfl
@[simp] theorem setPlaying_fmBank (ch : FmCh) (on : Bool) : (s.setPlaying ch on).fmBank = s.fmBank := rfl
@[simp] theorem setPlaying_pcmBank (ch : FmCh) (on : Bool) : (s.setPlaying ch on).pcmBank = s.pcmBank := rfl
@[simp] theorem setPlaying_waves (ch : FmCh) (on : Bool) : (s.setPlaying ch on).waves = s.waves := rfl
@[simp] theorem setPlaying_waveTotal (ch : FmCh) (on : Bool) : (s.setPlaying ch on).waveTotal = s.waveTotal := rfl
@[simp] theorem setPlaying_reservedCount (ch : FmCh) (on : Bool) : (s.setPlaying ch on).reservedCount = s.reservedCount := rfl
@[simp] theorem setPlaying_pcmRam (ch : FmCh) (on : Bool) : (s.setPlaying ch on).pcmRam = s.pcmRam := rfl
@[simp] theorem setPlaying_pcm (ch : FmCh) (on : Bool) : (s.setPlaying ch on).pcm = s.pcm := rfl
@[simp] theorem setPlaying_ssg (ch : FmCh) (on : Bool) : (s.setPlaying ch on).ssg = s.ssg := rfl
@[simp] theorem setPlaying_rhy (ch : FmCh) (on : Bool) : (s.setPlaying ch on).rhy = s.rhy := rfl
@[simp] theorem setPlaying_rhyDivCnt (ch : FmCh) (on : Bool) : (s.setPlaying ch on).rhyDivCnt = s.rhyDivCnt := rfl
@[simp] theorem setPlaying_timerA (ch : FmCh) (on : Bool) : (s.setPlaying ch on).timerA = s.timerA := rfl
@[simp] theorem setPlaying_timerB (ch : FmCh) (on : Bool) : (s.setPlaying ch on).timerB = s.timerB := rfl
@[simp] theorem setPlaying_vol (ch : FmCh) (on : Bool) : (s.setPlaying ch on).vol = s.vol := rfl
@[simp] theorem setPlaying_mute (ch : FmCh) (on : Bool) : (s.setPlaying ch on).mute = s.mute := rfl
@[simp] theorem setPlaying_maskA (ch : FmCh) (on : Bool) : (s.setPlaying ch on).maskA = s.maskA := rfl
@[simp] theorem setPlaying_maskB (ch : FmCh) (on : Bool) : (s.setPlaying ch on).maskB = s.maskB := rfl
@[simp] theorem setPlaying_faults (ch : FmCh) (on : Bool) : (s.setPlaying ch on).faults = s.faults := rfl
@[simp] theorem setPlaying_refused (ch : FmCh) (on : Bool) : (s.setPlaying ch on).refused = s.refused := rfl
@[simp] theorem setPlaying_inProduce (ch : FmCh) (on : Bool) : (s.setPlaying ch on).inProduce = s.inProduce := rfl
@[simp] theorem setPlaying_externalLocking (ch : FmCh) (on : Bool) : (s.setPlaying ch on).externalLocking = s.externalLocking := rfl
@[simp] theorem setPlaying_pending (ch : FmCh) (on : Bool) : (s.setPlaying ch on).pending = s.pending := rfl
@[simp] theorem setPlaying_hostProcs (ch : FmCh) (on : Bool) : (s.setPlaying ch on).hostProcs = s.hostProcs := rfl
@[simp] theorem setPlaying_outBuffer (ch : FmCh) (on : Bool) : (s.setPlaying ch on).outBuffer = s.outBuffer := rfl
@[simp] theorem setPlaying_result (ch : FmCh) (on : Bool) : (s.setPlaying ch on).result = s.result := rfl
@[simp] theorem setPlaying_callbackResults (ch : FmCh) (on : Bool) : (s.setPlaying ch on).callbackResults = s.callbackResults := rfl

/-! ### `setPcm` -/

@[simp] theorem setPcm_chipReg (j : PcmCh) (c : PcmChannel) : (s.setPcm j c).chipReg = s.chipReg := rfl
@[simp] theorem setPcm_shadow (j : PcmCh) (c : PcmChannel) : (s.setPcm j c).shadow = s.shadow := rfl
@[simp] theorem setPcm_fnumLatch (j : PcmCh) (c : PcmChannel) : (s.setPcm j c).fnumLatch = s.fnumLatch := rfl
@[simp] theorem setPcm_fm (j : PcmCh) (c : PcmChannel) : (s.setPcm j c).fm = s.fm := rfl
@[simp] theorem setPcm_voice (j : PcmCh) (c : PcmChannel) : (s.setPcm j c).voice = s.voice := rfl
@[simp] theorem setPcm_fmBank (j : PcmCh) (c : PcmChannel) : (s.setPcm j c).fmBank = s.fmBank := rfl
@[simp] theorem setPcm_pcmBank (j : PcmCh) (c : PcmChannel) : (s.setPcm j c).pcmBank = s.pcmBank := rfl
@[simp] theorem setPcm_waves (j : PcmCh) (c : PcmChannel) : (s.setPcm j c).waves = s.waves := rfl
@[simp] theorem setPcm_waveTotal (j : PcmCh) (c : PcmChannel) : (s.setPcm j c).waveTotal = s.waveTotal := rfl
@[simp] theorem setPcm_reservedCount (j : PcmCh) (c : PcmChannel) : (s.setPcm j c).reservedCount = s.reservedCount := rfl
@[simp] theorem setPcm_pcmRam (j : PcmCh) (c : PcmChannel) : (s.setPcm j c).pcmRam = s.pcmRam := rfl
@[simp] theorem setPcm_pcm (j : PcmCh) (c : PcmChannel) : (s.setPcm j c).pcm = s.pcm.set j.val c := rfl
@[simp] theorem setPcm_ssg (j : PcmCh) (c : PcmChannel) : (s.setPcm j c).ssg = s.ssg := rfl
@[simp] theorem setPcm_rhy (j : PcmCh) (c : PcmChannel) : (s.setPcm j c).rhy = s.rhy := rfl
@[simp] theorem setPcm_rhyDivCnt (j : PcmCh) (c : PcmChannel) : (s.setPcm j c).rhyDivCnt = s.rhyDivCnt := rfl
@[simp] theorem setPcm_timerA (j : PcmCh) (c : PcmChannel) : (s.setPcm j c).timerA = s.timerA := rfl
@[simp] theorem setPcm_timerB (j : PcmCh) (c : PcmChannel) : (s.setPcm j c).timerB = s.timerB := rfl
@[simp] theorem setPcm_vol (j : PcmCh) (c : PcmChannel) : (s.setPcm j c).vol = s.vol := rfl
@[simp] theorem setPcm_mute (j : PcmCh) (c : PcmChannel) : (s.setPcm j c).mute = s.mute := rfl
@[simp] theorem setPcm_maskA (j : PcmCh) (c : PcmChannel) : (s.setPcm j c).maskA = s.maskA := rfl
@[simp] theorem setPcm_maskB (j : PcmCh) (c : PcmChannel) : (s.setPcm j c).maskB = s.maskB := rfl
@[simp] theorem setPcm_faults (j : PcmCh) (c : PcmChannel) : (s.setPcm j c).faults = s.faults := rfl
@[simp] theorem setPcm_refused (j : PcmCh) (c : PcmChannel) : (s.setPcm j c).refused = s.refused := rfl
@[simp] theorem setPcm_inProduce (j : PcmCh) (c : PcmChannel) : (s.setPcm j c).inProduce = s.inProduce := rfl
@[simp] theorem setPcm_externalLocking (j : PcmCh) (c : PcmChannel) : (s.setPcm j c).externalLocking = s.externalLocking := rfl
@[simp] theorem setPcm_pending (j : PcmCh) (c : PcmChannel) : (s.setPcm j c).pending = s.pending := rfl
@[simp] theorem setPcm_hostProcs (j : PcmCh) (c : PcmChannel) : (s.setPcm j c).hostProcs = s.hostProcs := rfl
@[simp] theorem setPcm_outBuffer (j : PcmCh) (c : PcmChannel) : (s.setPcm j c).outBuffer = s.outBuffer := rfl
@[simp] theorem setPcm_result (j : PcmCh) (c : PcmChannel) : (s.setPcm j c).result = s.result := rfl
@[simp] theorem setPcm_callbackResults (j : PcmCh) (c : PcmChannel) : (s.setPcm j c).callbackResults = s.callbackResults := rfl

/-! ### `setRhy` -/

@[simp] theorem setRhy_chipReg (i : RhyCh) (c : RhyChannel) : (s.setRhy i c).chipReg = s.chipReg := rfl
@[simp] theorem setRhy_shadow (i : RhyCh) (c : RhyChannel) : (s.setRhy i c).shadow = s.shadow := rfl
@[simp] theorem setRhy_fnumLatch (i : RhyCh) (c : RhyChannel) : (s.setRhy i c).fnumLatch = s.fnumLatch := rfl
@[simp] theorem setRhy_fm (i : RhyCh) (c : RhyChannel) : (s.setRhy i c).fm = s.fm := rfl
@[simp] theorem setRhy_voice (i : RhyCh) (c : RhyChannel) : (s.setRhy i c).voice = s.voice := rfl
@[simp] theorem setRhy_fmBank (i : RhyCh) (c : RhyChannel) : (s.setRhy i c).fmBank = s.fmBank := rfl
@[simp] theorem setRhy_pcmBank (i : RhyCh) (c : RhyChannel) : (s.setRhy i c).pcmBank = s.pcmBank := rfl
@[simp] theorem setRhy_waves (i : RhyCh) (c : RhyChannel) : (s.setRhy i c).waves = s.waves := rfl
@[simp] theorem setRhy_waveTotal (i : RhyCh) (c : RhyChannel) : (s.setRhy i c).waveTotal = s.waveTotal := rfl
@[simp] theorem setRhy_reservedCount (i : RhyCh) (c : RhyChannel) : (s.setRhy i c).reservedCount = s.reservedCount := rfl
@[simp] theorem setRhy_pcmRam (i : RhyCh) (c : RhyChannel) : (s.setRhy i c).pcmRam = s.pcmRam := rfl
@[simp] theorem setRhy_pcm (i : RhyCh) (c : RhyChannel) : (s.setRhy i c).pcm = s.pcm := rfl
@[simp] theorem setRhy_ssg (i : RhyCh) (c : RhyChannel) : (s.setRhy i c).ssg = s.ssg := rfl
@[simp] theorem setRhy_rhy (i : RhyCh) (c : RhyChannel) : (s.setRhy i c).rhy = s.rhy.set i.val c := rfl
@[simp] theorem setRhy_rhyDivCnt (i : RhyCh) (c : RhyChannel) : (s.setRhy i c).rhyDivCnt = s.rhyDivCnt := rfl
@[simp] theorem setRhy_timerA (i : RhyCh) (c : RhyChannel) : (s.setRhy i c).timerA = s.timerA := rfl
@[simp] theorem setRhy_timerB (i : RhyCh) (c : RhyChannel) : (s.setRhy i c).timerB = s.timerB := rfl
@[simp] theorem setRhy_vol (i : RhyCh) (c : RhyChannel) : (s.setRhy i c).vol = s.vol := rfl
@[simp] theorem setRhy_mute (i : RhyCh) (c : RhyChannel) : (s.setRhy i c).mute = s.mute := rfl
@[simp] theorem setRhy_maskA (i : RhyCh) (c : RhyChannel) : (s.setRhy i c).maskA = s.maskA := rfl
@[simp] theorem setRhy_maskB (i : RhyCh) (c : RhyChannel) : (s.setRhy i c).maskB = s.maskB := rfl
@[simp] theorem setRhy_faults (i : RhyCh) (c : RhyChannel) : (s.setRhy i c).faults = s.faults := rfl
@[simp] theorem setRhy_refused (i : RhyCh) (c : RhyChannel) : (s.setRhy i c).refused = s.refused := rfl
@[simp] theorem setRhy_inProduce (i : RhyCh) (c : RhyChannel) : (s.setRhy i c).inProduce = s.inProduce := rfl
@[simp] theorem setRhy_externalLocking (i : RhyCh) (c : RhyChannel) : (s.setRhy i c).externalLocking = s.externalLocking := rfl
@[simp] theorem setRhy_pending (i : RhyCh) (c : RhyChannel) : (s.setRhy i c).pending = s.pending := rfl
@[simp] theorem setRhy_hostProcs (i : RhyCh) (c : RhyChannel) : (s.setRhy i c).hostProcs = s.hostProcs := rfl
@[simp] theorem setRhy_outBuffer (i : RhyCh) (c : RhyChannel) : (s.setRhy i c).outBuffer = s.outBuffer := rfl
@[simp] theorem setRhy_result (i : RhyCh) (c : RhyChannel) : (s.setRhy i c).result = s.result := rfl
@[simp] theorem setRhy_callbackResults (i : RhyCh) (c : RhyChannel) : (s.setRhy i c).callbackResults = s.callbackResults := rfl

/-! ### `raiseSsgQueueOverflow` -/

@[simp] theorem raiseSsgQueueOverflow_chipReg : (raiseSsgQueueOverflow s).chipReg = s.chipReg := rfl
@[simp] theorem raiseSsgQueueOverflow_shadow : (raiseSsgQueueOverflow s).shadow = s.shadow := rfl
@[simp] theorem raiseSsgQueueOverflow_fnumLatch : (raiseSsgQueueOverflow s).fnumLatch = s.fnumLatch := rfl
@[simp] theorem raiseSsgQueueOverflow_fm : (raiseSsgQueueOverflow s).fm = s.fm := rfl
@[simp] theorem raiseSsgQueueOverflow_voice : (raiseSsgQueueOverflow s).voice = s.voice := rfl
@[simp] theorem raiseSsgQueueOverflow_fmBank : (raiseSsgQueueOverflow s).fmBank = s.fmBank := rfl
@[simp] theorem raiseSsgQueueOverflow_pcmBank : (raiseSsgQueueOverflow s).pcmBank = s.pcmBank := rfl
@[simp] theorem raiseSsgQueueOverflow_waves : (raiseSsgQueueOverflow s).waves = s.waves := rfl
@[simp] theorem raiseSsgQueueOverflow_waveTotal : (raiseSsgQueueOverflow s).waveTotal = s.waveTotal := rfl
@[simp] theorem raiseSsgQueueOverflow_reservedCount : (raiseSsgQueueOverflow s).reservedCount = s.reservedCount := rfl
@[simp] theorem raiseSsgQueueOverflow_pcmRam : (raiseSsgQueueOverflow s).pcmRam = s.pcmRam := rfl
@[simp] theorem raiseSsgQueueOverflow_pcm : (raiseSsgQueueOverflow s).pcm = s.pcm := rfl
@[simp] theorem raiseSsgQueueOverflow_ssg : (raiseSsgQueueOverflow s).ssg = s.ssg := rfl
@[simp] theorem raiseSsgQueueOverflow_rhy : (raiseSsgQueueOverflow s).rhy = s.rhy := rfl
@[simp] theorem raiseSsgQueueOverflow_rhyDivCnt : (raiseSsgQueueOverflow s).rhyDivCnt = s.rhyDivCnt := rfl
@[simp] theorem raiseSsgQueueOverflow_timerA : (raiseSsgQueueOverflow s).timerA = s.timerA := rfl
@[simp] theorem raiseSsgQueueOverflow_timerB : (raiseSsgQueueOverflow s).timerB = s.timerB := rfl
@[simp] theorem raiseSsgQueueOverflow_vol : (raiseSsgQueueOverflow s).vol = s.vol := rfl
@[simp] theorem raiseSsgQueueOverflow_mute : (raiseSsgQueueOverflow s).mute = s.mute := rfl
@[simp] theorem raiseSsgQueueOverflow_maskA : (raiseSsgQueueOverflow s).maskA = s.maskA := rfl
@[simp] theorem raiseSsgQueueOverflow_maskB : (raiseSsgQueueOverflow s).maskB = s.maskB := rfl
@[simp] theorem raiseSsgQueueOverflow_faults : (raiseSsgQueueOverflow s).faults = { s.faults with ssgQueueOverflow := true } := rfl
@[simp] theorem raiseSsgQueueOverflow_refused : (raiseSsgQueueOverflow s).refused = s.refused := rfl
@[simp] theorem raiseSsgQueueOverflow_inProduce : (raiseSsgQueueOverflow s).inProduce = s.inProduce := rfl
@[simp] theorem raiseSsgQueueOverflow_externalLocking : (raiseSsgQueueOverflow s).externalLocking = s.externalLocking := rfl
@[simp] theorem raiseSsgQueueOverflow_pending : (raiseSsgQueueOverflow s).pending = s.pending := rfl
@[simp] theorem raiseSsgQueueOverflow_hostProcs : (raiseSsgQueueOverflow s).hostProcs = s.hostProcs := rfl
@[simp] theorem raiseSsgQueueOverflow_outBuffer : (raiseSsgQueueOverflow s).outBuffer = s.outBuffer := rfl
@[simp] theorem raiseSsgQueueOverflow_result : (raiseSsgQueueOverflow s).result = s.result := rfl
@[simp] theorem raiseSsgQueueOverflow_callbackResults : (raiseSsgQueueOverflow s).callbackResults = s.callbackResults := rfl

/-! ### `raiseProduceReentry` -/

@[simp] theorem raiseProduceReentry_chipReg : (raiseProduceReentry s).chipReg = s.chipReg := rfl
@[simp] theorem raiseProduceReentry_shadow : (raiseProduceReentry s).shadow = s.shadow := rfl
@[simp] theorem raiseProduceReentry_fnumLatch : (raiseProduceReentry s).fnumLatch = s.fnumLatch := rfl
@[simp] theorem raiseProduceReentry_fm : (raiseProduceReentry s).fm = s.fm := rfl
@[simp] theorem raiseProduceReentry_voice : (raiseProduceReentry s).voice = s.voice := rfl
@[simp] theorem raiseProduceReentry_fmBank : (raiseProduceReentry s).fmBank = s.fmBank := rfl
@[simp] theorem raiseProduceReentry_pcmBank : (raiseProduceReentry s).pcmBank = s.pcmBank := rfl
@[simp] theorem raiseProduceReentry_waves : (raiseProduceReentry s).waves = s.waves := rfl
@[simp] theorem raiseProduceReentry_waveTotal : (raiseProduceReentry s).waveTotal = s.waveTotal := rfl
@[simp] theorem raiseProduceReentry_reservedCount : (raiseProduceReentry s).reservedCount = s.reservedCount := rfl
@[simp] theorem raiseProduceReentry_pcmRam : (raiseProduceReentry s).pcmRam = s.pcmRam := rfl
@[simp] theorem raiseProduceReentry_pcm : (raiseProduceReentry s).pcm = s.pcm := rfl
@[simp] theorem raiseProduceReentry_ssg : (raiseProduceReentry s).ssg = s.ssg := rfl
@[simp] theorem raiseProduceReentry_rhy : (raiseProduceReentry s).rhy = s.rhy := rfl
@[simp] theorem raiseProduceReentry_rhyDivCnt : (raiseProduceReentry s).rhyDivCnt = s.rhyDivCnt := rfl
@[simp] theorem raiseProduceReentry_timerA : (raiseProduceReentry s).timerA = s.timerA := rfl
@[simp] theorem raiseProduceReentry_timerB : (raiseProduceReentry s).timerB = s.timerB := rfl
@[simp] theorem raiseProduceReentry_vol : (raiseProduceReentry s).vol = s.vol := rfl
@[simp] theorem raiseProduceReentry_mute : (raiseProduceReentry s).mute = s.mute := rfl
@[simp] theorem raiseProduceReentry_maskA : (raiseProduceReentry s).maskA = s.maskA := rfl
@[simp] theorem raiseProduceReentry_maskB : (raiseProduceReentry s).maskB = s.maskB := rfl
@[simp] theorem raiseProduceReentry_faults : (raiseProduceReentry s).faults = { s.faults with produceReentry := true } := rfl
@[simp] theorem raiseProduceReentry_refused : (raiseProduceReentry s).refused = s.refused := rfl
@[simp] theorem raiseProduceReentry_inProduce : (raiseProduceReentry s).inProduce = s.inProduce := rfl
@[simp] theorem raiseProduceReentry_externalLocking : (raiseProduceReentry s).externalLocking = s.externalLocking := rfl
@[simp] theorem raiseProduceReentry_pending : (raiseProduceReentry s).pending = s.pending := rfl
@[simp] theorem raiseProduceReentry_hostProcs : (raiseProduceReentry s).hostProcs = s.hostProcs := rfl
@[simp] theorem raiseProduceReentry_outBuffer : (raiseProduceReentry s).outBuffer = s.outBuffer := rfl
@[simp] theorem raiseProduceReentry_result : (raiseProduceReentry s).result = s.result := rfl
@[simp] theorem raiseProduceReentry_callbackResults : (raiseProduceReentry s).callbackResults = s.callbackResults := rfl

/-! ### `raiseBufferBounds` -/

@[simp] theorem raiseBufferBounds_chipReg : (raiseBufferBounds s).chipReg = s.chipReg := rfl
@[simp] theorem raiseBufferBounds_shadow : (raiseBufferBounds s).shadow = s.shadow := rfl
@[simp] theorem raiseBufferBounds_fnumLatch : (raiseBufferBounds s).fnumLatch = s.fnumLatch := rfl
@[simp] theorem raiseBufferBounds_fm : (raiseBufferBounds s).fm = s.fm := rfl
@[simp] theorem raiseBufferBounds_voice : (raiseBufferBounds s).voice = s.voice := rfl
@[simp] theorem raiseBufferBounds_fmBank : (raiseBufferBounds s).fmBank = s.fmBank := rfl
@[simp] theorem raiseBufferBounds_pcmBank : (raiseBufferBounds s).pcmBank = s.pcmBank := rfl
@[simp] theorem raiseBufferBounds_waves : (raiseBufferBounds s).waves = s.waves := rfl
@[simp] theorem raiseBufferBounds_waveTotal : (raiseBufferBounds s).waveTotal = s.waveTotal := rfl
@[simp] theorem raiseBufferBounds_reservedCount : (raiseBufferBounds s).reservedCount = s.reservedCount := rfl
@[simp] theorem raiseBufferBounds_pcmRam : (raiseBufferBounds s).pcmRam = s.pcmRam := rfl
@[simp] theorem raiseBufferBounds_pcm : (raiseBufferBounds s).pcm = s.pcm := rfl
@[simp] theorem raiseBufferBounds_ssg : (raiseBufferBounds s).ssg = s.ssg := rfl
@[simp] theorem raiseBufferBounds_rhy : (raiseBufferBounds s).rhy = s.rhy := rfl
@[simp] theorem raiseBufferBounds_rhyDivCnt : (raiseBufferBounds s).rhyDivCnt = s.rhyDivCnt := rfl
@[simp] theorem raiseBufferBounds_timerA : (raiseBufferBounds s).timerA = s.timerA := rfl
@[simp] theorem raiseBufferBounds_timerB : (raiseBufferBounds s).timerB = s.timerB := rfl
@[simp] theorem raiseBufferBounds_vol : (raiseBufferBounds s).vol = s.vol := rfl
@[simp] theorem raiseBufferBounds_mute : (raiseBufferBounds s).mute = s.mute := rfl
@[simp] theorem raiseBufferBounds_maskA : (raiseBufferBounds s).maskA = s.maskA := rfl
@[simp] theorem raiseBufferBounds_maskB : (raiseBufferBounds s).maskB = s.maskB := rfl
@[simp] theorem raiseBufferBounds_faults : (raiseBufferBounds s).faults = { s.faults with bufferBounds := true } := rfl
@[simp] theorem raiseBufferBounds_refused : (raiseBufferBounds s).refused = s.refused := rfl
@[simp] theorem raiseBufferBounds_inProduce : (raiseBufferBounds s).inProduce = s.inProduce := rfl
@[simp] theorem raiseBufferBounds_externalLocking : (raiseBufferBounds s).externalLocking = s.externalLocking := rfl
@[simp] theorem raiseBufferBounds_pending : (raiseBufferBounds s).pending = s.pending := rfl
@[simp] theorem raiseBufferBounds_hostProcs : (raiseBufferBounds s).hostProcs = s.hostProcs := rfl
@[simp] theorem raiseBufferBounds_outBuffer : (raiseBufferBounds s).outBuffer = s.outBuffer := rfl
@[simp] theorem raiseBufferBounds_result : (raiseBufferBounds s).result = s.result := rfl
@[simp] theorem raiseBufferBounds_callbackResults : (raiseBufferBounds s).callbackResults = s.callbackResults := rfl

/-! ### `raiseLockViolation` -/

@[simp] theorem raiseLockViolation_chipReg : (raiseLockViolation s).chipReg = s.chipReg := rfl
@[simp] theorem raiseLockViolation_shadow : (raiseLockViolation s).shadow = s.shadow := rfl
@[simp] theorem raiseLockViolation_fnumLatch : (raiseLockViolation s).fnumLatch = s.fnumLatch := rfl
@[simp] theorem raiseLockViolation_fm : (raiseLockViolation s).fm = s.fm := rfl
@[simp] theorem raiseLockViolation_voice : (raiseLockViolation s).voice = s.voice := rfl
@[simp] theorem raiseLockViolation_fmBank : (raiseLockViolation s).fmBank = s.fmBank := rfl
@[simp] theorem raiseLockViolation_pcmBank : (raiseLockViolation s).pcmBank = s.pcmBank := rfl
@[simp] theorem raiseLockViolation_waves : (raiseLockViolation s).waves = s.waves := rfl
@[simp] theorem raiseLockViolation_waveTotal : (raiseLockViolation s).waveTotal = s.waveTotal := rfl
@[simp] theorem raiseLockViolation_reservedCount : (raiseLockViolation s).reservedCount = s.reservedCount := rfl
@[simp] theorem raiseLockViolation_pcmRam : (raiseLockViolation s).pcmRam = s.pcmRam := rfl
@[simp] theorem raiseLockViolation_pcm : (raiseLockViolation s).pcm = s.pcm := rfl
@[simp] theorem raiseLockViolation_ssg : (raiseLockViolation s).ssg = s.ssg := rfl
@[simp] theorem raiseLockViolation_rhy : (raiseLockViolation s).rhy = s.rhy := rfl
@[simp] theorem raiseLockViolation_rhyDivCnt : (raiseLockViolation s).rhyDivCnt = s.rhyDivCnt := rfl
@[simp] theorem raiseLockViolation_timerA : (raiseLockViolation s).timerA = s.timerA := rfl
@[simp] theorem raiseLockViolation_timerB : (raiseLockViolation s).timerB = s.timerB := rfl
@[simp] theorem raiseLockViolation_vol : (raiseLockViolation s).vol = s.vol := rfl
@[simp] theorem raiseLockViolation_mute : (raiseLockViolation s).mute = s.mute := rfl
@[simp] theorem raiseLockViolation_maskA : (raiseLockViolation s).maskA = s.maskA := rfl
@[simp] theorem raiseLockViolation_maskB : (raiseLockViolation s).maskB = s.maskB := rfl
@[simp] theorem raiseLockViolation_faults : (raiseLockViolation s).faults = { s.faults with lockViolation := true } := rfl
@[simp] theorem raiseLockViolation_refused : (raiseLockViolation s).refused = s.refused := rfl
@[simp] theorem raiseLockViolation_inProduce : (raiseLockViolation s).inProduce = s.inProduce := rfl
@[simp] theorem raiseLockViolation_externalLocking : (raiseLockViolation s).externalLocking = s.externalLocking := rfl
@[simp] theorem raiseLockViolation_pending : (raiseLockViolation s).pending = s.pending := rfl
@[simp] theorem raiseLockViolation_hostProcs : (raiseLockViolation s).hostProcs = s.hostProcs := rfl
@[simp] theorem raiseLockViolation_outBuffer : (raiseLockViolation s).outBuffer = s.outBuffer := rfl
@[simp] theorem raiseLockViolation_result : (raiseLockViolation s).result = s.result := rfl
@[simp] theorem raiseLockViolation_callbackResults : (raiseLockViolation s).callbackResults = s.callbackResults := rfl

/-! ### `refuse` -/

@[simp] theorem refuse_chipReg : (refuse s).chipReg = s.chipReg := rfl
@[simp] theorem refuse_shadow : (refuse s).shadow = s.shadow := rfl
@[simp] theorem refuse_fnumLatch : (refuse s).fnumLatch = s.fnumLatch := rfl
@[simp] theorem refuse_fm : (refuse s).fm = s.fm := rfl
@[simp] theorem refuse_voice : (refuse s).voice = s.voice := rfl
@[simp] theorem refuse_fmBank : (refuse s).fmBank = s.fmBank := rfl
@[simp] theorem refuse_pcmBank : (refuse s).pcmBank = s.pcmBank := rfl
@[simp] theorem refuse_waves : (refuse s).waves = s.waves := rfl
@[simp] theorem refuse_waveTotal : (refuse s).waveTotal = s.waveTotal := rfl
@[simp] theorem refuse_reservedCount : (refuse s).reservedCount = s.reservedCount := rfl
@[simp] theorem refuse_pcmRam : (refuse s).pcmRam = s.pcmRam := rfl
@[simp] theorem refuse_pcm : (refuse s).pcm = s.pcm := rfl
@[simp] theorem refuse_ssg : (refuse s).ssg = s.ssg := rfl
@[simp] theorem refuse_rhy : (refuse s).rhy = s.rhy := rfl
@[simp] theorem refuse_rhyDivCnt : (refuse s).rhyDivCnt = s.rhyDivCnt := rfl
@[simp] theorem refuse_timerA : (refuse s).timerA = s.timerA := rfl
@[simp] theorem refuse_timerB : (refuse s).timerB = s.timerB := rfl
@[simp] theorem refuse_vol : (refuse s).vol = s.vol := rfl
@[simp] theorem refuse_mute : (refuse s).mute = s.mute := rfl
@[simp] theorem refuse_maskA : (refuse s).maskA = s.maskA := rfl
@[simp] theorem refuse_maskB : (refuse s).maskB = s.maskB := rfl
@[simp] theorem refuse_faults : (refuse s).faults = s.faults := rfl
@[simp] theorem refuse_refused : (refuse s).refused = true := rfl
@[simp] theorem refuse_inProduce : (refuse s).inProduce = s.inProduce := rfl
@[simp] theorem refuse_externalLocking : (refuse s).externalLocking = s.externalLocking := rfl
@[simp] theorem refuse_pending : (refuse s).pending = s.pending := rfl
@[simp] theorem refuse_hostProcs : (refuse s).hostProcs = s.hostProcs := rfl
@[simp] theorem refuse_outBuffer : (refuse s).outBuffer = s.outBuffer := rfl
@[simp] theorem refuse_result : (refuse s).result = none := rfl
@[simp] theorem refuse_callbackResults : (refuse s).callbackResults = s.callbackResults := rfl

/-! ### `pcmStop` -/

@[simp] theorem pcmStop_chipReg (j : PcmCh) : (pcmStop j s).chipReg = s.chipReg := rfl
@[simp] theorem pcmStop_shadow (j : PcmCh) : (pcmStop j s).shadow = s.shadow := rfl
@[simp] theorem pcmStop_fnumLatch (j : PcmCh) : (pcmStop j s).fnumLatch = s.fnumLatch := rfl
@[simp] theorem pcmStop_fm (j : PcmCh) : (pcmStop j s).fm = s.fm := rfl
@[simp] theorem pcmStop_voice (j : PcmCh) : (pcmStop j s).voice = s.voice := rfl
@[simp] theorem pcmStop_fmBank (j : PcmCh) : (pcmStop j s).fmBank = s.fmBank := rfl
@[simp] theorem pcmStop_pcmBank (j : PcmCh) : (pcmStop j s).pcmBank = s.pcmBank := rfl
@[simp] theorem pcmStop_waves (j : PcmCh) : (pcmStop j s).waves = s.waves := rfl
@[simp] theorem pcmStop_waveTotal (j : PcmCh) : (pcmStop j s).waveTotal = s.waveTotal := rfl
@[simp] theorem pcmStop_reservedCount (j : PcmCh) : (pcmStop j s).reservedCount = s.reservedCount := rfl
@[simp] theorem pcmStop_pcmRam (j : PcmCh) : (pcmStop j s).pcmRam = s.pcmRam := rfl
@[simp] theorem pcmStop_pcm (j : PcmCh) : (pcmStop j s).pcm = s.pcm.set j.val s.pcm[j].stopped := rfl
@[simp] theorem pcmStop_ssg (j : PcmCh) : (pcmStop j s).ssg = s.ssg := rfl
@[simp] theorem pcmStop_rhy (j : PcmCh) : (pcmStop j s).rhy = s.rhy := rfl
@[simp] theorem pcmStop_rhyDivCnt (j : PcmCh) : (pcmStop j s).rhyDivCnt = s.rhyDivCnt := rfl
@[simp] theorem pcmStop_timerA (j : PcmCh) : (pcmStop j s).timerA = s.timerA := rfl
@[simp] theorem pcmStop_timerB (j : PcmCh) : (pcmStop j s).timerB = s.timerB := rfl
@[simp] theorem pcmStop_vol (j : PcmCh) : (pcmStop j s).vol = s.vol := rfl
@[simp] theorem pcmStop_mute (j : PcmCh) : (pcmStop j s).mute = s.mute := rfl
@[simp] theorem pcmStop_maskA (j : PcmCh) : (pcmStop j s).maskA = s.maskA := rfl
@[simp] theorem pcmStop_maskB (j : PcmCh) : (pcmStop j s).maskB = s.maskB := rfl
@[simp] theorem pcmStop_faults (j : PcmCh) : (pcmStop j s).faults = s.faults := rfl
@[simp] theorem pcmStop_refused (j : PcmCh) : (pcmStop j s).refused = s.refused := rfl
@[simp] theorem pcmStop_inProduce (j : PcmCh) : (pcmStop j s).inProduce = s.inProduce := rfl
@[simp] theorem pcmStop_externalLocking (j : PcmCh) : (pcmStop j s).externalLocking = s.externalLocking := rfl
@[simp] theorem pcmStop_pending (j : PcmCh) : (pcmStop j s).pending = s.pending := rfl
@[simp] theorem pcmStop_hostProcs (j : PcmCh) : (pcmStop j s).hostProcs = s.hostProcs := rfl
@[simp] theorem pcmStop_outBuffer (j : PcmCh) : (pcmStop j s).outBuffer = s.outBuffer := rfl
@[simp] theorem pcmStop_result (j : PcmCh) : (pcmStop j s).result = s.result := rfl
@[simp] theorem pcmStop_callbackResults (j : PcmCh) : (pcmStop j s).callbackResults = s.callbackResults := rfl

end Sys2Proof.Machine
end

