-- ==== Sys2Proof/Laws/Memory.lean ====
section
/-! SUPPORT. The laws of the memories: the byte memory keeps its canonical form and reads back what was written; a register image
reads back what was written. -/

namespace Sys2Proof.Machine

/-! ## The byte memory -/

@[simp] theorem Memory.read_nil (a : Nat) : Memory.read [] a = 0 := rfl

/-- A canonical memory from `lo` on is one from any lower address on. -/
theorem Memory.wfFrom_mono {m : Memory} {lo lo' : Nat} (h : m.wfFrom lo = true) (hl : lo' ≤ lo) : m.wfFrom lo' = true := by
  cases m with
  | nil => rfl
  | cons c t =>
    simp only [Memory.wfFrom, Bool.and_eq_true, decide_eq_true_eq] at h ⊢
    exact ⟨⟨⟨hl.trans h.1.1.1, h.1.1.2⟩, h.1.2⟩, h.2⟩

/-- Below its first address a canonical memory reads zero. -/
theorem Memory.read_below {m : Memory} {lo a : Nat} (h : m.wfFrom lo = true) (ha : a < lo) : m.read a = 0 := by
  induction m generalizing lo with
  | nil => rfl
  | cons c t ih =>
    simp only [Memory.wfFrom, Bool.and_eq_true, decide_eq_true_eq] at h
    have hne : a ≠ c.1 := by omega
    simp only [Memory.read, hne, if_false]
    exact ih h.2 (by omega)

/-- A write keeps the canonical form. -/
theorem Memory.wfFrom_write {m : Memory} {lo a : Nat} {v : Byte} (h : m.wfFrom lo = true) (hl : lo ≤ a) (ha : a < 65536) :
    (m.write a v).wfFrom lo = true := by
  induction m generalizing lo with
  | nil =>
    by_cases hv : v = 0
    · simp only [Memory.write, hv, if_true, Memory.wfFrom]
    · simp only [Memory.write, hv, if_false, Memory.wfFrom, Bool.and_eq_true, decide_eq_true_eq]
      exact ⟨⟨⟨hl, ha⟩, hv⟩, trivial⟩
  | cons c t ih =>
    have h0 := h
    simp only [Memory.wfFrom, Bool.and_eq_true, decide_eq_true_eq] at h
    obtain ⟨⟨⟨h1, h2⟩, h3⟩, h4⟩ := h
    simp only [Memory.write]
    split
    · split
      · exact h0
      · rename_i hlt hv
        simp only [Memory.wfFrom, Bool.and_eq_true, decide_eq_true_eq]
        exact ⟨⟨⟨hl, ha⟩, hv⟩, ⟨⟨hlt, h2⟩, h3⟩, h4⟩
    · split
      · split
        · exact Memory.wfFrom_mono h4 (by omega)
        · rename_i _ heq hv
          subst heq
          simp only [Memory.wfFrom, Bool.and_eq_true, decide_eq_true_eq]
          exact ⟨⟨⟨hl, ha⟩, hv⟩, h4⟩
      · simp only [Memory.wfFrom, Bool.and_eq_true, decide_eq_true_eq]
        exact ⟨⟨⟨h1, h2⟩, h3⟩, ih h4 (by omega)⟩

/-- Reading a canonical memory after a write. -/
theorem Memory.read_write_from {m : Memory} {lo : Nat} (h : m.wfFrom lo = true) (a b : Nat) (v : Byte) :
    (m.write a v).read b = if b = a then v else m.read b := by
  induction m generalizing lo with
  | nil =>
    by_cases hv : v = 0
    · simp only [Memory.write, hv, if_true, Memory.read]; split <;> rfl
    · simp only [Memory.write, hv, if_false, Memory.read]
  | cons c t ih =>
    simp only [Memory.wfFrom, Bool.and_eq_true, decide_eq_true_eq] at h
    obtain ⟨⟨⟨h1, h2⟩, h3⟩, h4⟩ := h
    simp only [Memory.write]
    by_cases hac : a < c.1
    · simp only [hac, if_true]
      by_cases hv : v = 0
      · simp only [hv, if_true]
        by_cases hb : b = a
        · subst hb
          have hne : b ≠ c.1 := by omega
          simp only [Memory.read, hne, if_false, if_true]
          exact Memory.read_below h4 (by omega)
        · simp only [hb, if_false]
      · simp only [hv, if_false, Memory.read]
    · by_cases heq : a = c.1
      · subst heq
        simp only [Nat.lt_irrefl, if_false, if_true]
        by_cases hv : v = 0
        · simp only [hv, if_true]
          by_cases hb : b = c.1
          · subst hb
            simp only [if_true]
            exact Memory.read_below h4 (by omega)
          · simp only [hb, if_false, Memory.read]
        · simp only [hv, if_false, Memory.read]
          by_cases hb : b = c.1 <;> simp only [hb, if_true, if_false]
      · simp only [hac, heq, if_false, Memory.read, ih h4]
        by_cases hb : b = c.1
        · have hne : b ≠ a := by omega
          simp only [hb, if_true]
          have hca : c.1 ≠ a := fun h => heq h.symm
          simp only [hca, if_false]
        · simp only [hb, if_false]

/-- A write into the address space keeps a memory canonical. -/
theorem Memory.wf_write {m : Memory} {a : Nat} {v : Byte} (h : m.wf = true) (ha : a < 65536) : (m.write a v).wf = true :=
  Memory.wfFrom_write h (Nat.zero_le a) ha

/-- Read after write. -/
theorem Memory.read_write {m : Memory} (h : m.wf = true) (a b : Nat) (v : Byte) :
    (m.write a v).read b = if b = a then v else m.read b := Memory.read_write_from h a b v

/-- Writing several bytes keeps the canonical form. -/
theorem Memory.wf_writeBytes {vs : List Byte} : ∀ {m : Memory} {a : Nat}, m.wf = true → a + vs.length ≤ 65536 →
    (m.writeBytes a vs).wf = true := by
  induction vs with
  | nil => intro m a h _; exact h
  | cons v vs ih =>
    intro m a h ha
    simp only [List.length_cons] at ha
    exact ih (Memory.wf_write h (by omega)) (by omega)

/-- Reading after writing several bytes: the written bytes at their addresses, every other byte as before. -/
theorem Memory.read_writeBytes {vs : List Byte} : ∀ {m : Memory} {a : Nat}, m.wf = true → a + vs.length ≤ 65536 → ∀ b,
    (m.writeBytes a vs).read b = if a ≤ b ∧ b < a + vs.length then vs.getD (b - a) 0 else m.read b := by
  induction vs with
  | nil =>
    intro m a _ _ b
    have : ¬(a ≤ b ∧ b < a + ([] : List Byte).length) := by simp only [List.length_nil]; omega
    simp only [Memory.writeBytes, if_neg this]
  | cons v vs ih =>
    intro m a h ha b
    simp only [List.length_cons] at ha
    simp only [Memory.writeBytes, List.length_cons]
    rw [ih (Memory.wf_write h (by omega)) (by omega), Memory.read_write h]
    by_cases hb : b = a
    · subst hb
      have h1 : ¬(b + 1 ≤ b ∧ b < b + 1 + vs.length) := by omega
      have h2 : b ≤ b ∧ b < b + (vs.length + 1) := by omega
      simp only [if_neg h1, if_pos h2, if_true, Nat.sub_self, List.getD_cons_zero]
    · by_cases hc : a + 1 ≤ b ∧ b < a + 1 + vs.length
      · have h2 : a ≤ b ∧ b < a + (vs.length + 1) := by omega
        have h3 : b - a = (b - (a + 1)) + 1 := by omega
        simp only [if_pos hc, if_pos h2, h3, List.getD_cons_succ]
      · have h2 : ¬(a ≤ b ∧ b < a + (vs.length + 1)) := by omega
        simp only [if_neg hc, if_neg h2, if_neg hb]

/-! ## Register images -/

/-- Reading a register image after a write. -/
theorem RegFile.read_write (f : RegFile) (p q : Part) (r x : Nat) (v : Byte) :
    RegFile.read (RegFile.write f p r v) q x = if q = p ∧ x = r ∧ r < 256 then v else RegFile.read f q x := by
  unfold RegFile.read RegFile.write
  by_cases hq : q = p
  · subst hq
    simp only [Vector.getElem_set_self, true_and]
    by_cases hx : x = r
    · subst hx
      by_cases hr : x < 256
      · simp [hr]
      · simp [hr]
    · simp [hx, Ne.symm hx]
  · have hv : p.val ≠ q.val := fun h => hq (Fin.ext h.symm)
    simp only [hq, false_and, if_false]
    rw [Vector.getElem_set_ne (h := hv)]

/-- Two register images that read alike are equal. -/
theorem RegFile.ext_read {f g : RegFile} (h : ∀ (p : Part) (r : Nat), r < 256 → RegFile.read f p r = RegFile.read g p r) : f = g := by
  apply Vector.ext
  intro i hi
  apply Vector.ext
  intro j hj
  have := h ⟨i, hi⟩ j hj
  simpa [RegFile.read, hj] using this

@[simp] theorem chip_setChip (s : State) (p q : Part) (r x : Nat) (v : Byte) :
    (s.setChip p r v).chip q x = if q = p ∧ x = r ∧ r < 256 then v else s.chip q x := RegFile.read_write _ _ _ _ _ _

@[simp] theorem shad_setShad (s : State) (p q : Part) (r x : Nat) (v : Byte) :
    (s.setShad p r v).shad q x = if q = p ∧ x = r ∧ r < 256 then v else s.shad q x := RegFile.read_write _ _ _ _ _ _

@[simp] theorem shad_setChip (s : State) (p q : Part) (r x : Nat) (v : Byte) : (s.setChip p r v).shad q x = s.shad q x := rfl

@[simp] theorem chip_setShad (s : State) (p q : Part) (r x : Nat) (v : Byte) : (s.setShad p r v).chip q x = s.chip q x := rfl

end Sys2Proof.Machine
end

