-- ==== Sys2Proof/Laws/Registers.lean ====
section
/-! SUPPORT. What the two register write operations do to every field (spec R300 to R302): the register they write, the one effect the
register has, and nothing else. -/

namespace Sys2Proof.Machine

variable (P : Params) (p : Part) (r : Nat) (v : Byte) (s : State)

/-! ## The effects -/

/-- A rhythm key write changes rhythm channels only. -/
theorem rhyKeyWrite_eq : rhyKeyWrite P v s = { s with rhy := (rhyKeyWrite P v s).rhy } := by
  unfold rhyKeyWrite
  generalize rhyChannels = l
  induction l generalizing s with
  | nil => rfl
  | cons i l ih =>
    rw [List.foldl_cons, ih]
    unfold rhyKey
    split <;> rfl

/-- A key register write changes FM channels only. -/
theorem keyWrite_eq : keyWrite v s = { s with fm := (keyWrite v s).fm } := by unfold keyWrite; dsimp only; split <;> rfl

/-- An SSG write changes the queue and the fault flags only. -/
theorem ssgEnqueue_eq (x : Fin 14) :
    ssgEnqueue P x v s = { s with ssg := (ssgEnqueue P x v s).ssg, faults := (ssgEnqueue P x v s).faults } := by
  unfold ssgEnqueue; split <;> rfl

/-- The one effect a register write has, by its address (R302). -/
theorem regEffect_cases :
    (p = 0 ∧ r ≤ 0x0D ∧ regEffect P p r v s = ssgEnqueue P (Fin.ofNat 14 r) v s) ∨
    (p = 0 ∧ r = 0x10 ∧ regEffect P p r v s = rhyKeyWrite P v s) ∨
    (p = 0 ∧ r = 0x28 ∧ regEffect P p r v s = keyWrite v s) ∨
    (0xA4 ≤ r ∧ r ≤ 0xA6 ∧ regEffect P p r v s = latchWrite p v s) ∨
    (0xA0 ≤ r ∧ r ≤ 0xA2 ∧ regEffect P p r v s = freqLoad p (r - 0xA0) v s) ∨
    (¬(p = 0 ∧ (r ≤ 0x0D ∨ r = 0x10 ∨ r = 0x28)) ∧ ¬(0xA4 ≤ r ∧ r ≤ 0xA6) ∧ ¬(0xA0 ≤ r ∧ r ≤ 0xA2) ∧ regEffect P p r v s = s) := by
  unfold regEffect
  by_cases h1 : p = 0 ∧ r ≤ 0x0D
  · rw [if_pos h1]; exact .inl ⟨h1.1, h1.2, rfl⟩
  rw [if_neg h1]
  by_cases h2 : p = 0 ∧ r = 0x10
  · rw [if_pos h2]; exact .inr (.inl ⟨h2.1, h2.2, rfl⟩)
  rw [if_neg h2]
  by_cases h3 : p = 0 ∧ r = 0x28
  · rw [if_pos h3]; exact .inr (.inr (.inl ⟨h3.1, h3.2, rfl⟩))
  rw [if_neg h3]
  by_cases h4 : 0xA4 ≤ r ∧ r ≤ 0xA6
  · rw [if_pos h4]; exact .inr (.inr (.inr (.inl ⟨h4.1, h4.2, rfl⟩)))
  rw [if_neg h4]
  by_cases h5 : 0xA0 ≤ r ∧ r ≤ 0xA2
  · rw [if_pos h5]; exact .inr (.inr (.inr (.inr (.inl ⟨h5.1, h5.2, rfl⟩))))
  rw [if_neg h5]
  exact .inr (.inr (.inr (.inr (.inr ⟨by tauto, h4, h5, rfl⟩))))

/-- A register effect leaves everything but the frequency latch, the FM channels, the SSG, the rhythm channels and the fault flags. -/
theorem regEffect_eq :
    regEffect P p r v s =
      { s with
        fnumLatch := (regEffect P p r v s).fnumLatch, fm := (regEffect P p r v s).fm, ssg := (regEffect P p r v s).ssg
        rhy := (regEffect P p r v s).rhy, faults := (regEffect P p r v s).faults } := by
  rcases regEffect_cases P p r v s with ⟨_, _, h⟩ | ⟨_, _, h⟩ | ⟨_, _, h⟩ | ⟨_, _, h⟩ | ⟨_, _, h⟩ | ⟨_, _, _, h⟩ <;> rw [h]
  · rw [ssgEnqueue_eq]
  · rw [rhyKeyWrite_eq]
  · rw [keyWrite_eq]
  · rfl
  · rfl

/-- The frequency latches after a register effect. -/
theorem regEffect_fnumLatch :
    (regEffect P p r v s).fnumLatch =
      if 0xA4 ≤ r ∧ r ≤ 0xA6 then s.fnumLatch.set p.val (BitVec.ofNat 6 v.toNat) else s.fnumLatch := by
  rcases regEffect_cases P p r v s with ⟨_, _, h⟩ | ⟨_, _, h⟩ | ⟨_, _, h⟩ | ⟨_, _, h⟩ | ⟨_, _, h⟩ | ⟨_, _, _, h⟩ <;> rw [h]
  · rw [ssgEnqueue_eq, if_neg (by omega)]
  · rw [rhyKeyWrite_eq, if_neg (by omega)]
  · rw [keyWrite_eq, if_neg (by omega)]
  · rw [if_pos (by omega)]; rfl
  · rw [if_neg (by omega)]; rfl
  · rw [if_neg (by omega)]

/-- The FM channels after a register effect: key edges at 0x28, a frequency load at 0xA0 to 0xA2. -/
theorem regEffect_fm :
    (regEffect P p r v s).fm =
      if p = 0 ∧ r = 0x28 then (keyWrite v s).fm
      else if 0xA0 ≤ r ∧ r ≤ 0xA2 then (freqLoad p (r - 0xA0) v s).fm else s.fm := by
  rcases regEffect_cases P p r v s with ⟨_, _, h⟩ | ⟨_, _, h⟩ | ⟨h0, h1, h⟩ | ⟨_, _, h⟩ | ⟨_, _, h⟩ | ⟨_, _, _, h⟩ <;> rw [h]
  · rw [ssgEnqueue_eq, if_neg (by omega), if_neg (by omega)]
  · rw [rhyKeyWrite_eq, if_neg (by omega), if_neg (by omega)]
  · rw [if_pos ⟨h0, h1⟩]
  · rw [if_neg (by omega), if_neg (by omega)]; rfl
  · rw [if_neg (by omega), if_pos (by omega)]
  · rw [if_neg (by tauto), if_neg (by omega)]

/-- The SSG after a register effect: a queued write at 0x00 to 0x0D of part 0. -/
theorem regEffect_ssg :
    (regEffect P p r v s).ssg = if p = 0 ∧ r ≤ 0x0D then (ssgEnqueue P (Fin.ofNat 14 r) v s).ssg else s.ssg := by
  rcases regEffect_cases P p r v s with ⟨h0, h1, h⟩ | ⟨_, _, h⟩ | ⟨_, _, h⟩ | ⟨_, _, h⟩ | ⟨_, _, h⟩ | ⟨_, _, _, h⟩ <;> rw [h]
  · rw [if_pos ⟨h0, h1⟩]
  · rw [rhyKeyWrite_eq, if_neg (by omega)]
  · rw [keyWrite_eq, if_neg (by omega)]
  · rw [if_neg (by omega)]; rfl
  · rw [if_neg (by omega)]; rfl
  · rw [if_neg (by tauto)]

/-- The rhythm channels after a register effect: key control at 0x10 of part 0. -/
theorem regEffect_rhy :
    (regEffect P p r v s).rhy = if p = 0 ∧ r = 0x10 then (rhyKeyWrite P v s).rhy else s.rhy := by
  rcases regEffect_cases P p r v s with ⟨_, _, h⟩ | ⟨h0, h1, h⟩ | ⟨_, _, h⟩ | ⟨_, _, h⟩ | ⟨_, _, h⟩ | ⟨_, _, _, h⟩ <;> rw [h]
  · rw [ssgEnqueue_eq, if_neg (by omega)]
  · rw [if_pos ⟨h0, h1⟩]
  · rw [keyWrite_eq, if_neg (by omega)]
  · rw [if_neg (by omega)]; rfl
  · rw [if_neg (by omega)]; rfl
  · rw [if_neg (by tauto)]

/-- The fault flags after a register effect: only a full SSG queue raises one. -/
theorem regEffect_faults :
    (regEffect P p r v s).faults =
      if p = 0 ∧ r ≤ 0x0D ∧ s.ssg.queue.length = P.ssgQueueCap then { s.faults with ssgQueueOverflow := true } else s.faults := by
  rcases regEffect_cases P p r v s with ⟨h0, h1, h⟩ | ⟨_, _, h⟩ | ⟨_, _, h⟩ | ⟨_, _, h⟩ | ⟨_, _, h⟩ | ⟨_, _, _, h⟩ <;> rw [h]
  · unfold ssgEnqueue
    by_cases hq : s.ssg.queue.length = P.ssgQueueCap
    · rw [if_pos hq, if_pos ⟨h0, h1, hq⟩]; rfl
    · rw [if_neg hq, if_neg (by tauto)]
  · rw [rhyKeyWrite_eq, if_neg (by omega)]
  · rw [keyWrite_eq, if_neg (by omega)]
  · rw [if_neg (by omega)]; rfl
  · rw [if_neg (by omega)]; rfl
  · rw [if_neg (by tauto)]

/-! ## Raw writes (R300) -/

@[simp] theorem writeRaw_chip (q : Part) (x : Nat) :
    (writeRaw P p r v s).chip q x = if q = p ∧ x = r ∧ r < 256 then v else s.chip q x := by
  unfold writeRaw State.chip
  rw [regEffect_eq]
  exact chip_setChip s p q r x v

@[simp] theorem writeRaw_chipReg : (writeRaw P p r v s).chipReg = RegFile.write s.chipReg p r v := by
  unfold writeRaw
  rw [regEffect_eq]
  rfl

@[simp] theorem writeRaw_shadow : (writeRaw P p r v s).shadow = s.shadow := by unfold writeRaw; rw [regEffect_eq]; rfl

@[simp] theorem writeRaw_shad (q : Part) (x : Nat) : (writeRaw P p r v s).shad q x = s.shad q x := by
  unfold State.shad; rw [writeRaw_shadow]

@[simp] theorem writeRaw_fnumLatch :
    (writeRaw P p r v s).fnumLatch =
      if 0xA4 ≤ r ∧ r ≤ 0xA6 then s.fnumLatch.set p.val (BitVec.ofNat 6 v.toNat) else s.fnumLatch := regEffect_fnumLatch ..

theorem writeRaw_fm :
    (writeRaw P p r v s).fm =
      if p = 0 ∧ r = 0x28 then (keyWrite v s).fm
      else if 0xA0 ≤ r ∧ r ≤ 0xA2 then (freqLoad p (r - 0xA0) v s).fm else s.fm := by
  unfold writeRaw
  rw [regEffect_fm]
  have hk : (keyWrite v (s.setChip p r v)).fm = (keyWrite v s).fm := by unfold keyWrite; dsimp only; split <;> rfl
  rw [hk]
  rfl

theorem writeRaw_ssg :
    (writeRaw P p r v s).ssg = if p = 0 ∧ r ≤ 0x0D then (ssgEnqueue P (Fin.ofNat 14 r) v s).ssg else s.ssg := by
  unfold writeRaw
  rw [regEffect_ssg]
  have hk : (ssgEnqueue P (Fin.ofNat 14 r) v (s.setChip p r v)).ssg = (ssgEnqueue P (Fin.ofNat 14 r) v s).ssg := by
    unfold ssgEnqueue
    by_cases hq : s.ssg.queue.length = P.ssgQueueCap
    · rw [if_pos hq, if_pos (by exact hq)]; rfl
    · rw [if_neg hq, if_neg (by exact hq)]; rfl
  rw [hk]
  rfl

theorem rhyKeyWrite_setChip : (rhyKeyWrite P v (s.setChip p r v)).rhy = (rhyKeyWrite P v s).rhy := by
  have key : ∀ (l : List RhyCh) (a b : State), a.rhy = b.rhy → (l.foldl (rhyKey P v) a).rhy = (l.foldl (rhyKey P v) b).rhy := by
    intro l
    induction l with
    | nil => intro a b h; exact h
    | cons i l ih =>
      intro a b h
      refine ih _ _ ?_
      unfold rhyKey
      split
      · simp only [setRhy_rhy, h]
      · exact h
  exact key _ _ _ rfl

theorem writeRaw_rhy :
    (writeRaw P p r v s).rhy = if p = 0 ∧ r = 0x10 then (rhyKeyWrite P v s).rhy else s.rhy := by
  unfold writeRaw
  rw [regEffect_rhy, rhyKeyWrite_setChip]
  rfl

theorem writeRaw_faults :
    (writeRaw P p r v s).faults =
      if p = 0 ∧ r ≤ 0x0D ∧ s.ssg.queue.length = P.ssgQueueCap then { s.faults with ssgQueueOverflow := true } else s.faults :=
  regEffect_faults ..

@[simp] theorem writeRaw_voice : (writeRaw P p r v s).voice = s.voice := by unfold writeRaw; rw [regEffect_eq]; rfl
@[simp] theorem writeRaw_fmBank : (writeRaw P p r v s).fmBank = s.fmBank := by unfold writeRaw; rw [regEffect_eq]; rfl
@[simp] theorem writeRaw_pcmBank : (writeRaw P p r v s).pcmBank = s.pcmBank := by unfold writeRaw; rw [regEffect_eq]; rfl
@[simp] theorem writeRaw_waves : (writeRaw P p r v s).waves = s.waves := by unfold writeRaw; rw [regEffect_eq]; rfl
@[simp] theorem writeRaw_waveTotal : (writeRaw P p r v s).waveTotal = s.waveTotal := by unfold writeRaw; rw [regEffect_eq]; rfl
@[simp] theorem writeRaw_reservedCount : (writeRaw P p r v s).reservedCount = s.reservedCount := by unfold writeRaw; rw [regEffect_eq]; rfl
@[simp] theorem writeRaw_pcmRam : (writeRaw P p r v s).pcmRam = s.pcmRam := by unfold writeRaw; rw [regEffect_eq]; rfl
@[simp] theorem writeRaw_pcm : (writeRaw P p r v s).pcm = s.pcm := by unfold writeRaw; rw [regEffect_eq]; rfl
@[simp] theorem writeRaw_rhyDivCnt : (writeRaw P p r v s).rhyDivCnt = s.rhyDivCnt := by unfold writeRaw; rw [regEffect_eq]; rfl
@[simp] theorem writeRaw_timerA : (writeRaw P p r v s).timerA = s.timerA := by unfold writeRaw; rw [regEffect_eq]; rfl
@[simp] theorem writeRaw_timerB : (writeRaw P p r v s).timerB = s.timerB := by unfold writeRaw; rw [regEffect_eq]; rfl
@[simp] theorem writeRaw_vol : (writeRaw P p r v s).vol = s.vol := by unfold writeRaw; rw [regEffect_eq]; rfl
@[simp] theorem writeRaw_mute : (writeRaw P p r v s).mute = s.mute := by unfold writeRaw; rw [regEffect_eq]; rfl
@[simp] theorem writeRaw_maskA : (writeRaw P p r v s).maskA = s.maskA := by unfold writeRaw; rw [regEffect_eq]; rfl
@[simp] theorem writeRaw_maskB : (writeRaw P p r v s).maskB = s.maskB := by unfold writeRaw; rw [regEffect_eq]; rfl
@[simp] theorem writeRaw_refused : (writeRaw P p r v s).refused = s.refused := by unfold writeRaw; rw [regEffect_eq]; rfl
@[simp] theorem writeRaw_inProduce : (writeRaw P p r v s).inProduce = s.inProduce := by unfold writeRaw; rw [regEffect_eq]; rfl
@[simp] theorem writeRaw_externalLocking : (writeRaw P p r v s).externalLocking = s.externalLocking := by unfold writeRaw; rw [regEffect_eq]; rfl
@[simp] theorem writeRaw_pending : (writeRaw P p r v s).pending = s.pending := by unfold writeRaw; rw [regEffect_eq]; rfl
@[simp] theorem writeRaw_hostProcs : (writeRaw P p r v s).hostProcs = s.hostProcs := by unfold writeRaw; rw [regEffect_eq]; rfl
@[simp] theorem writeRaw_outBuffer : (writeRaw P p r v s).outBuffer = s.outBuffer := by unfold writeRaw; rw [regEffect_eq]; rfl
@[simp] theorem writeRaw_result : (writeRaw P p r v s).result = s.result := by unfold writeRaw; rw [regEffect_eq]; rfl
@[simp] theorem writeRaw_callbackResults : (writeRaw P p r v s).callbackResults = s.callbackResults := by unfold writeRaw; rw [regEffect_eq]; rfl

/-! ## Buffered writes (R301) -/

@[simp] theorem writeShadowed_chip (q : Part) (x : Nat) :
    (writeShadowed P p r v s).chip q x = if q = p ∧ x = r ∧ r < 256 then v else s.chip q x := by
  unfold writeShadowed; rw [writeRaw_chip, chip_setShad]

@[simp] theorem writeShadowed_chipReg : (writeShadowed P p r v s).chipReg = RegFile.write s.chipReg p r v := by
  unfold writeShadowed; rw [writeRaw_chipReg]; rfl

@[simp] theorem writeShadowed_shadow : (writeShadowed P p r v s).shadow = RegFile.write s.shadow p r v := by
  unfold writeShadowed; rw [writeRaw_shadow]; rfl

@[simp] theorem writeShadowed_shad (q : Part) (x : Nat) :
    (writeShadowed P p r v s).shad q x = if q = p ∧ x = r ∧ r < 256 then v else s.shad q x := by
  unfold writeShadowed; rw [writeRaw_shad, shad_setShad]

@[simp] theorem writeShadowed_fnumLatch :
    (writeShadowed P p r v s).fnumLatch =
      if 0xA4 ≤ r ∧ r ≤ 0xA6 then s.fnumLatch.set p.val (BitVec.ofNat 6 v.toNat) else s.fnumLatch := by
  unfold writeShadowed; rw [writeRaw_fnumLatch]; rfl

theorem writeShadowed_fm :
    (writeShadowed P p r v s).fm =
      if p = 0 ∧ r = 0x28 then (keyWrite v s).fm
      else if 0xA0 ≤ r ∧ r ≤ 0xA2 then (freqLoad p (r - 0xA0) v s).fm else s.fm := by
  unfold writeShadowed
  rw [writeRaw_fm]
  have hk : (keyWrite v (s.setShad p r v)).fm = (keyWrite v s).fm := by unfold keyWrite; dsimp only; split <;> rfl
  rw [hk]
  rfl

theorem writeShadowed_ssg (h : 0x0D < r) : (writeShadowed P p r v s).ssg = s.ssg := by
  unfold writeShadowed; rw [writeRaw_ssg, if_neg (by omega)]; rfl

theorem writeShadowed_rhy (h : r ≠ 0x10) : (writeShadowed P p r v s).rhy = s.rhy := by
  unfold writeShadowed; rw [writeRaw_rhy, if_neg (fun hh => h hh.2)]; rfl

theorem writeShadowed_faults (h : 0x0D < r) : (writeShadowed P p r v s).faults = s.faults := by
  unfold writeShadowed; rw [writeRaw_faults, if_neg (by omega)]; rfl

@[simp] theorem writeShadowed_voice : (writeShadowed P p r v s).voice = s.voice := by unfold writeShadowed; rw [writeRaw_voice]; rfl
@[simp] theorem writeShadowed_fmBank : (writeShadowed P p r v s).fmBank = s.fmBank := by unfold writeShadowed; rw [writeRaw_fmBank]; rfl
@[simp] theorem writeShadowed_pcmBank : (writeShadowed P p r v s).pcmBank = s.pcmBank := by unfold writeShadowed; rw [writeRaw_pcmBank]; rfl
@[simp] theorem writeShadowed_waves : (writeShadowed P p r v s).waves = s.waves := by unfold writeShadowed; rw [writeRaw_waves]; rfl
@[simp] theorem writeShadowed_waveTotal : (writeShadowed P p r v s).waveTotal = s.waveTotal := by unfold writeShadowed; rw [writeRaw_waveTotal]; rfl
@[simp] theorem writeShadowed_reservedCount : (writeShadowed P p r v s).reservedCount = s.reservedCount := by unfold writeShadowed; rw [writeRaw_reservedCount]; rfl
@[simp] theorem writeShadowed_pcmRam : (writeShadowed P p r v s).pcmRam = s.pcmRam := by unfold writeShadowed; rw [writeRaw_pcmRam]; rfl
@[simp] theorem writeShadowed_pcm : (writeShadowed P p r v s).pcm = s.pcm := by unfold writeShadowed; rw [writeRaw_pcm]; rfl
@[simp] theorem writeShadowed_rhyDivCnt : (writeShadowed P p r v s).rhyDivCnt = s.rhyDivCnt := by unfold writeShadowed; rw [writeRaw_rhyDivCnt]; rfl
@[simp] theorem writeShadowed_timerA : (writeShadowed P p r v s).timerA = s.timerA := by unfold writeShadowed; rw [writeRaw_timerA]; rfl
@[simp] theorem writeShadowed_timerB : (writeShadowed P p r v s).timerB = s.timerB := by unfold writeShadowed; rw [writeRaw_timerB]; rfl
@[simp] theorem writeShadowed_vol : (writeShadowed P p r v s).vol = s.vol := by unfold writeShadowed; rw [writeRaw_vol]; rfl
@[simp] theorem writeShadowed_mute : (writeShadowed P p r v s).mute = s.mute := by unfold writeShadowed; rw [writeRaw_mute]; rfl
@[simp] theorem writeShadowed_maskA : (writeShadowed P p r v s).maskA = s.maskA := by unfold writeShadowed; rw [writeRaw_maskA]; rfl
@[simp] theorem writeShadowed_maskB : (writeShadowed P p r v s).maskB = s.maskB := by unfold writeShadowed; rw [writeRaw_maskB]; rfl
@[simp] theorem writeShadowed_refused : (writeShadowed P p r v s).refused = s.refused := by unfold writeShadowed; rw [writeRaw_refused]; rfl
@[simp] theorem writeShadowed_inProduce : (writeShadowed P p r v s).inProduce = s.inProduce := by unfold writeShadowed; rw [writeRaw_inProduce]; rfl
@[simp] theorem writeShadowed_externalLocking : (writeShadowed P p r v s).externalLocking = s.externalLocking := by unfold writeShadowed; rw [writeRaw_externalLocking]; rfl
@[simp] theorem writeShadowed_pending : (writeShadowed P p r v s).pending = s.pending := by unfold writeShadowed; rw [writeRaw_pending]; rfl
@[simp] theorem writeShadowed_hostProcs : (writeShadowed P p r v s).hostProcs = s.hostProcs := by unfold writeShadowed; rw [writeRaw_hostProcs]; rfl
@[simp] theorem writeShadowed_outBuffer : (writeShadowed P p r v s).outBuffer = s.outBuffer := by unfold writeShadowed; rw [writeRaw_outBuffer]; rfl
@[simp] theorem writeShadowed_result : (writeShadowed P p r v s).result = s.result := by unfold writeShadowed; rw [writeRaw_result]; rfl
@[simp] theorem writeShadowed_callbackResults : (writeShadowed P p r v s).callbackResults = s.callbackResults := by unfold writeShadowed; rw [writeRaw_callbackResults]; rfl

end Sys2Proof.Machine
end

