-- ==== Sys2Proof/Laws/Channels.lean ====
section
/-! SUPPORT. Reading a channel after a channel was replaced; what the named channel operations do to the flags of a PCM channel. -/

namespace Sys2Proof.Machine

/-- Reading an element of a vector after one was set, by `Fin` index. -/
theorem vector_getElem_set_fin {α : Type} {n : Nat} (v : Vector α n) (i j : Fin n) (x : α) :
    (v.set i.val x)[j] = if j = i then x else v[j] := by
  by_cases h : j = i
  · subst h; simp
  · have hv : i.val ≠ j.val := fun e => h (Fin.ext e.symm)
    rw [if_neg h]
    exact Vector.getElem_set_ne (h := hv) ..

theorem setFm_get (s : State) (ch k : FmCh) (c : FmChannel) : (s.setFm ch c).fm[k] = if k = ch then c else s.fm[k] :=
  vector_getElem_set_fin ..

theorem setVoice_get (s : State) (ch k : FmCh) (c : FmVoice) : (s.setVoice ch c).voice[k] = if k = ch then c else s.voice[k] :=
  vector_getElem_set_fin ..

theorem setPcm_get (s : State) (j k : PcmCh) (c : PcmChannel) : (s.setPcm j c).pcm[k] = if k = j then c else s.pcm[k] :=
  vector_getElem_set_fin ..

theorem setRhy_get (s : State) (i k : RhyCh) (c : RhyChannel) : (s.setRhy i c).rhy[k] = if k = i then c else s.rhy[k] :=
  vector_getElem_set_fin ..

/-! ## The envelope entries change envelope fields only (R205) -/

/-- `EnterSustain` changes the state and the step of the envelope. -/
theorem PcmChannel.enterSustain_eq (c : PcmChannel) :
    c.enterSustain = { c with envState := c.enterSustain.envState, envStep := c.enterSustain.envStep } := rfl

/-- `EnterDecay` changes the state, the level and the step of the envelope. -/
theorem PcmChannel.enterDecay_eq (c : PcmChannel) :
    c.enterDecay =
      { c with envState := c.enterDecay.envState, envLevel := c.enterDecay.envLevel, envStep := c.enterDecay.envStep } := by
  unfold PcmChannel.enterDecay
  split
  · rfl
  split <;> rfl

/-- `EnterAttack` changes the state, the level and the step of the envelope. -/
theorem PcmChannel.enterAttack_eq (c : PcmChannel) :
    c.enterAttack =
      { c with envState := c.enterAttack.envState, envLevel := c.enterAttack.envLevel, envStep := c.enterAttack.envStep } := by
  unfold PcmChannel.enterAttack
  split
  · rw [PcmChannel.enterDecay_eq]
  split
  · rw [PcmChannel.enterDecay_eq]
  · rfl

/-- `EnterRelease` stops the channel or changes its envelope. -/
theorem PcmChannel.enterRelease_cases (c : PcmChannel) :
    c.enterRelease = c.stopped ∨ c.enterRelease = { c with envState := .release, envStep := max 1 (c.envLevel / c.envRR.toNat) } := by
  unfold PcmChannel.enterRelease
  split
  · exact .inl rfl
  · exact .inr rfl

/-- Stopping twice is stopping once; the level does not matter. -/
theorem PcmChannel.stopped_level (c : PcmChannel) (l : Nat) : PcmChannel.stopped { c with envLevel := l } = c.stopped := rfl

theorem PcmChannel.stopped_pos (c : PcmChannel) (p : Nat) : PcmChannel.stopped { c with pos := p } = c.stopped := rfl

/-- One envelope advance stops the channel, or changes the state, the level and the step of its envelope (R206). -/
theorem PcmChannel.envAdvance_cases (c : PcmChannel) :
    c.envAdvance = c.stopped ∨
      c.envAdvance = { c with envState := c.envAdvance.envState, envLevel := c.envAdvance.envLevel, envStep := c.envAdvance.envStep } := by
  unfold PcmChannel.envAdvance
  split
  · exact .inr rfl
  split
  · split
    · right; rw [PcmChannel.enterDecay_eq]
    · exact .inr rfl
  · dsimp only
    split
    · exact .inr rfl
    · exact .inr rfl
  · split
    · unfold PcmChannel.fall
      split
      · exact .inl rfl
      · exact .inr rfl
    · exact .inr rfl
  · unfold PcmChannel.fall
    split
    · exact .inl rfl
    · exact .inr rfl
  · exact .inr rfl
  · exact .inr rfl

/-- One cursor advance stops the channel, or changes the cursor (R207). -/
theorem PcmChannel.advance_cases (c : PcmChannel) : c.advance = c.stopped ∨ c.advance = { c with pos := c.advance.pos } := by
  unfold PcmChannel.advance
  split
  · exact .inr rfl
  split
  · exact .inr rfl
  dsimp only
  split
  · split
    · exact .inr rfl
    · exact .inl rfl
  · exact .inr rfl

/-- The wrapped cursor lies below the loop end (R207). -/
theorem wrapCursor_lt {pos loopEnd loopLen : Nat} (hl : 0 < loopLen) (he : loopLen ≤ loopEnd) :
    wrapCursor pos loopEnd loopLen < loopEnd * 65536 := by
  unfold wrapCursor
  split
  · rename_i h
    have h1 := Nat.div_add_mod (pos - loopEnd * 65536) (loopLen * 65536)
    have h2 := Nat.mod_lt (pos - loopEnd * 65536) (show 0 < loopLen * 65536 by omega)
    generalize hq : (pos - loopEnd * 65536) / (loopLen * 65536) = q at *
    have h3 : (q + 1) * (loopLen * 65536) = loopLen * 65536 * q + loopLen * 65536 := by ring
    rw [h3]
    omega
  · omega

/-- The wrapped cursor is a whole number of loops below the cursor (R207). -/
theorem wrapCursor_eq {pos loopEnd loopLen : Nat} (he : loopLen ≤ loopEnd) :
    ∃ k, pos = wrapCursor pos loopEnd loopLen + k * (loopLen * 65536) := by
  unfold wrapCursor
  split
  · rename_i h
    refine ⟨(pos - loopEnd * 65536) / (loopLen * 65536) + 1, ?_⟩
    have h1 := Nat.div_add_mod (pos - loopEnd * 65536) (loopLen * 65536)
    generalize (pos - loopEnd * 65536) / (loopLen * 65536) = q at *
    have h3 : (q + 1) * (loopLen * 65536) = loopLen * 65536 * q + loopLen * 65536 := by ring
    rw [h3]
    have h4 : loopLen * 65536 * q + loopLen * 65536 ≤ pos := by
      have : loopLen * 65536 * q ≤ pos - loopEnd * 65536 := by rw [← h1]; exact Nat.le_add_right _ _
      omega
    omega
  · exact ⟨0, by omega⟩

end Sys2Proof.Machine
end

