-- ==== Sys2Proof/Laws/Invariant.lean ====
section
/-! SUPPORT. Each shared operation keeps the invariant of the block. -/

namespace Sys2Proof.Machine

variable {P : Params} {s : State}

/-! ## PCM channels -/

theorem Sample.Ok.loopEnd_pos {w : Sample} (h : w.Ok) : 0 < w.loopEndOf := by
  have := h.size_pos
  unfold Sample.loopEndOf
  split <;> omega

theorem PcmChannel.SourceOk.stopped (waves : List WaveRec) (c : PcmChannel) : c.stopped.SourceOk waves := rfl

theorem PcmChannel.FlagsOk.stopped {c : PcmChannel} (h : pitchInRange c.pitch = true) : c.stopped.FlagsOk :=
  ⟨rfl, rfl, (by intro h; cases h), (by intro h; cases h), h⟩

theorem PcmChannel.SourceOk.envAdvance {waves : List WaveRec} {c : PcmChannel} (h : c.SourceOk waves) :
    c.envAdvance.SourceOk waves := by
  rcases c.envAdvance_cases with e | e <;> rw [e]
  · exact .stopped _ _
  · exact h

theorem PcmChannel.envAdvance_reserved (c : PcmChannel) : c.envAdvance.reserved = c.reserved := by
  rcases c.envAdvance_cases with e | e
  · rw [e]; rfl
  · rw [e]

theorem PcmChannel.advance_reserved (c : PcmChannel) : c.advance.reserved = c.reserved := by
  rcases c.advance_cases with e | e
  · rw [e]; rfl
  · rw [e]

theorem PcmChannel.FlagsOk.envAdvance {c : PcmChannel} (h : c.FlagsOk) : c.envAdvance.FlagsOk := by
  rcases c.envAdvance_cases with e | e <;> rw [e]
  · exact .stopped h.pitch_ok
  · exact ⟨h.1, h.2, h.3, h.4, h.5⟩

theorem PcmChannel.FlagsOk.advance {c : PcmChannel} (h : c.FlagsOk) : c.advance.FlagsOk := by
  rcases c.advance_cases with e | e <;> rw [e]
  · exact .stopped h.pitch_ok
  · exact ⟨h.1, h.2, h.3, h.4, h.5⟩

theorem PcmChannel.SourceOk.advance {waves : List WaveRec} {c : PcmChannel} (h : c.SourceOk waves) : c.advance.SourceOk waves := by
  unfold PcmChannel.advance
  split
  · exact h
  split
  · exact h
  rename_i hs
  unfold PcmChannel.SourceOk at h
  rw [hs] at h
  obtain ⟨h1, h2, h3, h4, h5, h6⟩ := h
  dsimp only
  split
  · split
    · rename_i hl
      unfold PcmChannel.SourceOk
      dsimp only
      rw [hs]
      refine ⟨h1, h2, h3, h4, wrapCursor_lt hl ?_, h6⟩
      rw [h4]; unfold Sample.loopEndOf; split <;> omega
    · exact .stopped _ _
  · unfold PcmChannel.SourceOk
    dsimp only
    rw [hs]
    exact ⟨h1, h2, h3, h4, by omega, h6⟩

theorem PcmChannel.SourceOk.keyedOn {waves : List WaveRec} (c : PcmChannel) (e : PcmEntry) {w : WaveRec} (note vel : Level7)
    (hw : w ∈ waves) (hok : w.Ok) : (c.keyedOn P e w note vel).SourceOk waves := by
  unfold PcmChannel.keyedOn
  dsimp only
  rw [PcmChannel.enterAttack_eq]
  refine ⟨rfl, hok.sample_ok, ⟨w, hw, rfl, rfl⟩, rfl, ?_, ?_⟩
  · have := hok.sample_ok.loopEnd_pos
    dsimp only; omega
  · exact ⟨(fun h => by cases h), (fun h => by cases h)⟩

theorem PcmChannel.FlagsOk.keyedOn (c : PcmChannel) (e : PcmEntry) (w : WaveRec) (note vel : Level7)
    (h : pitchInRange c.pitch = true) : (c.keyedOn P e w note vel).FlagsOk := by
  unfold PcmChannel.keyedOn
  dsimp only
  rw [PcmChannel.enterAttack_eq]
  exact ⟨rfl, rfl, (fun _ => rfl), (by intro h; cases h), h⟩

theorem PcmChannel.SourceOk.keyedOff {waves : List WaveRec} {c : PcmChannel} (h : c.SourceOk waves) : c.keyedOff.SourceOk waves := by
  unfold PcmChannel.keyedOff
  split
  · rcases PcmChannel.enterRelease_cases { c with keyPressed := false } with e | e <;> rw [e]
    · exact .stopped _ _
    · exact h
  · exact h

theorem PcmChannel.FlagsOk.keyedOff {c : PcmChannel} (h : c.FlagsOk) : c.keyedOff.FlagsOk := by
  unfold PcmChannel.keyedOff
  split
  · rcases PcmChannel.enterRelease_cases { c with keyPressed := false } with e | e <;> rw [e]
    · exact .stopped h.pitch_ok
    · exact ⟨h.1, h.2, (by intro h; cases h), h.4, h.5⟩
  · exact h

theorem PcmChannel.SourceOk.pitched {waves : List WaveRec} {c : PcmChannel} (pitch : Int) (h : c.SourceOk waves) :
    (c.pitched P pitch).SourceOk waves := by
  unfold PcmChannel.pitched
  split
  · split <;> exact h
  · exact h

theorem PcmChannel.FlagsOk.pitched {c : PcmChannel} {pitch : Int} (h : c.FlagsOk) (hp : pitchInRange pitch = true) :
    (c.pitched P pitch).FlagsOk := by
  unfold PcmChannel.pitched
  split
  · split <;> exact ⟨h.1, h.2, h.3, h.4, hp⟩
  · exact ⟨h.1, h.2, h.3, h.4, hp⟩

theorem PcmChannel.SourceOk.effectOn (waves : List WaveRec) (c : PcmChannel) {w : Sample} (note vel : Level7) (hok : w.Ok) :
    (c.effectOn P w note vel).SourceOk waves := by
  refine ⟨rfl, hok, trivial, rfl, ?_, ?_⟩
  · have := hok.loopEnd_pos
    show 0 < _
    dsimp only [PcmChannel.effectOn]; omega
  · exact ⟨fun _ => rfl, fun _ => rfl⟩

theorem PcmChannel.FlagsOk.effectOn {c : PcmChannel} (w : Sample) (note vel : Level7) (h : pitchInRange c.pitch = true)
    (hr : c.reserved = true) : (c.effectOn P w note vel).FlagsOk :=
  ⟨rfl, rfl, (by intro h; cases h), (fun _ => hr), h⟩

/-! ## Replacing parts of the state -/

namespace BlockInv

/-- Replacing a PCM channel by a well-formed one of the same partition. -/
theorem setPcm (h : BlockInv P s) {j : PcmCh} {c : PcmChannel} (hs : c.SourceOk s.waves) (hf : c.FlagsOk)
    (hr : c.reserved = s.pcm[j].reserved) : BlockInv P (s.setPcm j c) :=
  { h with
    reserved_iff := by
      intro k
      rw [setPcm_get]
      split
      · rename_i e; subst e; rw [hr]; exact h.reserved_iff k
      · exact h.reserved_iff k
    source_ok := by
      intro k
      rw [setPcm_get]
      split
      · exact hs
      · exact h.source_ok k
    flags_ok := by
      intro k
      rw [setPcm_get]
      split
      · exact hf
      · exact h.flags_ok k }

/-- Replacing an FM channel by one whose levels are in range. -/
theorem setFm (h : BlockInv P s) {ch : FmCh} {c : FmChannel} (hl : c.op1.level ≤ 1023 ∧ c.op2.level ≤ 1023) :
    BlockInv P (s.setFm ch c) :=
  { h with
    level_le := by
      intro k
      rw [setFm_get]
      split
      · exact hl
      · exact h.level_le k }

theorem setVoice (h : BlockInv P s) {ch : FmCh} {v : FmVoice} (hp : pitchInRange v.pitch = true) : BlockInv P (s.setVoice ch v) :=
  { h with
    pitch_ok := by
      intro k
      rw [setVoice_get]
      split
      · exact hp
      · exact h.pitch_ok k }

theorem setRhy (h : BlockInv P s) {i : RhyCh} {c : RhyChannel} (hc : c.Ok P) : BlockInv P (s.setRhy i c) :=
  { h with
    rhy_ok := by
      intro k
      rw [setRhy_get]
      split
      · exact hc
      · exact h.rhy_ok k }

theorem setChip (h : BlockInv P s) (p : Part) (r : Nat) (v : Byte) : BlockInv P (s.setChip p r v) := { h with }

theorem setShad (h : BlockInv P s) (p : Part) (r : Nat) (v : Byte) : BlockInv P (s.setShad p r v) := { h with }

/-! ## Register writes -/

theorem keyBit_level (on : Bool) (o : Operator) : (keyBit on o).level = o.level := by
  unfold keyBit
  split
  · rfl
  split <;> rfl

theorem keyWrite (h : BlockInv P s) (v : Byte) : BlockInv P (keyWrite v s) := by
  unfold Machine.keyWrite
  dsimp only
  split
  · exact h
  · refine h.setFm ?_
    dsimp only
    rw [keyBit_level, keyBit_level]
    exact h.level_le _

theorem freqLoad (h : BlockInv P s) (p : Part) (c : Nat) (v : Byte) : BlockInv P (freqLoad p c v s) := by
  unfold Machine.freqLoad
  exact h.setFm (h.level_le _)

theorem latchWrite (h : BlockInv P s) (p : Part) (v : Byte) : BlockInv P (latchWrite p v s) := { h with }

theorem rhyStarted_ok (i : RhyCh) : (rhyStarted P i).Ok P :=
  have h0 : is12 0 := ⟨by decide, by decide⟩
  ⟨h0, h0, h0, (P.rhy_ok i).2⟩

theorem rhyKeyWrite (h : BlockInv P s) (v : Byte) : BlockInv P (rhyKeyWrite P v s) := by
  unfold Machine.rhyKeyWrite
  generalize rhyChannels = l
  induction l generalizing s with
  | nil => exact h
  | cons i l ih =>
    refine ih ?_
    unfold rhyKey
    split
    · refine h.setRhy ?_
      split
      · have := h.rhy_ok i
        exact ⟨this.1, this.2, this.3, this.4⟩
      · exact rhyStarted_ok i
    · exact h

theorem ssgEnqueue (h : BlockInv P s) (r : Fin 14) (v : Byte) : BlockInv P (ssgEnqueue P r v s) := by
  unfold Machine.ssgEnqueue
  split
  · exact { h with }
  · rename_i hq
    refine { h with queue_le := ?_ }
    have := h.queue_le
    simp only [List.length_append, List.length_singleton]
    omega

theorem regEffect (h : BlockInv P s) (p : Part) (r : Nat) (v : Byte) : BlockInv P (regEffect P p r v s) := by
  rcases regEffect_cases P p r v s with ⟨_, _, e⟩ | ⟨_, _, e⟩ | ⟨_, _, e⟩ | ⟨_, _, e⟩ | ⟨_, _, e⟩ | ⟨_, _, _, e⟩ <;> rw [e]
  · exact h.ssgEnqueue _ _
  · exact h.rhyKeyWrite _
  · exact h.keyWrite _
  · exact h.latchWrite _ _
  · exact h.freqLoad _ _ _
  · exact h

/-- A raw write keeps the invariant. -/
theorem writeRaw (h : BlockInv P s) (p : Part) (r : Nat) (v : Byte) : BlockInv P (writeRaw P p r v s) :=
  (h.setChip p r v).regEffect p r v

/-- A buffered write keeps the invariant. -/
theorem writeShadowed (h : BlockInv P s) (p : Part) (r : Nat) (v : Byte) : BlockInv P (writeShadowed P p r v s) :=
  (h.setShad p r v).writeRaw p r v

/-- A loop whose body keeps the invariant keeps it. -/
theorem foldl {α : Type} {f : State → α → State} (l : List α) (hf : ∀ s a, BlockInv P s → BlockInv P (f s a)) (h : BlockInv P s) :
    BlockInv P (l.foldl f s) := by
  induction l generalizing s with
  | nil => exact h
  | cons a l ih => exact ih (hf s a h)

/-! ## The FM voice engine -/

theorem fmWriteFreq (h : BlockInv P s) (ch : FmCh) : BlockInv P (fmWriteFreq P ch s) := by
  unfold Machine.fmWriteFreq
  exact (h.writeShadowed _ _ _).writeShadowed _ _ _

theorem fmWriteTl (h : BlockInv P s) (ch : FmCh) : BlockInv P (fmWriteTl P ch s) := by
  unfold Machine.fmWriteTl
  exact foldl _ (fun _ _ h => h.writeShadowed _ _ _) h

theorem fmRewriteSustain (h : BlockInv P s) (ch : FmCh) : BlockInv P (fmRewriteSustain P ch s) := by
  unfold Machine.fmRewriteSustain
  exact foldl _ (fun _ _ h => h.writeShadowed _ _ _) h

theorem fmKeyOffWrite (h : BlockInv P s) (ch : FmCh) : BlockInv P (fmKeyOffWrite P ch s) := h.writeRaw 0 0x28 _

theorem fmKeyOnWrite (h : BlockInv P s) (ch : FmCh) : BlockInv P (fmKeyOnWrite P ch s) := h.writeRaw 0 0x28 _

theorem fmKeyOnEffect (h : BlockInv P s) (ch : FmCh) (note : Fin 96) (vel : Level7) : BlockInv P (fmKeyOnEffect P ch note vel s) := by
  unfold Machine.fmKeyOnEffect
  apply fmRewriteSustain
  apply fmKeyOnWrite
  apply fmKeyOffWrite
  apply fmWriteTl
  apply fmWriteFreq
  exact h.setVoice (h.pitch_ok ch)

theorem setPlaying (h : BlockInv P s) (ch : FmCh) (on : Bool) : BlockInv P (s.setPlaying ch on) := h.setVoice (h.pitch_ok ch)

theorem fmKeyOffEffect (h : BlockInv P s) (ch : FmCh) : BlockInv P (fmKeyOffEffect P ch s) := by
  unfold Machine.fmKeyOffEffect
  exact fmKeyOffWrite (h.setPlaying ch false) ch

theorem fmSetPanEffect (h : BlockInv P s) (ch : FmCh) (pan : Level7) : BlockInv P (fmSetPanEffect P ch pan s) := by
  unfold Machine.fmSetPanEffect
  exact h.writeShadowed _ _ _

theorem fmWriteProgram (h : BlockInv P s) (ch : FmCh) (B : FmProgram) (v : FmVoice) : BlockInv P (fmWriteProgram P ch B v s) := by
  unfold Machine.fmWriteProgram
  apply BlockInv.writeShadowed
  refine foldl _ (fun s rb h => ?_) h
  exact foldl _ (fun s j h => h.writeShadowed _ _ _) h

theorem fmSetInstEffect (h : BlockInv P s) (ch : FmCh) (prog : Fin 128) : BlockInv P (fmSetInstEffect P ch prog s) := by
  unfold Machine.fmSetInstEffect
  apply fmWriteProgram
  exact h.setVoice (h.pitch_ok ch)

theorem fmSetPitchEffect (h : BlockInv P s) (ch : FmCh) {pitch : Int} (hp : pitchInRange pitch = true) :
    BlockInv P (fmSetPitchEffect P ch pitch s) := by
  unfold Machine.fmSetPitchEffect
  apply fmWriteFreq
  exact h.setVoice hp

theorem fmSetLevelEffect (h : BlockInv P s) (ch : FmCh) (level : Level7) : BlockInv P (fmSetLevelEffect P ch level s) := by
  unfold Machine.fmSetLevelEffect
  apply fmWriteTl
  exact h.setVoice (h.pitch_ok ch)

theorem fmSilence (h : BlockInv P s) (ch : FmCh) : BlockInv P (fmSilence ch s) := by
  unfold Machine.fmSilence
  apply h.setFm
  exact ⟨Nat.le_refl 1023, Nat.le_refl 1023⟩

theorem fmChOffEffect (h : BlockInv P s) (ch : FmCh) : BlockInv P (fmChOffEffect P ch s) := by
  unfold Machine.fmChOffEffect
  apply fmSilence
  exact fmKeyOffWrite (h.setPlaying ch false) ch

theorem replicate_get {α : Type} {n : Nat} (x : α) (i : Fin n) : (Vector.replicate n x)[i] = x := by simp

theorem fmClear (h : BlockInv P s) : BlockInv P (fmClear P s) :=
  { h with
    level_le := by
      intro ch
      unfold Machine.fmClear
      dsimp only
      rw [replicate_get]
      exact ⟨Nat.le_refl _, Nat.le_refl _⟩
    pitch_ok := by
      intro ch
      unfold Machine.fmClear
      dsimp only
      rw [replicate_get]
      decide }

theorem fmResetChannel (h : BlockInv P s) (ch : FmCh) : BlockInv P (fmResetChannel P s ch) := by
  unfold Machine.fmResetChannel
  apply BlockInv.writeShadowed
  apply fmSetInstEffect
  exact fmKeyOffWrite h ch

/-- The FM reset keeps the invariant (R190). -/
theorem fmReset (h : BlockInv P s) : BlockInv P (fmReset P s) := by
  unfold Machine.fmReset
  refine foldl _ (fun s ch h => fmResetChannel h ch) ?_
  refine foldl _ (fun s r h => h.writeShadowed 1 r 0) ?_
  refine foldl _ (fun s r h => h.writeShadowed 0 r 0) ?_
  exact fmClear h

/-! ## The PCM engine -/

theorem pcmStop (h : BlockInv P s) (j : PcmCh) : BlockInv P (pcmStop j s) :=
  h.setPcm (.stopped _ _) (.stopped (h.flags_ok j).pitch_ok) rfl

theorem pcmEnvAll (h : BlockInv P s) : BlockInv P (pcmEnvAll s) :=
  foldl _
    (fun s j h => h.setPcm (h.source_ok j).envAdvance (h.flags_ok j).envAdvance s.pcm[j].envAdvance_reserved) h

theorem pcmTick (h : BlockInv P s) : BlockInv P (pcmTick s) :=
  foldl _
    (fun s j h => h.setPcm (h.source_ok j).advance (h.flags_ok j).advance s.pcm[j].advance_reserved) h

/-- The PCM reset gives the invariant of the PCM parts (R226). -/
theorem pcmReset (h : BlockInv P s) : BlockInv P (pcmReset P s) :=
  { h with
    total_eq := rfl
    total_le := Nat.zero_le _
    count_le := Nat.zero_le _
    ids_nodup := List.nodup_nil
    waves_ok := by intro w hw; cases hw
    reserved_le := Nat.zero_le _
    reserved_iff := by
      intro j
      unfold Machine.pcmReset
      dsimp only
      rw [replicate_get]
      have := j.isLt
      show false = decide (8 - 0 ≤ j.val)
      rw [decide_eq_false (by omega)]
    source_ok := by
      intro j
      unfold Machine.pcmReset
      dsimp only
      rw [replicate_get]
      rfl
    flags_ok := by
      intro j
      unfold Machine.pcmReset
      dsimp only
      rw [replicate_get]
      exact ⟨rfl, rfl, (by intro h; cases h), (by intro h; cases h), by decide⟩ }

end BlockInv

end Sys2Proof.Machine
end

