-- ==== Sys2Proof/Laws/Waves.lean ====
section
/-! SUPPORT. Wave-table headers and the wave store: the ranges of header fields (spec R95), what the load checks ensure (R96, R218, R221),
and that loading, unloading and re-partitioning keep the invariant (R217, R222). -/

namespace Sys2Proof.Machine

variable {P : Params} {s : State}

/-! ## Header fields (R95) -/

theorem leNat_lt (bs : List Byte) : leNat bs < 256 ^ bs.length := by
  induction bs with
  | nil => simp [leNat]
  | cons b bs ih =>
    have := b.isLt
    simp only [leNat, List.length_cons, pow_succ]
    omega

theorem memRead_lt (P : Params) (buf : List Byte) (a n : Nat) : memRead P buf a n < 256 ^ n := by
  unfold memRead
  dsimp only
  refine lt_of_lt_of_eq (leNat_lt _) ?_
  split <;> simp

theorem sext32_range (n : Nat) : -2 ^ 31 ≤ sext32 n ∧ sext32 n < 2 ^ 31 := by
  have h1 := BitVec.le_toInt (BitVec.ofNat 32 n)
  have h2 := BitVec.toInt_lt (x := BitVec.ofNat 32 n)
  unfold sext32
  constructor <;> omega

theorem sext16_range (n : Nat) : -2 ^ 15 ≤ sext16 n ∧ sext16 n < 2 ^ 15 := by
  have h1 := BitVec.le_toInt (BitVec.ofNat 16 n)
  have h2 := BitVec.toInt_lt (x := BitVec.ofNat 16 n)
  unfold sext16
  constructor <;> omega

/-- A header whose checks pass gives a well-formed sample (R95, R96). -/
theorem waveHeader_sample_ok {buf : List Byte} (hp : 0 < (waveHeader P buf).size)
    (hl : ¬ (waveHeader P buf).size < (waveHeader P buf).loopStart + (waveHeader P buf).loopLen)
    (hb : ¬ (buf.length : Int) < 32 + (waveHeader P buf).size) : ((waveHeader P buf).sample buf).Ok where
  size_pos := by show 1 ≤ (waveHeader P buf).size.toNat; omega
  data_length := by
    show ((buf.drop 32).take (waveHeader P buf).size.toNat).length = (waveHeader P buf).size.toNat
    rw [List.length_take, List.length_drop]
    omega
  loop_le := by
    show (waveHeader P buf).loopStart + (waveHeader P buf).loopLen ≤ (waveHeader P buf).size.toNat
    omega
  rate_lt := lt_of_lt_of_le (memRead_lt P buf 24 2) (by decide)
  rateOffset_ge := (sext16_range _).1
  rateOffset_lt := (sext16_range _).2
  baseNote_lt := Nat.mod_lt _ (by decide)

/-- What the checks of `PLAYFX` ensure when they all pass (R218). -/
theorem effectCheck_none {buf : List Byte} (h : effectCheck P buf = none) : ((waveHeader P buf).sample buf).Ok := by
  unfold effectCheck at h
  dsimp only at h
  split at h
  · cases h
  split at h
  · cases h
  split at h
  · cases h
  split at h
  · cases h
  split at h
  · cases h
  · exact waveHeader_sample_ok (by omega) ‹_› ‹_›

/-- What the checks of `LDWAVE` ensure when they all pass (R221). -/
theorem loadCheck_none {buf : List Byte} (h : loadCheck P buf s = none) :
    s.waves.length < 128 ∧ (waveRecOf P buf).Ok ∧ s.waveTotal + (waveRecOf P buf).sample.size ≤ 65504 ∧
      ∀ w ∈ s.waves, w.id ≠ (waveRecOf P buf).id := by
  unfold loadCheck at h
  dsimp only at h
  split at h
  · cases h
  split at h
  · cases h
  split at h
  · cases h
  split at h
  · cases h
  split at h
  · cases h
  split at h
  · cases h
  split at h
  · cases h
  split at h
  · cases h
  rename_i h1 h2 h3 h4 h5 h6 h7 h8
  have hsz : (waveRecOf P buf).sample.size = (waveHeader P buf).size.toNat := rfl
  refine ⟨by omega, ⟨?_, (sext32_range _).1, (sext32_range _).2, by omega, waveHeader_sample_ok (by omega) h8 h5⟩, by omega, ?_⟩
  · show (buf.take 8).length = 8
    rw [List.length_take]
    omega
  · intro w hw e
    apply h7
    unfold findWave?
    rw [List.find?_isSome]
    exact ⟨w, hw, decide_eq_true e⟩

/-! ## The store (R201, R221, R222) -/

theorem findWave?_some {waves : List WaveRec} {id : Int} {w : WaveRec} (h : findWave? waves id = some w) : w ∈ waves ∧ w.id = id := by
  unfold findWave? at h
  exact ⟨List.mem_of_find?_eq_some h, by simpa using List.find?_some h⟩

theorem findWave?_none {waves : List WaveRec} {id : Int} : findWave? waves id = none ↔ ∀ w ∈ waves, w.id ≠ id := by
  unfold findWave?
  rw [List.find?_eq_none]
  simp

/-- In a store without two equal ids, the lookup finds the record. -/
theorem findWave?_eq_some {waves : List WaveRec} (hn : (waves.map fun w => w.id).Nodup) {w : WaveRec} (hw : w ∈ waves) :
    findWave? waves w.id = some w := by
  induction waves with
  | nil => cases hw
  | cons x xs ih =>
    simp only [List.map_cons, List.nodup_cons] at hn
    rcases List.mem_cons.mp hw with e | e
    · subst e; simp [findWave?]
    · have hne : x.id ≠ w.id := fun e' => hn.1 (e' ▸ List.mem_map_of_mem e)
      unfold findWave?
      rw [List.find?_cons_of_neg (by simpa using hne)]
      exact ih hn.2 e

/-- Removing the one record of an id lowers the total by its size (R222). -/
theorem sum_filter_id {waves : List WaveRec} (hn : (waves.map fun w => w.id).Nodup) {w : WaveRec} (hw : w ∈ waves) :
    ((waves.filter fun x => decide (x.id ≠ w.id)).map fun x => x.sample.size).sum + w.sample.size =
      (waves.map fun x => x.sample.size).sum := by
  induction waves with
  | nil => cases hw
  | cons x xs ih =>
    simp only [List.map_cons, List.nodup_cons] at hn
    rcases List.mem_cons.mp hw with e | e
    · subst e
      have : xs.filter (fun x => decide (x.id ≠ w.id)) = xs := by
        rw [List.filter_eq_self]
        intro y hy
        simp only [decide_eq_true_eq]
        exact fun e' => hn.1 (e' ▸ List.mem_map_of_mem hy)
      rw [List.filter_cons_of_neg (by simp), this, List.map_cons, List.sum_cons]
      omega
    · have hne : x.id ≠ w.id := fun e' => hn.1 (e' ▸ List.mem_map_of_mem e)
      rw [List.filter_cons_of_pos (by simpa using hne), List.map_cons, List.sum_cons, List.map_cons, List.sum_cons]
      have := ih hn.2 e
      omega

theorem PcmChannel.SourceOk.mono {waves waves' : List WaveRec} {c : PcmChannel} (h : c.SourceOk waves)
    (hm : ∀ src, c.src = some src → src.OfStore waves → src.OfStore waves') : c.SourceOk waves' := by
  cases e : c.src with
  | none => simp only [PcmChannel.SourceOk, e] at h ⊢; exact h
  | some src =>
    simp only [PcmChannel.SourceOk, e] at h ⊢
    exact ⟨h.1, h.2.1, hm src e h.2.2.1, h.2.2.2⟩

/-- What `stopPlaying` does to one channel: stopped if its source is a table the test names, else as it was. -/
def PcmChannel.stopIf (plays : Int → Bool) (c : PcmChannel) : PcmChannel :=
  match c.src with
  | some { waveId := some id, sample := _ } => if plays id then c.stopped else c
  | _ => c

theorem stopPlaying_step (plays : Int → Bool) (s : State) (j : PcmCh) :
    (match s.pcm[j].src with
      | some { waveId := some id, sample := _ } => if plays id then pcmStop j s else s
      | _ => s) = s.setPcm j (s.pcm[j].stopIf plays) := by
  have hself : s.setPcm j s.pcm[j] = s := by
    unfold State.setPcm
    have : s.pcm.set j.val s.pcm[j] = s.pcm := by simp
    rw [this]
  unfold PcmChannel.stopIf
  split
  · split
    · rfl
    · exact hself.symm
  · exact hself.symm

/-- A loop over the PCM channels that replaces each by a function of itself. -/
theorem foldl_setPcm (f : PcmCh → PcmChannel → PcmChannel) (l : List PcmCh) (hl : l.Nodup) (s : State) :
    l.foldl (fun s j => s.setPcm j (f j s.pcm[j])) s =
      { s with pcm := (l.foldl (fun s j => s.setPcm j (f j s.pcm[j])) s).pcm } ∧
    ∀ k : PcmCh, (l.foldl (fun s j => s.setPcm j (f j s.pcm[j])) s).pcm[k] = if k ∈ l then f k s.pcm[k] else s.pcm[k] := by
  induction l generalizing s with
  | nil => exact ⟨rfl, fun k => rfl⟩
  | cons j l ih =>
    rw [List.nodup_cons] at hl
    have h := ih hl.2 (s.setPcm j (f j s.pcm[j]))
    rw [List.foldl_cons]
    refine ⟨?_, fun k => ?_⟩
    · rw [h.1]; rfl
    · rw [h.2 k, setPcm_get]
      by_cases hk : k = j
      · subst hk; simp [hl.1]
      · simp [hk]

theorem pcmChannels_nodup : pcmChannels.Nodup := by decide

theorem mem_pcmChannels (j : PcmCh) : j ∈ pcmChannels := by revert j; decide

/-- The loop over all PCM channels, at one channel. -/
theorem foldl_setPcm_get (f : PcmCh → PcmChannel → PcmChannel) (s : State) (k : PcmCh) :
    (pcmChannels.foldl (fun s j => s.setPcm j (f j s.pcm[j])) s).pcm[k] = f k s.pcm[k] := by
  rw [(foldl_setPcm f pcmChannels pcmChannels_nodup s).2 k, if_pos (mem_pcmChannels k)]

theorem foldl_setPcm_eq (f : PcmCh → PcmChannel → PcmChannel) (s : State) :
    pcmChannels.foldl (fun s j => s.setPcm j (f j s.pcm[j])) s =
      { s with pcm := (pcmChannels.foldl (fun s j => s.setPcm j (f j s.pcm[j])) s).pcm } :=
  (foldl_setPcm f pcmChannels pcmChannels_nodup s).1

theorem stopPlaying_fold (plays : Int → Bool) (s : State) :
    stopPlaying plays s = pcmChannels.foldl (fun s j => s.setPcm j (s.pcm[j].stopIf plays)) s := by
  unfold stopPlaying
  congr 1
  funext s j
  exact stopPlaying_step plays s j

/-- `UNWAVE` stops the channels that play from the tables named, and changes nothing else (R222). -/
theorem stopPlaying_eq (plays : Int → Bool) (s : State) : stopPlaying plays s = { s with pcm := (stopPlaying plays s).pcm } := by
  rw [stopPlaying_fold]
  exact foldl_setPcm_eq (fun _ c => c.stopIf plays) s

theorem stopPlaying_get (plays : Int → Bool) (s : State) (k : PcmCh) : (stopPlaying plays s).pcm[k] = s.pcm[k].stopIf plays := by
  rw [stopPlaying_fold]
  exact foldl_setPcm_get (fun _ c => c.stopIf plays) s k

/-- Every channel advances by itself (R220). -/
theorem pcmEnvAll_eq (s : State) : pcmEnvAll s = { s with pcm := (pcmEnvAll s).pcm } :=
  foldl_setPcm_eq (fun _ c => c.envAdvance) s

theorem pcmEnvAll_get (s : State) (k : PcmCh) : (pcmEnvAll s).pcm[k] = s.pcm[k].envAdvance :=
  foldl_setPcm_get (fun _ c => c.envAdvance) s k

theorem pcmTick_eq (s : State) : pcmTick s = { s with pcm := (pcmTick s).pcm } := foldl_setPcm_eq (fun _ c => c.advance) s

theorem pcmTick_get (s : State) (k : PcmCh) : (pcmTick s).pcm[k] = s.pcm[k].advance := foldl_setPcm_get (fun _ c => c.advance) s k

/-- The re-partition of one channel: stopped if its flag changes (R217). -/
def PcmChannel.repartitioned (n : Nat) (j : PcmCh) (c : PcmChannel) : PcmChannel :=
  if decide (8 - n ≤ j.val) = c.reserved then c else { c.stopped with reserved := decide (8 - n ≤ j.val) }

theorem reserve_fold (n : Nat) (s : State) :
    pcmChannels.foldl (reserveChannel n) s = pcmChannels.foldl (fun s j => s.setPcm j (s.pcm[j].repartitioned n j)) s := by
  congr 1
  funext s j
  have hself : s.setPcm j s.pcm[j] = s := by
    unfold State.setPcm
    have : s.pcm.set j.val s.pcm[j] = s.pcm := by simp
    rw [this]
  unfold reserveChannel PcmChannel.repartitioned
  dsimp only
  split
  · exact hself.symm
  · rfl

/-- `RESERVE` past its checks: the partition, the count, and nothing else (R217). -/
theorem pcmReserveEffect_eq (n : Nat) (s : State) :
    pcmReserveEffect n s = { s with pcm := (pcmReserveEffect n s).pcm, reservedCount := n } := by
  unfold pcmReserveEffect
  rw [reserve_fold, foldl_setPcm_eq (fun j c => c.repartitioned n j)]

theorem pcmReserveEffect_get (n : Nat) (s : State) (k : PcmCh) : (pcmReserveEffect n s).pcm[k] = s.pcm[k].repartitioned n k := by
  unfold pcmReserveEffect
  dsimp only
  rw [reserve_fold]
  exact foldl_setPcm_get (fun j c => c.repartitioned n j) s k

end Sys2Proof.Machine
end

