-- ==== Sys2Proof/Laws/Keeps.lean ====
section
/-! SUPPORT. Every command handler, every tick, every callback and every host operation goes on, and keeps the invariant of the block. -/

namespace Sys2Proof.Machine

variable {P : Params} {s : State}

/-- The outcome is a next state that has the property. -/
def Goes (Q : State → Prop) (o : Host.Outcome State Fault Refusal) : Prop := ∃ t, o = .next t ∧ Q t

theorem goes_next {Q : State → Prop} {t : State} (h : Q t) : Goes Q (.next t) := ⟨t, rfl, h⟩

theorem goes_andThen {Q R : State → Prop} {o : Host.Outcome State Fault Refusal} {f : State → Host.Outcome State Fault Refusal}
    (ho : Goes Q o) (hf : ∀ t, Q t → Goes R (f t)) : Goes R (andThen o f) := by
  obtain ⟨t, rfl, ht⟩ := ho
  exact hf t ht

/-- The property that commands keep: the invariant of the block, with the fields of the host's side as they were. -/
structure Kept (P : Params) (s t : State) : Prop where
  inv : BlockInv P t
  inProduce : t.inProduce = s.inProduce

theorem kept_reply {rc : Rc} {t : State} (h : BlockInv P t) (hi : t.inProduce = s.inProduce) : Goes (Kept P s) (reply rc t) :=
  ⟨_, rfl, { h with }, hi⟩

theorem kept_answer {v : Int} {t : State} (h : BlockInv P t) (hi : t.inProduce = s.inProduce) : Goes (Kept P s) (answer v t) :=
  ⟨_, rfl, { h with }, hi⟩

/-! ## `inProduce` under register writes -/

theorem foldl_inProduce {α : Type} {f : State → α → State} (hf : ∀ s a, (f s a).inProduce = s.inProduce) (l : List α) (s : State) :
    (l.foldl f s).inProduce = s.inProduce := by
  induction l generalizing s with
  | nil => rfl
  | cons a l ih => rw [List.foldl_cons, ih, hf]

theorem fmWriteFreq_inProduce (ch : FmCh) (s : State) : (fmWriteFreq P ch s).inProduce = s.inProduce := by simp [fmWriteFreq]

theorem fmWriteTl_inProduce (ch : FmCh) (s : State) : (fmWriteTl P ch s).inProduce = s.inProduce :=
  foldl_inProduce (fun _ _ => writeShadowed_inProduce ..) _ _

theorem fmRewriteSustain_inProduce (ch : FmCh) (s : State) : (fmRewriteSustain P ch s).inProduce = s.inProduce :=
  foldl_inProduce (fun _ _ => writeShadowed_inProduce ..) _ _

theorem fmWriteProgram_inProduce (ch : FmCh) (B : FmProgram) (v : FmVoice) (s : State) :
    (fmWriteProgram P ch B v s).inProduce = s.inProduce := by
  unfold fmWriteProgram
  rw [writeShadowed_inProduce]
  exact foldl_inProduce (fun _ _ => foldl_inProduce (fun _ _ => writeShadowed_inProduce ..) _ _) _ _

theorem fmReset_inProduce (s : State) : (fmReset P s).inProduce = s.inProduce := by
  unfold fmReset
  rw [foldl_inProduce]
  · unfold zeroRegs
    rw [foldl_inProduce (fun _ _ => writeShadowed_inProduce ..), foldl_inProduce (fun _ _ => writeShadowed_inProduce ..)]
    rfl
  · intro s ch
    unfold fmResetChannel fmSetInstEffect
    rw [writeShadowed_inProduce, fmWriteProgram_inProduce, setVoice_inProduce, fmKeyOffWrite, writeRaw_inProduce]

/-! ## The FM handlers -/

theorem kept_fmKeyOn (h : BlockInv P s) (chan note vel : Int) : Goes (Kept P s) (fmKeyOn P chan note vel s) := by
  unfold fmKeyOn
  split
  · exact kept_reply h rfl
  split
  · exact kept_reply h rfl
  split
  · exact kept_reply h rfl
  split
  · exact kept_reply h rfl
  · refine kept_reply (h.fmKeyOnEffect _ _ _) ?_
    unfold fmKeyOnEffect
    rw [fmRewriteSustain_inProduce, fmKeyOnWrite, writeRaw_inProduce, fmKeyOffWrite, writeRaw_inProduce, fmWriteTl_inProduce,
      fmWriteFreq_inProduce, setVoice_inProduce]

theorem kept_fmKeyOff (h : BlockInv P s) (chan : Int) : Goes (Kept P s) (fmKeyOff P chan s) := by
  unfold fmKeyOff
  split
  · exact kept_reply h rfl
  · refine kept_reply (h.fmKeyOffEffect _) ?_
    rw [fmKeyOffEffect, fmKeyOffWrite, writeRaw_inProduce, setPlaying_inProduce]

theorem kept_fmSetPan (h : BlockInv P s) (chan pan : Int) : Goes (Kept P s) (fmSetPan P chan pan s) := by
  unfold fmSetPan
  split
  · exact kept_reply h rfl
  split
  · exact kept_reply h rfl
  · exact kept_reply (h.fmSetPanEffect _ _) (writeShadowed_inProduce ..)

theorem kept_fmSetInst (h : BlockInv P s) (chan prog : Int) : Goes (Kept P s) (fmSetInst P chan prog s) := by
  unfold fmSetInst
  split
  · exact kept_reply h rfl
  split
  · exact kept_reply h rfl
  · refine kept_reply (h.fmSetInstEffect _ _) ?_
    rw [fmSetInstEffect, fmWriteProgram_inProduce, setVoice_inProduce]

theorem kept_fmLoadInst (h : BlockInv P s) (prog : Int) (data : List Byte) : Goes (Kept P s) (fmLoadInst prog data s) := by
  unfold fmLoadInst
  split
  · exact kept_reply h rfl
  split
  · exact kept_reply h rfl
  · exact kept_reply { h with } rfl

theorem kept_fmSetPitch (h : BlockInv P s) (chan pitch : Int) : Goes (Kept P s) (fmSetPitch P chan pitch s) := by
  unfold fmSetPitch
  split
  · exact kept_reply h rfl
  split
  · rename_i hp
    refine kept_reply (h.fmSetPitchEffect _ hp) ?_
    rw [fmSetPitchEffect, fmWriteFreq_inProduce, setVoice_inProduce]
  · exact kept_reply h rfl

theorem kept_fmSetLevel (h : BlockInv P s) (chan level : Int) : Goes (Kept P s) (fmSetLevel P chan level s) := by
  unfold fmSetLevel
  split
  · exact kept_reply h rfl
  split
  · exact kept_reply h rfl
  · refine kept_reply (h.fmSetLevelEffect _ _) ?_
    rw [fmSetLevelEffect, fmWriteTl_inProduce, setVoice_inProduce]

theorem kept_fmChOff (h : BlockInv P s) (chan : Int) : Goes (Kept P s) (fmChOff P chan s) := by
  unfold fmChOff
  split
  · exact kept_reply h rfl
  · refine kept_reply (h.fmChOffEffect _) ?_
    rw [fmChOffEffect, fmSilence, setFm_inProduce, fmKeyOffWrite, writeRaw_inProduce, setPlaying_inProduce]

/-! ## The PCM handlers -/

theorem pcmLookup_ok {prog : Fin 32} {note : Level7} {e : PcmEntry} {w : WaveRec} (h : pcmLookup P prog note s = .ok (e, w)) :
    w ∈ s.waves := by
  unfold pcmLookup at h
  split at h
  · cases h
  split at h
  · cases h
  · injection h with h; injection h with _ h; subst h
    exact (findWave?_some ‹_›).1

theorem PcmChannel.keyedOn_reserved (c : PcmChannel) (e : PcmEntry) (w : WaveRec) (note vel : Level7) :
    (c.keyedOn P e w note vel).reserved = c.reserved := by
  unfold PcmChannel.keyedOn
  dsimp only
  rw [PcmChannel.enterAttack_eq]
  rfl

theorem kept_pcmKeyOn (h : BlockInv P s) (chan note vel : Int) : Goes (Kept P s) (pcmKeyOn P chan note vel s) := by
  unfold pcmKeyOn
  cases hj : pcmChan? chan with
  | none => exact kept_reply h rfl
  | some j =>
  cases level7? note with
  | none => exact kept_reply h rfl
  | some n =>
  cases level7? vel with
  | none => exact kept_reply h rfl
  | some v =>
  dsimp only
  split
  · exact kept_reply h rfl
  split
  · exact kept_reply h rfl
  · rename_i e w hl
    have hw := pcmLookup_ok hl
    exact kept_reply (h.setPcm (.keyedOn _ _ _ _ hw (h.waves_ok w hw)) (.keyedOn _ _ _ _ _ (h.flags_ok j).pitch_ok)
      (PcmChannel.keyedOn_reserved ..)) rfl

theorem kept_pcmKeyOff (h : BlockInv P s) (chan : Int) : Goes (Kept P s) (pcmKeyOff chan s) := by
  unfold pcmKeyOff
  split
  · exact kept_reply h rfl
  · rename_i j _
    refine kept_reply (h.setPcm (h.source_ok j).keyedOff (h.flags_ok j).keyedOff ?_) rfl
    unfold PcmChannel.keyedOff
    split
    · rcases PcmChannel.enterRelease_cases { s.pcm[j] with keyPressed := false } with e | e <;> rw [e]
      rfl
    · rfl

theorem PcmChannel.FlagsOk.of_params {c c' : PcmChannel} (h : c.FlagsOk)
    (e : c' = { c with panL := c'.panL, panR := c'.panR, program := c'.program, level := c'.level }) : c'.FlagsOk := by
  rw [e]; exact ⟨h.1, h.2, h.3, h.4, h.5⟩

theorem kept_pcmSetPan (h : BlockInv P s) (chan pan : Int) : Goes (Kept P s) (pcmSetPan chan pan s) := by
  unfold pcmSetPan
  split
  · exact kept_reply h rfl
  split
  · exact kept_reply h rfl
  · exact kept_reply (h.setPcm (h.source_ok _) ((h.flags_ok _).of_params rfl) rfl) rfl

theorem kept_pcmSetInst (h : BlockInv P s) (chan prog : Int) : Goes (Kept P s) (pcmSetInst chan prog s) := by
  unfold pcmSetInst
  split
  · exact kept_reply h rfl
  split
  · exact kept_reply h rfl
  · exact kept_reply (h.setPcm (h.source_ok _) ((h.flags_ok _).of_params rfl) rfl) rfl

theorem kept_pcmSetLevel (h : BlockInv P s) (chan level : Int) : Goes (Kept P s) (pcmSetLevel chan level s) := by
  unfold pcmSetLevel
  split
  · exact kept_reply h rfl
  split
  · exact kept_reply h rfl
  · exact kept_reply (h.setPcm (h.source_ok _) ((h.flags_ok _).of_params rfl) rfl) rfl

theorem kept_pcmLoadInst (h : BlockInv P s) (prog : Int) (data : List Byte) : Goes (Kept P s) (pcmLoadInst prog data s) := by
  unfold pcmLoadInst
  split
  · exact kept_reply h rfl
  split
  · exact kept_reply h rfl
  · exact kept_reply { h with } rfl

theorem kept_pcmLoadSamples (h : BlockInv P s) (dest size : Int) (data : List Byte) :
    Goes (Kept P s) (pcmLoadSamples dest size data s) := by
  unfold pcmLoadSamples
  split
  · exact kept_reply h rfl
  rename_i a ha
  split
  · exact kept_reply h rfl
  split
  · exact kept_reply h rfl
  split
  · exact kept_reply h rfl
  · have ha' : (a.val : Int) = dest := by
      unfold index? at ha
      split at ha
      · injection ha with ha; subst ha; show (dest.toNat : Int) = dest; omega
      · cases ha
    refine kept_reply { h with ram_wf := Memory.wf_writeBytes h.ram_wf ?_ } rfl
    rw [List.length_take]
    omega

theorem kept_pcmSetPitch (h : BlockInv P s) (chan pitch : Int) : Goes (Kept P s) (pcmSetPitch P chan pitch s) := by
  unfold pcmSetPitch
  split
  · exact kept_reply h rfl
  split
  · rename_i hp
    refine kept_reply (h.setPcm ((h.source_ok _).pitched _) ((h.flags_ok _).pitched hp) ?_) rfl
    unfold PcmChannel.pitched
    split
    · split <;> rfl
    · rfl
  · exact kept_reply h rfl

theorem kept_pcmOff (h : BlockInv P s) (chan : Int) : Goes (Kept P s) (pcmOff chan s) := by
  unfold pcmOff
  split
  · exact kept_reply h rfl
  · exact kept_reply (h.pcmStop _) rfl

theorem BlockInv.pcmReserveEffect (h : BlockInv P s) {n : Nat} (hn : n ≤ 8) : BlockInv P (pcmReserveEffect n s) := by
  have hc : ∀ j : PcmCh, (s.pcm[j].repartitioned n j).reserved = decide (8 - n ≤ j.val) ∧
      (s.pcm[j].repartitioned n j).SourceOk s.waves ∧ (s.pcm[j].repartitioned n j).FlagsOk := by
    intro j
    unfold PcmChannel.repartitioned
    split
    · rename_i e; exact ⟨e.symm, h.source_ok j, h.flags_ok j⟩
    · exact ⟨rfl, rfl, rfl, rfl, (by intro h; cases h), (by intro h; cases h), (h.flags_ok j).pitch_ok⟩
  have hw : (Machine.pcmReserveEffect n s).waves = s.waves := by rw [pcmReserveEffect_eq]
  rw [pcmReserveEffect_eq]
  exact
    { h with
      reserved_le := hn
      reserved_iff := fun j => by show (Machine.pcmReserveEffect n s).pcm[j].reserved = _; rw [pcmReserveEffect_get]; exact (hc j).1
      source_ok := fun j => by
        show (Machine.pcmReserveEffect n s).pcm[j].SourceOk s.waves; rw [pcmReserveEffect_get]; exact (hc j).2.1
      flags_ok := fun j => by show (Machine.pcmReserveEffect n s).pcm[j].FlagsOk; rw [pcmReserveEffect_get]; exact (hc j).2.2 }

theorem kept_pcmReserve (h : BlockInv P s) (n : Int) : Goes (Kept P s) (pcmReserve P n s) := by
  unfold pcmReserve
  split
  · exact kept_reply h rfl
  split
  · exact kept_reply h rfl
  · rename_i k _ _
    exact kept_reply (h.pcmReserveEffect (by omega)) (by rw [pcmReserveEffect_eq])

theorem kept_pcmPlayEffect (h : BlockInv P s) (chan note vel : Int) (data : List Byte) :
    Goes (Kept P s) (pcmPlayEffect P chan note vel data s) := by
  unfold pcmPlayEffect
  split
  · exact kept_reply h rfl
  split
  · exact kept_reply h rfl
  split
  · exact kept_reply h rfl
  split
  · exact kept_reply h rfl
  rename_i j _ _ _ _ _ _ _ hr
  split
  · exact kept_reply h rfl
  split
  · exact kept_reply h rfl
  · rename_i hc
    have hr' : s.pcm[j].reserved = true := by simpa using hr
    exact kept_reply (h.setPcm (.effectOn _ _ _ _ (effectCheck_none hc)) (.effectOn _ _ _ (h.flags_ok j).pitch_ok hr') rfl) rfl

theorem kept_pcmEffectPlaying (h : BlockInv P s) (chan : Int) : Goes (Kept P s) (pcmEffectPlaying chan s) := by
  unfold pcmEffectPlaying
  split
  · exact kept_reply h rfl
  · exact kept_answer h rfl

theorem Source.OfStore.mono {waves waves' : List WaveRec} {src : Source} (h : src.OfStore waves)
    (hm : ∀ w ∈ waves, src.waveId = some w.id → w ∈ waves') : src.OfStore waves' := by
  unfold Source.OfStore at h ⊢
  cases hi : src.waveId with
  | none => trivial
  | some id =>
    rw [hi] at h hm
    obtain ⟨w, hw, hid, hs⟩ := h
    exact ⟨w, hm w hw (by rw [hid]), hid, hs⟩

theorem kept_pcmLoadWave (h : BlockInv P s) (data : List Byte) : Goes (Kept P s) (pcmLoadWave P data s) := by
  unfold pcmLoadWave
  split
  · exact kept_reply h rfl
  · rename_i hc
    obtain ⟨h1, h2, h3, h4⟩ := loadCheck_none hc
    refine kept_reply { h with
      total_eq := ?total_eq, total_le := ?total_le, count_le := ?count_le, ids_nodup := ?ids_nodup, waves_ok := ?waves_ok
      source_ok := ?source_ok } rfl
    case total_eq => simp [h.total_eq]
    case total_le => exact h3
    case count_le => rw [List.length_append, List.length_singleton]; omega
    case ids_nodup =>
      rw [List.map_append, List.nodup_append]
      refine ⟨h.ids_nodup, by simp, ?_⟩
      intro a ha b hb e
      simp only [List.map_cons, List.map_nil, List.mem_singleton] at hb
      obtain ⟨w, hw, rfl⟩ := List.mem_map.mp ha
      exact h4 w hw (e.trans hb)
    case waves_ok =>
      intro w hw
      rcases List.mem_append.mp hw with hw | hw
      · exact h.waves_ok w hw
      · rw [List.mem_singleton] at hw; subst hw; exact h2
    case source_ok =>
      intro j
      refine (h.source_ok j).mono ?_
      exact fun src _ ho => ho.mono fun w hw _ => List.mem_append_left _ hw

theorem PcmChannel.stopIf_cases (plays : Int → Bool) (c : PcmChannel) :
    c.stopIf plays = c.stopped ∨
      (c.stopIf plays = c ∧ ∀ src id, c.src = some src → src.waveId = some id → plays id = false) := by
  unfold PcmChannel.stopIf
  split
  · rename_i id w e
    split
    · exact .inl rfl
    · rename_i hp
      refine .inr ⟨rfl, ?_⟩
      intro src id' hs hi
      rw [e] at hs
      injection hs with hs
      subst hs
      injection hi with hi
      subst hi
      simpa using hp
  · rename_i hn
    refine .inr ⟨rfl, ?_⟩
    intro src id hs hi
    exfalso
    refine hn id src.sample ?_
    rw [hs]
    cases src
    simp_all

theorem BlockInv.stopPlaying (h : BlockInv P s) (plays : Int → Bool) (waves' : List WaveRec) (total : Nat)
    (ht : total = (waves'.map fun w => w.sample.size).sum) (hle : total ≤ 65504) (hsub : waves'.Sublist s.waves)
    (hk : ∀ w ∈ s.waves, plays w.id = false → w ∈ waves') :
    BlockInv P { stopPlaying plays s with waves := waves', waveTotal := total } := by
  have hget : ∀ j : PcmCh, (Machine.stopPlaying plays s).pcm[j] = s.pcm[j].stopIf plays := stopPlaying_get plays s
  rw [stopPlaying_eq]
  generalize (Machine.stopPlaying plays s).pcm = q at hget ⊢
  refine { h with
    total_eq := ?total_eq, total_le := ?total_le, count_le := ?count_le, ids_nodup := ?ids_nodup, waves_ok := ?waves_ok
    reserved_iff := ?reserved_iff, source_ok := ?source_ok, flags_ok := ?flags_ok }
  case total_eq => exact ht
  case total_le => exact hle
  case count_le => exact hsub.length_le.trans h.count_le
  case ids_nodup => exact (hsub.map _).nodup h.ids_nodup
  case waves_ok => exact fun w hw => h.waves_ok w (hsub.subset hw)
  case reserved_iff =>
    intro j
    show q[j].reserved = _
    rw [hget]
    rcases s.pcm[j].stopIf_cases plays with e | ⟨e, _⟩
    · rw [e]; exact h.reserved_iff j
    · rw [e]; exact h.reserved_iff j
  case source_ok =>
    intro j
    show q[j].SourceOk waves'
    rw [hget]
    rcases s.pcm[j].stopIf_cases plays with e | ⟨e, hp⟩
    · rw [e]; exact .stopped _ _
    · rw [e]
      refine (h.source_ok j).mono ?_
      exact fun src hs ho => ho.mono fun w hw hid => hk w hw (hp src w.id hs hid)
  case flags_ok =>
    intro j
    show q[j].FlagsOk
    rw [hget]
    rcases s.pcm[j].stopIf_cases plays with e | ⟨e, _⟩
    · rw [e]; exact .stopped (h.flags_ok j).pitch_ok
    · rw [e]; exact h.flags_ok j

theorem stopPlaying_inProduce (plays : Int → Bool) (s : State) : (stopPlaying plays s).inProduce = s.inProduce := by
  rw [stopPlaying_eq]

theorem kept_store {u : State} {waves' : List WaveRec} {total : Nat} (hi : u.inProduce = s.inProduce)
    (hb : BlockInv P { u with waves := waves', waveTotal := total }) :
    Goes (Kept P s) (reply .success { u with waves := waves', waveTotal := total }) := kept_reply hb hi

theorem kept_pcmUnloadWave (h : BlockInv P s) (id : Int) : Goes (Kept P s) (pcmUnloadWave id s) := by
  unfold pcmUnloadWave
  split
  · have hb := h.stopPlaying (fun _ => true) [] 0 rfl (Nat.zero_le _) (List.nil_sublist _) (by intro w _ hp; cases hp)
    exact kept_store (stopPlaying_inProduce _ s) hb
  split
  · exact kept_reply h rfl
  · rename_i w hf
    obtain ⟨hw, hid⟩ := findWave?_some hf
    have hsum := sum_filter_id h.ids_nodup hw
    rw [hid] at hsum
    have he := h.total_eq
    have hle := h.total_le
    have hb := h.stopPlaying (fun k => decide (k = id)) (s.waves.filter fun x => decide (x.id ≠ id))
      (s.waveTotal - w.sample.size) (by omega) (by omega) List.filter_sublist (by
        intro x hx hp
        rw [List.mem_filter]
        exact ⟨hx, by simpa using hp⟩)
    exact kept_store (stopPlaying_inProduce _ s) hb

theorem kept_pcmReset {t : State} (hb : BlockInv P t) (hi : t.inProduce = s.inProduce) :
    Goes (Kept P s) (reply .success (pcmReset P t)) := kept_reply hb.pcmReset hi

theorem kept_reset (h : BlockInv params s) : Goes (Kept params s) (execReset s) := by
  unfold execReset
  exact kept_pcmReset h.fmReset (fmReset_inProduce s)

theorem kept_fmreset (h : BlockInv params s) : Goes (Kept params s) (execFmreset s) := by
  unfold execFmreset
  exact kept_reply h.fmReset (fmReset_inProduce s)

/-! ## Every instruction -/

theorem kept_next {t : State} (h : BlockInv P t) (hi : t.inProduce = s.inProduce) : Goes (Kept P s) (.next t) := ⟨t, rfl, h, hi⟩

theorem kept_writeRaw (h : BlockInv P s) (p : Part) (r : Nat) (v : Byte) : Goes (Kept P s) (.next (writeRaw P p r v s)) :=
  kept_next (h.writeRaw p r v) (writeRaw_inProduce ..)

/-- Every instruction goes on, and keeps the invariant of the block. -/
theorem kept_exec (h : BlockInv params s) (i : Instr) : Goes (Kept params s) (exec i s) := by
  cases i with
  | reset => exact kept_reset h
  | keyonFm c n v => exact kept_fmKeyOn h c n v
  | keyonPcm c n v => exact kept_pcmKeyOn h c n v
  | keyoffFm c => exact kept_fmKeyOff h c
  | keyoffPcm c => exact kept_pcmKeyOff h c
  | setpanFm c p => exact kept_fmSetPan h c p
  | setpanPcm c p => exact kept_pcmSetPan h c p
  | setinstFm c p => exact kept_fmSetInst h c p
  | setinstPcm c p => exact kept_pcmSetInst h c p
  | setpitchFm c p => exact kept_fmSetPitch h c p
  | setpitchPcm c p => exact kept_pcmSetPitch h c p
  | setlevelFm c l => exact kept_fmSetLevel h c l
  | setlevelPcm c l => exact kept_pcmSetLevel h c l
  | choffFm c => exact kept_fmChOff h c
  | choffPcm c => exact kept_pcmOff h c
  | loadinstFm c p d => exact kept_fmLoadInst h p d
  | loadinstPcm c p d => exact kept_pcmLoadInst h p d
  | wrreg p r v =>
    show Goes _ (writeRegister params p r v s)
    unfold writeRegister
    split
    · exact kept_reply (h.writeRaw _ _ _) (writeRaw_inProduce ..)
    · exact kept_reply h rfl
  | wrregb p r v =>
    show Goes _ (writeRegisterBuffered params p r v s)
    unfold writeRegisterBuffered
    split
    · exact kept_reply (h.writeShadowed _ _ _) (writeShadowed_inProduce ..)
    · exact kept_reply h rfl
  | rdregb p r =>
    show Goes _ (readRegisterBuffered params p r s)
    unfold readRegisterBuffered
    split
    · exact kept_answer h rfl
    · exact kept_reply h rfl
  | setta v =>
    show Goes _ (execSetta v s)
    unfold execSetta
    split
    · refine kept_reply ((h.writeShadowed _ _ _).writeShadowed _ _ _) ?_
      rw [writeTimerA, writeShadowed_inProduce, writeShadowed_inProduce]
    · exact kept_reply h rfl
  | settb v =>
    show Goes _ (execSettb v s)
    unfold execSettb
    split
    · exact kept_reply (h.writeShadowed _ _ _) (writeShadowed_inProduce ..)
    · exact kept_reply h rfl
  | enta on =>
    show Goes _ (execEnta on s)
    unfold execEnta
    split
    · exact kept_reply { h with } rfl
    · exact kept_reply h rfl
  | entb on =>
    show Goes _ (execEntb on s)
    unfold execEntb
    split
    · exact kept_reply { h with } rfl
    · exact kept_reply h rfl
  | ldsmp a n d => exact kept_pcmLoadSamples h a n d
  | reserve n => exact kept_pcmReserve h n
  | ldwave d => exact kept_pcmLoadWave h d
  | unwave id => exact kept_pcmUnloadWave h id
  | playfx c n v d => exact kept_pcmPlayEffect h c n v d
  | pcmoff c => exact kept_pcmOff h c
  | fxq c => exact kept_pcmEffectPlaying h c
  | fmkeyon c n v => exact kept_fmKeyOn h c n v
  | fmkeyoff c => exact kept_fmKeyOff h c
  | fmpan c p => exact kept_fmSetPan h c p
  | fminst c p => exact kept_fmSetInst h c p
  | fmload p d => exact kept_fmLoadInst h p d
  | fmpitch c p => exact kept_fmSetPitch h c p
  | fmlevel c l => exact kept_fmSetLevel h c l
  | fmreset => exact kept_fmreset h
  | setvol l v =>
    show Goes _ (execSetvol l v s)
    unfold execSetvol
    split
    · exact kept_reply { h with } rfl
    · exact kept_reply h rfl
  | rstvol => exact kept_reply { h with } rfl
  | getvol _ => exact kept_reply h rfl
  | setmute l m =>
    show Goes _ (execSetmute l m s)
    unfold execSetmute
    split
    · exact kept_reply { h with } rfl
    · exact kept_reply h rfl
  | cdtoggle _ => exact kept_reply h rfl
  | getvol2 _ => exact kept_reply h rfl
  | getmute l =>
    show Goes _ (execGetmute l s)
    unfold execGetmute
    split
    · exact kept_answer h rfl
    · exact kept_reply h rfl
  | pcmenv => exact kept_reply h.pcmEnvAll (by rw [pcmEnvAll_eq])
  | unsupported55 _ => exact kept_reply h rfl
  | unsupported74 _ => exact kept_reply h rfl
  | unsupported75 _ => exact kept_reply h rfl
  | unsupported _ _ => exact kept_reply h rfl
  | ssgToneLow i v => exact kept_writeRaw h _ _ _
  | ssgToneHigh i v => exact kept_writeRaw h _ _ _
  | ssgNoisePeriod v => exact kept_writeRaw h _ _ _
  | ssgEnable v => exact kept_writeRaw h _ _ _
  | ssgLevel i v => exact kept_writeRaw h _ _ _
  | ssgEnvPeriod b v => exact kept_writeRaw h _ _ _
  | ssgEnvShape v => exact kept_writeRaw h _ _ _
  | rhythmKey v => exact kept_writeRaw h _ _ _
  | rhythmTotalLevel v => exact kept_writeRaw h _ _ _
  | rhythmChannelLevel i v => exact kept_writeRaw h _ _ _
  | timerAHigh v => exact kept_writeRaw h _ _ _
  | timerALow v => exact kept_writeRaw h _ _ _
  | timerB v => exact kept_writeRaw h _ _ _
  | fmKey v => exact kept_writeRaw h _ _ _
  | fmDtMul ch op v => exact kept_writeRaw h _ _ _
  | fmTl ch op v => exact kept_writeRaw h _ _ _
  | fmKsAr ch op v => exact kept_writeRaw h _ _ _
  | fmAmDr ch op v => exact kept_writeRaw h _ _ _
  | fmSr ch op v => exact kept_writeRaw h _ _ _
  | fmSlRr ch op v => exact kept_writeRaw h _ _ _
  | fmFnumLow ch v => exact kept_writeRaw h _ _ _
  | fmBlockFnumHigh ch v => exact kept_writeRaw h _ _ _
  | fmFbAlg ch v => exact kept_writeRaw h _ _ _
  | fmPan ch v => exact kept_writeRaw h _ _ _
  | storedOnly p r v => exact kept_writeRaw h _ _ _

end Sys2Proof.Machine
end

