-- ==== Sys2Proof/Laws/Steps.lean ====
section
/-! SUPPORT. The engines, the timers with their callbacks, `produce` and every host step go on, and keep the invariant. -/

namespace Sys2Proof.Machine

variable {P : Params} {s : State}

/-! ## FM levels (R145) -/

theorem envUpdate_level (f : OpFields) (inc : Nat) (o : Operator) (h : o.level ≤ 1023) : (envUpdate P f inc o).level ≤ 1023 := by
  unfold envUpdate
  split
  · exact h
  · have := P.attackStep_le o.level inc
    dsimp only
    omega
  · exact Nat.min_le_left _ _
  · exact Nat.min_le_left _ _
  · exact Nat.min_le_left _ _

theorem envStep_level (f : OpFields) (kc : Fin 32) (o : Operator) (h : o.level ≤ 1023) : (envStep P f kc o).level ≤ 1023 := by
  unfold envStep
  split
  · exact h
  dsimp only
  split
  · exact envUpdate_level _ _ _ h
  · exact h

theorem opOut_level (f : OpFields) (c : FmChannel) (pm : Int) (o : Operator) : (opOut P f c pm o).level = o.level := by
  unfold opOut; split <;> rfl

theorem opTick_level (f : OpFields) (c : FmChannel) (pm : Int) (o : Operator) (h : o.level ≤ 1023) :
    (opTick P f c pm o).level ≤ 1023 := by
  unfold opTick; rw [opOut_level]; exact envStep_level _ _ _ h

namespace BlockInv

theorem fmTick (h : BlockInv P s) : BlockInv P (fmTick P s) := by
  unfold Machine.fmTick
  refine foldl _ (fun s ch h => ?_) h
  unfold fmChannelTick
  apply h.setFm
  exact ⟨opTick_level _ _ _ _ (h.level_le ch).1, opTick_level _ _ _ _ (h.level_le ch).2⟩

/-! ## SSG -/

theorem lfsrStep_ne {l : BitVec 17} (h : l ≠ 0) : lfsrStep l ≠ 0 := by
  intro h0
  unfold lfsrStep at h0
  apply h
  have hb : ∀ i, i < 17 → ((l >>> 1) ||| (if Bool.xor (l.getLsbD 0) (l.getLsbD 3) then 0x10000 else 0 : BitVec 17)).getLsbD i = false := by
    intro i _; rw [h0]; simp
  have hz : ∀ i, 1 ≤ i → i < 17 → l.getLsbD i = false := by
    intro i hi hi'
    have := hb (i - 1) (by omega)
    rw [BitVec.getLsbD_or, Bool.or_eq_false_iff] at this
    have h1 := this.1
    rw [BitVec.getLsbD_ushiftRight] at h1
    rwa [show 1 + (i - 1) = i by omega] at h1
  have h3 := hz 3 (by omega) (by omega)
  have h16 := hb 16 (by omega)
  rw [BitVec.getLsbD_or, Bool.or_eq_false_iff] at h16
  have hl0 : l.getLsbD 0 = false := by
    have := h16.2
    rw [h3] at this
    by_contra hc
    rw [Bool.not_eq_false] at hc
    rw [hc] at this
    simp at this
  apply BitVec.eq_of_getLsbD_eq
  intro i hi
  refine Eq.trans ?_ BitVec.getLsbD_zero.symm
  by_cases h1 : 1 ≤ i
  · exact hz i h1 hi
  · rw [show i = 0 by omega]; exact hl0

/-- The SSG's queue and shift register, as the invariant reads them. -/
theorem toneFold_keeps (l : List SsgCh) (g : Ssg) :
    (l.foldl (Ssg.toneStep P) g).queue = g.queue ∧ (l.foldl (Ssg.toneStep P) g).lfsr = g.lfsr := by
  induction l generalizing g with
  | nil => exact ⟨rfl, rfl⟩
  | cons i l ih =>
    rw [List.foldl_cons]
    have h := ih (Ssg.toneStep P g i)
    rw [h.1, h.2]
    unfold Ssg.toneStep
    dsimp only
    split <;> exact ⟨rfl, rfl⟩

theorem envPeriodStep_keeps (g : Ssg) : (Ssg.envPeriodStep P g).queue = g.queue ∧ (Ssg.envPeriodStep P g).lfsr = g.lfsr := by
  unfold Ssg.envPeriodStep
  split
  · exact ⟨rfl, rfl⟩
  dsimp only
  split
  · unfold Ssg.envCycle
    dsimp only
    split
    · exact ⟨rfl, rfl⟩
    split
    · exact ⟨rfl, rfl⟩
    split <;> exact ⟨rfl, rfl⟩
  · exact ⟨rfl, rfl⟩

theorem ssgTick (h : BlockInv P s) : BlockInv P (ssgTick P s) := by
  have ht := toneFold_keeps (P := P) ssgChannels s.ssg
  have hn : (Ssg.noiseStep P (ssgChannels.foldl (Ssg.toneStep P) s.ssg)).queue = s.ssg.queue ∧
      (Ssg.noiseStep P (ssgChannels.foldl (Ssg.toneStep P) s.ssg)).lfsr ≠ 0 := by
    generalize ssgChannels.foldl (Ssg.toneStep P) s.ssg = g at ht
    unfold Ssg.noiseStep
    dsimp only
    split
    · exact ⟨ht.1, lfsrStep_ne (ht.2 ▸ h.lfsr_ne)⟩
    · exact ⟨ht.1, ht.2 ▸ h.lfsr_ne⟩
  have he := envPeriodStep_keeps (P := P) (Ssg.noiseStep P (ssgChannels.foldl (Ssg.toneStep P) s.ssg))
  refine { h with queue_le := ?_, lfsr_ne := ?_ }
  · show (Ssg.tick P s.ssg).queue.length ≤ _
    rw [Ssg.tick, he.1, hn.1]
    exact h.queue_le
  · show (Ssg.tick P s.ssg).lfsr ≠ 0
    rw [Ssg.tick, he.2]
    exact hn.2

theorem applyFold_lfsr (l : List (Fin 14 × Byte)) (g : Ssg) : (l.foldl Ssg.apply g).lfsr = g.lfsr := by
  induction l generalizing g with
  | nil => rfl
  | cons w l ih =>
    rw [List.foldl_cons, ih]
    unfold Ssg.apply
    dsimp only
    split <;> rfl

theorem ssgDrain (h : BlockInv P s) : BlockInv P (ssgDrain s) :=
  { h with
    queue_le := Nat.zero_le _
    lfsr_ne := by
      show (s.ssg.queue.foldl Ssg.apply s.ssg).lfsr ≠ 0
      rw [applyFold_lfsr]
      exact h.lfsr_ne }

/-! ## Rhythm -/

theorem clamp_is12 (x : Int) : is12 (clamp x (-2048) 2047) := by
  unfold clamp is12
  constructor <;> omega

theorem rhyDecode_ok {c : RhyChannel} (h : c.Ok P) : (rhyDecode P c).Ok P := by
  unfold rhyDecode
  split
  · exact ⟨h.1, h.2, h.3, h.4⟩
  · unfold rhyNibble
    exact ⟨clamp_is12 _, h.3, clamp_is12 _, h.4⟩

theorem rhyTick (h : BlockInv P s) : BlockInv P (rhyTick P s) := by
  unfold Machine.rhyTick
  split
  · refine foldl _ (fun s i h => ?_) (show BlockInv P { s with rhyDivCnt := 0 } from { h with })
    unfold rhyDecodeActive
    split
    · exact h.setRhy (rhyDecode_ok (h.rhy_ok i))
    · exact h
  · exact { h with }

end BlockInv

/-! ## `inProduce` under the engines -/

theorem fmTick_inProduce (s : State) : (fmTick P s).inProduce = s.inProduce :=
  foldl_inProduce (f := fun s ch => fmChannelTick P ch s) (fun _ _ => rfl) _ _

theorem ssgTick_inProduce (s : State) : (ssgTick P s).inProduce = s.inProduce := rfl

theorem pcmTick_inProduce (s : State) : (pcmTick s).inProduce = s.inProduce := by rw [pcmTick_eq]

theorem rhyTick_inProduce (s : State) : (rhyTick P s).inProduce = s.inProduce := by
  unfold rhyTick
  split
  · refine foldl_inProduce (fun s i => ?_) _ _
    unfold rhyDecodeActive
    split <;> rfl
  · rfl

/-- Steps 3 to 7 of a tick keep the invariant (R331). -/
theorem kept_engines (h : BlockInv P s) (e : Nat) (a : BitVec 6) (b : BitVec 8) : Kept P s (engines P e a b s) := by
  have h6 := h.fmTick.pcmTick.ssgTick.rhyTick
  have hi : (rhyTick P (ssgTick P (pcmTick (fmTick P s)))).inProduce = s.inProduce := by
    rw [rhyTick_inProduce]
    rw [ssgTick_inProduce, pcmTick_inProduce, fmTick_inProduce]
  unfold engines
  dsimp only
  generalize rhyTick P (ssgTick P (pcmTick (fmTick P s))) = u at h6 hi
  exact ⟨{ h6 with }, hi⟩

/-! ## Callbacks (R363) -/

theorem Kept.trans {s t u : State} (h : Kept P s t) (h' : Kept P t u) : Kept P s u := ⟨h'.inv, h'.inProduce.trans h.inProduce⟩

theorem Goes.imp {Q R : State → Prop} {o : Host.Outcome State Fault Refusal} (h : Goes Q o) (hi : ∀ t, Q t → R t) : Goes R o := by
  obtain ⟨t, e, ht⟩ := h
  exact ⟨t, e, hi t ht⟩

theorem BlockInv.refuse (h : BlockInv P s) : BlockInv P (refuse s) :=
  { h with reentry_refused := fun _ => rfl, lock_refused := fun hl => ⟨rfl, (h.lock_refused hl).2⟩ }

theorem BlockInv.reenter (h : BlockInv P s) : BlockInv P (reenter s) :=
  { h with reentry_refused := fun _ => rfl, lock_refused := fun hl => ⟨rfl, (h.lock_refused hl).2⟩ }

/-- Every command goes on and keeps the invariant: it runs its instruction, or it is refused (R120, R365). -/
theorem kept_processCommand (h : BlockInv params s) (code : Int) (args : List Arg) :
    Goes (Kept params s) (processCommand code args s) := by
  unfold processCommand
  split
  · exact kept_exec h _
  · exact kept_next h.refuse rfl

theorem kept_nestedCall (h : BlockInv params s) (c : HostCall) : Goes (Kept params s) (nestedCall c s) := by
  cases c with
  | command code args =>
    refine goes_andThen (kept_processCommand h code args) ?_
    intro t ht
    exact ⟨_, rfl, { ht.inv with }, ht.inProduce⟩
  | produce b o n => exact kept_next h.reenter rfl
  | setCallbacks a b => exact kept_next { h with } rfl
  | setVolumeMasks a b => exact kept_next { h with } rfl

theorem kept_nestedCalls (h : BlockInv params s) (cs : List HostCall) : Goes (Kept params s) (nestedCalls cs s) := by
  induction cs generalizing s with
  | nil => exact kept_next h rfl
  | cons c cs ih =>
    refine goes_andThen (kept_nestedCall h c) ?_
    intro t ht
    exact (ih ht.inv).imp fun u hu => ht.trans hu

theorem kept_runCallback (h : BlockInv params s) (cb : Option ProcId) : Goes (Kept params s) (runCallback cb s) := by
  cases cb with
  | none => exact kept_next h rfl
  | some id =>
    have h' : BlockInv params (procCalled id s) := { h with }
    exact (kept_nestedCalls h' _).imp fun t ht => ⟨ht.inv, ht.inProduce⟩

/-! ## Ticks and `produce` (R311, R330, R331) -/

theorem kept_timerTickA (h : BlockInv params s) : Goes (Kept params s) (timerTickA P s) := by
  unfold timerTickA
  split
  · exact kept_next h rfl
  split
  · exact (kept_runCallback (s := { s with timerA := { s.timerA with cnt := 0 } }) { h with } _).imp
      fun t ht => ⟨ht.inv, ht.inProduce⟩
  · exact kept_next { h with } rfl

theorem kept_timerTickB (h : BlockInv params s) : Goes (Kept params s) (timerTickB P s) := by
  unfold timerTickB
  split
  · exact kept_next h rfl
  split
  · refine goes_andThen (kept_runCallback (s := { s with timerB := { s.timerB with cnt := 0 } }) { h with } _) ?_
    intro t ht
    refine ⟨_, rfl, ht.inv.pcmEnvAll, ?_⟩
    rw [pcmEnvAll_eq]
    exact ht.inProduce
  · exact kept_next { h with } rfl

/-- A tick goes on and keeps the invariant. -/
theorem kept_tick (h : BlockInv params s) (e : Nat) : Goes (Kept params s) (tick params e s) := by
  unfold tick
  refine goes_andThen (kept_timerTickA h.ssgDrain) ?_
  intro t ht
  refine goes_andThen (kept_timerTickB ht.inv) ?_
  intro u hu
  refine ⟨_, rfl, ?_⟩
  have := kept_engines hu.inv e s.maskA s.maskB
  exact ⟨this.inv, this.inProduce.trans (hu.inProduce.trans ht.inProduce)⟩

theorem kept_ticks (n : Nat) : ∀ {s : State} (e : Nat), BlockInv params s → Goes (Kept params s) (ticks params n e s) := by
  induction n with
  | zero => intro s e h; exact kept_next h rfl
  | succ n ih =>
    intro s e h
    refine goes_andThen (kept_tick h e) ?_
    intro t ht
    exact (ih (e + 2) ht.inv).imp fun u hu => ht.trans hu

/-- A `produce` call between host steps goes on, keeps the invariant, and is over when it returns. -/
theorem kept_produce (h : Inv s) (buffer : List OutElem) (offset count : Int) :
    Goes Inv (produce params buffer offset count s) := by
  unfold produce
  rw [h.idle]
  simp only [Bool.false_eq_true, if_false]
  split
  · exact ⟨_, rfl, { h.block with }, h.idle⟩
  · refine goes_andThen (kept_ticks _ _
      (s := { s with inProduce := true, outBuffer := buffer, callbackResults := [], result := none }) { h.block with }) ?_
    intro t ht
    exact ⟨_, rfl, { ht.inv with }, rfl⟩

/-- Every host operation goes on and keeps the invariant. -/
theorem kept_hostStep (h : Inv s) (x : HostStep) : Goes Inv (hostStep x s) := by
  unfold hostStep
  split
  · rename_i hl
    rw [Bool.and_eq_true] at hl
    exact ⟨_, rfl, { h.block with reentry_refused := fun _ => rfl, lock_refused := fun _ => ⟨rfl, hl.2⟩ }, h.idle⟩
  · cases x.call with
    | command code args => exact (kept_processCommand h.block code args).imp fun t ht => ⟨ht.inv, ht.inProduce.trans h.idle⟩
    | produce b o n => exact kept_produce h b o n
    | setCallbacks a b => exact ⟨_, rfl, { h.block with }, h.idle⟩
    | setVolumeMasks a b => exact ⟨_, rfl, { h.block with }, h.idle⟩

end Sys2Proof.Machine
end

