-- ==== Sys2Proof/Laws/Ticks.lean ====
section
/-! SUPPORT. The engines of a tick (R331), one lemma each: which channels change and into what, and that nothing else does. -/

namespace Sys2Proof.Machine

variable {P : Params} {s : State}

/-! ## Loops over the FM and the rhythm channels -/

theorem mem_fmChannels (ch : FmCh) : ch ∈ fmChannels := by revert ch; decide

theorem mem_rhyChannels (i : RhyCh) : i ∈ rhyChannels := by revert i; decide

/-- A loop over the FM channels that replaces each by a function of itself and of the chip registers. -/
theorem foldl_setFm (f : RegFile → FmCh → FmChannel → FmChannel) (l : List FmCh) (hl : l.Nodup) (s : State) :
    l.foldl (fun s ch => s.setFm ch (f s.chipReg ch s.fm[ch])) s =
      { s with fm := (l.foldl (fun s ch => s.setFm ch (f s.chipReg ch s.fm[ch])) s).fm } ∧
    ∀ k : FmCh, (l.foldl (fun s ch => s.setFm ch (f s.chipReg ch s.fm[ch])) s).fm[k] =
      if k ∈ l then f s.chipReg k s.fm[k] else s.fm[k] := by
  induction l generalizing s with
  | nil => exact ⟨rfl, fun k => rfl⟩
  | cons j l ih =>
    rw [List.nodup_cons] at hl
    have h := ih hl.2 (s.setFm j (f s.chipReg j s.fm[j]))
    rw [List.foldl_cons]
    refine ⟨?_, fun k => ?_⟩
    · rw [h.1]; rfl
    · rw [h.2 k, setFm_get]
      by_cases hk : k = j
      · subst hk; simp [hl.1]
      · simp [hk]

/-- A loop over the rhythm channels that replaces each by a function of itself. -/
theorem foldl_setRhy (f : RhyCh → RhyChannel → RhyChannel) (l : List RhyCh) (hl : l.Nodup) (s : State) :
    l.foldl (fun s i => s.setRhy i (f i s.rhy[i])) s = { s with rhy := (l.foldl (fun s i => s.setRhy i (f i s.rhy[i])) s).rhy } ∧
    ∀ k : RhyCh, (l.foldl (fun s i => s.setRhy i (f i s.rhy[i])) s).rhy[k] = if k ∈ l then f k s.rhy[k] else s.rhy[k] := by
  induction l generalizing s with
  | nil => exact ⟨rfl, fun k => rfl⟩
  | cons j l ih =>
    rw [List.nodup_cons] at hl
    have h := ih hl.2 (s.setRhy j (f j s.rhy[j]))
    rw [List.foldl_cons]
    refine ⟨?_, fun k => ?_⟩
    · rw [h.1]; rfl
    · rw [h.2 k, setRhy_get]
      by_cases hk : k = j
      · subst hk; simp [hl.1]
      · simp [hk]

/-! ## FM (R331, step 3) -/

/-- The fields of an operator and of a channel depend on the chip registers only. -/
theorem opFields_congr {s t : State} (h : t.chipReg = s.chipReg) (ch : FmCh) (op : OpSel) : opFields t ch op = opFields s ch op := by
  unfold opFields State.chip; rw [h]

theorem chFields_congr {s t : State} (h : t.chipReg = s.chipReg) (ch : FmCh) : chFields t ch = chFields s ch := by
  unfold chFields State.chip; rw [h]

/-- One channel's tick as a function of the chip registers and the channel; the rest of `s` takes no part. -/
def chipTick (P : Params) (s : State) (r : RegFile) (ch : FmCh) (c : FmChannel) : FmChannel :=
  fmChannelNext P (opFields { s with chipReg := r } ch .op1) (opFields { s with chipReg := r } ch .op2)
    (chFields { s with chipReg := r } ch) c

theorem chipTick_self (P : Params) (s : State) (ch : FmCh) (c : FmChannel) :
    chipTick P s s.chipReg ch c = fmChannelNext P (opFields s ch .op1) (opFields s ch .op2) (chFields s ch) c := rfl

theorem fmChannelTick_as (P : Params) (s t : State) (ch : FmCh) :
    fmChannelTick P ch t = t.setFm ch (chipTick P s t.chipReg ch t.fm[ch]) := by
  unfold fmChannelTick chipTick
  rw [opFields_congr (s := { s with chipReg := t.chipReg }) (t := t) rfl, opFields_congr (s := { s with chipReg := t.chipReg }) (t := t) rfl,
    chFields_congr (s := { s with chipReg := t.chipReg }) (t := t) rfl]

theorem fmTick_as (P : Params) (s : State) :
    fmTick P s = fmChannels.foldl (fun t ch => t.setFm ch (chipTick P s t.chipReg ch t.fm[ch])) s := by
  unfold fmTick
  simp only [fmChannelTick_as P s]

theorem fmTick_eq (s : State) : fmTick P s = { s with fm := (fmTick P s).fm } := by
  rw [fmTick_as]
  exact (foldl_setFm (chipTick P s) fmChannels (by decide) s).1

theorem fmTick_get (s : State) (k : FmCh) :
    (fmTick P s).fm[k] = fmChannelNext P (opFields s k .op1) (opFields s k .op2) (chFields s k) s.fm[k] := by
  rw [fmTick_as, (foldl_setFm (chipTick P s) fmChannels (by decide) s).2 k, if_pos (mem_fmChannels k), chipTick_self]

/-! ## Rhythm (R271, R273, R331, step 6) -/

/-- A channel after a key write (R271). -/
def rhyKeyed (P : Params) (v : Byte) (i : RhyCh) (c : RhyChannel) : RhyChannel :=
  if bit i.val v = true then (if bit 7 v = true then { c with active := false } else rhyStarted P i) else c

theorem setRhy_self (s : State) (i : RhyCh) : s.setRhy i s.rhy[i] = s := by
  have : s.rhy.set i.val s.rhy[i] = s.rhy := Vector.set_getElem_self ..
  unfold State.setRhy
  rw [this]

theorem rhyKey_as (P : Params) (v : Byte) : rhyKey P v = fun s i => s.setRhy i (rhyKeyed P v i s.rhy[i]) := by
  funext s i
  unfold rhyKey rhyKeyed
  split
  · rfl
  · rw [setRhy_self]

theorem rhyKeyWrite_get (v : Byte) (s : State) (k : RhyCh) : (rhyKeyWrite P v s).rhy[k] = rhyKeyed P v k s.rhy[k] := by
  unfold rhyKeyWrite
  rw [rhyKey_as, (foldl_setRhy (rhyKeyed P v) rhyChannels (by decide) s).2 k, if_pos (mem_rhyChannels k)]

/-- A channel after one decode, if it is active (R273). -/
def rhyDecoded (P : Params) (_ : RhyCh) (c : RhyChannel) : RhyChannel := if c.active = true then rhyDecode P c else c

theorem rhyDecodeActive_as (P : Params) : rhyDecodeActive P = fun s i => s.setRhy i (rhyDecoded P i s.rhy[i]) := by
  funext s i
  unfold rhyDecodeActive rhyDecoded
  split
  · rfl
  · rw [setRhy_self]

/-- No decode in this tick: only the divider grows. -/
theorem rhyTick_wait (h : s.rhyDivCnt + 1 < P.rhyDiv) : rhyTick P s = { s with rhyDivCnt := s.rhyDivCnt + 1 } := by
  unfold rhyTick; rw [if_neg (by omega)]

/-- A decode in this tick. -/
theorem rhyTick_decode (h : P.rhyDiv ≤ s.rhyDivCnt + 1) :
    rhyTick P s = { s with rhyDivCnt := 0, rhy := (rhyTick P s).rhy } ∧
    ∀ k : RhyCh, (rhyTick P s).rhy[k] = if s.rhy[k].active = true then rhyDecode P s.rhy[k] else s.rhy[k] := by
  unfold rhyTick
  rw [if_pos h, rhyDecodeActive_as]
  have key := foldl_setRhy (rhyDecoded P) rhyChannels (by decide) { s with rhyDivCnt := 0 }
  refine ⟨key.1, fun k => ?_⟩
  rw [key.2 k, if_pos (mem_rhyChannels k)]
  rfl

theorem rhyTick_eq (s : State) : rhyTick P s = { s with rhyDivCnt := (rhyTick P s).rhyDivCnt, rhy := (rhyTick P s).rhy } := by
  by_cases h : s.rhyDivCnt + 1 < P.rhyDiv
  · rw [rhyTick_wait h]
  · have hd := (rhyTick_decode (P := P) (s := s) (by omega)).1
    generalize rhyTick P s = u at hd ⊢
    rw [hd]

/-- The rhythm's part of a tick reads the rhythm channels and the divider only. -/
theorem rhyTick_congr {s t : State} (hr : t.rhy = s.rhy) (hd : t.rhyDivCnt = s.rhyDivCnt) :
    (rhyTick P t).rhy = (rhyTick P s).rhy ∧ (rhyTick P t).rhyDivCnt = (rhyTick P s).rhyDivCnt := by
  by_cases h : s.rhyDivCnt + 1 < P.rhyDiv
  · rw [rhyTick_wait h, rhyTick_wait (hd ▸ h)]
    exact ⟨hr, by rw [hd]⟩
  · obtain ⟨e1, g1⟩ := rhyTick_decode (P := P) (s := s) (by omega)
    obtain ⟨e2, g2⟩ := rhyTick_decode (P := P) (s := t) (by omega)
    constructor
    · apply Vector.ext
      intro i hi
      have a := g1 ⟨i, hi⟩
      have b := g2 ⟨i, hi⟩
      rw [hr] at b
      exact b.trans a.symm
    · rw [e1, e2]

/-! ## The engines of a tick together (R331, steps 3 to 7) -/

theorem engines_state (s : State) :
    rhyTick P (ssgTick P (pcmTick (fmTick P s))) =
      { s with
        fm := (fmTick P s).fm, pcm := (pcmTick s).pcm, ssg := Ssg.tick P s.ssg, rhy := (rhyTick P s).rhy
        rhyDivCnt := (rhyTick P s).rhyDivCnt } := by
  have h1 := fmTick_eq (P := P) s
  generalize fmTick P s = f at h1 ⊢
  have h2 := pcmTick_eq f
  have h3 : (pcmTick f).pcm = (pcmTick s).pcm := by
    apply Vector.ext
    intro i hi
    have a := pcmTick_get f ⟨i, hi⟩
    have b := pcmTick_get s ⟨i, hi⟩
    have c : f.pcm = s.pcm := by rw [h1]
    rw [c] at a
    exact a.trans b.symm
  generalize pcmTick f = g at h2 h3 ⊢
  have hg : g = { s with fm := f.fm, pcm := g.pcm } := by rw [h2, h1]
  have h5 := rhyTick_congr (P := P) (s := s) (t := ssgTick P g) (by rw [hg]; rfl) (by rw [hg]; rfl)
  have h4 := rhyTick_eq (P := P) (ssgTick P g)
  rw [h5.1, h5.2] at h4
  rw [h4, ← h3]
  generalize (rhyTick P s).rhy = r
  generalize (rhyTick P s).rhyDivCnt = d
  unfold ssgTick
  rw [hg]

/-- What the engines do: the channels of each engine, the two buffer elements, and nothing else. -/
theorem engines_eq (e : Nat) (a : BitVec 6) (b : BitVec 8) (s : State) :
    engines P e a b s =
      { s with
        fm := (fmTick P s).fm, pcm := (pcmTick s).pcm, ssg := Ssg.tick P s.ssg, rhy := (rhyTick P s).rhy
        rhyDivCnt := (rhyTick P s).rhyDivCnt, outBuffer := (engines P e a b s).outBuffer } := by
  have h := engines_state (P := P) s
  unfold engines
  dsimp only
  generalize rhyTick P (ssgTick P (pcmTick (fmTick P s))) = u at h ⊢
  generalize addPair u.outBuffer e _ = x
  rw [h]

/-- The mix reads the mutes, the volumes and the masks only. -/
theorem mix_congr {s t : State} (h : t.mute = s.mute) (hv : t.vol = s.vol) (ha : t.maskA = s.maskA) (hb : t.maskB = s.maskB) :
    mix t = mix s := by
  unfold mix laneScale musicSum groupSum fmInSfx pcmInSfx
  rw [h, hv, ha, hb]

/-- The output of a rhythm channel, its fields read in any state with the same registers. -/
theorem rhyOut_congr {s t : State} (h : t.chipReg = s.chipReg) (i : RhyCh) :
    rhyOut P t i =
      { left := if rhyLeft s i = true then rhyMono P (rhyTotalLevel s) (rhyChannelLevel s i) t.rhy[i] else 0
        right := if rhyRight s i = true then rhyMono P (rhyTotalLevel s) (rhyChannelLevel s i) t.rhy[i] else 0 } := by
  unfold rhyOut rhyLeft rhyRight rhyTotalLevel rhyChannelLevel State.chip
  rw [h]

/-- The pair that the engines add to the buffer: the mix of the state they run in, with the masks they are given. -/
theorem engines_pair (e : Nat) (a : BitVec 6) (b : BitVec 8) (s : State) :
    (engines P e a b s).outBuffer = addPair s.outBuffer e
      (mix (s.withMasks a b) (fun ch => fmChannelOut P (chFields s ch) (fmTick P s).fm[ch]) (fun j => s.pcm[j].out P) (Ssg.out P (Ssg.tick P s.ssg))
        (fun i =>
          { left := if rhyLeft s i = true then rhyMono P (rhyTotalLevel s) (rhyChannelLevel s i) (rhyTick P s).rhy[i] else 0
            right := if rhyRight s i = true then rhyMono P (rhyTotalLevel s) (rhyChannelLevel s i) (rhyTick P s).rhy[i] else 0 })) := by
  have h := engines_state (P := P) s
  have k := fmTick_eq (P := P) s
  unfold engines
  dsimp only
  generalize rhyTick P (ssgTick P (pcmTick (fmTick P s))) = u at h ⊢
  have r : rhyOut P u = _ := funext (rhyOut_congr (P := P) (s := s) (t := u) (by rw [h]))
  rw [r, mix_congr (s := s.withMasks a b) (t := u.withMasks a b) (by rw [h]; rfl) (by rw [h]; rfl) rfl rfl, show u.outBuffer = s.outBuffer by rw [h],
    show u.ssg = Ssg.tick P s.ssg by rw [h], show u.rhy = (rhyTick P s).rhy by rw [h]]
  have c : ∀ ch, chFields (fmTick P s) ch = chFields s ch := chFields_congr (by rw [k])
  have p : (fmTick P s).pcm = s.pcm := by rw [k]
  unfold fmOut
  simp only [c, p]

end Sys2Proof.Machine
end

