-- ==== Sys2Proof/Laws/Frames.lean ====
section
/-! SUPPORT. What no instruction changes, whatever it is: the part of State that belongs to the host, to `produce` and to the SSG's tick. -/

namespace Sys2Proof.Machine

variable {P : Params} {s t u : State}

/-- What every instruction leaves alone. The SSG queue only grows; the overflow fault is never cleared. -/
structure InstrFrame (s t : State) : Prop where
  ssg_eq : t.ssg = { s.ssg with queue := t.ssg.queue }
  queue_grows : s.ssg.queue <+: t.ssg.queue
  callbackA : t.timerA.callback = s.timerA.callback
  callbackB : t.timerB.callback = s.timerB.callback
  maskA : t.maskA = s.maskA
  maskB : t.maskB = s.maskB
  inProduce : t.inProduce = s.inProduce
  externalLocking : t.externalLocking = s.externalLocking
  refused : t.refused = s.refused
  rhyDivCnt : t.rhyDivCnt = s.rhyDivCnt
  pending : t.pending = s.pending
  hostProcs : t.hostProcs = s.hostProcs
  outBuffer : t.outBuffer = s.outBuffer
  callbackResults : t.callbackResults = s.callbackResults
  faults_eq : t.faults = { s.faults with ssgQueueOverflow := t.faults.ssgQueueOverflow }
  overflow_sticky : s.faults.ssgQueueOverflow = true → t.faults.ssgQueueOverflow = true

/-- What every instruction but LDSMP leaves alone: the sample memory too. -/
structure QuietFrame (s t : State) : Prop extends InstrFrame s t where
  pcmRam : t.pcmRam = s.pcmRam

theorem InstrFrame.refl (s : State) : InstrFrame s s :=
  ⟨rfl, List.prefix_refl _, rfl, rfl, rfl, rfl, rfl, rfl, rfl, rfl, rfl, rfl, rfl, rfl, rfl, id⟩

theorem QuietFrame.refl (s : State) : QuietFrame s s := ⟨.refl s, rfl⟩

theorem InstrFrame.trans (h : InstrFrame s t) (k : InstrFrame t u) : InstrFrame s u where
  ssg_eq := by rw [k.ssg_eq, h.ssg_eq]
  queue_grows := h.queue_grows.trans k.queue_grows
  callbackA := k.callbackA.trans h.callbackA
  callbackB := k.callbackB.trans h.callbackB
  maskA := k.maskA.trans h.maskA
  maskB := k.maskB.trans h.maskB
  inProduce := k.inProduce.trans h.inProduce
  externalLocking := k.externalLocking.trans h.externalLocking
  refused := k.refused.trans h.refused
  rhyDivCnt := k.rhyDivCnt.trans h.rhyDivCnt
  pending := k.pending.trans h.pending
  hostProcs := k.hostProcs.trans h.hostProcs
  outBuffer := k.outBuffer.trans h.outBuffer
  callbackResults := k.callbackResults.trans h.callbackResults
  faults_eq := by rw [k.faults_eq, h.faults_eq]
  overflow_sticky := fun x => k.overflow_sticky (h.overflow_sticky x)

theorem QuietFrame.trans (h : QuietFrame s t) (k : QuietFrame t u) : QuietFrame s u :=
  ⟨h.toInstrFrame.trans k.toInstrFrame, k.pcmRam.trans h.pcmRam⟩

/-! ## The operations that instructions are made of -/

theorem QuietFrame.ssgEnqueue (r : Fin 14) (v : Byte) : QuietFrame s (ssgEnqueue P r v s) := by
  unfold Machine.ssgEnqueue
  split
  · exact { QuietFrame.refl s with faults_eq := rfl, overflow_sticky := fun _ => rfl }
  · exact { QuietFrame.refl s with ssg_eq := rfl, queue_grows := List.prefix_append .. }

theorem QuietFrame.writeRaw (p : Part) (r : Nat) (v : Byte) (s : State) : QuietFrame s (Machine.writeRaw P p r v s) := by
  have hs : (Machine.writeRaw P p r v s).ssg = { s.ssg with queue := (Machine.writeRaw P p r v s).ssg.queue } ∧
      s.ssg.queue <+: (Machine.writeRaw P p r v s).ssg.queue := by
    rw [writeRaw_ssg]
    split
    · have h : QuietFrame s (Machine.ssgEnqueue P (Fin.ofNat 14 r) v s) := QuietFrame.ssgEnqueue ..
      exact ⟨h.ssg_eq, h.queue_grows⟩
    · exact ⟨rfl, List.prefix_refl _⟩
  refine ⟨⟨hs.1, hs.2, ?_, ?_, ?_, ?_, ?_, ?_, ?_, ?_, ?_, ?_, ?_, ?_, ?_, ?_⟩, ?_⟩
  case refine_13 => rw [writeRaw_faults]; split <;> rfl
  case refine_14 => rw [writeRaw_faults]; split <;> simp
  all_goals simp

theorem QuietFrame.writeShadowed (p : Part) (r : Nat) (v : Byte) (s : State) : QuietFrame s (Machine.writeShadowed P p r v s) :=
  QuietFrame.trans (t := s.setShad p r v) { QuietFrame.refl s with } (QuietFrame.writeRaw ..)

theorem QuietFrame.foldl {α : Type} {f : State → α → State} (hf : ∀ s a, QuietFrame s (f s a)) (l : List α) (s : State) :
    QuietFrame s (l.foldl f s) := by
  induction l generalizing s with
  | nil => exact .refl s
  | cons a l ih => exact (hf s a).trans (ih _)

theorem QuietFrame.setVoice (s : State) (ch : FmCh) (v : FmVoice) : QuietFrame s (s.setVoice ch v) := { QuietFrame.refl s with }

theorem QuietFrame.setPcm (s : State) (j : PcmCh) (c : PcmChannel) : QuietFrame s (s.setPcm j c) := { QuietFrame.refl s with }

theorem QuietFrame.fmWriteFreq (ch : FmCh) (s : State) : QuietFrame s (fmWriteFreq P ch s) :=
  (QuietFrame.writeShadowed ..).trans (QuietFrame.writeShadowed ..)

theorem QuietFrame.fmWriteTl (ch : FmCh) (s : State) : QuietFrame s (fmWriteTl P ch s) :=
  QuietFrame.foldl (fun _ _ => QuietFrame.writeShadowed ..) _ _

theorem QuietFrame.fmRewriteSustain (ch : FmCh) (s : State) : QuietFrame s (fmRewriteSustain P ch s) :=
  QuietFrame.foldl (fun _ _ => QuietFrame.writeShadowed ..) _ _

theorem QuietFrame.fmWriteProgram (ch : FmCh) (B : FmProgram) (v : FmVoice) (s : State) :
    QuietFrame s (fmWriteProgram P ch B v s) :=
  (QuietFrame.foldl (fun _ _ => QuietFrame.foldl (fun _ _ => QuietFrame.writeShadowed ..) _ _) _ _).trans (QuietFrame.writeShadowed ..)

theorem QuietFrame.fmKeyOnEffect (ch : FmCh) (note : Fin 96) (vel : Level7) (s : State) : QuietFrame s (fmKeyOnEffect P ch note vel s) :=
  (((((QuietFrame.setVoice ..).trans (QuietFrame.fmWriteFreq ..)).trans (QuietFrame.fmWriteTl ..)).trans (QuietFrame.writeRaw ..)).trans
    (QuietFrame.writeRaw ..)).trans (QuietFrame.fmRewriteSustain ..)

theorem QuietFrame.fmSetInstEffect (ch : FmCh) (prog : Fin 128) (s : State) : QuietFrame s (fmSetInstEffect P ch prog s) :=
  (QuietFrame.setVoice ..).trans (QuietFrame.fmWriteProgram ..)

theorem QuietFrame.fmChOffEffect (ch : FmCh) (s : State) : QuietFrame s (fmChOffEffect P ch s) :=
  ((QuietFrame.setVoice ..).trans (QuietFrame.writeRaw ..)).trans { QuietFrame.refl _ with }

theorem QuietFrame.zeroRegs (p : Part) (regs : List Nat) (s : State) : QuietFrame s (zeroRegs P p regs s) :=
  QuietFrame.foldl (fun _ _ => QuietFrame.writeShadowed ..) _ _

theorem QuietFrame.fmResetChannel (s : State) (ch : FmCh) : QuietFrame s (fmResetChannel P s ch) :=
  ((QuietFrame.writeRaw ..).trans (QuietFrame.fmSetInstEffect ..)).trans (QuietFrame.writeShadowed ..)

theorem QuietFrame.fmClear (s : State) : QuietFrame s (Machine.fmClear P s) :=
  ⟨⟨rfl, List.prefix_refl _, rfl, rfl, rfl, rfl, rfl, rfl, rfl, rfl, rfl, rfl, rfl, rfl, rfl, id⟩, rfl⟩

theorem QuietFrame.fmReset (s : State) : QuietFrame s (Machine.fmReset P s) := by
  unfold Machine.fmReset
  have h1 := QuietFrame.zeroRegs (P := P) 0 fmArea0 (Machine.fmClear P s)
  have h2 := QuietFrame.zeroRegs (P := P) 1 fmArea1 (Machine.zeroRegs P 0 fmArea0 (Machine.fmClear P s))
  generalize Machine.zeroRegs P 1 fmArea1 (Machine.zeroRegs P 0 fmArea0 (Machine.fmClear P s)) = u at h2 ⊢
  exact (((QuietFrame.fmClear s).trans h1).trans h2).trans (QuietFrame.foldl QuietFrame.fmResetChannel _ _)

theorem QuietFrame.pcmReserveEffect (n : Nat) (s : State) : QuietFrame s (Machine.pcmReserveEffect n s) := by
  have h := pcmReserveEffect_eq n s
  generalize Machine.pcmReserveEffect n s = u at h ⊢
  rw [h]
  exact { QuietFrame.refl s with }

theorem QuietFrame.stopPlaying (plays : Int → Bool) (s : State) : QuietFrame s (Machine.stopPlaying plays s) := by
  have h := stopPlaying_eq plays s
  generalize Machine.stopPlaying plays s = u at h ⊢
  rw [h]
  exact { QuietFrame.refl s with }

theorem QuietFrame.pcmEnvAll (s : State) : QuietFrame s (Machine.pcmEnvAll s) := by
  have h := pcmEnvAll_eq s
  generalize Machine.pcmEnvAll s = u at h ⊢
  rw [h]
  exact { QuietFrame.refl s with }

/-! ## The handlers -/

theorem quiet_reply {rc : Rc} (h : QuietFrame s t) : Goes (QuietFrame s) (reply rc t) := ⟨_, rfl, { h with }⟩

theorem quiet_same (rc : Rc) (s : State) : Goes (QuietFrame s) (reply rc s) := quiet_reply (.refl s)

theorem quiet_answer (v : Int) (s : State) : Goes (QuietFrame s) (answer v s) := ⟨_, rfl, { QuietFrame.refl s with }⟩

theorem quiet_fmKeyOn (chan note vel : Int) (s : State) : Goes (QuietFrame s) (fmKeyOn P chan note vel s) := by
  unfold fmKeyOn
  repeat' split
  all_goals first | exact quiet_same _ _ | exact quiet_reply (QuietFrame.fmKeyOnEffect ..)

theorem quiet_fmKeyOff (chan : Int) (s : State) : Goes (QuietFrame s) (fmKeyOff P chan s) := by
  unfold fmKeyOff
  split
  · exact quiet_same _ _
  · refine quiet_reply ?_
    unfold fmKeyOffEffect
    exact (QuietFrame.setVoice ..).trans (QuietFrame.writeRaw ..)

theorem quiet_fmSetPan (chan pan : Int) (s : State) : Goes (QuietFrame s) (fmSetPan P chan pan s) := by
  unfold fmSetPan
  repeat' split
  all_goals first | exact quiet_same _ _ | exact quiet_reply (QuietFrame.writeShadowed ..)

theorem quiet_fmSetInst (chan prog : Int) (s : State) : Goes (QuietFrame s) (fmSetInst P chan prog s) := by
  unfold fmSetInst
  repeat' split
  all_goals first | exact quiet_same _ _ | exact quiet_reply (QuietFrame.fmSetInstEffect ..)

theorem quiet_fmLoadInst (prog : Int) (data : List Byte) (s : State) : Goes (QuietFrame s) (fmLoadInst prog data s) := by
  unfold fmLoadInst
  repeat' split
  all_goals first | exact quiet_same _ _ | exact quiet_reply { QuietFrame.refl s with }

theorem quiet_fmSetPitch (chan pitch : Int) (s : State) : Goes (QuietFrame s) (fmSetPitch P chan pitch s) := by
  unfold fmSetPitch
  repeat' split
  all_goals first | exact quiet_same _ _ | exact quiet_reply ((QuietFrame.setVoice ..).trans (QuietFrame.fmWriteFreq ..))

theorem quiet_fmSetLevel (chan level : Int) (s : State) : Goes (QuietFrame s) (fmSetLevel P chan level s) := by
  unfold fmSetLevel
  repeat' split
  all_goals first | exact quiet_same _ _ | exact quiet_reply ((QuietFrame.setVoice ..).trans (QuietFrame.fmWriteTl ..))

theorem quiet_fmChOff (chan : Int) (s : State) : Goes (QuietFrame s) (fmChOff P chan s) := by
  unfold fmChOff
  split
  · exact quiet_same _ _
  · exact quiet_reply (QuietFrame.fmChOffEffect ..)

theorem quiet_setPcm {rc : Rc} (j : PcmCh) (c : PcmChannel) (s : State) : Goes (QuietFrame s) (reply rc (s.setPcm j c)) :=
  quiet_reply (QuietFrame.setPcm ..)

theorem quiet_pcmKeyOn (chan note vel : Int) (s : State) : Goes (QuietFrame s) (pcmKeyOn P chan note vel s) := by
  unfold pcmKeyOn
  repeat' split
  all_goals first | exact quiet_same _ _ | exact quiet_setPcm ..

theorem quiet_pcmKeyOff (chan : Int) (s : State) : Goes (QuietFrame s) (pcmKeyOff chan s) := by
  unfold pcmKeyOff
  split
  · exact quiet_same _ _
  · exact quiet_setPcm ..

theorem quiet_pcmSetPan (chan pan : Int) (s : State) : Goes (QuietFrame s) (pcmSetPan chan pan s) := by
  unfold pcmSetPan
  repeat' split
  all_goals first | exact quiet_same _ _ | exact quiet_setPcm ..

theorem quiet_pcmSetInst (chan prog : Int) (s : State) : Goes (QuietFrame s) (pcmSetInst chan prog s) := by
  unfold pcmSetInst
  repeat' split
  all_goals first | exact quiet_same _ _ | exact quiet_setPcm ..

theorem quiet_pcmSetPitch (chan pitch : Int) (s : State) : Goes (QuietFrame s) (pcmSetPitch P chan pitch s) := by
  unfold pcmSetPitch
  repeat' split
  all_goals first | exact quiet_same _ _ | exact quiet_setPcm ..

theorem quiet_pcmSetLevel (chan level : Int) (s : State) : Goes (QuietFrame s) (pcmSetLevel chan level s) := by
  unfold pcmSetLevel
  repeat' split
  all_goals first | exact quiet_same _ _ | exact quiet_setPcm ..

theorem quiet_pcmLoadInst (prog : Int) (data : List Byte) (s : State) : Goes (QuietFrame s) (pcmLoadInst prog data s) := by
  unfold pcmLoadInst
  repeat' split
  all_goals first | exact quiet_same _ _ | exact quiet_reply { QuietFrame.refl s with }

theorem quiet_pcmOff (chan : Int) (s : State) : Goes (QuietFrame s) (pcmOff chan s) := by
  unfold pcmOff pcmStop
  split
  · exact quiet_same _ _
  · exact quiet_setPcm ..

theorem quiet_pcmReserve (n : Int) (s : State) : Goes (QuietFrame s) (pcmReserve P n s) := by
  unfold pcmReserve
  repeat' split
  all_goals first | exact quiet_same _ _ | exact quiet_reply (QuietFrame.pcmReserveEffect ..)

theorem quiet_pcmPlayEffect (chan note vel : Int) (data : List Byte) (s : State) :
    Goes (QuietFrame s) (pcmPlayEffect P chan note vel data s) := by
  unfold pcmPlayEffect
  repeat' split
  all_goals first | exact quiet_same _ _ | exact quiet_setPcm ..

theorem quiet_pcmEffectPlaying (chan : Int) (s : State) : Goes (QuietFrame s) (pcmEffectPlaying chan s) := by
  unfold pcmEffectPlaying
  split
  · exact quiet_same _ _
  · exact quiet_answer _ _

theorem quiet_pcmLoadWave (data : List Byte) (s : State) : Goes (QuietFrame s) (pcmLoadWave P data s) := by
  unfold pcmLoadWave
  split
  · exact quiet_same _ _
  · exact quiet_reply { QuietFrame.refl s with }

theorem quiet_pcmUnloadWave (id : Int) (s : State) : Goes (QuietFrame s) (pcmUnloadWave id s) := by
  have key : ∀ (u : State) (w : List WaveRec) (n : Nat), QuietFrame s u →
      Goes (QuietFrame s) (reply .success { u with waves := w, waveTotal := n }) := fun u w n h => quiet_reply { h with }
  unfold pcmUnloadWave
  split
  · exact key _ _ _ (QuietFrame.stopPlaying ..)
  split
  · exact quiet_same _ _
  · exact key _ _ _ (QuietFrame.stopPlaying ..)

theorem quiet_writeRaw (p : Part) (r : Nat) (v : Byte) (s : State) : Goes (QuietFrame s) (.next (writeRaw P p r v s)) :=
  goes_next (QuietFrame.writeRaw ..)

theorem frame_pcmLoadSamples (dest size : Int) (data : List Byte) (s : State) :
    Goes (InstrFrame s) (pcmLoadSamples dest size data s) := by
  have key : ∀ rc, Goes (InstrFrame s) (reply rc s) := fun rc => (quiet_same rc s).imp fun _ h => h.toInstrFrame
  unfold pcmLoadSamples
  repeat' split
  all_goals first | exact key _ | exact ⟨_, rfl, { InstrFrame.refl s with }⟩

/-! ## Every instruction -/

/-- Every instruction but LDSMP goes on, and leaves the frame and the sample memory alone. -/
theorem quiet_exec (i : Instr) (hi : ∀ a n d, i ≠ .ldsmp a n d) (s : State) : Goes (QuietFrame s) (exec i s) := by
  cases i with
  | reset =>
    have key : ∀ u : State, QuietFrame s u → Goes (QuietFrame s) (reply .success (pcmReset params u)) := fun u h => quiet_reply { h with }
    exact key _ (QuietFrame.fmReset s)
  | keyonFm c n v => exact quiet_fmKeyOn ..
  | keyonPcm c n v => exact quiet_pcmKeyOn ..
  | keyoffFm c => exact quiet_fmKeyOff ..
  | keyoffPcm c => exact quiet_pcmKeyOff ..
  | setpanFm c p => exact quiet_fmSetPan ..
  | setpanPcm c p => exact quiet_pcmSetPan ..
  | setinstFm c p => exact quiet_fmSetInst ..
  | setinstPcm c p => exact quiet_pcmSetInst ..
  | setpitchFm c p => exact quiet_fmSetPitch ..
  | setpitchPcm c p => exact quiet_pcmSetPitch ..
  | setlevelFm c l => exact quiet_fmSetLevel ..
  | setlevelPcm c l => exact quiet_pcmSetLevel ..
  | choffFm c => exact quiet_fmChOff ..
  | choffPcm c => exact quiet_pcmOff ..
  | loadinstFm c p d => exact quiet_fmLoadInst ..
  | loadinstPcm c p d => exact quiet_pcmLoadInst ..
  | wrreg p r v =>
    show Goes _ (writeRegister params p r v s)
    unfold writeRegister
    split
    · exact quiet_reply (QuietFrame.writeRaw ..)
    · exact quiet_same _ _
  | wrregb p r v =>
    show Goes _ (writeRegisterBuffered params p r v s)
    unfold writeRegisterBuffered
    split
    · exact quiet_reply (QuietFrame.writeShadowed ..)
    · exact quiet_same _ _
  | rdregb p r =>
    show Goes _ (readRegisterBuffered params p r s)
    unfold readRegisterBuffered
    split
    · exact quiet_answer _ _
    · exact quiet_same _ _
  | setta v =>
    show Goes _ (execSetta v s)
    unfold execSetta
    split
    · exact quiet_reply ((QuietFrame.writeShadowed ..).trans (QuietFrame.writeShadowed ..))
    · exact quiet_same _ _
  | settb v =>
    show Goes _ (execSettb v s)
    unfold execSettb
    split
    · exact quiet_reply (QuietFrame.writeShadowed ..)
    · exact quiet_same _ _
  | enta on =>
    show Goes _ (execEnta on s)
    unfold execEnta Timer.enable
    repeat' split
    all_goals first | exact quiet_same _ _ | exact quiet_reply { QuietFrame.refl s with }
  | entb on =>
    show Goes _ (execEntb on s)
    unfold execEntb Timer.enable
    repeat' split
    all_goals first | exact quiet_same _ _ | exact quiet_reply { QuietFrame.refl s with }
  | ldsmp a n d => exact absurd rfl (hi a n d)
  | reserve n => exact quiet_pcmReserve ..
  | ldwave d => exact quiet_pcmLoadWave ..
  | unwave id => exact quiet_pcmUnloadWave ..
  | playfx c n v d => exact quiet_pcmPlayEffect ..
  | pcmoff c => exact quiet_pcmOff ..
  | fxq c => exact quiet_pcmEffectPlaying ..
  | fmkeyon c n v => exact quiet_fmKeyOn ..
  | fmkeyoff c => exact quiet_fmKeyOff ..
  | fmpan c p => exact quiet_fmSetPan ..
  | fminst c p => exact quiet_fmSetInst ..
  | fmload p d => exact quiet_fmLoadInst ..
  | fmpitch c p => exact quiet_fmSetPitch ..
  | fmlevel c l => exact quiet_fmSetLevel ..
  | fmreset => exact quiet_reply (QuietFrame.fmReset s)
  | setvol l v =>
    show Goes _ (execSetvol l v s)
    unfold execSetvol
    split
    · exact quiet_reply { QuietFrame.refl s with }
    · exact quiet_same _ _
  | rstvol => exact quiet_reply { QuietFrame.refl s with }
  | getvol _ => exact quiet_same _ _
  | setmute l m =>
    show Goes _ (execSetmute l m s)
    unfold execSetmute
    split
    · exact quiet_reply { QuietFrame.refl s with }
    · exact quiet_same _ _
  | cdtoggle _ => exact quiet_same _ _
  | getvol2 _ => exact quiet_same _ _
  | getmute l =>
    show Goes _ (execGetmute l s)
    unfold execGetmute
    split
    · exact quiet_answer _ _
    · exact quiet_same _ _
  | pcmenv => exact quiet_reply (QuietFrame.pcmEnvAll s)
  | unsupported55 _ => exact quiet_same _ _
  | unsupported74 _ => exact quiet_same _ _
  | unsupported75 _ => exact quiet_same _ _
  | unsupported _ _ => exact quiet_same _ _
  | ssgToneLow i v => exact quiet_writeRaw ..
  | ssgToneHigh i v => exact quiet_writeRaw ..
  | ssgNoisePeriod v => exact quiet_writeRaw ..
  | ssgEnable v => exact quiet_writeRaw ..
  | ssgLevel i v => exact quiet_writeRaw ..
  | ssgEnvPeriod b v => exact quiet_writeRaw ..
  | ssgEnvShape v => exact quiet_writeRaw ..
  | rhythmKey v => exact quiet_writeRaw ..
  | rhythmTotalLevel v => exact quiet_writeRaw ..
  | rhythmChannelLevel i v => exact quiet_writeRaw ..
  | timerAHigh v => exact quiet_writeRaw ..
  | timerALow v => exact quiet_writeRaw ..
  | timerB v => exact quiet_writeRaw ..
  | fmKey v => exact quiet_writeRaw ..
  | fmDtMul ch op v => exact quiet_writeRaw ..
  | fmTl ch op v => exact quiet_writeRaw ..
  | fmKsAr ch op v => exact quiet_writeRaw ..
  | fmAmDr ch op v => exact quiet_writeRaw ..
  | fmSr ch op v => exact quiet_writeRaw ..
  | fmSlRr ch op v => exact quiet_writeRaw ..
  | fmFnumLow ch v => exact quiet_writeRaw ..
  | fmBlockFnumHigh ch v => exact quiet_writeRaw ..
  | fmFbAlg ch v => exact quiet_writeRaw ..
  | fmPan ch v => exact quiet_writeRaw ..
  | storedOnly p r v => exact quiet_writeRaw ..

/-- Every instruction goes on and leaves the frame alone. -/
theorem frame_exec (i : Instr) (s : State) : Goes (InstrFrame s) (exec i s) := by
  by_cases h : ∃ a n d, i = .ldsmp a n d
  · obtain ⟨a, n, d, rfl⟩ := h
    exact frame_pcmLoadSamples ..
  · exact (quiet_exec i (fun a n d e => h ⟨a, n, d, e⟩) s).imp fun _ h => h.toInstrFrame

end Sys2Proof.Machine
end

