-- ==== Sys2Proof/Laws/Callbacks.lean ====
section
/-! SUPPORT. What callbacks and timers leave alone: the output buffer, and the mark that a `produce` call runs (R331, R363). -/

namespace Sys2Proof.Machine

variable {P : Params} {s t u : State}

/-- `t` has the output buffer of `s`, and a `produce` call runs in both or in neither. -/
structure SameOut (s t : State) : Prop where
  outBuffer : t.outBuffer = s.outBuffer
  inProduce : t.inProduce = s.inProduce

theorem SameOut.refl (s : State) : SameOut s s := ⟨rfl, rfl⟩

theorem SameOut.trans (h : SameOut s t) (k : SameOut t u) : SameOut s u :=
  ⟨k.outBuffer.trans h.outBuffer, k.inProduce.trans h.inProduce⟩

/-- A command goes on, keeps the output, and adds nothing to the callbacks' results. -/
theorem processCommand_goes (code : Int) (args : List Arg) (s : State) :
    Goes (fun t => SameOut s t ∧ t.callbackResults = s.callbackResults) (processCommand code args s) := by
  unfold processCommand
  split
  · exact (frame_exec _ s).imp fun t h => ⟨⟨h.outBuffer, h.inProduce⟩, h.callbackResults⟩
  · exact goes_next ⟨⟨rfl, rfl⟩, rfl⟩

/-- The nested form of a command: its result goes to the callback (R363). -/
theorem nestedCall_command {code : Int} {args : List Arg} (h : processCommand code args s = .next t) :
    nestedCall (.command code args) s = .next { t with result := none, callbackResults := t.callbackResults ++ [t.result] } := by
  show andThen (processCommand code args s) _ = _
  rw [h]
  rfl

theorem nestedCall_goes (c : HostCall) (s : State) : Goes (SameOut s) (nestedCall c s) := by
  cases c with
  | command code args =>
    obtain ⟨t, e, h, -⟩ := processCommand_goes code args s
    exact ⟨_, nestedCall_command e, h.outBuffer, h.inProduce⟩
  | produce _ _ _ | setCallbacks _ _ | setVolumeMasks _ _ => exact goes_next ⟨rfl, rfl⟩

theorem nestedCalls_goes (cs : List HostCall) (s : State) : Goes (SameOut s) (nestedCalls cs s) := by
  induction cs generalizing s with
  | nil => exact goes_next (.refl s)
  | cons c cs ih => exact goes_andThen (nestedCall_goes c s) fun t h => (ih t).imp fun _ k => h.trans k

theorem runCallback_goes (cb : Option ProcId) (s : State) : Goes (SameOut s) (runCallback cb s) := by
  cases cb with
  | none => exact goes_next (.refl s)
  | some id => exact (nestedCalls_goes _ (procCalled id s)).imp fun _ h => ⟨h.outBuffer, h.inProduce⟩

theorem timerTickA_goes (s : State) : Goes (SameOut s) (timerTickA P s) := by
  unfold timerTickA
  split
  · exact goes_next (.refl s)
  split
  · exact (runCallback_goes _ _).imp fun _ h => ⟨h.outBuffer, h.inProduce⟩
  · exact goes_next ⟨rfl, rfl⟩

theorem timerTickB_goes (s : State) : Goes (SameOut s) (timerTickB P s) := by
  unfold timerTickB
  split
  · exact goes_next (.refl s)
  split
  · refine goes_andThen (runCallback_goes _ _) fun t h => goes_next ?_
    rw [pcmEnvAll_eq]
    exact ⟨h.outBuffer, h.inProduce⟩
  · exact goes_next ⟨rfl, rfl⟩

/-- A tick goes on: the timers in order, then the engines from the state they leave, mixed with the masks of its start (R331, R334). -/
theorem tick_of_timers {a b : State} (e : Nat) (ha : timerTickA P (ssgDrain s) = .next a) (hb : timerTickB P a = .next b) :
    tick P e s = .next (engines P e s.maskA s.maskB b) := by
  unfold tick
  rw [ha]
  show andThen (timerTickB P a) _ = _
  rw [hb]
  rfl

/-- The ticks of a `produce` call, one by one: tick `k` runs at element `e + 2k` (R330). -/
theorem ticks_run (n : Nat) : ∀ (e : Nat) (s t : State), ticks P n e s = .next t →
    ∃ run : Nat → State, run 0 = s ∧ run n = t ∧ ∀ k < n, tick P (e + 2 * k) (run k) = .next (run (k + 1)) := by
  induction n with
  | zero =>
    intro e s t h
    injection h with h
    exact ⟨fun _ => s, rfl, h, fun k hk => absurd hk (Nat.not_lt_zero k)⟩
  | succ n ih =>
    intro e s t h
    have h' : andThen (tick P e s) (ticks P n (e + 2)) = .next t := h
    cases hu : tick P e s with
    | next u =>
      rw [hu] at h'
      obtain ⟨run, h0, hn, hk⟩ := ih _ _ _ h'
      refine ⟨fun k => k.casesOn s run, rfl, hn, fun k hlt => ?_⟩
      cases k with
      | zero => exact (h0 ▸ hu : tick P e s = .next (run 0))
      | succ k =>
        show tick P (e + 2 * (k + 1)) (run k) = _
        rw [show e + 2 * (k + 1) = e + 2 + 2 * k by omega]
        exact hk k (by omega)
    | fault f => rw [hu] at h'; exact nomatch h'
    | refused f => rw [hu] at h'; exact nomatch h'

end Sys2Proof.Machine
end

