-- ==== Sys2Proof/Laws/Encoding.lean ====
section
/-! SUPPORT. The routes and the register map (R15, R84): the decoder's reading of one register, for every register of the valid range. -/

namespace Sys2Proof

/-- The decoder's test of bit 6 and the route of R84 agree. -/
theorem isPcm_eq (c : Int) : isPcm c = pcmRoute c := by
  unfold isPcm pcmRoute
  by_cases h : 0 ≤ c
  · obtain ⟨n, rfl⟩ := Int.eq_ofNat_of_zero_le h
    simp [Nat.testBit, Nat.shiftRight_eq_div_pow]
    norm_cast
  · simp [h]

@[simp] theorem RegMap.standard_row (a : Part × Nat) : RegMap.standard.row a = a := rfl

@[simp] theorem RegMap.standard_layout (a : Part × Nat) (v : Byte) : RegMap.standard.layout a v = v := rfl

@[simp] theorem RegMap.standard_layout_symm (a : Part × Nat) (v : Byte) : (RegMap.standard.layout a).symm v = v := rfl

theorem decode_encReg {p : Part} {r : Nat} (v : Byte) (h : regInRange p r = true) : decode (encReg p r v) = .ok (decodeRow p r v) := by
  have := v.isLt
  have hp := p.isLt
  simp [decode, decodeWith, encReg, decodeReg, h, this, hp]

theorem regInRange_lt {p : Part} {r : Nat} (h : regInRange p r = true) : r < 0xB7 := by
  revert h; fin_cases p <;> simp [regInRange] <;> omega

/-- Every register of the valid range reads as a well-formed instruction that encodes back to it; a stored register as `storedOnly`. -/
theorem decodeRow_spec {p : Part} {r : Nat} (v : Byte) (h : regInRange p r = true) :
    (decodeRow p r v).wf = true ∧ encode (decodeRow p r v) = encReg p r v ∧
      (storedOnlyReg p r = true → decodeRow p r v = .storedOnly p r v) := by
  have hr := regInRange_lt h
  fin_cases p
  · interval_cases r <;> first | exact ⟨rfl, rfl, fun _ => rfl⟩ | exact ⟨rfl, rfl, fun h => absurd h (by decide)⟩
  · interval_cases r <;> first
      | exact absurd h (by decide)
      | exact ⟨rfl, rfl, fun _ => rfl⟩
      | exact ⟨rfl, rfl, fun h => absurd h (by decide)⟩

theorem encReg_inj {p q : Part} {r x : Nat} {v w : Byte} (h : encReg p r v = .regWrite q.val x w.toNat) : p = q ∧ r = x ∧ v = w := by
  unfold encReg at h
  injection h with h1 h2 h3
  exact ⟨Fin.ext h1, h2, BitVec.eq_of_toNat_eq h3⟩

end Sys2Proof
end

