-- ==== Sys2Proof/Laws/FmVoice.lean ====
section
/-! SUPPORT. What the register sequences of the FM voice engine do, one lemma each: the key strobe, the frequency pair, the total levels, the
program, the reset. -/

namespace Sys2Proof.Machine

variable {P : Params} {s t : State}

theorem fmIdx_lt (ch : FmCh) : fmIdx ch < 3 := Nat.mod_lt _ (by decide)

/-! ## The key register (R155, R89) -/

theorem keyWrite_none {v : Byte} (h : v.toNat % 4 = 3) (s : State) : keyWrite v s = s := by
  unfold keyWrite
  dsimp only
  rw [if_pos]
  unfold field
  ext
  simp
  omega

/-- A key write on the channel it names. -/
theorem keyWrite_channel {v : Byte} {ch : FmCh} (hc : v.toNat % 4 = fmIdx ch) (hp : v.getLsbD 2 = decide ((fmPart ch).val = 1))
    (s : State) :
    keyWrite v s = s.setFm ch
      { s.fm[ch] with op1 := keyBit (v.getLsbD 4) s.fm[ch].op1, op2 := keyBit (v.getLsbD 7) s.fm[ch].op2 } := by
  have hf : (field 0 4 v).val = fmIdx ch := by
    have : (field 0 4 v).val = v.toNat % 4 := by unfold field; simp
    rw [this, hc]
  have hch : (Fin.ofNat 6 ((if bit 2 v then 3 else 0) + (field 0 4 v).val) : FmCh) = ch := by
    unfold bit
    rw [hf, hp]
    clear hp hc hf
    revert ch
    decide
  unfold keyWrite
  dsimp only
  rw [if_neg (by intro e; rw [e] at hf; have := fmIdx_lt ch; simp at hf; omega)]
  show (fun x : FmCh => s.setFm x
    { s.fm[x] with op1 := keyBit (v.getLsbD 4) s.fm[x].op1, op2 := keyBit (v.getLsbD 7) s.fm[x].op2 }) _ = _
  rw [hch]

theorem keyValue_fields (ch : FmCh) :
    (keyValue 0 ch).toNat % 4 = fmIdx ch ∧ (keyValue 9 ch).toNat % 4 = fmIdx ch ∧
    (keyValue 0 ch).getLsbD 2 = decide ((fmPart ch).val = 1) ∧ (keyValue 9 ch).getLsbD 2 = decide ((fmPart ch).val = 1) ∧
    (keyValue 0 ch).getLsbD 4 = false ∧ (keyValue 0 ch).getLsbD 7 = false ∧
    (keyValue 9 ch).getLsbD 4 = true ∧ (keyValue 9 ch).getLsbD 7 = true := by
  revert ch; decide

/-- The key-off write of a channel (R89). -/
theorem fmKeyOffWrite_eq (ch : FmCh) (s : State) :
    fmKeyOffWrite P ch s = (s.setChip 0 0x28 (keyValue 0 ch)).setFm ch
      { s.fm[ch] with op1 := keyBit false s.fm[ch].op1, op2 := keyBit false s.fm[ch].op2 } := by
  obtain ⟨h1, -, h2, -, h3, h4, -, -⟩ := keyValue_fields ch
  have h := keyWrite_channel h1 h2 (s.setChip 0 0x28 (keyValue 0 ch))
  rw [h3, h4] at h
  exact h

/-- The key-on write of a channel (R89). -/
theorem fmKeyOnWrite_eq (ch : FmCh) (s : State) :
    fmKeyOnWrite P ch s = (s.setChip 0 0x28 (keyValue 9 ch)).setFm ch
      { s.fm[ch] with op1 := keyBit true s.fm[ch].op1, op2 := keyBit true s.fm[ch].op2 } := by
  obtain ⟨-, h1, -, h2, -, -, h3, h4⟩ := keyValue_fields ch
  have h := keyWrite_channel h1 h2 (s.setChip 0 0x28 (keyValue 9 ch))
  rw [h3, h4] at h
  exact h

/-- Off, then on: the operator attacks with phase 0, whatever it did (R89, R155). -/
theorem keyBit_strobe (o : Operator) : keyBit true (keyBit false o) = { o with eg := .attacking, phase := 0, key := true } := by
  unfold keyBit
  cases o.key <;> simp
  split <;> rfl

/-! ## Plain register writes: an address past 0x28 outside the latch and load rows has no effect -/

theorem writeRaw_plain {p : Part} {r : Nat} (h0 : 0x28 < r) (h1 : r < 0xA0 ∨ 0xA6 < r) (v : Byte) (s : State) :
    writeRaw P p r v s = s.setChip p r v := by
  unfold writeRaw regEffect
  rw [if_neg (by omega), if_neg (by omega), if_neg (by omega), if_neg (by omega), if_neg (by omega)]

theorem writeShadowed_plain {p : Part} {r : Nat} (h0 : 0x28 < r) (h1 : r < 0xA0 ∨ 0xA6 < r) (v : Byte) (s : State) :
    writeShadowed P p r v s = (s.setShad p r v).setChip p r v := by
  unfold writeShadowed
  rw [writeRaw_plain h0 h1]

/-! ## The frequency pair (R157, R171) -/

theorem freqLoad_channel (ch : FmCh) (v : Byte) (s : State) :
    freqLoad (fmPart ch) (fmIdx ch) v s = s.setFm ch
      { s.fm[ch] with
        block := Fin.ofNat 8 (s.fnumLatch[fmPart ch].toNat / 8)
        fnum := Fin.ofNat 2048 (s.fnumLatch[fmPart ch].toNat % 8 * 256 + v.toNat) } := by
  have hch : fmChannel (fmPart ch) (fmIdx ch) = ch := by revert ch; decide
  unfold freqLoad
  show (fun x : FmCh => s.setFm x
    { s.fm[x] with
      block := Fin.ofNat 8 (s.fnumLatch[fmPart ch].toNat / 8)
      fnum := Fin.ofNat 2048 (s.fnumLatch[fmPart ch].toNat % 8 * 256 + v.toNat) }) _ = _
  rw [hch]

theorem fmFreq_range (P : Params) (n : Fin 96) (pitch : Int) :
    (fmFreq P n pitch).1 ≤ 7 ∧ P.freqFloor ≤ (fmFreq P n pitch).2 ∧ (fmFreq P n pitch).2 ≤ P.freqCeil := by
  have h1 := P.freqFloor_le
  unfold fmFreq
  split
  · exact ⟨by simp, Nat.le_refl _, h1⟩
  · refine ⟨?_, ?_, ?_⟩
    · have hn := n.isLt
      unfold fmFreqShifted
      split
      · split <;> simp only <;> omega
      · split
        · split <;> simp only <;> omega
        · simp only; omega
    · unfold clamp; simp only; omega
    · unfold clamp; simp only; omega

/-- The frequency pair: the two registers in both images, the latch, and the block and fnum that were computed (R171). -/
theorem fmWriteFreq_eq (ch : FmCh) (s : State) :
    ∀ bf : Nat × Nat, bf = fmFreq P s.voice[ch].note s.voice[ch].pitch →
    ∀ hi lo : Byte, hi = BitVec.ofNat 8 (bf.1 * 8 + bf.2 / 256) → lo = BitVec.ofNat 8 bf.2 →
    fmWriteFreq P ch s =
      { s with
        chipReg := RegFile.write (RegFile.write s.chipReg (fmPart ch) (0xA4 + fmIdx ch) hi) (fmPart ch) (0xA0 + fmIdx ch) lo
        shadow := RegFile.write (RegFile.write s.shadow (fmPart ch) (0xA4 + fmIdx ch) hi) (fmPart ch) (0xA0 + fmIdx ch) lo
        fnumLatch := s.fnumLatch.set (fmPart ch).val (BitVec.ofNat 6 (bf.1 * 8 + bf.2 / 256))
        fm := s.fm.set ch.val { s.fm[ch] with block := Fin.ofNat 8 bf.1, fnum := Fin.ofNat 2048 bf.2 } } := by
  intro bf hbf hi lo hhi hlo
  have hc := fmIdx_lt ch
  obtain ⟨hb1, -, hb2⟩ := fmFreq_range P s.voice[ch].note s.voice[ch].pitch
  rw [← hbf] at hb1 hb2
  have hb3 := P.freqCeil_le
  have e1 : ∀ (v : Byte) (u : State), writeShadowed P (fmPart ch) (chReg 0xA4 ch) v u =
      latchWrite (fmPart ch) v ((u.setShad (fmPart ch) (0xA4 + fmIdx ch) v).setChip (fmPart ch) (0xA4 + fmIdx ch) v) := by
    intro v u
    unfold writeShadowed writeRaw regEffect chReg
    rw [if_neg (by omega), if_neg (by omega), if_neg (by omega), if_pos (by omega)]
  have e2 : ∀ (v : Byte) (u : State), writeShadowed P (fmPart ch) (chReg 0xA0 ch) v u =
      freqLoad (fmPart ch) (fmIdx ch) v ((u.setShad (fmPart ch) (0xA0 + fmIdx ch) v).setChip (fmPart ch) (0xA0 + fmIdx ch) v) := by
    intro v u
    unfold writeShadowed writeRaw regEffect chReg
    rw [if_neg (by omega), if_neg (by omega), if_neg (by omega), if_neg (by omega), if_pos (by omega), Nat.add_sub_cancel_left]
  have hlatch : BitVec.ofNat 6 hi.toNat = BitVec.ofNat 6 (bf.1 * 8 + bf.2 / 256) := by
    apply BitVec.eq_of_toNat_eq
    rw [hhi]
    simp only [BitVec.toNat_ofNat]
    omega
  have hl1 : (BitVec.ofNat 6 (bf.1 * 8 + bf.2 / 256)).toNat / 8 = bf.1 := by
    simp only [BitVec.toNat_ofNat]; omega
  have hl2 : (BitVec.ofNat 6 (bf.1 * 8 + bf.2 / 256)).toNat % 8 * 256 + lo.toNat = bf.2 := by
    rw [hlo]
    simp only [BitVec.toNat_ofNat]
    omega
  have key : ∀ (u : State) (x : BitVec 6), u.fnumLatch[fmPart ch] = x → x.toNat / 8 = bf.1 → x.toNat % 8 * 256 + lo.toNat = bf.2 →
      freqLoad (fmPart ch) (fmIdx ch) lo u =
        u.setFm ch { u.fm[ch] with block := Fin.ofNat 8 bf.1, fnum := Fin.ofNat 2048 bf.2 } := by
    intro u x hu h1 h2
    rw [freqLoad_channel, hu, h1, h2]
  unfold fmWriteFreq
  dsimp only
  rw [← hbf, ← hhi, ← hlo, e2, e1, key _ (BitVec.ofNat 6 (bf.1 * 8 + bf.2 / 256)) ?_ hl1 hl2]
  · unfold latchWrite
    rw [hlatch]
    rfl
  · unfold latchWrite
    rw [hlatch]
    exact (vector_getElem_set_fin ..).trans (if_pos rfl)

/-! ## Sequences of buffered writes with no effect of their own -/

/-- Buffered writes of the bytes listed to registers of one part, in order. -/
def writeAll (P : Params) (p : Part) (ws : List (Nat × Byte)) (s : State) : State :=
  ws.foldl (fun s w => writeShadowed P p w.1 w.2 s) s

/-- The address is a register of its part whose write has no effect. -/
def PlainReg (r : Nat) : Prop := 0x28 < r ∧ (r < 0xA0 ∨ 0xA6 < r) ∧ r < 256

theorem writeAll_eq {p : Part} {ws : List (Nat × Byte)} (h : ∀ w ∈ ws, PlainReg w.1) (s : State) :
    writeAll P p ws s = { s with chipReg := (writeAll P p ws s).chipReg, shadow := (writeAll P p ws s).shadow } := by
  induction ws generalizing s with
  | nil => rfl
  | cons w ws ih =>
    have hw := h w List.mem_cons_self
    have key := ih (fun x hx => h x (List.mem_cons_of_mem _ hx)) (writeShadowed P p w.1 w.2 s)
    have e : writeAll P p (w :: ws) s = writeAll P p ws (writeShadowed P p w.1 w.2 s) := rfl
    rw [e]
    generalize writeAll P p ws (writeShadowed P p w.1 w.2 s) = u at key ⊢
    rw [key, writeShadowed_plain hw.1 hw.2.1]
    rfl

/-- Both images of a register after the writes: the byte listed for it, or what it held before. -/
theorem writeAll_get {p : Part} {ws : List (Nat × Byte)} (h : ∀ w ∈ ws, PlainReg w.1) (hn : (ws.map fun w => w.1).Nodup) (s : State) :
    (∀ w ∈ ws, (writeAll P p ws s).chip p w.1 = w.2 ∧ (writeAll P p ws s).shad p w.1 = w.2) ∧
    (∀ (q : Part) (x : Nat), ¬(q = p ∧ x ∈ ws.map fun w => w.1) →
      (writeAll P p ws s).chip q x = s.chip q x ∧ (writeAll P p ws s).shad q x = s.shad q x) := by
  induction ws generalizing s with
  | nil => exact ⟨fun w hw => absurd hw List.not_mem_nil, fun q x _ => ⟨rfl, rfl⟩⟩
  | cons w ws ih =>
    rw [List.map_cons, List.nodup_cons] at hn
    have hw := h w List.mem_cons_self
    obtain ⟨k1, k2⟩ := ih (fun x hx => h x (List.mem_cons_of_mem _ hx)) hn.2 (writeShadowed P p w.1 w.2 s)
    have e : writeAll P p (w :: ws) s = writeAll P p ws (writeShadowed P p w.1 w.2 s) := rfl
    rw [e]
    refine ⟨fun x hx => ?_, fun q x hx => ?_⟩
    · rcases List.mem_cons.mp hx with rfl | hx
      · obtain ⟨a, b⟩ := k2 p x.1 (fun hc => hn.1 hc.2)
        rw [a, b, writeShadowed_chip, writeShadowed_shad, if_pos ⟨rfl, rfl, hw.2.2⟩, if_pos ⟨rfl, rfl, hw.2.2⟩]
        exact ⟨rfl, rfl⟩
      · exact k1 x hx
    · rw [List.map_cons, List.mem_cons] at hx
      obtain ⟨a, b⟩ := k2 q x (fun hc => hx ⟨hc.1, .inr hc.2⟩)
      have hne : ¬(q = p ∧ x = w.1 ∧ w.1 < 256) := fun hc => hx ⟨hc.1, .inl hc.2.1⟩
      rw [a, b, writeShadowed_chip, writeShadowed_shad, if_neg hne, if_neg hne]
      exact ⟨rfl, rfl⟩

/-! ## Total levels and the sustain rewrite (R172, R173) -/

theorem fmWriteTl_as (ch : FmCh) (s : State) :
    fmWriteTl P ch s = writeAll P (fmPart ch)
      [(0x40 + fmIdx ch, scaledTl P (FmProgram.byte s.fmBank[s.voice[ch].program] 12) s.voice[ch].velocity s.voice[ch].level),
       (0x4C + fmIdx ch, scaledTl P (FmProgram.byte s.fmBank[s.voice[ch].program] 15) s.voice[ch].velocity s.voice[ch].level)] s := by
  unfold fmWriteTl writeAll operatorSlots
  simp only [List.foldl_cons, List.foldl_nil, Nat.mul_zero, Nat.add_zero, Nat.reduceMul, Nat.reduceAdd, writeShadowed_fmBank]

theorem fmWriteTl_eq (ch : FmCh) (s : State) :
    ∀ a b : Byte, a = scaledTl P (FmProgram.byte s.fmBank[s.voice[ch].program] 12) s.voice[ch].velocity s.voice[ch].level →
    b = scaledTl P (FmProgram.byte s.fmBank[s.voice[ch].program] 15) s.voice[ch].velocity s.voice[ch].level →
    fmWriteTl P ch s =
      { s with
        chipReg := RegFile.write (RegFile.write s.chipReg (fmPart ch) (0x40 + fmIdx ch) a) (fmPart ch) (0x4C + fmIdx ch) b
        shadow := RegFile.write (RegFile.write s.shadow (fmPart ch) (0x40 + fmIdx ch) a) (fmPart ch) (0x4C + fmIdx ch) b } := by
  intro a b ha hb
  have hc := fmIdx_lt ch
  rw [fmWriteTl_as, ← ha, ← hb]
  unfold writeAll
  simp only [List.foldl_cons, List.foldl_nil]
  rw [writeShadowed_plain (by omega) (by omega), writeShadowed_plain (by omega) (by omega)]
  rfl

/-- The sustain rewrite copies two shadow bytes to the chip; the shadow stays. -/
theorem fmRewriteSustain_eq (ch : FmCh) (s : State) :
    fmRewriteSustain P ch s =
      { s with
        chipReg := RegFile.write (RegFile.write s.chipReg (fmPart ch) (0x80 + fmIdx ch) (s.shad (fmPart ch) (0x80 + fmIdx ch)))
          (fmPart ch) (0x8C + fmIdx ch) (s.shad (fmPart ch) (0x8C + fmIdx ch)) } := by
  have hc := fmIdx_lt ch
  have hself : ∀ (f : RegFile) (r : Nat), RegFile.write f (fmPart ch) r (RegFile.read f (fmPart ch) r) = f := by
    intro f r
    apply RegFile.ext_read
    intro q x hx
    rw [RegFile.read_write]
    split
    · rename_i e; rw [e.1, e.2.1]
    · rfl
  have h1 : fmRewriteSustain P ch s =
      writeShadowed P (fmPart ch) (0x8C + fmIdx ch)
        ((writeShadowed P (fmPart ch) (0x80 + fmIdx ch) (s.shad (fmPart ch) (0x80 + fmIdx ch)) s).shad (fmPart ch) (0x8C + fmIdx ch))
        (writeShadowed P (fmPart ch) (0x80 + fmIdx ch) (s.shad (fmPart ch) (0x80 + fmIdx ch)) s) := by
    unfold fmRewriteSustain operatorSlots
    simp only [List.foldl_cons, List.foldl_nil, Nat.mul_zero, Nat.add_zero]
  have h2 : writeShadowed P (fmPart ch) (0x80 + fmIdx ch) (s.shad (fmPart ch) (0x80 + fmIdx ch)) s =
      s.setChip (fmPart ch) (0x80 + fmIdx ch) (s.shad (fmPart ch) (0x80 + fmIdx ch)) := by
    rw [writeShadowed_plain (by omega) (by omega)]
    unfold State.setShad
    have := hself s.shadow (0x80 + fmIdx ch)
    unfold State.shad
    rw [this]
  rw [h1, h2, writeShadowed_plain (by omega) (by omega)]
  unfold State.setShad
  have := hself s.shadow (0x8C + fmIdx ch)
  unfold State.shad
  show State.setChip { s.setChip .. with shadow := RegFile.write s.shadow _ _ (RegFile.read s.shadow _ _) } _ _ _ = _
  rw [this]
  rfl

/-! ## The program (R176) -/

/-- The 25 writes of set-instrument, in order. -/
def programWrites (P : Params) (ch : FmCh) (B : FmProgram) (v : FmVoice) : List (Nat × Byte) :=
  (programRows.flatMap fun rb => [0, 1, 2, 3].map fun j => (rb.1 + 4 * j + fmIdx ch, programByte P B v rb.1 rb.2 j)) ++
    [(0xB0 + fmIdx ch, B[32])]

theorem fmWriteProgram_as (ch : FmCh) (B : FmProgram) (v : FmVoice) (s : State) :
    fmWriteProgram P ch B v s = writeAll P (fmPart ch) (programWrites P ch B v) s := rfl

/-- The addresses of set-instrument. -/
def programRegs (c : Nat) : List Nat :=
  (programRows.flatMap fun rb => [0, 1, 2, 3].map fun j => rb.1 + 4 * j + c) ++ [0xB0 + c]

theorem programWrites_regs (ch : FmCh) (B : FmProgram) (v : FmVoice) :
    (programWrites P ch B v).map (fun w => w.1) = programRegs (fmIdx ch) := rfl

theorem programRegs_nodup (ch : FmCh) : (programRegs (fmIdx ch)).Nodup := by revert ch; decide

theorem programRegs_plain (ch : FmCh) : ∀ r ∈ programRegs (fmIdx ch), PlainReg r := by
  have h : ∀ ch : FmCh, ∀ r ∈ programRegs (fmIdx ch), 0x28 < r ∧ (r < 0xA0 ∨ 0xA6 < r) ∧ r < 256 := by decide
  exact h ch

/-- An address is one of set-instrument's: an operator row of the channel, or its FB/ALG register. -/
theorem mem_programRegs (ch : FmCh) (x : Nat) :
    x ∈ programRegs (fmIdx ch) ↔ (0x30 ≤ x ∧ x ≤ 0x8F ∧ x % 4 = fmIdx ch) ∨ x = 0xB0 + fmIdx ch := by
  have hc := fmIdx_lt ch
  constructor
  · intro h
    have key : ∀ ch : FmCh, ∀ r ∈ programRegs (fmIdx ch), (0x30 ≤ r ∧ r ≤ 0x8F ∧ r % 4 = fmIdx ch) ∨ r = 0xB0 + fmIdx ch := by decide
    exact key ch x h
  · intro h
    have key : ∀ ch : FmCh, ∀ x : Fin 256, (0x30 ≤ x.val ∧ x.val ≤ 0x8F ∧ x.val % 4 = fmIdx ch) ∨ x.val = 0xB0 + fmIdx ch →
        x.val ∈ programRegs (fmIdx ch) := by decide +kernel
    exact key ch ⟨x, by omega⟩ h

theorem plain_of_map {ws : List (Nat × Byte)} {l : List Nat} (e : ws.map (fun w => w.1) = l) (h : ∀ r ∈ l, PlainReg r) :
    ∀ w ∈ ws, PlainReg w.1 := fun w hw => h w.1 (e ▸ List.mem_map_of_mem hw)

/-- What set-instrument writes: the listed bytes to both images, and nothing else. -/
theorem fmWriteProgram_get (ch : FmCh) (B : FmProgram) (v : FmVoice) (s : State) :
    (∀ w ∈ programWrites P ch B v,
      (fmWriteProgram P ch B v s).chip (fmPart ch) w.1 = w.2 ∧ (fmWriteProgram P ch B v s).shad (fmPart ch) w.1 = w.2) ∧
    (∀ (q : Part) (x : Nat), ¬(q = fmPart ch ∧ x ∈ programRegs (fmIdx ch)) →
      (fmWriteProgram P ch B v s).chip q x = s.chip q x ∧ (fmWriteProgram P ch B v s).shad q x = s.shad q x) := by
  rw [fmWriteProgram_as]
  have e := programWrites_regs (P := P) ch B v
  have h := writeAll_get (P := P) (p := fmPart ch) (plain_of_map e (programRegs_plain ch)) (e ▸ programRegs_nodup ch) s
  rw [e] at h
  exact h

theorem fmWriteProgram_eq (ch : FmCh) (B : FmProgram) (v : FmVoice) (s : State) :
    fmWriteProgram P ch B v s =
      { s with chipReg := (fmWriteProgram P ch B v s).chipReg, shadow := (fmWriteProgram P ch B v s).shadow } :=
  writeAll_eq (plain_of_map (programWrites_regs ch B v) (programRegs_plain ch)) s

/-- The write of slot `j` of row `k`, and the write of FB/ALG, are in the list. -/
theorem mem_programWrites (ch : FmCh) (B : FmProgram) (v : FmVoice) :
    (∀ (row : Fin 6) (j : Fin 4),
      (0x30 + 16 * row.val + 4 * j.val + fmIdx ch, programByte P B v (0x30 + 16 * row.val) (8 + 4 * row.val) j.val) ∈
        programWrites P ch B v) ∧
    (0xB0 + fmIdx ch, B[32]) ∈ programWrites P ch B v := by
  refine ⟨fun row j => ?_, List.mem_append_right _ List.mem_cons_self⟩
  refine List.mem_append_left _ ?_
  rw [List.mem_flatMap]
  refine ⟨(0x30 + 16 * row.val, 8 + 4 * row.val), by revert row; decide, ?_⟩
  rw [List.mem_map]
  exact ⟨j.val, by revert j; decide, rfl⟩

/-! ## Key-on (R173) -/

theorem setFm_setFm (s : State) (ch : FmCh) (c d : FmChannel) : (s.setFm ch c).setFm ch d = s.setFm ch d := by
  unfold State.setFm
  simp

/-- The strobe: off, then on. The key register holds the on value; both operators attack with phase 0 (R89). -/
theorem fmStrobe_eq (ch : FmCh) (s : State) :
    fmKeyOnWrite P ch (fmKeyOffWrite P ch s) = ((s.setChip 0 0x28 (keyValue 0 ch)).setChip 0 0x28 (keyValue 9 ch)).setFm ch
      { s.fm[ch] with
        op1 := { s.fm[ch].op1 with eg := .attacking, phase := 0, key := true }
        op2 := { s.fm[ch].op2 with eg := .attacking, phase := 0, key := true } } := by
  have hg : ∀ (u : State) (c : FmChannel), (u.setFm ch c).fm[ch] = c := fun u c => (setFm_get ..).trans (if_pos rfl)
  rw [fmKeyOnWrite_eq, fmKeyOffWrite_eq, hg]
  dsimp only
  rw [keyBit_strobe, keyBit_strobe]
  rw [show ∀ (u : State) (c : FmChannel), (u.setFm ch c).setChip 0 0x28 (keyValue 9 ch) = (u.setChip 0 0x28 (keyValue 9 ch)).setFm ch c
    from fun _ _ => rfl, setFm_setFm]

/-- The whole effect of FM key-on, field by field; `bf` is the note's frequency, `a` and `b` the scaled total levels. -/
theorem fmKeyOnEffect_eq (ch : FmCh) (n : Fin 96) (vel : Level7) (s : State) :
    ∀ bf : Nat × Nat, bf = fmFreq P n s.voice[ch].pitch →
    ∀ a b : Byte, a = scaledTl P (FmProgram.byte s.fmBank[s.voice[ch].program] 12) vel s.voice[ch].level →
    b = scaledTl P (FmProgram.byte s.fmBank[s.voice[ch].program] 15) vel s.voice[ch].level →
    ∀ hi lo : Byte, hi = BitVec.ofNat 8 (bf.1 * 8 + bf.2 / 256) → lo = BitVec.ofNat 8 bf.2 →
    ∀ p : Part, p = fmPart ch → ∀ c : Nat, c = fmIdx ch →
    ∀ shadow' : RegFile,
      shadow' = RegFile.write (RegFile.write (RegFile.write (RegFile.write s.shadow p (0xA4 + c) hi) p (0xA0 + c) lo) p (0x40 + c) a)
        p (0x4C + c) b →
    fmKeyOnEffect P ch n vel s =
      { s with
        chipReg :=
          RegFile.write (RegFile.write (RegFile.write (RegFile.write (RegFile.write (RegFile.write (RegFile.write (RegFile.write
            s.chipReg p (0xA4 + c) hi) p (0xA0 + c) lo) p (0x40 + c) a) p (0x4C + c) b) 0 0x28 (keyValue 0 ch)) 0 0x28 (keyValue 9 ch))
            p (0x80 + c) (RegFile.read shadow' p (0x80 + c))) p (0x8C + c) (RegFile.read shadow' p (0x8C + c))
        shadow := shadow'
        fnumLatch := s.fnumLatch.set p.val (BitVec.ofNat 6 (bf.1 * 8 + bf.2 / 256))
        fm := s.fm.set ch.val
          { s.fm[ch] with
            op1 := { s.fm[ch].op1 with eg := .attacking, phase := 0, key := true }
            op2 := { s.fm[ch].op2 with eg := .attacking, phase := 0, key := true }
            block := Fin.ofNat 8 bf.1, fnum := Fin.ofNat 2048 bf.2 }
        voice := s.voice.set ch.val { s.voice[ch] with playing := true, note := n, velocity := vel } } := by
  intro bf hbf a b ha hb hi lo hhi hlo p hp c hc shadow' hs
  subst hp hc
  unfold fmKeyOnEffect
  have hv : (s.setVoice ch { s.voice[ch] with playing := true, note := n, velocity := vel }).voice[ch] =
      { s.voice[ch] with playing := true, note := n, velocity := vel } := (setVoice_get ..).trans (if_pos rfl)
  have e1 := fmWriteFreq_eq (P := P) ch (s.setVoice ch { s.voice[ch] with playing := true, note := n, velocity := vel }) bf
    (by rw [hv]; exact hbf) hi lo hhi hlo
  generalize hu : fmWriteFreq P ch (s.setVoice ch { s.voice[ch] with playing := true, note := n, velocity := vel }) = u at e1
  have huv : u.voice[ch] = { s.voice[ch] with playing := true, note := n, velocity := vel } := by rw [e1]; exact hv
  have hub : u.fmBank = s.fmBank := by rw [e1]; rfl
  have e2 := fmWriteTl_eq (P := P) ch u a b (by simp only [huv, hub]; exact ha) (by simp only [huv, hub]; exact hb)
  rw [e2, fmStrobe_eq, fmRewriteSustain_eq]
  have huf : u.fm[ch] = { s.fm[ch] with block := Fin.ofNat 8 bf.1, fnum := Fin.ofNat 2048 bf.2 } := by
    rw [e1]; exact (vector_getElem_set_fin ..).trans (if_pos rfl)
  have hus : RegFile.write (RegFile.write u.shadow (fmPart ch) (0x40 + fmIdx ch) a) (fmPart ch) (0x4C + fmIdx ch) b = shadow' := by rw [e1, hs]; rfl
  simp only [huf, hus]
  rw [e1]
  unfold State.setFm State.setChip State.setVoice State.shad
  simp

end Sys2Proof.Machine
end

