-- ==== Sys2Proof/Laws/FmReset.lean ====
section
/-! SUPPORT. What the FM reset sequence leaves (R190): its fields, and every register of both images. -/

namespace Sys2Proof.Machine

variable {P : Params} {s t u : State}

/-- The FM channels, the latch and the voices as `FmReset` clears them; the other fields as in `s`. -/
structure FmCleared (P : Params) (s t : State) : Prop where
  fm : t.fm = Vector.replicate 6 .reset
  fnumLatch : t.fnumLatch = Vector.replicate 2 0
  rest : t = { s with
    chipReg := t.chipReg, shadow := t.shadow, fnumLatch := t.fnumLatch, fm := t.fm, voice := Vector.replicate 6 .reset
    fmBank := Vector.ofFn P.fmDefault }

theorem fmCleared_fmClear (s : State) : FmCleared P s (fmClear P s) := ⟨rfl, rfl, rfl⟩

theorem fm_set_reset (ch : FmCh) : (Vector.replicate 6 FmChannel.reset).set ch.val .reset = Vector.replicate 6 FmChannel.reset := by
  revert ch; decide

/-- A write that leaves the cleared channels, the latch and the SSG alone keeps the clearing. -/
theorem FmCleared.of_images (h : FmCleared P s t) (a b : RegFile) : FmCleared P s { t with chipReg := a, shadow := b } := by
  refine ⟨h.fm, h.fnumLatch, ?_⟩
  have := h.rest
  rw [this]

theorem FmCleared.fmKeyOffWrite (h : FmCleared P s t) (ch : FmCh) : FmCleared P s (fmKeyOffWrite P ch t) := by
  have hc : t.fm[ch] = .reset := by rw [h.fm]; exact Vector.getElem_replicate ..
  have hk : (fun c : FmChannel => { c with op1 := keyBit false c.op1, op2 := keyBit false c.op2 }) .reset = .reset := rfl
  have e : Machine.fmKeyOffWrite P ch t = t.setChip 0 0x28 (keyValue 0 ch) := by
    rw [fmKeyOffWrite_eq]
    show (t.setChip 0 0x28 (keyValue 0 ch)).setFm ch
      ((fun c : FmChannel => { c with op1 := keyBit false c.op1, op2 := keyBit false c.op2 }) t.fm[ch]) = _
    rw [hc, hk]
    show { t.setChip 0 0x28 (keyValue 0 ch) with fm := t.fm.set ch.val .reset } = _
    rw [h.fm, fm_set_reset, ← h.fm]
    rfl
  rw [e]
  exact h.of_images _ _

/-- A buffered write past the SSG and rhythm registers reaches the images, the latch and the FM channels only. -/
theorem writeShadowed_reach {p : Part} {r : Nat} (hr : 0x10 < r) (v : Byte) (t : State) :
    writeShadowed P p r v t =
      { t with
        chipReg := (writeShadowed P p r v t).chipReg, shadow := (writeShadowed P p r v t).shadow
        fnumLatch := (writeShadowed P p r v t).fnumLatch, fm := (writeShadowed P p r v t).fm } := by
  have h1 : (writeShadowed P p r v t).ssg = t.ssg := writeShadowed_ssg _ _ _ _ _ (by omega)
  have h2 : (writeShadowed P p r v t).rhy = t.rhy := writeShadowed_rhy _ _ _ _ _ (by omega)
  have h3 : (writeShadowed P p r v t).faults = t.faults := writeShadowed_faults _ _ _ _ _ (by omega)
  have h4 := regEffect_eq P p r v ((t.setShad p r v).setChip p r v)
  have h5 : writeShadowed P p r v t = regEffect P p r v ((t.setShad p r v).setChip p r v) := rfl
  rw [← h5, h1, h2, h3] at h4
  generalize writeShadowed P p r v t = u at h4 ⊢
  rw [h4]
  rfl

/-- Buffered zero writes keep the clearing: the key bits, the latch and the frequencies they write are zero already. -/
theorem FmCleared.writeZero (h : FmCleared P s t) (p : Part) (r : Nat) (hr : 0x10 < r) : FmCleared P s (writeShadowed P p r 0 t) := by
  have hl : (writeShadowed P p r 0 t).fnumLatch = t.fnumLatch := by
    rw [writeShadowed_fnumLatch]
    split
    · rw [h.fnumLatch]
      clear h
      revert p
      decide
    · rfl
  have hset : ∀ ch : FmCh, t.fm.set ch.val .reset = t.fm := fun ch => by rw [h.fm, fm_set_reset]
  have hget : ∀ ch : FmCh, t.fm[ch] = .reset := fun ch => by rw [h.fm]; exact Vector.getElem_replicate ..
  have hf : (writeShadowed P p r 0 t).fm = t.fm := by
    rw [writeShadowed_fm]
    split
    · have hk := keyWrite_channel (v := 0) (ch := 0) rfl rfl t
      rw [hk]
      show t.fm.set 0 ((fun c : FmChannel => { c with op1 := keyBit false c.op1, op2 := keyBit false c.op2 }) t.fm[(0 : FmCh)]) = _
      rw [hget 0]
      exact hset 0
    · split
      · have hz : t.fnumLatch[p].toNat = 0 := by
          rw [h.fnumLatch]
          show (Vector.replicate 2 (0 : BitVec 6))[p.val].toNat = 0
          rw [Vector.getElem_replicate]
          rfl
        have key : ∀ (x : FmCh) (z : Nat), z = 0 →
            (t.setFm x { t.fm[x] with block := Fin.ofNat 8 (z / 8), fnum := Fin.ofNat 2048 (z % 8 * 256 + 0) }).fm = t.fm := by
          intro x z hz
          rw [hz, hget]
          exact hset x
        exact key (fmChannel p (r - 0xA0)) _ hz
      · rfl
  have he := writeShadowed_reach (P := P) (p := p) hr 0 t
  rw [hl, hf] at he
  rw [he]
  exact h.of_images _ _

theorem FmCleared.zeroRegs (h : FmCleared P s t) (p : Part) (regs : List Nat) (hr : ∀ r ∈ regs, 0x10 < r) :
    FmCleared P s (zeroRegs P p regs t) := by
  induction regs generalizing t with
  | nil => exact h
  | cons r regs ih =>
    exact ih (h.writeZero p r (hr r List.mem_cons_self)) fun x hx => hr x (List.mem_cons_of_mem _ hx)

/-- Both images after the zero writes. -/
theorem zeroRegs_get (p : Part) (regs : List Nat) (hr : ∀ r ∈ regs, r < 256) (t : State) (q : Part) (x : Nat) :
    (zeroRegs P p regs t).chip q x = (if q = p ∧ x ∈ regs then 0 else t.chip q x) ∧
    (zeroRegs P p regs t).shad q x = (if q = p ∧ x ∈ regs then 0 else t.shad q x) := by
  induction regs generalizing t with
  | nil => exact ⟨by simp [zeroRegs], by simp [zeroRegs]⟩
  | cons r regs ih =>
    have e : zeroRegs P p (r :: regs) t = zeroRegs P p regs (writeShadowed P p r 0 t) := rfl
    obtain ⟨a, b⟩ := ih (fun y hy => hr y (List.mem_cons_of_mem _ hy)) (writeShadowed P p r 0 t)
    have h256 := hr r List.mem_cons_self
    rw [e, a, b, writeShadowed_chip, writeShadowed_shad]
    by_cases h1 : q = p
    · by_cases h2 : x = r
      · simp [h1, h2, h256]
      · simp [h1, h2]
    · simp [h1]

/-! ## One channel of the last loop -/

theorem programByte_reset (B : FmProgram) (row base j : Nat) : programByte P B .reset row base j = FmProgram.byte B (base + j) := by
  unfold programByte
  split
  · unfold scaledTl
    show (_ &&& 0x80) ||| BitVec.ofNat 8 (P.tlScale _ 127 127).val = _
    rw [P.tlScale_full]
    generalize FmProgram.byte B (base + j) = b
    have : ∀ b : BitVec 8, (b &&& 0x80) ||| BitVec.ofNat 8 (field 0 128 b).val = b := by decide
    exact this b
  · rfl

/-- The registers of a channel after its part of the loop: the program's bytes, both sides open, the key register written raw. -/
theorem fmResetChannel_get (h : FmCleared P s t) (ch : FmCh) :
    FmCleared P s (fmResetChannel P t ch) ∧
    ∀ (q : Part) (x : Nat),
      (fmResetChannel P t ch).chip q x =
        (if q = 0 ∧ x = 0x28 then keyValue 0 ch
        else if q = fmPart ch ∧ (x ∈ programRegs (fmIdx ch) ∨ x = 0xB4 + fmIdx ch) then resetFmReg P x else t.chip q x) ∧
      (fmResetChannel P t ch).shad q x =
        (if q = fmPart ch ∧ (x ∈ programRegs (fmIdx ch) ∨ x = 0xB4 + fmIdx ch) then resetFmReg P x else t.shad q x) := by
  have hc := fmIdx_lt ch
  have h1 := h.fmKeyOffWrite ch
  have hk : Machine.fmKeyOffWrite P ch t = writeRaw P 0 0x28 (keyValue 0 ch) t := rfl
  have hchip : ∀ (q : Part) (x : Nat), (Machine.fmKeyOffWrite P ch t).chip q x = if q = 0 ∧ x = 0x28 then keyValue 0 ch else t.chip q x := by
    intro q x; rw [hk, writeRaw_chip]; simp
  have hshad : ∀ (q : Part) (x : Nat), (Machine.fmKeyOffWrite P ch t).shad q x = t.shad q x := by intro q x; rw [hk, writeRaw_shad]
  have hvoice : (Machine.fmKeyOffWrite P ch t).voice = Vector.replicate 6 .reset := by rw [h1.rest]
  have hbank : (Machine.fmKeyOffWrite P ch t).fmBank = Vector.ofFn P.fmDefault := by rw [h1.rest]
  have hunf : fmResetChannel P t ch =
      writeShadowed P (fmPart ch) (chReg 0xB4 ch) 0xC0 (fmSetInstEffect P ch 0 (Machine.fmKeyOffWrite P ch t)) := rfl
  rw [hunf]
  generalize Machine.fmKeyOffWrite P ch t = u at h1 hchip hshad hvoice hbank ⊢
  have hB : u.fmBank[(0 : Fin 128)] = P.fmDefault 0 := by rw [hbank]; exact Vector.getElem_ofFn ..
  have hV : u.voice[ch] = .reset := by rw [hvoice]; exact Vector.getElem_replicate ..
  have hset : u.setVoice ch { u.voice[ch] with program := 0 } = u := by
    rw [hV]
    have : u.voice.set ch.val .reset = u.voice := by
      rw [hvoice]
      clear * -
      revert ch
      decide
    show { u with voice := u.voice.set ch.val .reset } = u
    rw [this]
  have hinst : fmSetInstEffect P ch 0 u = fmWriteProgram P ch (P.fmDefault 0) .reset u := by
    unfold fmSetInstEffect
    rw [hset, hB, hV]
  rw [hinst]
  have hp := fmWriteProgram_get (P := P) ch (P.fmDefault 0) .reset u
  have hq := fmWriteProgram_eq (P := P) ch (P.fmDefault 0) .reset u
  have hm := mem_programWrites (P := P) ch (P.fmDefault 0) .reset
  have hval : ∀ x ∈ programRegs (fmIdx ch),
      (fmWriteProgram P ch (P.fmDefault 0) .reset u).chip (fmPart ch) x = resetFmReg P x ∧
      (fmWriteProgram P ch (P.fmDefault 0) .reset u).shad (fmPart ch) x = resetFmReg P x := by
    intro x hx
    rw [mem_programRegs] at hx
    rcases hx with ⟨x1, x2, x3⟩ | rfl
    · have key := hp.1 _ (hm.1 ⟨x / 16 - 3, by omega⟩ ⟨x / 4 % 4, by omega⟩)
      dsimp only at key
      rw [programByte_reset] at key
      have ex : 0x30 + 16 * (x / 16 - 3) + 4 * (x / 4 % 4) + fmIdx ch = x := by omega
      rw [ex] at key
      unfold resetFmReg
      rw [if_pos ⟨x1, x2, by omega⟩]
      exact key
    · have key := hp.1 _ hm.2
      unfold resetFmReg
      rw [if_neg (by omega), if_pos (by omega)]
      exact key
  generalize fmWriteProgram P ch (P.fmDefault 0) .reset u = w at hp hq hval ⊢
  have hplain : writeShadowed P (fmPart ch) (chReg 0xB4 ch) 0xC0 w =
      (w.setShad (fmPart ch) (0xB4 + fmIdx ch) 0xC0).setChip (fmPart ch) (0xB4 + fmIdx ch) 0xC0 :=
    writeShadowed_plain (by unfold chReg; omega) (by unfold chReg; omega) _ _
  rw [hplain]
  refine ⟨?_, fun q x => ?_⟩
  · have hw : FmCleared P s w := by rw [hq]; exact h1.of_images _ _
    exact hw.of_images _ _
  · have hB4 : resetFmReg P (0xB4 + fmIdx ch) = 0xC0 := by
      unfold resetFmReg
      rw [if_neg (by omega), if_neg (by omega), if_pos (by omega)]
    rw [chip_setChip, chip_setShad, shad_setChip, shad_setShad]
    by_cases hx : q = fmPart ch ∧ x = 0xB4 + fmIdx ch
    · rw [if_pos (c := q = fmPart ch ∧ x = 0xB4 + fmIdx ch ∧ 0xB4 + fmIdx ch < 256) ⟨hx.1, hx.2, by omega⟩,
        if_pos (c := q = fmPart ch ∧ x = 0xB4 + fmIdx ch ∧ 0xB4 + fmIdx ch < 256) ⟨hx.1, hx.2, by omega⟩,
        if_neg (c := q = 0 ∧ x = 0x28) (by omega), if_pos ⟨hx.1, .inr hx.2⟩, if_pos ⟨hx.1, .inr hx.2⟩,
        hx.2, hB4]
      exact ⟨rfl, rfl⟩
    · rw [if_neg (c := q = fmPart ch ∧ x = 0xB4 + fmIdx ch ∧ 0xB4 + fmIdx ch < 256) (by tauto),
        if_neg (c := q = fmPart ch ∧ x = 0xB4 + fmIdx ch ∧ 0xB4 + fmIdx ch < 256) (by tauto)]
      by_cases hy : q = fmPart ch ∧ x ∈ programRegs (fmIdx ch)
      · have hr := (mem_programRegs ch x).mp hy.2
        rw [if_neg (c := q = 0 ∧ x = 0x28) (by omega), if_pos ⟨hy.1, .inl hy.2⟩, if_pos ⟨hy.1, .inl hy.2⟩, hy.1]
        exact hval x hy.2
      · have hz : ¬(q = fmPart ch ∧ (x ∈ programRegs (fmIdx ch) ∨ x = 0xB4 + fmIdx ch)) := by tauto
        obtain ⟨a, b⟩ := hp.2 q x hy
        rw [if_neg hz, if_neg hz, a, b, hchip, hshad]
        exact ⟨rfl, rfl⟩

/-! ## The whole sequence -/

/-- The registers that the last loop writes for channel `ch`, beside the key register. -/
def ResetReg (ch : FmCh) (q : Part) (x : Nat) : Prop := q = fmPart ch ∧ (x ∈ programRegs (fmIdx ch) ∨ x = 0xB4 + fmIdx ch)

theorem fmResetLoop_get (l : List FmCh) (t : State) (h : FmCleared P s t) :
    FmCleared P s (l.foldl (fmResetChannel P) t) ∧
    ∀ (q : Part) (x : Nat),
      ((∃ ch ∈ l, ResetReg ch q x) → (l.foldl (fmResetChannel P) t).shad q x = resetFmReg P x ∧
        (l.foldl (fmResetChannel P) t).chip q x = resetFmReg P x) ∧
      ((∀ ch ∈ l, ¬ResetReg ch q x) → (l.foldl (fmResetChannel P) t).shad q x = t.shad q x ∧
        (¬(q = 0 ∧ x = 0x28) → (l.foldl (fmResetChannel P) t).chip q x = t.chip q x)) := by
  induction l generalizing t with
  | nil =>
    refine ⟨h, fun q x => ⟨?_, fun _ => ⟨rfl, fun _ => rfl⟩⟩⟩
    rintro ⟨ch, hch, -⟩
    exact absurd hch List.not_mem_nil
  | cons ch l ih =>
    obtain ⟨h1, g1⟩ := fmResetChannel_get h ch
    rw [List.foldl_cons]
    obtain ⟨h2, g2⟩ := ih (fmResetChannel P t ch) h1
    refine ⟨h2, fun q x => ?_⟩
    obtain ⟨ga, gb⟩ := g1 q x
    obtain ⟨gc, gd⟩ := g2 q x
    have hx : ResetReg ch q x → ¬(q = 0 ∧ x = 0x28) := by
      rintro ⟨-, hx⟩ ⟨-, rfl⟩
      have hc := fmIdx_lt ch
      rw [mem_programRegs] at hx
      omega
    constructor
    · rintro ⟨k, hk, hr⟩
      by_cases hl : ∃ ch ∈ l, ResetReg ch q x
      · exact gc hl
      · have hkc : k = ch := (List.mem_cons.mp hk).resolve_right fun hk => hl ⟨k, hk, hr⟩
        subst hkc
        obtain ⟨e1, e2⟩ := gd fun c hc hr => hl ⟨c, hc, hr⟩
        have e3 := e2 (hx hr)
        rw [gb, if_pos (show q = fmPart k ∧ _ from hr)] at e1
        rw [ga, if_neg (hx hr), if_pos (show q = fmPart k ∧ _ from hr)] at e3
        exact ⟨e1, e3⟩
    · intro hn
      obtain ⟨e1, e2⟩ := gd fun c hc => hn c (List.mem_cons_of_mem _ hc)
      have hch : ¬(q = fmPart ch ∧ (x ∈ programRegs (fmIdx ch) ∨ x = 0xB4 + fmIdx ch)) := hn ch List.mem_cons_self
      rw [gb, if_neg hch] at e1
      refine ⟨e1, fun h28 => ?_⟩
      have e3 := e2 h28
      rw [ga, if_neg h28, if_neg hch] at e3
      exact e3

theorem fmArea_lists (p : Part) (r : Nat) : fmArea p r ↔ (p = 0 ∧ r ∈ fmArea0) ∨ (p = 1 ∧ r ∈ fmArea1) := by
  unfold fmArea fmArea0 fmArea1
  simp only [List.mem_append, List.mem_range'_1]
  by_cases hp : p = 0
  · subst hp
    simp
    omega
  · have : p = 1 := Fin.eq_one_of_ne_zero p hp
    subst this
    simp
    omega

/-- A register with a non-zero value after the sequence is one that the last loop writes. -/
theorem resetFmReg_zero {q : Part} {x : Nat} (h : ∀ ch ∈ fmChannels, ¬ResetReg ch q x) : resetFmReg P x = 0 := by
  have key : ∀ (c : Nat), c < 3 → ¬(((0x30 ≤ x ∧ x ≤ 0x8F ∧ x % 4 = c) ∨ x = 0xB0 + c) ∨ x = 0xB4 + c) := by
    intro c hc hx
    obtain ⟨ch, h1, h2⟩ : ∃ ch : FmCh, fmPart ch = q ∧ fmIdx ch = c := by
      have : ∀ (q : Part) (c : Fin 3), ∃ ch : FmCh, fmPart ch = q ∧ fmIdx ch = c.val := by decide
      exact this q ⟨c, hc⟩
    refine h ch (mem_fmChannels ch) ⟨h1.symm, ?_⟩
    rw [mem_programRegs, h2]
    exact hx
  have k0 := key 0 (by omega)
  have k1 := key 1 (by omega)
  have k2 := key 2 (by omega)
  unfold resetFmReg
  rw [if_neg (by omega), if_neg (by omega), if_neg (by omega)]

/-- What `FmReset` leaves (R190): the cleared fields, the FM area of both images at its reset values, every other register as before. -/
theorem fmReset_spec (s : State) :
    FmCleared P s (fmReset P s) ∧
    ∀ (p : Part) (r : Nat),
      (fmArea p r → (fmReset P s).chip p r = (if p = 0 ∧ r = 0x28 then 0x06 else resetFmReg P r) ∧
        (fmReset P s).shad p r = resetFmReg P r) ∧
      (¬fmArea p r → (fmReset P s).chip p r = s.chip p r ∧ (fmReset P s).shad p r = s.shad p r) := by
  have a0 : ∀ r ∈ fmArea0, 0x10 < r ∧ r < 256 := by
    intro r h
    simp only [fmArea0, List.mem_append, List.mem_range'_1] at h
    omega
  have a1 : ∀ r ∈ fmArea1, 0x10 < r ∧ r < 256 := by
    intro r h
    simp only [fmArea1, List.mem_range'_1] at h
    omega
  have c0 : FmCleared P s (zeroRegs P 0 fmArea0 (fmClear P s)) := (fmCleared_fmClear s).zeroRegs _ _ fun r h => (a0 r h).1
  have c1 : FmCleared P s (zeroRegs P 1 fmArea1 (zeroRegs P 0 fmArea0 (fmClear P s))) := c0.zeroRegs _ _ fun r h => (a1 r h).1
  have g0 := zeroRegs_get (P := P) 0 fmArea0 (fun r h => (a0 r h).2) (fmClear P s)
  have g1 := zeroRegs_get (P := P) 1 fmArea1 (fun r h => (a1 r h).2) (zeroRegs P 0 fmArea0 (fmClear P s))
  have hfold : fmReset P s = fmChannels.foldl (fmResetChannel P) (zeroRegs P 1 fmArea1 (zeroRegs P 0 fmArea0 (fmClear P s))) := rfl
  generalize zeroRegs P 0 fmArea0 (fmClear P s) = z0 at c0 c1 g0 g1 hfold
  generalize zeroRegs P 1 fmArea1 z0 = z1 at c1 g1 hfold
  have hz : ∀ (p : Part) (r : Nat),
      (fmArea p r → z1.chip p r = 0 ∧ z1.shad p r = 0) ∧ (¬fmArea p r → z1.chip p r = s.chip p r ∧ z1.shad p r = s.shad p r) := by
    intro p r
    obtain ⟨e1, e2⟩ := g1 p r
    obtain ⟨e3, e4⟩ := g0 p r
    rw [e1, e2, e3, e4, fmArea_lists]
    constructor
    · rintro (h | h)
      · rw [if_pos h, if_pos h]
        constructor <;> split <;> rfl
      · rw [if_pos h, if_pos h]
        exact ⟨rfl, rfl⟩
    · intro h
      rw [if_neg (fun x => h (.inr x)), if_neg (fun x => h (.inr x)), if_neg (fun x => h (.inl x)), if_neg (fun x => h (.inl x))]
      exact ⟨rfl, rfl⟩
  obtain ⟨h1, h2⟩ := fmResetLoop_get fmChannels z1 c1
  rw [← hfold] at h1 h2
  have hkey : (fmReset P s).chip 0 0x28 = 0x06 := by
    obtain ⟨k1, -⟩ := fmResetLoop_get [0, 1, 2, 3, 4] z1 c1
    obtain ⟨-, k2⟩ := fmResetChannel_get k1 5
    have e : fmReset P s = fmResetChannel P (List.foldl (fmResetChannel P) z1 [0, 1, 2, 3, 4]) 5 := by rw [hfold]; rfl
    rw [e, (k2 0 0x28).1, if_pos ⟨rfl, rfl⟩]
    rfl
  have hcell : ∀ (q : Part) (x : Nat), (∃ ch ∈ fmChannels, ResetReg ch q x) → fmArea q x := by
    rintro q x ⟨ch, -, -, hx⟩
    have hc := fmIdx_lt ch
    rw [mem_programRegs] at hx
    unfold fmArea
    split <;> omega
  refine ⟨h1, fun p r => ?_⟩
  obtain ⟨w, n⟩ := h2 p r
  obtain ⟨za, zb⟩ := hz p r
  by_cases hw : ∃ ch ∈ fmChannels, ResetReg ch p r
  · obtain ⟨e1, e2⟩ := w hw
    refine ⟨fun _ => ⟨?_, e1⟩, fun hn => absurd (hcell p r hw) hn⟩
    split
    · rename_i h28
      rw [h28.1, h28.2]
      exact hkey
    · exact e2
  · have hn : ∀ ch ∈ fmChannels, ¬ResetReg ch p r := fun ch hch hr => hw ⟨ch, hch, hr⟩
    obtain ⟨e1, e2⟩ := n hn
    constructor
    · intro ha
      obtain ⟨z3, z4⟩ := za ha
      rw [e1, z4, resetFmReg_zero hn]
      refine ⟨?_, rfl⟩
      split
      · rename_i h28
        rw [h28.1, h28.2]
        exact hkey
      · rename_i h28
        rw [e2 h28, z3]
    · intro ha
      obtain ⟨z3, z4⟩ := zb ha
      rw [e1, z4]
      refine ⟨?_, rfl⟩
      rw [e2 ?_, z3]
      rintro ⟨rfl, rfl⟩
      exact ha (by unfold fmArea; simp)

/-! ## `State.reset`, field by field, and its registers -/

theorem reset_fm : State.reset.fm = Vector.replicate 6 .reset := by unfold State.reset; rfl
theorem reset_fnumLatch : State.reset.fnumLatch = Vector.replicate 2 0 := by unfold State.reset; rfl
theorem reset_voice : State.reset.voice = Vector.replicate 6 .reset := by unfold State.reset; rfl
theorem reset_fmBank : State.reset.fmBank = Vector.ofFn params.fmDefault := by unfold State.reset; rfl
theorem reset_pcm : State.reset.pcm = Vector.replicate 8 .reset := by unfold State.reset; rfl
theorem reset_pcmBank : State.reset.pcmBank = Vector.replicate 32 params.pcmNull := by unfold State.reset; rfl

/-- The two images of `State.reset` (R14, R390): the FM reset's values, and the raw key-off in register 0x28 of the chip. -/
theorem reset_images (p : Part) (r : Nat) (hr : r < 256) :
    State.reset.chip p r = (if p = 0 ∧ r = 0x28 then 0x06 else resetFmReg params r) ∧
    State.reset.shad p r = resetFmReg params r := by
  have hsh : ∀ r < 256, (resetShadow params)[r]?.getD 0 = resetFmReg params r := by
    intro r h
    unfold resetShadow
    simp [h]
  have hc0 : (resetChip0 params)[r]?.getD 0 = if r = 0x28 then 0x06 else resetFmReg params r := by
    unfold resetChip0
    by_cases h : r = 0x28
    · subst h
      simp
    · rw [if_neg h, ← hsh r hr]
      simp [Ne.symm h]
  unfold State.chip State.shad RegFile.read
  have hp : p = 0 ∨ p = 1 := by
    clear hsh hc0
    revert p
    decide
  rcases hp with rfl | rfl
  · refine ⟨?_, hsh r hr⟩
    refine Eq.trans (b := (resetChip0 params)[r]?.getD 0) rfl ?_
    rw [hc0]
    simp
  · refine ⟨?_, hsh r hr⟩
    rw [if_neg (by simp)]
    exact hsh r hr

end Sys2Proof.Machine
end

