-- ==== Sys2Proof/Laws/Engines.lean ====
section
/-! SUPPORT. The handlers of the two voice engines stay inside them: an FM command changes the register images and the FM state only, a
PCM command the PCM state only (R302). -/

namespace Sys2Proof.Machine

variable {P : Params} {s t u : State}

/-! ## FM -/

/-- `t` differs from `s` in the register images, the FM state and the result only. -/
def FmOnly (s t : State) : Prop :=
  t = { s with
    chipReg := t.chipReg, shadow := t.shadow, fnumLatch := t.fnumLatch, fm := t.fm, voice := t.voice, fmBank := t.fmBank
    result := t.result }

theorem FmOnly.refl (s : State) : FmOnly s s := rfl

theorem FmOnly.trans (h : FmOnly s t) (k : FmOnly t u) : FmOnly s u := by
  unfold FmOnly at *
  rw [h] at k
  exact k

theorem FmOnly.foldl {α : Type} {f : State → α → State} (hf : ∀ (t : State) (a : α), FmOnly t (f t a)) (l : List α) (s : State) :
    FmOnly s (l.foldl f s) := by
  induction l generalizing s with
  | nil => exact .refl s
  | cons a l ih => exact (hf s a).trans (ih _)

/-- A buffered write past the rhythm key register reaches no other engine. -/
theorem FmOnly.writeShadowed {p : Part} {r : Nat} (h : 0x10 < r) (v : Byte) (s : State) : FmOnly s (writeShadowed P p r v s) := by
  unfold FmOnly Machine.writeShadowed Machine.writeRaw
  rw [regEffect_eq]
  rw [regEffect_ssg, if_neg (by omega), regEffect_rhy, if_neg (by omega), regEffect_faults, if_neg (by omega)]
  rfl

theorem FmOnly.writeRaw {p : Part} {r : Nat} (h : 0x10 < r) (v : Byte) (s : State) : FmOnly s (writeRaw P p r v s) := by
  unfold FmOnly Machine.writeRaw
  rw [regEffect_eq]
  rw [regEffect_ssg, if_neg (by omega), regEffect_rhy, if_neg (by omega), regEffect_faults, if_neg (by omega)]
  rfl

theorem FmOnly.setVoice (s : State) (ch : FmCh) (v : FmVoice) : FmOnly s (s.setVoice ch v) := rfl

theorem FmOnly.fmWriteFreq (ch : FmCh) (s : State) : FmOnly s (fmWriteFreq P ch s) :=
  (FmOnly.writeShadowed (by unfold chReg; omega) ..).trans (FmOnly.writeShadowed (by unfold chReg; omega) ..)

theorem FmOnly.fmWriteTl (ch : FmCh) (s : State) : FmOnly s (fmWriteTl P ch s) :=
  FmOnly.foldl (fun _ _ => FmOnly.writeShadowed (by omega) ..) _ _

theorem FmOnly.fmRewriteSustain (ch : FmCh) (s : State) : FmOnly s (fmRewriteSustain P ch s) :=
  FmOnly.foldl (fun _ _ => FmOnly.writeShadowed (by omega) ..) _ _

/-- The rows of a program block lie past the rhythm key register. -/
theorem FmOnly.programRow (ch : FmCh) (B : FmProgram) (v : FmVoice) (rb : Nat × Nat) (h : 0x10 < rb.1) (s : State) :
    FmOnly s ([0, 1, 2, 3].foldl
      (fun s j => Machine.writeShadowed P (fmPart ch) (rb.1 + 4 * j + fmIdx ch) (programByte P B v rb.1 rb.2 j) s) s) :=
  FmOnly.foldl (fun _ _ => FmOnly.writeShadowed (by omega) ..) _ _

theorem FmOnly.fmWriteProgram (ch : FmCh) (B : FmProgram) (v : FmVoice) (s : State) : FmOnly s (fmWriteProgram P ch B v s) := by
  unfold Machine.fmWriteProgram
  refine FmOnly.trans ?_ (FmOnly.writeShadowed (by unfold chReg; omega) ..)
  unfold programRows
  simp only [List.foldl_cons (b := s)]
  exact (((((FmOnly.programRow ch B v (0x30, 8) (by decide) s).trans (FmOnly.programRow ch B v (0x40, 12) (by decide) _)).trans
    (FmOnly.programRow ch B v (0x50, 16) (by decide) _)).trans (FmOnly.programRow ch B v (0x60, 20) (by decide) _)).trans
    (FmOnly.programRow ch B v (0x70, 24) (by decide) _)).trans (FmOnly.programRow ch B v (0x80, 28) (by decide) _)

theorem FmOnly.fmKeyOnEffect (ch : FmCh) (n : Fin 96) (v : Level7) (s : State) : FmOnly s (fmKeyOnEffect P ch n v s) :=
  (((((FmOnly.setVoice ..).trans (FmOnly.fmWriteFreq ..)).trans (FmOnly.fmWriteTl ..)).trans (FmOnly.writeRaw (by decide) ..)).trans
    (FmOnly.writeRaw (by decide) ..)).trans (FmOnly.fmRewriteSustain ..)

theorem FmOnly.fmSetInstEffect (ch : FmCh) (prog : Fin 128) (s : State) : FmOnly s (fmSetInstEffect P ch prog s) :=
  (FmOnly.setVoice ..).trans (FmOnly.fmWriteProgram ..)

theorem FmOnly.fmClear (s : State) : FmOnly s (fmClear P s) := rfl

theorem FmOnly.fmReset (s : State) : FmOnly s (fmReset P s) := by
  have h := (fmReset_spec (P := P) s).1.rest
  unfold FmOnly
  rw [h]

theorem FmOnly.fmKeyOffEffect (ch : FmCh) (s : State) : FmOnly s (fmKeyOffEffect P ch s) := by
  unfold Machine.fmKeyOffEffect Machine.fmKeyOffWrite
  exact (FmOnly.setVoice s ch _).trans (FmOnly.writeRaw (by decide) ..)

theorem FmOnly.fmSilence (ch : FmCh) (s : State) : FmOnly s (fmSilence ch s) := rfl

/-! ## The FM handlers -/

theorem fmOnly_reply (rc : Rc) (h : FmOnly s t) : Goes (FmOnly s) (reply rc t) := ⟨_, rfl, h.trans (u := t.returning rc none) rfl⟩

theorem fmOnly_fmKeyOn (chan note vel : Int) (s : State) : Goes (FmOnly s) (fmKeyOn P chan note vel s) := by
  unfold fmKeyOn
  repeat' split
  all_goals first | exact fmOnly_reply _ (.refl s) | exact fmOnly_reply _ (FmOnly.fmKeyOnEffect ..)

theorem fmOnly_fmKeyOff (chan : Int) (s : State) : Goes (FmOnly s) (fmKeyOff P chan s) := by
  unfold fmKeyOff
  split
  · exact fmOnly_reply _ (.refl s)
  · exact fmOnly_reply _ (FmOnly.fmKeyOffEffect ..)

theorem fmOnly_fmSetPan (chan pan : Int) (s : State) : Goes (FmOnly s) (fmSetPan P chan pan s) := by
  unfold fmSetPan
  repeat' split
  all_goals first
    | exact fmOnly_reply _ (.refl s)
    | exact fmOnly_reply _ (FmOnly.writeShadowed (by unfold chReg; omega) ..)

theorem fmOnly_fmSetInst (chan prog : Int) (s : State) : Goes (FmOnly s) (fmSetInst P chan prog s) := by
  unfold fmSetInst
  repeat' split
  all_goals first | exact fmOnly_reply _ (.refl s) | exact fmOnly_reply _ (FmOnly.fmSetInstEffect ..)

theorem fmOnly_fmLoadInst (prog : Int) (data : List Byte) (s : State) : Goes (FmOnly s) (fmLoadInst prog data s) := by
  unfold fmLoadInst
  repeat' split
  all_goals first | exact fmOnly_reply _ (.refl s) | exact fmOnly_reply _ rfl

theorem fmOnly_fmSetPitch (chan pitch : Int) (s : State) : Goes (FmOnly s) (fmSetPitch P chan pitch s) := by
  unfold fmSetPitch
  repeat' split
  all_goals first | exact fmOnly_reply _ (.refl s) | exact fmOnly_reply _ ((FmOnly.setVoice ..).trans (FmOnly.fmWriteFreq ..))

theorem fmOnly_fmSetLevel (chan level : Int) (s : State) : Goes (FmOnly s) (fmSetLevel P chan level s) := by
  unfold fmSetLevel
  repeat' split
  all_goals first | exact fmOnly_reply _ (.refl s) | exact fmOnly_reply _ ((FmOnly.setVoice ..).trans (FmOnly.fmWriteTl ..))

theorem fmOnly_fmChOff (chan : Int) (s : State) : Goes (FmOnly s) (fmChOff P chan s) := by
  unfold fmChOff
  split
  · exact fmOnly_reply _ (.refl s)
  · exact fmOnly_reply _ ((FmOnly.fmKeyOffEffect ..).trans (FmOnly.fmSilence ..))

/-! ## PCM -/

/-- `t` differs from `s` in the PCM channels, banks, wave store and the result only. -/
def PcmOnly (s t : State) : Prop :=
  t = { s with
    pcm := t.pcm, pcmBank := t.pcmBank, waves := t.waves, waveTotal := t.waveTotal, reservedCount := t.reservedCount, result := t.result }

theorem PcmOnly.refl (s : State) : PcmOnly s s := rfl

theorem PcmOnly.stored (h : PcmOnly s t) (w : List WaveRec) (n : Nat) : PcmOnly s { t with waves := w, waveTotal := n } := by
  unfold PcmOnly at *
  rw [h]

/-! ## The PCM handlers -/

theorem pcmOnly_reply (rc : Rc) (h : PcmOnly s t) : Goes (PcmOnly s) (reply rc t) := by
  refine ⟨_, rfl, ?_⟩
  unfold PcmOnly at *
  rw [h]

theorem pcmOnly_setPcm (rc : Rc) (j : PcmCh) (c : PcmChannel) (s : State) : Goes (PcmOnly s) (reply rc (s.setPcm j c)) := pcmOnly_reply _ rfl

theorem pcmOnly_pcmKeyOn (chan note vel : Int) (s : State) : Goes (PcmOnly s) (pcmKeyOn P chan note vel s) := by
  unfold pcmKeyOn
  repeat' split
  all_goals first | exact pcmOnly_reply _ (.refl s) | exact pcmOnly_setPcm ..

theorem pcmOnly_pcmKeyOff (chan : Int) (s : State) : Goes (PcmOnly s) (pcmKeyOff chan s) := by
  unfold pcmKeyOff
  split
  · exact pcmOnly_reply _ (.refl s)
  · exact pcmOnly_setPcm ..

theorem pcmOnly_pcmSetPan (chan pan : Int) (s : State) : Goes (PcmOnly s) (pcmSetPan chan pan s) := by
  unfold pcmSetPan
  repeat' split
  all_goals first | exact pcmOnly_reply _ (.refl s) | exact pcmOnly_setPcm ..

theorem pcmOnly_pcmSetInst (chan prog : Int) (s : State) : Goes (PcmOnly s) (pcmSetInst chan prog s) := by
  unfold pcmSetInst
  repeat' split
  all_goals first | exact pcmOnly_reply _ (.refl s) | exact pcmOnly_setPcm ..

theorem pcmOnly_pcmSetPitch (chan pitch : Int) (s : State) : Goes (PcmOnly s) (pcmSetPitch P chan pitch s) := by
  unfold pcmSetPitch
  repeat' split
  all_goals first | exact pcmOnly_reply _ (.refl s) | exact pcmOnly_setPcm ..

theorem pcmOnly_pcmSetLevel (chan level : Int) (s : State) : Goes (PcmOnly s) (pcmSetLevel chan level s) := by
  unfold pcmSetLevel
  repeat' split
  all_goals first | exact pcmOnly_reply _ (.refl s) | exact pcmOnly_setPcm ..

theorem pcmOnly_pcmLoadInst (prog : Int) (data : List Byte) (s : State) : Goes (PcmOnly s) (pcmLoadInst prog data s) := by
  unfold pcmLoadInst
  repeat' split
  all_goals first | exact pcmOnly_reply _ (.refl s) | exact pcmOnly_reply _ rfl

theorem pcmOnly_pcmOff (chan : Int) (s : State) : Goes (PcmOnly s) (pcmOff chan s) := by
  unfold pcmOff pcmStop
  split
  · exact pcmOnly_reply _ (.refl s)
  · exact pcmOnly_setPcm ..

theorem pcmOnly_pcmReserve (n : Int) (s : State) : Goes (PcmOnly s) (pcmReserve P n s) := by
  unfold pcmReserve
  repeat' split
  all_goals first
    | exact pcmOnly_reply _ (.refl s)
    | exact pcmOnly_reply _ (by unfold PcmOnly; rw [pcmReserveEffect_eq])

theorem pcmOnly_pcmPlayEffect (chan note vel : Int) (data : List Byte) (s : State) :
    Goes (PcmOnly s) (pcmPlayEffect P chan note vel data s) := by
  unfold pcmPlayEffect
  repeat' split
  all_goals first | exact pcmOnly_reply _ (.refl s) | exact pcmOnly_setPcm ..

theorem pcmOnly_pcmLoadWave (data : List Byte) (s : State) : Goes (PcmOnly s) (pcmLoadWave P data s) := by
  unfold pcmLoadWave
  split
  · exact pcmOnly_reply _ (.refl s)
  · exact pcmOnly_reply _ (.stored (.refl s) ..)

theorem PcmOnly.stopPlaying (plays : Int → Bool) (s : State) : PcmOnly s (stopPlaying plays s) := by
  unfold PcmOnly
  rw [stopPlaying_eq]

theorem pcmOnly_pcmUnloadWave (id : Int) (s : State) : Goes (PcmOnly s) (pcmUnloadWave id s) := by
  unfold pcmUnloadWave
  split
  · exact pcmOnly_reply _ (.stored (.stopPlaying ..) ..)
  split
  · exact pcmOnly_reply _ (.refl s)
  · exact pcmOnly_reply _ (.stored (.stopPlaying ..) ..)

theorem PcmOnly.pcmEnvAll (s : State) : PcmOnly s (pcmEnvAll s) := by
  unfold PcmOnly
  rw [pcmEnvAll_eq]

/-- RESET: past the FM reset, the PCM reset of the state before it, with the register images and the FM state kept (R391). Cited with
`FmOnly.fmReset`, so that no proof evaluates the FM reset. -/
theorem pcmReset_fmOnly (h : FmOnly s t) :
    pcmReset P t =
      { pcmReset P s with
        chipReg := t.chipReg, shadow := t.shadow, fnumLatch := t.fnumLatch, fm := t.fm, voice := t.voice, fmBank := t.fmBank
        result := t.result } := by
  unfold FmOnly at h
  generalize t.chipReg = a, t.shadow = b, t.fnumLatch = c, t.fm = d, t.voice = e, t.fmBank = f, t.result = g at h ⊢
  rw [h]
  rfl

end Sys2Proof.Machine
end

