-- ==== Sys2Proof/Laws/Mixer.lean ====
section
/-! SUPPORT. The mixer (R332, R47): its sums over channels, and the two buffer elements that a pair is added to. -/

namespace Sys2Proof.Machine

/-! ## A mix with other masks (R334) -/

@[simp] theorem withMasks_maskA (s : State) (a : BitVec 6) (b : BitVec 8) : (s.withMasks a b).maskA = a := rfl
@[simp] theorem withMasks_maskB (s : State) (a : BitVec 6) (b : BitVec 8) : (s.withMasks a b).maskB = b := rfl
@[simp] theorem withMasks_mute (s : State) (a : BitVec 6) (b : BitVec 8) : (s.withMasks a b).mute = s.mute := rfl
@[simp] theorem withMasks_vol (s : State) (a : BitVec 6) (b : BitVec 8) : (s.withMasks a b).vol = s.vol := rfl
@[simp] theorem withMasks_chipReg (s : State) (a : BitVec 6) (b : BitVec 8) : (s.withMasks a b).chipReg = s.chipReg := rfl

/-- A state's own masks give the state. -/
@[simp] theorem withMasks_self (s : State) : s.withMasks s.maskA s.maskB = s := rfl

/-- The masks are no part of the lane scaling. -/
@[simp] theorem laneScale_withMasks (s : State) (a : BitVec 6) (b : BitVec 8) (x : Int) (l : Lane) :
    laneScale (s.withMasks a b) x l = laneScale s x l := rfl

/-! ## Sums and pairs -/

theorem fmChannels_sum (f : FmCh → Int) : (fmChannels.map f).sum = ∑ ch : FmCh, f ch := by
  rw [Fin.sum_univ_six]; simp [fmChannels]; ring

theorem rhyChannels_sum (f : RhyCh → Int) : (rhyChannels.map f).sum = ∑ i : RhyCh, f i := by
  rw [Fin.sum_univ_six]; simp [rhyChannels]; ring

theorem pcmChannels_sum (f : PcmCh → Int) : (pcmChannels.map f).sum = ∑ j : PcmCh, f j := by
  rw [Fin.sum_univ_eight]; simp [pcmChannels]; ring

theorem groupSum_eq (s : State) (sfx : Bool) (f : FmCh → Int) (p : PcmCh → Int) :
    groupSum s sfx f p =
      (∑ ch : FmCh, if s.maskA.getLsbD ch.val = sfx then f ch else 0) + ∑ j : PcmCh, if s.maskB.getLsbD j.val = sfx then p j else 0 := by
  unfold groupSum fmInSfx pcmInSfx; rw [fmChannels_sum, pcmChannels_sum]

/-- Every channel is in one group. -/
theorem groupSum_both (s : State) (f : FmCh → Int) (p : PcmCh → Int) :
    groupSum s false f p + groupSum s true f p = (∑ ch : FmCh, f ch) + ∑ j : PcmCh, p j := by
  rw [groupSum_eq, groupSum_eq]
  have h : ∀ a b c d : Int, a + b + (c + d) = (a + c) + (b + d) := by intros; ring
  rw [h, ← Finset.sum_add_distrib, ← Finset.sum_add_distrib]
  congr 1
  · exact Finset.sum_congr rfl fun x _ => by cases s.maskA.getLsbD x.val <;> simp
  · exact Finset.sum_congr rfl fun x _ => by cases s.maskB.getLsbD x.val <;> simp

theorem addPair_length (b : List OutElem) (e : Nat) (y : Stereo) : (addPair b e y).length = b.length := by
  unfold addPair addElem; simp

/-- The two elements of a pair inside the buffer take their sides, every other element stays. -/
theorem addPair_get {b : List OutElem} {e : Nat} (y : Stereo) (h : e + 1 < b.length) :
    (addPair b e y)[e]? = (b[e]?).map (fun x => x + BitVec.ofInt 32 y.left) ∧
    (addPair b e y)[e + 1]? = (b[e + 1]?).map (fun x => x + BitVec.ofInt 32 y.right) ∧
    ∀ k, k ≠ e → k ≠ e + 1 → (addPair b e y)[k]? = b[k]? := by
  have he : e < b.length := by omega
  unfold addPair addElem
  refine ⟨?_, ?_, fun k h1 h2 => ?_⟩
  · rw [List.getElem?_set_ne (by omega), List.getElem?_set_self he, List.getElem?_eq_getElem he]
    simp [List.getD_eq_getElem?_getD, List.getElem?_eq_getElem he]
  · rw [List.getElem?_set_self (by simpa using h), List.getElem?_eq_getElem h]
    simp [List.getD_eq_getElem?_getD, List.getElem?_set_ne (show e ≠ e + 1 by omega), List.getElem?_eq_getElem h]
  · rw [List.getElem?_set_ne (Ne.symm h2), List.getElem?_set_ne (Ne.symm h1)]

end Sys2Proof.Machine
end

