-- ==== Sys2Proof/Laws/Operands.lean ====
section
/-! SUPPORT. The operand checks (R11, R84, R85), one lemma for each side: what passes and which value it is, and what fails. -/

namespace Sys2Proof.Machine

/-! ## Indices -/

theorem index?_of_fin {n : Nat} (i : Fin n) : index? n (i.val : Int) = some i := by
  unfold index?; rw [dif_pos (by omega)]; congr

theorem index?_none {n : Nat} {x : Int} (h : x < 0 ∨ n ≤ x) : index? n x = none := by
  unfold index?; rw [dif_neg (by omega)]

theorem index?_some {n : Nat} {x : Int} (h0 : 0 ≤ x) (h1 : x < n) : ∃ i : Fin n, index? n x = some i ∧ (i.val : Int) = x := by
  unfold index?; rw [dif_pos ⟨h0, h1⟩]; exact ⟨_, rfl, Int.toNat_of_nonneg h0⟩

/-! ## Channels -/

theorem fmChan?_val (ch : FmCh) : fmChan? ch.val = some ch := index?_of_fin ch

theorem fmChan?_none {c : Int} (h : c < 0 ∨ 5 < c) : fmChan? c = none := index?_none (by omega)

theorem fmChan?_some {c : Int} (h0 : 0 ≤ c) (h1 : c ≤ 5) : ∃ ch : FmCh, fmChan? c = some ch ∧ (ch.val : Int) = c :=
  index?_some h0 (by omega)

theorem pcmChan?_val (j : PcmCh) : pcmChan? (0x40 + j.val) = some j := by
  unfold pcmChan?; rw [show (0x40 + j.val : Int) - 0x40 = (j.val : Int) by omega]; exact index?_of_fin j

theorem pcmChan?_none {c : Int} (h : c < 0x40 ∨ 0x47 < c) : pcmChan? c = none := index?_none (by omega)

/-! ## Values -/

theorem level7?_val (v : Level7) : level7? v.val = some v := index?_of_fin v

theorem level7?_none {x : Int} (h : x < 0 ∨ 127 < x) : level7? x = none := index?_none (by omega)

theorem fmNote?_val (n : Fin 96) : fmNote? (n.val + 12) = some n := by
  unfold fmNote?; rw [show (n.val + 12 : Int) - 12 = (n.val : Int) by omega]; exact index?_of_fin n

theorem fmNote?_none {x : Int} (h : x < 12 ∨ 107 < x) : fmNote? x = none := index?_none (by omega)

theorem pcmProg?_val (p : Fin 32) : pcmProg? p.val = some p := index?_of_fin p

theorem pcmProg?_none {x : Int} (h : x < 0 ∨ 31 < x) : pcmProg? x = none := index?_none (by omega)

theorem pitchInRange_iff {p : Int} : pitchInRange p = true ↔ -8192 ≤ p ∧ p ≤ 8191 := by unfold pitchInRange; simp

theorem lane?_val (l : Lane) : lane? l.val = some l := index?_of_fin l

theorem lane?_none {x : Int} (h : x < 0 ∨ 15 < x) : lane? x = none := index?_none (by omega)

theorem flag?_none {x : Int} (h0 : x ≠ 0) (h1 : x ≠ 1) : flag? x = none := by unfold flag?; rw [if_neg h0, if_neg h1]

theorem byte?_val (v : Byte) : byte? v.toNat = some v := by
  have h : index? 256 (v.toNat : Int) = some ⟨v.toNat, v.isLt⟩ := index?_of_fin ⟨v.toNat, v.isLt⟩
  unfold byte?; rw [h]; simp

theorem byte?_none {x : Int} (h : x < 0 ∨ 255 < x) : byte? x = none := by
  unfold byte?; rw [index?_none (by omega)]

/-! ## Registers -/

theorem regInRange_iff (p : Part) (r : Nat) : regInRange p r = true ↔ if p = 0 then r ≤ 0xB6 else 0x30 ≤ r ∧ r ≤ 0xB6 := by
  unfold regInRange; split <;> simp

theorem register?_val {p : Part} {r : Nat} (h : if p = 0 then r ≤ 0xB6 else 0x30 ≤ r ∧ r ≤ 0xB6) :
    register? p.val r = some (p, r) := by
  unfold register?; rw [index?_of_fin p]; simp [(regInRange_iff p r).mpr h]

theorem register?_none {part reg : Int} (h : ¬((part = 0 ∧ 0 ≤ reg ∧ reg ≤ 0xB6) ∨ (part = 1 ∧ 0x30 ≤ reg ∧ reg ≤ 0xB6))) :
    register? part reg = none := by
  unfold register?
  by_cases hp : 0 ≤ part ∧ part < 2
  · obtain ⟨p, hi, hv⟩ := index?_some (n := 2) hp.1 hp.2
    rw [hi]
    dsimp only
    rw [if_neg]
    rintro ⟨h0, h1⟩
    rw [regInRange_iff] at h1
    have : p = 0 ∨ p = 1 := by omega
    rcases this with rfl | rfl
    · rw [if_pos rfl] at h1; exact h (.inl ⟨by simpa using hv.symm, h0, by omega⟩)
    · rw [if_neg (by decide)] at h1; exact h (.inr ⟨by simpa using hv.symm, by omega, by omega⟩)
  · rw [index?_none (by omega)]

end Sys2Proof.Machine
end

