-- ==== Sys2Proof/Laws/PerInstr.lean ====
section
/-! SUPPORT. A law of every instruction: a well-formed one is encoded inside the spec's ranges (R82, R83, R85, R87). -/

namespace Sys2Proof.Laws.EncodesInRange

/-- A command has a code of the opcode table or is unsupported; a register write has a part, a register of the valid range of that part, and a
byte. -/
def Statement (i : Instr) : Prop :=
  i.WellFormed →
    match encode i with
    | .command code args => i.isRegWrite = false ∧ (code ∈ tabledCodes ∨ i = .unsupported code args)
    | .regWrite p r v => i.isRegWrite = true ∧ v < 256 ∧ ∃ h : p < 2, regInRange ⟨p, h⟩ r = true

/-! ## Commands -/

theorem reset : Statement .reset := fun _ => ⟨rfl, .inl (by decide)⟩

theorem keyonFm (chan note vel : Int) : Statement (.keyonFm chan note vel) := fun _ => ⟨rfl, .inl (by decide)⟩

theorem keyonPcm (chan note vel : Int) : Statement (.keyonPcm chan note vel) := fun _ => ⟨rfl, .inl (by decide)⟩

theorem keyoffFm (chan : Int) : Statement (.keyoffFm chan) := fun _ => ⟨rfl, .inl (by decide)⟩

theorem keyoffPcm (chan : Int) : Statement (.keyoffPcm chan) := fun _ => ⟨rfl, .inl (by decide)⟩

theorem setpanFm (chan pan : Int) : Statement (.setpanFm chan pan) := fun _ => ⟨rfl, .inl (by decide)⟩

theorem setpanPcm (chan pan : Int) : Statement (.setpanPcm chan pan) := fun _ => ⟨rfl, .inl (by decide)⟩

theorem setinstFm (chan prog : Int) : Statement (.setinstFm chan prog) := fun _ => ⟨rfl, .inl (by decide)⟩

theorem setinstPcm (chan prog : Int) : Statement (.setinstPcm chan prog) := fun _ => ⟨rfl, .inl (by decide)⟩

theorem setpitchFm (chan pitch : Int) : Statement (.setpitchFm chan pitch) := fun _ => ⟨rfl, .inl (by decide)⟩

theorem setpitchPcm (chan pitch : Int) : Statement (.setpitchPcm chan pitch) := fun _ => ⟨rfl, .inl (by decide)⟩

theorem setlevelFm (chan level : Int) : Statement (.setlevelFm chan level) := fun _ => ⟨rfl, .inl (by decide)⟩

theorem setlevelPcm (chan level : Int) : Statement (.setlevelPcm chan level) := fun _ => ⟨rfl, .inl (by decide)⟩

theorem choffFm (chan : Int) : Statement (.choffFm chan) := fun _ => ⟨rfl, .inl (by decide)⟩

theorem choffPcm (chan : Int) : Statement (.choffPcm chan) := fun _ => ⟨rfl, .inl (by decide)⟩

theorem loadinstFm (chanType prog : Int) (data : List Byte) : Statement (.loadinstFm chanType prog data) := fun _ => ⟨rfl, .inl (by decide)⟩

theorem loadinstPcm (chanType prog : Int) (data : List Byte) : Statement (.loadinstPcm chanType prog data) :=
  fun _ => ⟨rfl, .inl (by decide)⟩

theorem wrreg (part reg value : Int) : Statement (.wrreg part reg value) := fun _ => ⟨rfl, .inl (by decide)⟩

theorem wrregb (part reg value : Int) : Statement (.wrregb part reg value) := fun _ => ⟨rfl, .inl (by decide)⟩

theorem rdregb (part reg : Int) : Statement (.rdregb part reg) := fun _ => ⟨rfl, .inl (by decide)⟩

theorem setta (value : Int) : Statement (.setta value) := fun _ => ⟨rfl, .inl (by decide)⟩

theorem settb (value : Int) : Statement (.settb value) := fun _ => ⟨rfl, .inl (by decide)⟩

theorem enta (on : Int) : Statement (.enta on) := fun _ => ⟨rfl, .inl (by decide)⟩

theorem entb (on : Int) : Statement (.entb on) := fun _ => ⟨rfl, .inl (by decide)⟩

theorem ldsmp (dest size : Int) (data : List Byte) : Statement (.ldsmp dest size data) := fun _ => ⟨rfl, .inl (by decide)⟩

theorem reserve (n : Int) : Statement (.reserve n) := fun _ => ⟨rfl, .inl (by decide)⟩

theorem ldwave (data : List Byte) : Statement (.ldwave data) := fun _ => ⟨rfl, .inl (by decide)⟩

theorem unwave (id : Int) : Statement (.unwave id) := fun _ => ⟨rfl, .inl (by decide)⟩

theorem playfx (chan note vel : Int) (data : List Byte) : Statement (.playfx chan note vel data) := fun _ => ⟨rfl, .inl (by decide)⟩

theorem pcmoff (chan : Int) : Statement (.pcmoff chan) := fun _ => ⟨rfl, .inl (by decide)⟩

theorem fxq (chan : Int) : Statement (.fxq chan) := fun _ => ⟨rfl, .inl (by decide)⟩

theorem fmkeyon (chan note vel : Int) : Statement (.fmkeyon chan note vel) := fun _ => ⟨rfl, .inl (by decide)⟩

theorem fmkeyoff (chan : Int) : Statement (.fmkeyoff chan) := fun _ => ⟨rfl, .inl (by decide)⟩

theorem fmpan (chan pan : Int) : Statement (.fmpan chan pan) := fun _ => ⟨rfl, .inl (by decide)⟩

theorem fminst (chan prog : Int) : Statement (.fminst chan prog) := fun _ => ⟨rfl, .inl (by decide)⟩

theorem fmload (prog : Int) (data : List Byte) : Statement (.fmload prog data) := fun _ => ⟨rfl, .inl (by decide)⟩

theorem fmpitch (chan pitch : Int) : Statement (.fmpitch chan pitch) := fun _ => ⟨rfl, .inl (by decide)⟩

theorem fmlevel (chan level : Int) : Statement (.fmlevel chan level) := fun _ => ⟨rfl, .inl (by decide)⟩

theorem fmreset : Statement .fmreset := fun _ => ⟨rfl, .inl (by decide)⟩

theorem setvol (lane level : Int) : Statement (.setvol lane level) := fun _ => ⟨rfl, .inl (by decide)⟩

theorem rstvol : Statement .rstvol := fun _ => ⟨rfl, .inl (by decide)⟩

theorem getvol (args : List Arg) : Statement (.getvol args) := fun _ => ⟨rfl, .inl (by decide)⟩

theorem setmute (lane mute : Int) : Statement (.setmute lane mute) := fun _ => ⟨rfl, .inl (by decide)⟩

theorem cdtoggle (args : List Arg) : Statement (.cdtoggle args) := fun _ => ⟨rfl, .inl (by decide)⟩

theorem getvol2 (args : List Arg) : Statement (.getvol2 args) := fun _ => ⟨rfl, .inl (by decide)⟩

theorem getmute (lane : Int) : Statement (.getmute lane) := fun _ => ⟨rfl, .inl (by decide)⟩

theorem pcmenv : Statement .pcmenv := fun _ => ⟨rfl, .inl (by decide)⟩

theorem unsupported55 (args : List Arg) : Statement (.unsupported55 args) := fun _ => ⟨rfl, .inl (by decide)⟩

theorem unsupported74 (args : List Arg) : Statement (.unsupported74 args) := fun _ => ⟨rfl, .inl (by decide)⟩

theorem unsupported75 (args : List Arg) : Statement (.unsupported75 args) := fun _ => ⟨rfl, .inl (by decide)⟩

theorem unsupported (code : Int) (args : List Arg) : Statement (.unsupported code args) := fun _ => ⟨rfl, .inr rfl⟩

/-! ## Register writes -/

/-- A byte and a register of the valid range. -/
theorem inRange (p : Part) (r : Nat) (v : Byte) (h : regInRange p r = true) :
    v.toNat < 256 ∧ ∃ h : p.val < 2, regInRange ⟨p.val, h⟩ r = true := ⟨v.isLt, p.isLt, h⟩

/-- The operator rows and the channel rows lie in the valid range of both parts. -/
theorem fmRow {row : Nat} (h0 : 0x30 ≤ row) (h1 : row ≤ 0xB4) (p : Part) {k : Nat} (hk : k ≤ 2) : regInRange p (row + k) = true := by
  rw [regInRange]; split <;> simp <;> omega

theorem opRow {row : Nat} (h0 : 0x30 ≤ row) (h1 : row ≤ 0x80) (op : OpSel) (ch : FmCh) : regInRange (fmPart ch) (opReg row op ch) = true := by
  have : ch.val % 3 < 3 := Nat.mod_lt _ (by decide)
  unfold opReg fmIdx
  cases op <;> exact fmRow (by simp [slotOffset]; omega) (by simp [slotOffset]; omega) _ (by omega)

theorem chRow {row : Nat} (h0 : 0x30 ≤ row) (h1 : row ≤ 0xB4) (ch : FmCh) : regInRange (fmPart ch) (chReg row ch) = true := by
  have : ch.val % 3 < 3 := Nat.mod_lt _ (by decide)
  unfold chReg fmIdx
  exact fmRow h0 h1 _ (by omega)

theorem ssgToneLow (i : SsgCh) (v : Byte) : Statement (.ssgToneLow i v) := fun hw => ⟨rfl, inRange _ _ v (by clear hw; revert i; decide)⟩

theorem ssgToneHigh (i : SsgCh) (v : Byte) : Statement (.ssgToneHigh i v) := fun hw => ⟨rfl, inRange _ _ v (by clear hw; revert i; decide)⟩

theorem ssgNoisePeriod (v : Byte) : Statement (.ssgNoisePeriod v) := fun _ => ⟨rfl, inRange _ _ v (by decide)⟩

theorem ssgEnable (v : Byte) : Statement (.ssgEnable v) := fun _ => ⟨rfl, inRange _ _ v (by decide)⟩

theorem ssgLevel (i : SsgCh) (v : Byte) : Statement (.ssgLevel i v) := fun hw => ⟨rfl, inRange _ _ v (by clear hw; revert i; decide)⟩

theorem ssgEnvPeriod (high : Bool) (v : Byte) : Statement (.ssgEnvPeriod high v) := fun _ => ⟨rfl, inRange _ _ v (by cases high <;> decide)⟩

theorem ssgEnvShape (v : Byte) : Statement (.ssgEnvShape v) := fun _ => ⟨rfl, inRange _ _ v (by decide)⟩

theorem rhythmKey (v : Byte) : Statement (.rhythmKey v) := fun _ => ⟨rfl, inRange _ _ v (by decide)⟩

theorem rhythmTotalLevel (v : Byte) : Statement (.rhythmTotalLevel v) := fun _ => ⟨rfl, inRange _ _ v (by decide)⟩

theorem rhythmChannelLevel (i : RhyCh) (v : Byte) : Statement (.rhythmChannelLevel i v) :=
  fun hw => ⟨rfl, inRange _ _ v (by clear hw; revert i; decide)⟩

theorem timerAHigh (v : Byte) : Statement (.timerAHigh v) := fun _ => ⟨rfl, inRange _ _ v (by decide)⟩

theorem timerALow (v : Byte) : Statement (.timerALow v) := fun _ => ⟨rfl, inRange _ _ v (by decide)⟩

theorem timerB (v : Byte) : Statement (.timerB v) := fun _ => ⟨rfl, inRange _ _ v (by decide)⟩

theorem fmKey (v : Byte) : Statement (.fmKey v) := fun _ => ⟨rfl, inRange _ _ v (by decide)⟩

theorem fmDtMul (ch : FmCh) (op : OpSel) (v : Byte) : Statement (.fmDtMul ch op v) :=
  fun _ => ⟨rfl, inRange _ _ v (opRow (by decide) (by decide) op ch)⟩

theorem fmTl (ch : FmCh) (op : OpSel) (v : Byte) : Statement (.fmTl ch op v) :=
  fun _ => ⟨rfl, inRange _ _ v (opRow (by decide) (by decide) op ch)⟩

theorem fmKsAr (ch : FmCh) (op : OpSel) (v : Byte) : Statement (.fmKsAr ch op v) :=
  fun _ => ⟨rfl, inRange _ _ v (opRow (by decide) (by decide) op ch)⟩

theorem fmAmDr (ch : FmCh) (op : OpSel) (v : Byte) : Statement (.fmAmDr ch op v) :=
  fun _ => ⟨rfl, inRange _ _ v (opRow (by decide) (by decide) op ch)⟩

theorem fmSr (ch : FmCh) (op : OpSel) (v : Byte) : Statement (.fmSr ch op v) :=
  fun _ => ⟨rfl, inRange _ _ v (opRow (by decide) (by decide) op ch)⟩

theorem fmSlRr (ch : FmCh) (op : OpSel) (v : Byte) : Statement (.fmSlRr ch op v) :=
  fun _ => ⟨rfl, inRange _ _ v (opRow (by decide) (by decide) op ch)⟩

theorem fmFnumLow (ch : FmCh) (v : Byte) : Statement (.fmFnumLow ch v) := fun _ => ⟨rfl, inRange _ _ v (chRow (by decide) (by decide) ch)⟩

theorem fmBlockFnumHigh (ch : FmCh) (v : Byte) : Statement (.fmBlockFnumHigh ch v) :=
  fun _ => ⟨rfl, inRange _ _ v (chRow (by decide) (by decide) ch)⟩

theorem fmFbAlg (ch : FmCh) (v : Byte) : Statement (.fmFbAlg ch v) := fun _ => ⟨rfl, inRange _ _ v (chRow (by decide) (by decide) ch)⟩

theorem fmPan (ch : FmCh) (v : Byte) : Statement (.fmPan ch v) := fun _ => ⟨rfl, inRange _ _ v (chRow (by decide) (by decide) ch)⟩

theorem storedOnly (part : Part) (reg : Nat) (v : Byte) : Statement (.storedOnly part reg v) := fun hw =>
  ⟨rfl, inRange part reg v (by
    simp only [Instr.WellFormed, Instr.wf, storedOnlyReg] at hw
    rw [regInRange]
    split <;> simp_all <;> omega)⟩

end Sys2Proof.Laws.EncodesInRange
end

