-- ==== Sys2Proof/Laws/Results.lean ====
section
/-! SUPPORT. How commands end (R121, R122): with a result code, and with no change unless it is 0; and what no step clears. -/

namespace Sys2Proof.Machine

variable {P : Params} {s t u : State}

/-- The command ends with a result code and no out-value; with any code but 0 nothing has changed. -/
def Replies (s : State) (o : Host.Outcome State Fault Refusal) : Prop := ∃ rc t, o = reply rc t ∧ (rc ≠ .success → t = s)

theorem replies_same (rc : Rc) (s : State) : Replies s (reply rc s) := ⟨rc, s, rfl, fun _ => rfl⟩

theorem replies_success (s t : State) : Replies s (reply .success t) := ⟨.success, t, rfl, fun h => absurd rfl h⟩

/-- The instructions that give an out-value when they succeed (R122). -/
def Instr.isQuery : Instr → Prop := fun i => (∃ p x, i = .rdregb p x) ∨ (∃ c, i = .fxq c) ∨ (∃ l, i = .getmute l)

/-- Every command but the three queries ends so. -/
theorem replies_exec (i : Instr) (hr : i.isRegWrite = false) (hq : ¬Instr.isQuery i) (s : State) : Replies s (exec i s) := by
  cases i with
  | reset => exact replies_success ..
  | keyonFm c n v | fmkeyon c n v =>
    show Replies s (fmKeyOn params c n v s)
    unfold fmKeyOn
    repeat' split
    all_goals first | exact replies_same _ _ | exact replies_success ..
  | keyonPcm c n v =>
    show Replies s (pcmKeyOn params c n v s)
    unfold pcmKeyOn
    repeat' split
    all_goals first | exact replies_same _ _ | exact replies_success ..
  | keyoffFm c | fmkeyoff c =>
    show Replies s (fmKeyOff params c s)
    unfold fmKeyOff
    repeat' split
    all_goals first | exact replies_same _ _ | exact replies_success ..
  | keyoffPcm c =>
    show Replies s (pcmKeyOff c s)
    unfold pcmKeyOff
    repeat' split
    all_goals first | exact replies_same _ _ | exact replies_success ..
  | setpanFm c p | fmpan c p =>
    show Replies s (fmSetPan params c p s)
    unfold fmSetPan
    repeat' split
    all_goals first | exact replies_same _ _ | exact replies_success ..
  | setpanPcm c p =>
    show Replies s (pcmSetPan c p s)
    unfold pcmSetPan
    repeat' split
    all_goals first | exact replies_same _ _ | exact replies_success ..
  | setinstFm c p | fminst c p =>
    show Replies s (fmSetInst params c p s)
    unfold fmSetInst
    repeat' split
    all_goals first | exact replies_same _ _ | exact replies_success ..
  | setinstPcm c p =>
    show Replies s (pcmSetInst c p s)
    unfold pcmSetInst
    repeat' split
    all_goals first | exact replies_same _ _ | exact replies_success ..
  | setpitchFm c p | fmpitch c p =>
    show Replies s (fmSetPitch params c p s)
    unfold fmSetPitch
    repeat' split
    all_goals first | exact replies_same _ _ | exact replies_success ..
  | setpitchPcm c p =>
    show Replies s (pcmSetPitch params c p s)
    unfold pcmSetPitch
    repeat' split
    all_goals first | exact replies_same _ _ | exact replies_success ..
  | setlevelFm c l | fmlevel c l =>
    show Replies s (fmSetLevel params c l s)
    unfold fmSetLevel
    repeat' split
    all_goals first | exact replies_same _ _ | exact replies_success ..
  | setlevelPcm c l =>
    show Replies s (pcmSetLevel c l s)
    unfold pcmSetLevel
    repeat' split
    all_goals first | exact replies_same _ _ | exact replies_success ..
  | choffFm c =>
    show Replies s (fmChOff params c s)
    unfold fmChOff
    repeat' split
    all_goals first | exact replies_same _ _ | exact replies_success ..
  | choffPcm c | pcmoff c =>
    show Replies s (pcmOff c s)
    unfold pcmOff
    repeat' split
    all_goals first | exact replies_same _ _ | exact replies_success ..
  | loadinstFm c p d | fmload p d =>
    show Replies s (fmLoadInst p d s)
    unfold fmLoadInst
    repeat' split
    all_goals first | exact replies_same _ _ | exact replies_success ..
  | loadinstPcm c p d =>
    show Replies s (pcmLoadInst p d s)
    unfold pcmLoadInst
    repeat' split
    all_goals first | exact replies_same _ _ | exact replies_success ..
  | wrreg p r v =>
    show Replies s (writeRegister params p r v s)
    unfold writeRegister
    split
    · exact replies_success ..
    · exact replies_same _ _
  | wrregb p r v =>
    show Replies s (writeRegisterBuffered params p r v s)
    unfold writeRegisterBuffered
    split
    · exact replies_success ..
    · exact replies_same _ _
  | rdregb p r => exact absurd (.inl ⟨p, r, rfl⟩) hq
  | setta v =>
    show Replies s (execSetta v s)
    unfold execSetta
    split
    · exact replies_success ..
    · exact replies_same _ _
  | settb v =>
    show Replies s (execSettb v s)
    unfold execSettb
    split
    · exact replies_success ..
    · exact replies_same _ _
  | enta on =>
    show Replies s (execEnta on s)
    unfold execEnta
    split
    · exact replies_success ..
    · exact replies_same _ _
  | entb on =>
    show Replies s (execEntb on s)
    unfold execEntb
    split
    · exact replies_success ..
    · exact replies_same _ _
  | ldsmp a n d =>
    show Replies s (pcmLoadSamples a n d s)
    unfold pcmLoadSamples
    repeat' split
    all_goals first | exact replies_same _ _ | exact replies_success ..
  | reserve n =>
    show Replies s (pcmReserve params n s)
    unfold pcmReserve
    repeat' split
    all_goals first | exact replies_same _ _ | exact replies_success ..
  | ldwave d =>
    show Replies s (pcmLoadWave params d s)
    unfold pcmLoadWave
    split
    · exact replies_same _ _
    · exact replies_success ..
  | unwave id =>
    show Replies s (pcmUnloadWave id s)
    unfold pcmUnloadWave
    split
    · exact replies_success ..
    split
    · exact replies_same _ _
    · exact replies_success ..
  | playfx c n v d =>
    show Replies s (pcmPlayEffect params c n v d s)
    unfold pcmPlayEffect
    repeat' split
    all_goals first | exact replies_same _ _ | exact replies_success ..
  | fxq c => exact absurd (.inr (.inl ⟨c, rfl⟩)) hq
  | fmreset => exact replies_success ..
  | setvol l v =>
    show Replies s (execSetvol l v s)
    unfold execSetvol
    split
    · exact replies_success ..
    · exact replies_same _ _
  | rstvol => exact replies_success ..
  | setmute l m =>
    show Replies s (execSetmute l m s)
    unfold execSetmute
    split
    · exact replies_success ..
    · exact replies_same _ _
  | getvol _ | cdtoggle _ | getvol2 _ => exact replies_same _ _
  | getmute l => exact absurd (.inr (.inr ⟨l, rfl⟩)) hq
  | pcmenv => exact replies_success ..
  | unsupported55 _ | unsupported74 _ | unsupported75 _ | unsupported _ _ => exact replies_same _ _
  | ssgToneLow | ssgToneHigh | ssgNoisePeriod | ssgEnable | ssgLevel | ssgEnvPeriod | ssgEnvShape | rhythmKey | rhythmTotalLevel
  | rhythmChannelLevel | timerAHigh | timerALow | timerB | fmKey | fmDtMul | fmTl | fmKsAr | fmAmDr | fmSr | fmSlRr | fmFnumLow
  | fmBlockFnumHigh | fmFbAlg | fmPan | storedOnly => cases hr

/-- A query answers `(0, v)` or fails with a code other than 0, and changes nothing. -/
theorem answers_exec (i : Instr) (hq : Instr.isQuery i) (s : State) :
    (∃ v, exec i s = answer v s) ∨ ∃ rc, rc ≠ Rc.success ∧ exec i s = reply rc s := by
  obtain ⟨p, r, rfl⟩ | ⟨c, rfl⟩ | ⟨l, rfl⟩ := hq
  · show (∃ v, readRegisterBuffered params p r s = _) ∨ ∃ rc, _ ∧ readRegisterBuffered params p r s = _
    unfold readRegisterBuffered
    split
    · exact .inl ⟨_, rfl⟩
    · exact .inr ⟨.badValue, by decide, rfl⟩
  · show (∃ v, pcmEffectPlaying c s = _) ∨ ∃ rc, _ ∧ pcmEffectPlaying c s = _
    unfold pcmEffectPlaying
    split
    · exact .inr ⟨.badChannel, by decide, rfl⟩
    · exact .inl ⟨_, rfl⟩
  · show (∃ v, execGetmute l s = _) ∨ ∃ rc, _ ∧ execGetmute l s = _
    unfold execGetmute
    split
    · exact .inl ⟨_, rfl⟩
    · exact .inr ⟨.badValue, by decide, rfl⟩

/-! ## Sticky marks (R26) -/

/-- No fault flag and no refused mark is cleared, and the lock setting stays. -/
structure Sticky (s t : State) : Prop where
  overflow : s.faults.ssgQueueOverflow = true → t.faults.ssgQueueOverflow = true
  reentry : s.faults.produceReentry = true → t.faults.produceReentry = true
  bounds : s.faults.bufferBounds = true → t.faults.bufferBounds = true
  lock : s.faults.lockViolation = true → t.faults.lockViolation = true
  refused : s.refused = true → t.refused = true

theorem Sticky.refl (s : State) : Sticky s s := ⟨id, id, id, id, id⟩

theorem Sticky.trans (h : Sticky s t) (k : Sticky t u) : Sticky s u :=
  ⟨fun x => k.overflow (h.overflow x), fun x => k.reentry (h.reentry x), fun x => k.bounds (h.bounds x), fun x => k.lock (h.lock x),
    fun x => k.refused (h.refused x)⟩

theorem Sticky.of_eq (hf : t.faults = s.faults) (hr : t.refused = s.refused) : Sticky s t := by
  constructor <;> simp [hf, hr]

theorem InstrFrame.sticky (h : InstrFrame s t) : Sticky s t where
  overflow := h.overflow_sticky
  reentry := by rw [h.faults_eq]; exact id
  bounds := by rw [h.faults_eq]; exact id
  lock := by rw [h.faults_eq]; exact id
  refused := by rw [h.refused]; exact id

theorem Sticky.refuse (s : State) : Sticky s (refuse s) := { Sticky.refl s with refused := fun _ => rfl }

theorem Sticky.reenter (s : State) : Sticky s (reenter s) := { Sticky.refl s with reentry := fun _ => rfl, refused := fun _ => rfl }

theorem Sticky.lockViolated (s : State) : Sticky s (lockViolated s) :=
  { Sticky.refl s with lock := fun _ => rfl, refused := fun _ => rfl }

theorem sticky_processCommand (code : Int) (args : List Arg) (s : State) : Goes (Sticky s) (processCommand code args s) := by
  unfold processCommand
  split
  · exact (frame_exec _ s).imp fun _ h => h.sticky
  · exact goes_next (Sticky.refuse s)

theorem sticky_nestedCall (c : HostCall) (s : State) : Goes (Sticky s) (nestedCall c s) := by
  cases c with
  | command code args =>
    exact goes_andThen (sticky_processCommand code args s) fun t h => goes_next (h.trans (.of_eq rfl rfl))
  | produce b o n => exact goes_next (Sticky.reenter s)
  | setCallbacks a b => exact goes_next (.of_eq rfl rfl)
  | setVolumeMasks a b => exact goes_next (.of_eq rfl rfl)

theorem sticky_nestedCalls (cs : List HostCall) (s : State) : Goes (Sticky s) (nestedCalls cs s) := by
  induction cs generalizing s with
  | nil => exact goes_next (.refl s)
  | cons c cs ih => exact goes_andThen (sticky_nestedCall c s) fun t h => (ih t).imp fun _ k => h.trans k

theorem sticky_runCallback (cb : Option ProcId) (s : State) : Goes (Sticky s) (runCallback cb s) := by
  cases cb with
  | none => exact goes_next (.refl s)
  | some id =>
    have h0 : Sticky s (procCalled id s) := .of_eq rfl rfl
    exact (sticky_nestedCalls _ _).imp fun _ h => h0.trans h

theorem sticky_timerTickA (s : State) : Goes (Sticky s) (timerTickA P s) := by
  unfold timerTickA
  repeat' split
  · exact goes_next (.refl s)
  · have h0 : Sticky s { s with timerA := { s.timerA with cnt := 0 } } := .of_eq rfl rfl
    exact (sticky_runCallback _ _).imp fun _ h => h0.trans h
  · exact goes_next (.of_eq rfl rfl)

theorem sticky_timerTickB (s : State) : Goes (Sticky s) (timerTickB P s) := by
  unfold timerTickB
  repeat' split
  · exact goes_next (.refl s)
  · refine goes_andThen (sticky_runCallback _ _) fun t h => goes_next ?_
    have h0 : Sticky s { s with timerB := { s.timerB with cnt := 0 } } := .of_eq rfl rfl
    exact (h0.trans h).trans (QuietFrame.pcmEnvAll t).toInstrFrame.sticky
  · exact goes_next (.of_eq rfl rfl)

theorem sticky_engines (e : Nat) (a : BitVec 6) (b : BitVec 8) (s : State) : Sticky s (engines P e a b s) := by
  have h := engines_eq (P := P) e a b s
  generalize engines P e a b s = u at h ⊢
  exact .of_eq (by rw [h]) (by rw [h])

theorem sticky_tick (e : Nat) (s : State) : Goes (Sticky s) (tick P e s) := by
  unfold tick
  refine goes_andThen (sticky_timerTickA (ssgDrain s)) fun t h => goes_andThen (sticky_timerTickB t) fun u k => goes_next ?_
  have h0 : Sticky s (ssgDrain s) := .of_eq rfl rfl
  exact ((h0.trans h).trans k).trans (sticky_engines e s.maskA s.maskB u)

theorem sticky_ticks (n e : Nat) (s : State) : Goes (Sticky s) (ticks P n e s) := by
  induction n generalizing e s with
  | zero => exact goes_next (.refl s)
  | succ n ih => exact goes_andThen (sticky_tick e s) fun t h => (ih (e + 2) t).imp fun _ k => h.trans k

theorem sticky_produce (buffer : List OutElem) (offset count : Int) (s : State) :
    Goes (Sticky s) (produce P buffer offset count s) := by
  unfold produce
  split
  · exact goes_next (Sticky.reenter s)
  split
  · exact goes_next { Sticky.refl s with bounds := fun _ => rfl }
  · refine goes_andThen (sticky_ticks _ _ _) fun t h => goes_next ?_
    have h0 : Sticky s { s with inProduce := true, outBuffer := buffer, callbackResults := [], result := none } := .of_eq rfl rfl
    exact (h0.trans h).trans (.of_eq rfl rfl)

/-- No step of the host clears a fault flag or the refused mark; and it goes on. -/
theorem sticky_hostStep (h : HostStep) (s : State) : Goes (Sticky s) (hostStep h s) := by
  unfold hostStep
  split
  · exact goes_next (Sticky.lockViolated s)
  · cases h.call with
    | command code args => exact sticky_processCommand code args s
    | produce b o n => exact sticky_produce b o n s
    | setCallbacks a b => exact goes_next (.of_eq rfl rfl)
    | setVolumeMasks a b => exact goes_next (.of_eq rfl rfl)

end Sys2Proof.Machine
end

