-- ==== Sys2Proof/Laws/Ssg.lean ====
section
/-! SUPPORT. The SSG (R241 to R244): what each part of its tick changes, and the envelope's ramps. -/

namespace Sys2Proof.Machine

variable {P : Params}

/-! ## Tones and noise (R242, R243) -/

/-- One tone step changes its own channel's counter and square. -/
theorem toneStep_spec (g : Ssg) (j : SsgCh) :
    Ssg.toneStep P g j = { g with toneCnt := (Ssg.toneStep P g j).toneCnt, sq := (Ssg.toneStep P g j).sq } ∧
    (∀ i : SsgCh, i ≠ j → (Ssg.toneStep P g j).toneCnt[i] = g.toneCnt[i] ∧ (Ssg.toneStep P g j).sq[i] = g.sq[i]) ∧
    let period := max 1 (g.tonePeriod j) * P.ssgToneUnit
    (g.toneCnt[j] + 1 < period →
      (Ssg.toneStep P g j).toneCnt[j] = g.toneCnt[j] + 1 ∧ (Ssg.toneStep P g j).sq[j] = g.sq[j]) ∧
    (period ≤ g.toneCnt[j] + 1 → (Ssg.toneStep P g j).toneCnt[j] = 0 ∧ (Ssg.toneStep P g j).sq[j] = !g.sq[j]) := by
  unfold Ssg.toneStep
  dsimp only
  by_cases h : max 1 (g.tonePeriod j) * P.ssgToneUnit ≤ g.toneCnt[j] + 1
  · rw [if_pos h]
    refine ⟨rfl, fun i hi => ⟨?_, ?_⟩, fun h' => by omega, fun _ => ⟨?_, ?_⟩⟩
    · rw [vector_getElem_set_fin, if_neg hi]
    · rw [vector_getElem_set_fin, if_neg hi]
    · rw [vector_getElem_set_fin, if_pos rfl]
    · rw [vector_getElem_set_fin, if_pos rfl]
  · rw [if_neg h]
    refine ⟨rfl, fun i hi => ⟨?_, rfl⟩, fun _ => ⟨?_, rfl⟩, fun h' => by omega⟩
    · dsimp only; rw [vector_getElem_set_fin, if_neg hi]
    · dsimp only; rw [vector_getElem_set_fin, if_pos rfl]

/-- The three tone steps of a tick. -/
theorem toneSteps_spec (g : Ssg) :
    let h := ssgChannels.foldl (Ssg.toneStep P) g
    h = { g with toneCnt := h.toneCnt, sq := h.sq } ∧
    ∀ i : SsgCh,
      let period := max 1 (g.tonePeriod i) * P.ssgToneUnit
      (g.toneCnt[i] + 1 < period → h.toneCnt[i] = g.toneCnt[i] + 1 ∧ h.sq[i] = g.sq[i]) ∧
      (period ≤ g.toneCnt[i] + 1 → h.toneCnt[i] = 0 ∧ h.sq[i] = !g.sq[i]) := by
  have key : ∀ (l : List SsgCh) (_ : l.Nodup) (g : Ssg),
      let h := l.foldl (Ssg.toneStep P) g
      h = { g with toneCnt := h.toneCnt, sq := h.sq } ∧
      ∀ i : SsgCh,
        (i ∉ l → h.toneCnt[i] = g.toneCnt[i] ∧ h.sq[i] = g.sq[i]) ∧
        (i ∈ l →
          let period := max 1 (g.tonePeriod i) * P.ssgToneUnit
          (g.toneCnt[i] + 1 < period → h.toneCnt[i] = g.toneCnt[i] + 1 ∧ h.sq[i] = g.sq[i]) ∧
          (period ≤ g.toneCnt[i] + 1 → h.toneCnt[i] = 0 ∧ h.sq[i] = !g.sq[i])) := by
    intro l
    induction l with
    | nil => intro _ g; simp
    | cons j l ih =>
      intro hl g
      rw [List.nodup_cons] at hl
      rw [List.foldl_cons]
      obtain ⟨a, b⟩ := ih hl.2 (Ssg.toneStep P g j)
      obtain ⟨s1, s2, s3⟩ := toneStep_spec (P := P) g j
      generalize l.foldl (Ssg.toneStep P) (Ssg.toneStep P g j) = h at a b
      generalize Ssg.toneStep P g j = k at *
      refine ⟨by rw [a, s1], fun i => ⟨fun hi => ?_, fun hi => ?_⟩⟩
      · rw [List.mem_cons, not_or] at hi
        exact ⟨((b i).1 hi.2).1.trans (s2 i hi.1).1, ((b i).1 hi.2).2.trans (s2 i hi.1).2⟩
      · by_cases hij : i = j
        · subst hij
          rw [((b i).1 hl.1).1, ((b i).1 hl.1).2]; exact s3
        · have h := (b i).2 ((List.mem_cons.mp hi).resolve_left hij)
          rw [(s2 i hij).1, (s2 i hij).2, show k.tonePeriod i = g.tonePeriod i by unfold Ssg.tonePeriod; rw [s1]] at h
          exact h
  obtain ⟨a, b⟩ := key ssgChannels (by decide) g
  exact ⟨a, fun i => (b i).2 (by revert i; decide)⟩

/-- The noise register shifts right, and takes the exclusive or of bits 0 and 3 at the top. -/
theorem lfsrStep_bit (l : BitVec 17) {k : Nat} (hk : k < 17) :
    (lfsrStep l).getLsbD k = if k = 16 then Bool.xor (l.getLsbD 0) (l.getLsbD 3) else l.getLsbD (k + 1) := by
  unfold lfsrStep
  rw [BitVec.getLsbD_or, BitVec.getLsbD_ushiftRight]
  by_cases h16 : k = 16
  · subst h16
    rw [if_pos rfl, show l.getLsbD (1 + 16) = false from BitVec.getLsbD_of_ge _ _ (by omega)]
    cases Bool.xor (l.getLsbD 0) (l.getLsbD 3) <;> simp
  · have : (if Bool.xor (l.getLsbD 0) (l.getLsbD 3) = true then (0x10000 : BitVec 17) else 0).getLsbD k = false := by
      split
      · have : k < 16 := by omega
        interval_cases k <;> decide
      · simp
    rw [if_neg h16, this, Nat.add_comm]; simp

theorem noiseStep_frame (g : Ssg) :
    Ssg.noiseStep P g = { g with noiseCnt := (Ssg.noiseStep P g).noiseCnt, lfsr := (Ssg.noiseStep P g).lfsr } := by
  unfold Ssg.noiseStep; dsimp only; split <;> rfl

/-! ## Envelope (R244) -/

theorem envCycle_frame (g : Ssg) :
    g.envCycle =
      { g with envCount := g.envCycle.envCount, envAttack := g.envCycle.envAttack, envHolding := g.envCycle.envHolding } := by
  unfold Ssg.envCycle
  repeat' split
  all_goals rfl

theorem envPeriodStep_frame (g : Ssg) :
    Ssg.envPeriodStep P g =
      { g with
        envCnt := (Ssg.envPeriodStep P g).envCnt, envCount := (Ssg.envPeriodStep P g).envCount
        envAttack := (Ssg.envPeriodStep P g).envAttack, envHolding := (Ssg.envPeriodStep P g).envHolding } := by
  unfold Ssg.envPeriodStep
  dsimp only
  repeat' split
  · rfl
  · have h := envCycle_frame { g with envCnt := 0 }
    generalize Ssg.envCycle { g with envCnt := 0 } = u at h ⊢
    rw [h]
  · rfl

/-- The envelope at a count, a direction and a hold, everything else as in `g`. -/
def Ssg.envAt (g : Ssg) (count : Nat) (attack holding : Bool) : Ssg :=
  { g with envCount := Fin.ofNat 32 count, envAttack := attack, envHolding := holding }

/-- One envelope period, if the envelope is not holding. -/
def Ssg.envPeriodOnce (g : Ssg) : Ssg := if g.envHolding = true then g else g.envCycle

theorem envAt_level (g : Ssg) {c : Nat} (a h : Bool) (hc : c < 32) : (g.envAt c a h).envLvl.val = if a = true then 31 - c else c := by
  have h0 : (Fin.ofNat 32 c).val = c := Nat.mod_eq_of_lt hc
  unfold Ssg.envLvl Ssg.envAt
  dsimp only
  split
  · rw [h0]; exact Nat.mod_eq_of_lt (by omega)
  · exact h0

/-- A holding envelope stays. -/
theorem envHeld (n : Nat) {g : Ssg} (h : g.envHolding = true) : Ssg.envPeriodOnce^[n] g = g := by
  induction n with
  | zero => rfl
  | succ n ih => rw [Function.iterate_succ_apply, show g.envPeriodOnce = g from if_pos h, ih]

/-- The count falls by one a period, down to 0. -/
theorem envRamp (g : Ssg) (a : Bool) (n : Nat) {c : Nat} (h : n ≤ c) (hc : c < 32) :
    Ssg.envPeriodOnce^[n] (g.envAt c a false) = g.envAt (c - n) a false := by
  induction n generalizing c with
  | zero => rfl
  | succ n ih =>
    have step : (g.envAt c a false).envPeriodOnce = g.envAt (c - 1) a false := by
      have h0 : (Fin.ofNat 32 c).val = c := Nat.mod_eq_of_lt hc
      unfold Ssg.envPeriodOnce
      rw [if_neg (by unfold Ssg.envAt; simp)]
      unfold Ssg.envCycle Ssg.envAt
      dsimp only
      rw [if_pos (fun h' => by have := congrArg Fin.val h'; rw [h0] at this; simp at this; omega), h0]
    rw [Function.iterate_succ_apply, step, ih (by omega) (by omega)]
    congr 1
    omega

/-- What a period does at count 0, by the shape bits. -/
theorem envEnd (g : Ssg) (a : Bool) :
    (g.envAt 0 a false).envCycle =
      if g.cont = false then g.envAt 0 false true
      else if g.hold = true then g.envAt 0 (if g.alt = true then !a else a) true
      else g.envAt 31 (if g.alt = true then !a else a) false := by
  unfold Ssg.envCycle
  rw [if_neg (by unfold Ssg.envAt; simp), show (g.envAt 0 a false).cont = g.cont from rfl,
    show (g.envAt 0 a false).hold = g.hold from rfl, show (g.envAt 0 a false).alt = g.alt from rfl]
  cases g.cont <;> cases g.hold <;> cases g.alt <;> rfl

/-- A whole ramp of 32 periods from the top count. -/
theorem envWhole (g : Ssg) (a : Bool) : Ssg.envPeriodOnce^[32] (g.envAt 31 a false) = (g.envAt 0 a false).envCycle := by
  rw [show 32 = 1 + 31 from rfl, Function.iterate_add_apply, envRamp g a 31 (by omega) (by omega)]
  rfl

end Sys2Proof.Machine
end

