-- ==== Sys2Proof/Tests/Slice0.lean ====
section
/-! SUPPORT. Tests of one decode or one step each, with results from the spec's own vectors (95_test_vectors.md) or worked out from the rule
named, and for every statement of Obligations.lean a concrete input that meets its hypotheses. -/

namespace Sys2Proof.Tests

open Sys2Proof Sys2Proof.Machine

/-! ## Small inputs -/

/-- A state with every register zero, no program and no table: the tests set what they need. -/
def blank : State :=
  { chipReg := Vector.replicate 2 (Vector.replicate 256 0), shadow := Vector.replicate 2 (Vector.replicate 256 0)
    fnumLatch := Vector.replicate 2 0, fm := Vector.replicate 6 .reset, voice := Vector.replicate 6 .reset
    fmBank := Vector.replicate 128 (Vector.replicate 48 0), pcmBank := Vector.replicate 32 (Vector.replicate 128 0)
    waves := [], waveTotal := 0, reservedCount := 0, pcmRam := [], pcm := Vector.replicate 8 .reset
    ssg := .reset params, rhy := Vector.replicate 6 .reset, rhyDivCnt := 0, timerA := .reset, timerB := .reset
    vol := Vector.replicate 16 127, mute := Vector.replicate 16 false, maskA := 0, maskB := 0
    faults := .reset, refused := false, inProduce := false, externalLocking := false
    pending := [], hostProcs := [], outBuffer := [], result := none, callbackResults := [] }

/-- The state after an instruction. -/
def after (i : Instr) (s : State) : State :=
  match exec i s with
  | .next t => t
  | .fault _ => s
  | .refused _ => s

/-- The state after a step of the machine. -/
def afterStep (s : State) : State :=
  match step s with
  | .next t => t
  | .fault _ => s
  | .refused _ => s

/-- A command's result: code and out-value. -/
def rc (c : Rc) (out : Option Int) : Option CmdResult := some { rc := c, out := out }

/-- Open parameters for the tests of the engines: the candidates of 93_implementation_defined.md that the vectors use, else constants. -/
def tables : OpenTables :=
  { shiftTab := fun _ => 2
    adt := fun k => k
    rateTab := fun _ => 0
    sinlog := fun i a => 1000 * i.val + a.val
    slTarget := fun x => Fin.ofNat 1024 (26 * x.val)
    fbShift := fun _ => 3
    attackStep := fun l i => l + (-(l + 1 : Int) * i) / 16
    attackStep_le := by
      intro l i
      have h : (-(l + 1 : Int) * i) / 16 ≤ 0 := Int.ediv_nonpos_of_nonpos_of_neg (by nlinarith [Int.natCast_nonneg l, Int.natCast_nonneg i]) (by decide)
      omega
    fnumTab := fun k => 617 + 30 * k.val
    freqFloor := 616
    freqCeil := 1200
    rhyRom := [0x70]
    rhyEnd := fun _ => 1
    rhy_ok := by intro i; simp
    rhyStep := fun i => if i.val = 0 then 16 else if i.val = 48 then 1552 else 34
    rhyAdj := fun m => if m.val < 4 then -1 else 8
    rhyLevel := fun a => if a < 63 then some { mul := 15, shift := 1, mask := -4 } else none }

/-- The parameters of the engine tests. -/
def tp : Params := { params with toOpenTables := tables }

/-- The state after a tick at the first pair of the buffer. -/
def afterTick (s : State) : State :=
  match tick tp 0 s with
  | .next t => t
  | .fault _ => s
  | .refused _ => s

/-! ## Well-formedness: every check refuses an ill-formed term -/

/-- R84: the FM route with a PCM channel, the PCM route with an FM channel or a negative one. -/
theorem test_wf_routes :
    (∀ i ∈ [Instr.keyonFm 0x40 60 100, .keyoffFm 0x47, .setpanFm 0x7F 0, .setinstFm 0x40 0, .setpitchFm 0x40 0, .setlevelFm 0xC0 0,
        .choffFm 0x40, .loadinstFm 0x40 0 []], ¬i.WellFormed) ∧
    (∀ i ∈ [Instr.keyonPcm 5 60 100, .keyoffPcm (-1), .setpanPcm 0x3F 0, .setinstPcm 0x80 0, .setpitchPcm (-64) 0, .setlevelPcm 0 0,
        .choffPcm 0, .loadinstPcm 0 0 []], ¬i.WellFormed) := by decide

/-- R83, R15: an unsupported code that the table gives another row, a stored-only register that has an effect, or lies outside the range. -/
theorem test_wf_rest :
    ¬(Instr.unsupported 0 []).WellFormed ∧ ¬(Instr.unsupported 55 []).WellFormed ∧ ¬(Instr.unsupported 80 []).WellFormed ∧
    ¬(Instr.storedOnly 0 0x28 0).WellFormed ∧ ¬(Instr.storedOnly 0 0x30 0).WellFormed ∧ ¬(Instr.storedOnly 1 0x0E 0).WellFormed ∧
    ¬(Instr.storedOnly 0 0xB7 0).WellFormed ∧
    (Instr.unsupported 6 []).WellFormed ∧ (Instr.unsupported (-1) []).WellFormed ∧ (Instr.storedOnly 1 0x33 0).WellFormed ∧
    (Instr.storedOnly 0 0x27 0).WellFormed := by decide

/-! ## Decoding: every constructor, from its row of R82 or of the map of R15 -/

theorem test_decode_shared :
    decode (.command 0 []) = .ok .reset ∧
    decode (.command 1 [.int 5, .int 12, .int 0]) = .ok (.keyonFm 5 12 0) ∧
    decode (.command 1 [.int 0x47, .int 60, .int 100]) = .ok (.keyonPcm 0x47 60 100) ∧
    decode (.command 2 [.int 0]) = .ok (.keyoffFm 0) ∧ decode (.command 2 [.int 0x40]) = .ok (.keyoffPcm 0x40) ∧
    decode (.command 3 [.int 0, .int 64]) = .ok (.setpanFm 0 64) ∧ decode (.command 3 [.int 0x40, .int 64]) = .ok (.setpanPcm 0x40 64) ∧
    decode (.command 4 [.int 0, .int 127]) = .ok (.setinstFm 0 127) ∧
    decode (.command 4 [.int 0x40, .int 31]) = .ok (.setinstPcm 0x40 31) ∧
    decode (.command 5 [.int 0, .int 3, .buf [1, 2]]) = .ok (.loadinstFm 0 3 [1, 2]) ∧
    decode (.command 5 [.int 0x40, .int 3, .buf [1, 2]]) = .ok (.loadinstPcm 0x40 3 [1, 2]) ∧
    decode (.command 7 [.int 0, .int (-8192)]) = .ok (.setpitchFm 0 (-8192)) ∧
    decode (.command 7 [.int 0x40, .int 8191]) = .ok (.setpitchPcm 0x40 8191) ∧
    decode (.command 8 [.int 0, .int 3]) = .ok (.setlevelFm 0 3) ∧ decode (.command 8 [.int 0x40, .int 3]) = .ok (.setlevelPcm 0x40 3) ∧
    decode (.command 9 [.int 0]) = .ok (.choffFm 0) ∧ decode (.command 9 [.int 0x40]) = .ok (.choffPcm 0x40) := by decide

/-- V-DSP-9 to V-DSP-11, R84: 0x48 goes to PCM, 0x80 and negative channels to FM. -/
theorem test_decode_routes :
    decode (.command 1 [.int 0x48, .int 60, .int 100]) = .ok (.keyonPcm 0x48 60 100) ∧
    decode (.command 1 [.int 0x80, .int 60, .int 100]) = .ok (.keyonFm 0x80 60 100) ∧
    decode (.command 1 [.int (-1), .int 60, .int 100]) = .ok (.keyonFm (-1) 60 100) := by decide

theorem test_decode_registers_timers :
    decode (.command 17 [.int 0, .int 48, .int 85]) = .ok (.wrreg 0 48 85) ∧
    decode (.command 19 [.int 1, .int 180, .int 64]) = .ok (.wrregb 1 180 64) ∧
    decode (.command 20 [.int 0, .int 183]) = .ok (.rdregb 0 183) ∧ decode (.command 21 [.int 341]) = .ok (.setta 341) ∧
    decode (.command 22 [.int 255]) = .ok (.settb 255) ∧ decode (.command 23 [.int 1]) = .ok (.enta 1) ∧
    decode (.command 24 [.int 0]) = .ok (.entb 0) := by decide

theorem test_decode_pcm :
    decode (.command 32 [.int 100, .int 2, .buf [0xAB, 0xCD]]) = .ok (.ldsmp 100 2 [0xAB, 0xCD]) ∧
    decode (.command 33 [.int 4]) = .ok (.reserve 4) ∧ decode (.command 34 [.buf [0]]) = .ok (.ldwave [0]) ∧
    decode (.command 35 [.int (-1)]) = .ok (.unwave (-1)) ∧
    decode (.command 37 [.int 0x47, .int 60, .int 127, .buf [9]]) = .ok (.playfx 0x47 60 127 [9]) ∧
    decode (.command 39 [.int 0x40]) = .ok (.pcmoff 0x40) ∧ decode (.command 40 [.int 0x47]) = .ok (.fxq 0x47) ∧
    decode (.command 80 []) = .ok .pcmenv := by decide

theorem test_decode_fm_only :
    decode (.command 50 [.int 0, .int 12, .int 100]) = .ok (.fmkeyon 0 12 100) ∧ decode (.command 51 [.int 0]) = .ok (.fmkeyoff 0) ∧
    decode (.command 52 [.int 1, .int 64]) = .ok (.fmpan 1 64) ∧ decode (.command 53 [.int 1, .int 7]) = .ok (.fminst 1 7) ∧
    decode (.command 54 [.int 1, .buf [7]]) = .ok (.fmload 1 [7]) ∧ decode (.command 56 [.int 1, .int 0]) = .ok (.fmpitch 1 0) ∧
    decode (.command 57 [.int 1, .int 9]) = .ok (.fmlevel 1 9) ∧ decode (.command 58 []) = .ok .fmreset := by decide

theorem test_decode_mixer :
    decode (.command 67 [.int 15, .int 64]) = .ok (.setvol 15 64) ∧ decode (.command 68 []) = .ok .rstvol ∧
    decode (.command 69 [.int 1, .int 2, .int 3]) = .ok (.getvol [.int 1, .int 2, .int 3]) ∧
    decode (.command 70 [.int 5, .int 1]) = .ok (.setmute 5 1) ∧ decode (.command 71 []) = .ok (.cdtoggle []) ∧
    decode (.command 72 [.buf [1]]) = .ok (.getvol2 [.buf [1]]) ∧ decode (.command 73 [.int 5]) = .ok (.getmute 5) := by decide

/-- V-DSP-1 to V-DSP-6, R81, R83: unlisted codes take any arguments, a listed code only its own. -/
theorem test_decode_unsupported :
    decode (.command 55 []) = .ok (.unsupported55 []) ∧ decode (.command 74 [.int 1]) = .ok (.unsupported74 [.int 1]) ∧
    decode (.command 75 []) = .ok (.unsupported75 []) ∧ decode (.command 6 [.int 1, .int 2, .int 3]) = .ok (.unsupported 6 [.int 1, .int 2, .int 3]) ∧
    decode (.command (-1) []) = .ok (.unsupported (-1) []) ∧ decode (.command 81 []) = .ok (.unsupported 81 []) ∧
    decode (.command 1 [.int 0, .int 60]) = .error (.argShape 1) ∧ decode (.command 34 [.int 0]) = .error (.argShape 34) ∧
    decode (.command 0 [.int 0]) = .error (.argShape 0) := by decide

theorem test_decode_ssg :
    decode (.regWrite 0 0x04 0x12) = .ok (.ssgToneLow 2 0x12) ∧ decode (.regWrite 0 0x03 0x02) = .ok (.ssgToneHigh 1 0x02) ∧
    decode (.regWrite 0 0x06 31) = .ok (.ssgNoisePeriod 31) ∧ decode (.regWrite 0 0x07 0x3E) = .ok (.ssgEnable 0x3E) ∧
    decode (.regWrite 0 0x0A 15) = .ok (.ssgLevel 2 15) ∧ decode (.regWrite 0 0x0B 1) = .ok (.ssgEnvPeriod false 1) ∧
    decode (.regWrite 0 0x0C 1) = .ok (.ssgEnvPeriod true 1) ∧ decode (.regWrite 0 0x0D 13) = .ok (.ssgEnvShape 13) := by decide

theorem test_decode_rhythm_timers_key :
    decode (.regWrite 0 0x10 0x81) = .ok (.rhythmKey 0x81) ∧ decode (.regWrite 0 0x11 0x3F) = .ok (.rhythmTotalLevel 0x3F) ∧
    decode (.regWrite 0 0x18 0xDF) = .ok (.rhythmChannelLevel 0 0xDF) ∧ decode (.regWrite 0 0x24 0xFF) = .ok (.timerAHigh 0xFF) ∧
    decode (.regWrite 0 0x25 3) = .ok (.timerALow 3) ∧ decode (.regWrite 0 0x26 0) = .ok (.timerB 0) ∧
    decode (.regWrite 0 0x28 0x96) = .ok (.fmKey 0x96) := by decide

/-- R15, R88: slots 0x00 and 0x0C are operators 1 and 2, part 1 holds channels 3 to 5. -/
theorem test_decode_fm :
    decode (.regWrite 0 0x30 0x71) = .ok (.fmDtMul 0 .op1 0x71) ∧ decode (.regWrite 1 0x3E 0x71) = .ok (.fmDtMul 5 .op2 0x71) ∧
    decode (.regWrite 0 0x4D 0x12) = .ok (.fmTl 1 .op2 0x12) ∧ decode (.regWrite 1 0x50 0x1F) = .ok (.fmKsAr 3 .op1 0x1F) ∧
    decode (.regWrite 0 0x62 0x05) = .ok (.fmAmDr 2 .op1 0x05) ∧ decode (.regWrite 1 0x7D 0x05) = .ok (.fmSr 4 .op2 0x05) ∧
    decode (.regWrite 0 0x8C 0xFF) = .ok (.fmSlRr 0 .op2 0xFF) ∧ decode (.regWrite 1 0xA2 0xFF) = .ok (.fmFnumLow 5 0xFF) ∧
    decode (.regWrite 0 0xA4 0x22) = .ok (.fmBlockFnumHigh 0 0x22) ∧ decode (.regWrite 1 0xB0 0x3F) = .ok (.fmFbAlg 3 0x3F) ∧
    decode (.regWrite 1 0xB6 0xFF) = .ok (.fmPan 5 0xFF) := by decide

/-- R15, R85, R87: stored-only registers, and what no register write has. -/
theorem test_decode_stored :
    decode (.regWrite 0 0x27 0x30) = .ok (.storedOnly 0 0x27 0x30) ∧ decode (.regWrite 1 0x33 1) = .ok (.storedOnly 1 0x33 1) ∧
    decode (.regWrite 0 0x34 1) = .ok (.storedOnly 0 0x34 1) ∧ decode (.regWrite 0 0xA8 1) = .ok (.storedOnly 0 0xA8 1) ∧
    decode (.regWrite 0 0xB7 1) = .error (.register 0 0xB7 1) ∧ decode (.regWrite 1 0x2F 1) = .error (.register 1 0x2F 1) ∧
    decode (.regWrite 2 0x30 1) = .error (.register 2 0x30 1) ∧ decode (.regWrite 0 0x30 256) = .error (.register 0 0x30 256) := by decide

/-- The byte form (assumption log entry 4): code, then the arguments; 0xFF, part, register, value. -/
theorem test_decode_words :
    decodeTableWord 8 0x00 = some .reset ∧ decodeTableWord 104 0x000000640000003C0000000001 = some (.keyonFm 0 60 100) ∧
    decodeTableWord 40 0xFFFFFFFF23 = some (.unwave (-1)) ∧ decodeTableWord 56 0x09070000000222 = some (.ldwave [7, 9]) ∧
    decodeTableWord 32 0x962800FF = some (.fmKey 0x96) ∧ decodeTableWord 32 0x00B700FF = none := by decide

/-! ## Dispatch and the step -/

/-- V-DSP-4, V-DSP-5, V-DSP-7, V-DSP-12, V-DSP-13 and the codes of 1.2: results, with nothing else changed. -/
theorem test_dispatch_results :
    (after (.unsupported55 []) blank).result = rc .unsupported none ∧ (after (.unsupported74 []) blank).result = rc .unsupported none ∧
    (after (.unsupported75 []) blank).result = rc .unsupported none ∧ (after (.unsupported 6 []) blank).result = rc .unsupported none ∧
    (after (.getvol [.int 1]) blank).result = rc .success none ∧ (after (.cdtoggle []) blank).result = rc .success none ∧
    (after (.getvol2 []) blank).result = rc .success none ∧ (after (.fmkeyon 0x40 60 100) blank).result = rc .badChannel none ∧
    (after (.fxq 0) blank).result = rc .badChannel none ∧
    processCommand 1 [.int 0, .int 60] blank = .next { blank with refused := true, result := none } := by
  refine ⟨by decide +kernel, by decide +kernel, by decide +kernel, by decide +kernel, by decide +kernel, by decide +kernel,
    by decide +kernel, by decide +kernel, by decide +kernel, rfl⟩

/-- R48, R373: the host's next command runs and leaves the list; an idle step changes nothing. -/
theorem test_step_runs_head :
    (afterStep { blank with pending := [⟨false, .command 73 [.int 5]⟩] }).result = rc .success (some 0) ∧
    (afterStep { blank with pending := [⟨false, .command 73 [.int 5]⟩] }).pending = [] ∧
    step blank = .next blank ∧
    (afterStep (blank.withFetchWord 40 0x0000000549)).result = rc .success (some 0) := by
  refine ⟨by decide +kernel, by decide +kernel, rfl, by decide +kernel⟩

/-- R87: a table word of a register write runs as the command 17 that carries it; here the key register, V-OP-5. -/
theorem test_step_register_word :
    (afterStep (blank.withFetchWord 32 0xF32800FF)).chip 0 0x28 = 0xF3 ∧
    (afterStep (blank.withFetchWord 32 0xF32800FF)).result = rc .success none := by decide +kernel

theorem test_witness_encoding :
    (Instr.storedOnly 1 0xB3 0xFF).WellFormed ∧ (Instr.keyonPcm 0x40 0 0).WellFormed ∧
    decode (.regWrite 1 0x30 0) = .ok (.fmDtMul 3 .op1 0) := by decide

theorem test_witness_commandDecoding :
    (6 : Int) ∉ listedCodes ∧ ((80 : Int) ∈ listedCodes ∧ shapeOk 80 [] = true) ∧
    ((1 : Int) ∈ listedCodes ∧ shapeOk 1 [.int 0, .int 60] = false) ∧ ((69 : Int) ∈ listedCodes ∧ shapeOk 69 [.buf []] = true) := by decide

/-- Channels at the edges of the routes and of the ranges. -/
theorem test_witness_channelRouting :
    (∀ c ∈ [(0x40 : Int), 0x47, 0x7F, 0xC0], 0 ≤ c ∧ c / 64 % 2 = 1) ∧ (∀ c ∈ [(-1 : Int), 0, 0x3F, 0x80], c < 0 ∨ c / 64 % 2 = 0) ∧
    (∀ c ∈ [(0x3F : Int), 0x48], c < 0x40 ∨ 0x47 < c) ∧ (∀ c ∈ [(-1 : Int), 6], c < 0 ∨ 5 < c) := by decide

theorem test_witness_stepRunsDecoded :
    (({ blank with pending := [⟨true, .command 68 []⟩] } : State).pending = ⟨true, .command 68 []⟩ :: [] ∧ blank.externalLocking = false ∧
      decode (.command 68 []) = .ok .rstvol) ∧
    (wireEncoded (0x0000000549 % 2 ^ 40) = .command 73 [.int 5] ∧ decode (.command 73 [.int 5]) = .ok (.getmute 5)) ∧
    (wireEncoded (0xF32800FF % 2 ^ 32) = .regWrite 0 0x28 0xF3 ∧ decode (.regWrite 0 0x28 0xF3) = .ok (.fmKey 0xF3) ∧
      exec (.fmKey 0xF3) blank = .next (after (.fmKey 0xF3) blank)) ∧
    blank.pending = [] := by
  refine ⟨⟨rfl, rfl, by decide⟩, ⟨by decide, by decide⟩, ⟨by decide, by decide, rfl⟩, rfl⟩

/-- A command that fails, a query that answers, a command that succeeds; a state with every sticky mark set. -/
theorem test_witness_results :
    (Instr.getmute 16).isRegWrite = false ∧ exec (.getmute 16) blank = .next (after (.getmute 16) blank) ∧
    (after (.getmute 16) blank).result = rc .badValue none ∧ Rc.badValue.code ≠ 0 ∧
    (after (.getmute 15) blank).result = rc .success (some 0) ∧ (after .rstvol blank).result = rc .success none ∧
    (let s := { blank with faults := ⟨true, true, true, true⟩, refused := true };
      step s = .next s ∧ s.faults.lockViolation = true ∧ s.refused = true) ∧
    (∀ a n d, Instr.pcmenv ≠ .ldsmp a n d) ∧ exec .pcmenv blank = .next (after .pcmenv blank) := by
  refine ⟨rfl, rfl, by decide +kernel, by decide, by decide +kernel, by decide +kernel, ⟨rfl, rfl, rfl⟩, by simp, rfl⟩

/-! ## Registers and timers -/

/-- P4: buffered writes read back, out-of-range registers give 3; Program 1, steps 3 and 4: a raw write leaves the shadow. -/
theorem test_register_commands :
    (after (.rdregb 1 0xB6) (after (.wrregb 1 0xB6 0xFF) blank)).result = rc .success (some 0xFF) ∧
    (after (.rdregb 0 0xB7) blank).result = rc .badValue none ∧ (after (.rdregb 1 0x2F) blank).result = rc .badValue none ∧
    (after (.rdregb 0 0x30) (after (.wrreg 0 0x30 0x55) (after (.wrregb 0 0x30 0x71) blank))).result = rc .success (some 0x71) ∧
    (after (.wrreg 0 0x30 0x55) blank).chip 0 0x30 = 0x55 := by decide +kernel

/-- V-TMR-2 to V-TMR-5: the value split over the two registers, bits 7-2 of 0x25 from the shadow. -/
theorem test_setta :
    (after (.setta 1024) blank).result = rc .badValue none ∧
    (let t := after (.setta 1023) blank;
      t.chip 0 0x24 = 0xFF ∧ t.chip 0 0x25 = 0x03 ∧ timerAValue t = 1023) ∧
    (after (.setta 341) blank).chip 0 0x24 = 0x55 ∧ (after (.setta 2) (after (.wrregb 0 0x25 0xFC) blank)).chip 0 0x25 = 0xFE ∧
    (after (.setta 2) (after (.wrreg 0 0x25 0xFC) blank)).chip 0 0x25 = 0x02 := by decide +kernel

/-- V-TMR-6, V-TMR-7, V-TMR-11. -/
theorem test_timer_commands :
    (after (.settb 256) blank).result = rc .badValue none ∧ periodB tp (after (.settb 0) blank) = 256 ∧
    (after (.entb 2) blank).result = rc .badValue none ∧
    (after (.entb 1) { blank with timerB := { on := true, cnt := 3, callback := none } }).timerB.cnt = 0 ∧
    (after (.entb 0) { blank with timerB := { on := true, cnt := 3, callback := none } }).timerB = { on := false, cnt := 3, callback := none } ∧
    (after (.enta 1) blank).timerA.on = true := by decide +kernel

/-- V-OP-1 to V-OP-4: the latch, shared by the part. -/
theorem test_latch :
    (let t := after (.fmFnumLow 1 0x10) (after (.fmBlockFnumHigh 0 0x22) blank);
      t.fm[1].block = 4 ∧ t.fm[1].fnum = 0x210 ∧ t.fm[0].fnum = 0) ∧
    (let t := after (.fmFnumLow 5 0xFF) (after (.fmBlockFnumHigh 5 0x3F) blank);
      t.fm[5].block = 7 ∧ t.fm[5].fnum = 2047) ∧
    (after (.fmBlockFnumHigh 0 0x22) blank).fnumLatch[0] = 0x22 ∧ (after (.fmBlockFnumHigh 0 0x22) blank).fm[0].block = 0 := by
  decide +kernel

/-- V-OP-5 to V-OP-8: the key register. -/
theorem test_key_register :
    (after (.fmKey 0xF3) blank).fm = blank.fm ∧ (after (.fmKey 0x16) blank).fm[5].op1.eg = .attacking ∧
    (after (.fmKey 0x16) blank).fm[5].op2.eg = .ready ∧
    (let t := after (.fmKey 0x96) { blank with fm := blank.fm.set 5 { FmChannel.reset with op1 := { Operator.reset with eg := .decaying, key := true, phase := 9 } } };
      t.fm[5].op1.eg = .decaying ∧ t.fm[5].op1.phase = 9 ∧ t.fm[5].op2.eg = .attacking) ∧
    (after (.fmKey 0x00) (after (.fmKey 0x90) blank)).fm[0].op2.eg = .releasing := by decide +kernel

/-- R301, R302: the other registers are stored in the chip image and have no effect of their own; the SSG ones are queued (R241). -/
theorem test_stored_registers :
    (∀ x ∈ [(Instr.fmDtMul 5 .op2 0x71, (1 : Part), 0x3E), (.fmTl 4 .op2 0x71, 1, 0x4D), (.fmKsAr 3 .op1 0x71, 1, 0x50),
        (.fmAmDr 2 .op1 0x71, 0, 0x62), (.fmSr 1 .op2 0x71, 0, 0x7D), (.fmSlRr 0 .op1 0x71, 0, 0x80), (.fmFbAlg 5 0x71, 1, 0xB2),
        (.fmPan 4 0x71, 1, 0xB5), (.storedOnly 1 0xB3 0x71, 1, 0xB3), (.timerAHigh 0x71, 0, 0x24), (.timerALow 0x71, 0, 0x25),
        (.timerB 0x71, 0, 0x26), (.rhythmTotalLevel 0x71, 0, 0x11), (.rhythmChannelLevel 5 0x71, 0, 0x1D)],
      (after x.1 blank).chip x.2.1 x.2.2 = 0x71) ∧
    (∀ x ∈ [(Instr.ssgToneLow 2 7, (4 : Fin 14)), (.ssgToneHigh 2 7, 5), (.ssgNoisePeriod 7, 6), (.ssgEnable 7, 7), (.ssgLevel 2 7, 10),
        (.ssgEnvPeriod false 7, 11), (.ssgEnvPeriod true 7, 12), (.ssgEnvShape 7, 13)],
      (after x.1 blank).ssg.queue = [(x.2, 7)]) := by decide +kernel

/-- A register map other than R15's own: two addresses change places, every byte is complemented. -/
def swapped : RegMap :=
  { row := Equiv.swap (0, 0x24) (0, 0x26)
    layout := fun _ => { toFun := fun v => ~~~v, invFun := fun v => ~~~v, left_inv := by intro v; simp, right_inv := by intro v; simp }
    valid := by intro a; rw [Equiv.swap_apply_def]; split_ifs with h k <;> simp_all [regInRange] }

/-- R8, R15: under another map the address 0x24 selects Timer B's row, in the decoder and in the commands. -/
theorem test_register_map :
    decodeWith swapped (.regWrite 0 0x24 0x0F) = .ok (.timerB 0xF0) ∧
    writeRegister { tp with regMap := swapped } 0 0x24 0x0F blank =
      .next ((writeRaw { tp with regMap := swapped } 0 0x26 0xF0 blank).returning .success none) ∧
    readRegisterBuffered { tp with regMap := swapped } 0 0x26 blank = .next (blank.returning .success (some 0xFF)) := ⟨rfl, rfl, rfl⟩

/-- V-RHY-7, V-RHY-8. -/
theorem test_rhythm_key :
    (after (.rhythmKey 0x3F) blank).rhy[5].active = true ∧
    (after (.rhythmKey 0x81) (after (.rhythmKey 0x03) blank)).rhy[0].active = false ∧
    (after (.rhythmKey 0x81) (after (.rhythmKey 0x03) blank)).rhy[1].active = true := by decide +kernel

theorem test_witness_registers :
    (0x0D < 256 ∧ 0x10 < 256 ∧ 0x28 < 256 ∧ (0xA4 ≤ 0xA4 ∧ 0xA6 ≤ 0xA6) ∧ (0xA0 ≤ 0xA0 ∧ 0xA2 ≤ 0xA2)) ∧
    (¬((1 : Part) = 0 ∧ (0x28 ≤ 0x0D ∨ 0x28 = 0x10 ∨ 0x28 = 0x28)) ∧ ¬(0xA4 ≤ 0xA3 ∧ 0xA3 ≤ 0xA6) ∧ ¬(0xA0 ≤ 0xA3 ∧ 0xA3 ≤ 0xA2)) ∧
    encode (.fmKey 0x90) = .regWrite (0 : Part).val 0x28 (0x90 : Byte).toNat ∧
    (if (0 : Part) = 0 then 0 ≤ 0xB6 else 0x30 ≤ 0 ∧ 0 ≤ 0xB6) ∧ (if (1 : Part) = 0 then 0x30 ≤ 0xB6 else 0x30 ≤ 0x30 ∧ 0x30 ≤ 0xB6) ∧
    (∀ x ∈ [((0 : Int), (-1 : Int)), (0, 0xB7), (1, 0x2F), (1, 0xB7), (2, 0x30), (-1, 0x30)],
      ¬((x.1 = 0 ∧ 0 ≤ x.2 ∧ x.2 ≤ 0xB6) ∨ (x.1 = 1 ∧ 0x30 ≤ x.2 ∧ x.2 ≤ 0xB6))) ∧
    (∀ v ∈ [(-1 : Int), 256], v < 0 ∨ 255 < v) ∧
    (∀ x ∈ [((0 : Part), (0xB7 : Int)), (1, 0x2F)], ¬(if x.1 = 0 then 0 ≤ x.2 ∧ x.2 ≤ 0xB6 else 0x30 ≤ x.2 ∧ x.2 ≤ 0xB6)) := by decide

theorem test_witness_keyRegister :
    (0xF3 : Byte).toNat % 4 = 3 ∧ ((0x96 : Byte).toNat % 4 = fmIdx 5 ∧ (0x96 : Byte).getLsbD 2 = decide ((fmPart 5).val = 1)) ∧
    ((0x90 : Byte).toNat % 4 = fmIdx 0 ∧ (0x90 : Byte).getLsbD 2 = decide ((fmPart 0).val = 1)) := by decide

theorem test_witness_timers :
    (∀ x ∈ [(-1 : Int), 1024], x < 0 ∨ 1023 < x) ∧ (∀ x ∈ [(-1 : Int), 256], x < 0 ∨ 255 < x) ∧ ((2 : Int) ≠ 0 ∧ (2 : Int) ≠ 1) ∧
    (let on := fun n => { blank with timerA := ⟨true, n, none⟩, timerB := ⟨true, n, none⟩ };
      blank.timerA.on = false ∧ blank.timerB.on = false ∧ (on 0).timerA.on = true ∧
      0 + 1 < periodA tp (on 0) ∧ periodA tp (on 1023) ≤ 1023 + 1 ∧ 0 + 1 < periodB tp (on 0) ∧ periodB tp (on 255) ≤ 255 + 1 ∧
      periodB tp (on 999) ≤ 999 + 1) ∧
    runCallback none blank = .next blank ∧ nestedCall (.setCallbacks none none) blank = .next (setCallbacks none none blank) ∧
    exec (.setta (1023 : Nat)) blank = .next (after (.setta (1023 : Nat)) blank) := by
  refine ⟨by decide, by decide, by decide, by decide +kernel, rfl, rfl, rfl⟩

/-! ## FM operators -/

/-- An operator of the tests: level, state, next tick a multiple of 4. -/
def opAt (eg : EgState) (level : Nat) : Operator := { Operator.reset with eg := eg, level := level, tick := 3 }

/-- Static fields of the tests: all zero but the sustain level. -/
def opf (sl : Fin 16) : OpFields := { dt := 0, mul := 0, tl := 0, ks := 0, ar := 0, dr := 0, sr := 0, sl := sl, rr := 0 }

/-- V-OP-9 to V-OP-14, with a constant increment; `SL_TARGET(4) = 104`. -/
theorem test_envelope_step :
    (let o := envStep { tp with adt := fun _ => 8 } (opf 0) 0 (opAt .releasing 1020);
      o.level = 1023 ∧ o.eg = .ready) ∧
    (let o := envStep { tp with adt := fun _ => 4 } (opf 4) 0 (opAt .decaying 100);
      o.level = 104 ∧ o.eg = .sustaining) ∧
    (let o := envStep { tp with adt := fun _ => 8 } (opf 0) 0 (opAt .sustaining 1020);
      o.level = 1023 ∧ o.eg = .sustaining) ∧
    (envStep { tp with adt := fun _ => 4 } (opf 0) 0 (opAt .attacking 1023)).level = 767 ∧
    (envStep { tp with adt := fun _ => 1 } (opf 3) 0 (opAt .attacking 1)).eg = .decaying ∧
    (envStep { tp with adt := fun _ => 1 } (opf 0) 0 (opAt .attacking 1)).eg = .sustaining := by decide +kernel

/-- V-OP-15 to V-OP-18: the effective rate. -/
theorem test_effective_rate :
    effRate (opf 0) 31 .attacking = 0 ∧ effRate { opf 0 with ar := 31, ks := 3 } 31 .attacking = 63 ∧
    effRate { opf 0 with ar := 10 } 20 .attacking = 22 ∧ effRate (opf 0) 0 .releasing = 2 := by decide +kernel

/-- V-OP-19 to V-OP-22: attenuation 832 is silent, the phase index wraps both ways. -/
theorem test_operator_output :
    (opOut tp { opf 0 with tl := 104 } .reset 0 (opAt .sustaining 0)).out = 0 ∧
    (opOut tp { opf 0 with tl := 103 } .reset 0 (opAt .sustaining 7)).out = 831 ∧
    (opOut tp (opf 0) .reset 1 { opAt .sustaining 0 with phase := 0xFFC00000 }).out = 0 ∧
    (opOut tp (opf 0) .reset (-1) (opAt .sustaining 0)).out = 1023000 := by decide +kernel

/-- V-OP-26, V-OP-27: the connection and the sides. -/
theorem test_channel_output :
    (let c := { FmChannel.reset with op1 := { Operator.reset with out := 300 }, op2 := { Operator.reset with out := -100 } };
      fmChannelOut tp { fb := 0, alg := 7, left := true, right := false } c = { left := 200, right := 0 } ∧
      fmChannelOut tp { fb := 0, alg := 4, left := true, right := true } c = { left := -100, right := -100 }) := by decide +kernel

/-- V-OP-24, V-OP-25: the feedback modulation floors; operator 1 is read at the shifted index. -/
theorem test_feedback :
    (let c := fun (a b : Int) => { FmChannel.reset with op1 := opAt .sustaining 0, fb0 := a, fb1 := b };
      let k : ChFields := { fb := 7, alg := 0, left := true, right := true };
      let out := fun c => (fmChannelNext { tp with adt := fun _ => 0 } (opf 0) (opf 0) k c).op1.out;
      out (c 100 (-50)) = 6000 ∧ out (c (-100) 50) = 1017000) := by decide +kernel

theorem test_witness_operators :
    (opAt .attacking 1023).level ≤ 1023 ∧ (opAt .ready 0).eg = .ready ∧
    ((opAt .decaying 5).tick + 1).toNat % 2 ^ tp.shiftTab (effRate (opf 0) 0 .decaying) = 0 ∧
    ({ opAt .decaying 5 with tick := 0 }.tick + 1).toNat % 2 ^ tp.shiftTab (effRate (opf 0) 0 .decaying) ≠ 0 ∧
    (envStep tp (opf 0) 0 (opAt .decaying 5)).level ≠ 5 ∧ (opAt .attacking 0).eg = .attacking ∧ (opAt .sustaining 0).eg ≠ .attacking ∧
    ((((opAt .decaying 0).phase.toNat / 2 ^ 22 : Nat) : Int) + -1 - (1023 : Fin 1024).val) % 1024 = 0 ∧
    832 ≤ (104 : Level7).val * 2 ^ tp.tlShift + 0 ∧ (103 : Level7).val * 2 ^ tp.tlShift + 7 < 832 := by decide +kernel

/-! ## FM voices -/

/-- Every clause of the frequency rule, and P7: the floor of note 0 at every pitch; `PITCH_SCALE` is the identity. -/
theorem test_frequency :
    (let P : Params := { tp with pitchScale := fun p => p, pitchScale_zero := rfl };
      fmFreq P 0 8191 = (0, 616) ∧ fmFreq P 48 0 = (3, 947) ∧ fmFreq P 1 (-2) = (0, 616) ∧ fmFreq P 13 (-2) = (0, 1200) ∧
      fmFreq P 95 8191 = (7, 1200) ∧ fmFreq P 13 584 = (2, 616)) := by decide +kernel

/-- V-FM-7, V-FM-8: flags, note, velocity, key register and envelopes of a key-on. -/
theorem test_keyon :
    (∀ i ∈ [Instr.keyonFm 0 60 100, .fmkeyon 0 60 100],
      let t := after i { blank with fm := blank.fm.set 0 { FmChannel.reset with op2 := { Operator.reset with phase := 9 } } };
      t.result = rc .success none ∧ t.voice[0] = { FmVoice.reset with playing := true, note := 48, velocity := 100 } ∧
      t.chip 0 0x28 = 0x90 ∧ t.shad 0 0x28 = 0 ∧ t.fm[0].op1.eg = .attacking ∧ t.fm[0].op2.eg = .attacking ∧ t.fm[0].op2.phase = 0 ∧
      t.fm[0].op2.level = 1023) ∧
    (after (.keyonFm 4 12 0) blank).chip 0 0x28 = 0x95 ∧ (after (.keyonFm 4 12 0) blank).voice[4].note = 0 := by decide +kernel

/-- V-FM-1 to V-FM-6, P1: the checks in order; busy comes last. -/
theorem test_keyon_checks :
    (after (.keyonFm 6 200 200) blank).result = rc .badChannel none ∧ (after (.keyonFm 0 11 100) blank).result = rc .badValue none ∧
    (after (.fmkeyon 0 108 100) blank).result = rc .badValue none ∧ (after (.keyonFm 0 60 128) blank).result = rc .badValue none ∧
    (let t := after (.keyonFm 3 60 100) blank;
      (after (.keyonFm 3 200 100) t).result = rc .badValue none ∧ (after (.keyonFm 3 72 50) t).result = rc .busy none ∧
      (after (.keyonFm 3 72 50) t).voice[3].note = 48 ∧ (after (.keyonFm 3 72 50) t).fm[3].op1.key = true) := by decide +kernel

/-- V-FM-9, V-FM-10, R180. -/
theorem test_keyoff :
    (∀ i ∈ [Instr.keyoffFm 0, .fmkeyoff 0],
      let t := after i (after (.keyonFm 0 60 100) blank);
      t.voice[0].playing = false ∧ t.fm[0].op1.eg = .releasing ∧ t.chip 0 0x28 = 0 ∧ (after i t).fm[0].op2.eg = .releasing) ∧
    (let t := after (.choffFm 0) (after (.keyonFm 0 60 100) blank);
      t.voice[0].playing = false ∧ t.fm[0].op1.eg = .ready ∧ t.fm[0].op2.level = 1023) := by decide +kernel

/-- V-FM-13 to V-FM-16. -/
theorem test_setpan :
    (after (.setpanFm 0 0) blank).shad 0 0xB4 = 0x80 ∧ (after (.fmpan 1 64) blank).chip 0 0xB5 = 0xC0 ∧
    (after (.setpanFm 5 65) blank).shad 1 0xB6 = 0x40 ∧ (after (.fmpan 0 128) blank).result = rc .badValue none := by decide +kernel

/-- R176, R177: a loaded program reaches the registers of the channel it is set on: rows, slots, FB and ALG. -/
theorem test_program :
    (∀ i ∈ [Instr.setinstFm 4 1, .fminst 4 1],
      let t := after i (after (.fmload 1 ((List.range 48).map (BitVec.ofNat 8))) blank);
      t.voice[4].program = 1 ∧ t.chip 1 0x31 = 8 ∧ t.shad 1 0x8D = 31 ∧ t.chip 1 0x55 = 17 ∧ t.chip 1 0xB1 = 32) ∧
    (after (.loadinstFm 0 1 ((List.range 48).map (BitVec.ofNat 8))) blank).fmBank[1][47] = 47 ∧
    (after (.fmload 1 (List.replicate 47 0)) blank).result = rc .emptyData none := by decide +kernel

/-- R178, R179: the pitch and the level are stored, whatever the tables say. -/
theorem test_pitch_level :
    (after (.setpitchFm 0 (-8192)) blank).voice[0].pitch = -8192 ∧ (after (.fmpitch 0 8191) blank).voice[0].pitch = 8191 ∧
    (after (.fmpitch 0 8192) blank).result = rc .badValue none ∧ (after (.setlevelFm 2 3) blank).voice[2].level = 3 ∧
    (after (.fmlevel 2 128) blank).result = rc .badValue none ∧ (after (.fmlevel 2 127) blank).result = rc .success none := by decide +kernel

theorem test_witness_frequency :
    (let P : Params := { tp with pitchScale := fun p => p, pitchScale_zero := rfl };
      let f := fun (n : Fin 96) (p : Int) => (P.fnumTab ⟨(n.val - 1) % 12, Nat.mod_lt _ (by decide)⟩ : Int) + P.pitchScale p;
      (P.freqFloor ≤ f 48 0 ∧ f 48 0 ≤ P.freqCeil) ∧ (f 1 (-2) < P.freqFloor ∧ (1 - 1) / 12 = 0) ∧
      (f 13 (-2) < P.freqFloor ∧ (13 - 1) / 12 ≠ 0) ∧ (P.freqCeil < f 95 8191 ∧ (95 - 1) / 12 = 7) ∧ P.freqCeil < f 13 584) := by
  decide +kernel

theorem test_witness_fmCommands :
    (∀ c ∈ [(-1 : Int), 6], c < 0 ∨ 5 < c) ∧ (∀ n ∈ [(11 : Int), 108], n < 12 ∨ 107 < n) ∧ (∀ v ∈ [(-1 : Int), 128], v < 0 ∨ 127 < v) ∧
    (∀ p ∈ [(-8193 : Int), 8192], p < -8192 ∨ 8191 < p) ∧ (∀ p ∈ [(-8192 : Int), 8191], -8192 ≤ p ∧ p ≤ 8191) ∧
    blank.voice[(0 : FmCh)].playing = false ∧
    ({ blank with voice := blank.voice.set 0 { FmVoice.reset with playing := true } } : State).voice[(0 : FmCh)].playing = true ∧
    ((List.replicate 47 (0 : Byte)).length < 48 ∧ 48 ≤ (List.replicate 48 (0 : Byte)).length) ∧
    ((List.replicate 127 (0 : Byte)).length < 128 ∧ 128 ≤ (List.replicate 128 (0 : Byte)).length) ∧
    (∀ p ∈ [(-1 : Int), 32], p < 0 ∨ 31 < p) ∧ ((0 : Level7) ≤ 127 ∧ (3 : Level7) ≤ 3) := by decide +kernel

theorem test_witness_busyAndFloor :
    exec (.keyonFm (0 : FmCh).val 12 127) blank = .next (after (.keyonFm 0 12 127) blank) ∧
    (after (.keyonFm 0 12 127) blank).result = rc .success none ∧ blank.voice[(0 : FmCh)].note = 0 ∧
    exec (.setpitchFm (0 : FmCh).val (-8192)) blank = .next (after (.setpitchFm 0 (-8192)) blank) ∧
    (after (.setpitchFm 0 (-8192)) blank).result = rc .success none := by
  refine ⟨rfl, by decide +kernel, by decide +kernel, rfl, by decide +kernel⟩

/-! ## PCM -/

/-- `n` little-endian bytes of a number. -/
def le (n v : Nat) : List Byte := bytesOf v n

/-- The buffer `W(id, size, loopStart, loopLen)` of the vectors, with `data` for its sample bytes. -/
def wave (id size ls ll : Nat) (data : List Byte) : List Byte :=
  List.replicate 8 0 ++ le 4 id ++ le 4 size ++ le 4 ls ++ le 4 ll ++ le 2 0 ++ le 2 0 ++ le 4 0 ++ data

/-- The record that `wave` gives. -/
def waveRec (id : Int) (size ls ll : Nat) (data : List Byte) : WaveRec :=
  { name := List.replicate 8 0, id := id
    sample := { size := size, loopStart := ls, loopLen := ll, rate := 0, rateOffset := 0, baseNote := 0, data := data } }

/-- "Prog(...)" of the vectors: entry 0 as given, every other entry zero. -/
def prog (bp tl ar dr sl sr rr : Byte) (id : Nat) : PcmProgram :=
  Vector.ofFn fun k => (([bp, tl, ar, dr, sl, sr, rr, 0] ++ le 4 id).getD k.val 0)

/-- A store with table 5 (four bytes), and program 0 of V-PCM-12 with the attack and release rates given. -/
def withProg (ar rr : Byte) : State :=
  { blank with waves := [waveRec 5 4 0 0 [16, 240, 127, 128]], waveTotal := 4, pcmBank := blank.pcmBank.set 0 (prog 127 100 ar 4 64 0 rr 5) }

/-- `n` PCMENV commands. -/
def envs : Nat → State → State
  | 0, s => s
  | n + 1, s => after .pcmenv (envs n s)

/-- V-PCM-1, V-PCM-2, V-PCM-12, V-PCM-13. -/
theorem test_pcm_keyon :
    (after (.keyonPcm 0x40 60 100) blank).result = rc .instrumentMiss none ∧ (after (.keyonPcm 0x40 0 100) blank).result = rc .waveMiss none ∧
    (let c := (after (.keyonPcm 0x40 60 127) (withProg 127 2)).pcm[0];
      c.envFull = 800 ∧ c.envSus = 403 ∧ c.envState = .sustain ∧ c.envLevel = 0 ∧ c.activeOutput = true) ∧
    (let c := (after (.keyonPcm 0x40 60 127) (withProg 0 2)).pcm[0];
      c.envLevel = 800 ∧ c.envState = .decay ∧ c.envStep = 99) := by decide +kernel

/-- V-PCM-14: attack 200, 400, 600, 800, then decay to the sustain level 403. -/
theorem test_pcm_envelope :
    (let s := after (.keyonPcm 0x40 60 127) (withProg 4 2);
      (envs 3 s).pcm[0].envLevel = 600 ∧ (envs 4 s).pcm[0].envState = .decay ∧ (envs 4 s).pcm[0].envStep = 99 ∧
      (envs 8 s).pcm[0].envLevel = 404 ∧ (envs 9 s).pcm[0].envLevel = 403 ∧ (envs 9 s).pcm[0].envState = .sustain) := by decide +kernel

/-- V-PCM-15, V-PCM-16: the release, and a release of rate 0. -/
theorem test_pcm_keyoff :
    (let s := after (.keyoffPcm 0x40) (envs 9 (after (.keyonPcm 0x40 60 127) (withProg 4 2)));
      s.pcm[0].envState = .release ∧ s.pcm[0].envStep = 201 ∧ (envs 2 s).pcm[0].envLevel = 1 ∧ (envs 3 s).pcm[0].activeOutput = false) ∧
    (after (.keyoffPcm 0x40) (after (.keyonPcm 0x40 60 127) (withProg 127 0))).pcm[0].activeOutput = false := by decide +kernel

/-- V-PCM-4 to V-PCM-7, R214, R215: the parameters. -/
theorem test_pcm_parameters :
    (let c := (after (.setpanPcm 0x40 127) blank).pcm[0];
      c.panL = 0 ∧ c.panR = 15) ∧
    (let c := (after (.setpanPcm 0x40 64) blank).pcm[0];
      c.panL = 7 ∧ c.panR = 8) ∧
    (after (.setinstPcm 0x47 32) blank).result = rc .badValue none ∧ (after (.setinstPcm 0x47 31) blank).pcm[7].program = 31 ∧
    (after (.loadinstPcm 0x40 3 (List.replicate 100 0)) blank).result = rc .emptyData none ∧
    (after (.loadinstPcm 0x40 31 (List.replicate 128 7)) blank).pcmBank[31][127] = 7 ∧
    (after (.setpitchPcm 0x40 8191) blank).pcm[0].pitch = 8191 ∧ (after (.setlevelPcm 0x40 3) blank).pcm[0].level = 3 := by decide +kernel

/-- V-PCM-8, V-PCM-9. -/
theorem test_ldsmp :
    (after (.ldsmp 65535 2 [0, 0]) blank).result = rc .budget none ∧ (after (.ldsmp 65536 1 [0]) blank).result = rc .badValue none ∧
    (after (.ldsmp 0 0 []) blank).result = rc .emptyData none ∧ (after (.ldsmp 0 4 [1, 2]) blank).result = rc .emptyData none ∧
    (after (.ldsmp 100 2 [0xAB, 0xCD]) blank).pcmRam = [(100, 0xAB), (101, 0xCD)] := by decide +kernel

/-- V-PCM-10, V-PCM-11, V-PCM-25: the partition, its limit, and a channel that leaves it. -/
theorem test_reserve :
    (after (.reserve 9) blank).result = rc .badValue none ∧ (after (.reserve 8) blank).result = rc .budget none ∧
    (let s := after (.reserve 7) blank;
      s.reservedCount = 7 ∧ s.pcm[0].reserved = false ∧ s.pcm[1].reserved = true ∧ s.pcm[7].reserved = true) ∧
    (let s := after (.reserve 0) (after (.playfx 0x47 60 127 (wave 0 4 0 0 [16, 240, 127, 128])) (after (.reserve 1) blank));
      s.pcm[7].activeEffect = false ∧ s.pcm[7].reserved = false) := by decide +kernel

/-- V-PCM-20 to V-PCM-22, Program 4 steps 1 to 3. -/
theorem test_playfx :
    (let f := wave 0 4 0 0 [16, 240, 127, 128];
      let s := after (.playfx 0x47 60 127 f) (after (.reserve 1) blank);
      (after (.playfx 0x40 60 127 f) blank).result = rc .needsReserved none ∧ s.pcm[7].envState = .effect ∧ s.pcm[7].envLevel = 1016 ∧
      (after (.fxq 0x47) s).result = rc .success (some 1) ∧ (after (.playfx 0x47 60 127 f) s).result = rc .busy none ∧
      (after (.fxq 0x40) blank).result = rc .success (some 0)) := by decide +kernel

/-- V-PCM-23: the header checks of an effect, in order. -/
theorem test_playfx_checks :
    (let s := after (.reserve 1) blank;
      (after (.playfx 0x47 60 127 (wave 0 0xFFFFFFFF 0 0 [])) s).result = rc .badValue none ∧
      (after (.playfx 0x47 60 127 (wave 0 4 2 3 [])) s).result = rc .loopRegion none ∧
      (after (.playfx 0x47 60 127 (wave 0 0 0 0 [])) s).result = rc .emptyData none ∧
      (after (.playfx 0x47 60 127 (wave 0 4 0 0 [1, 2])) s).result = rc .emptyData none ∧
      (after (.playfx 0x47 60 127 (List.replicate 31 0)) s).result = rc .emptyData none) := by decide +kernel

/-- V-PCM-26, V-PCM-27, V-PCM-29 to V-PCM-31. -/
theorem test_ldwave :
    (after (.ldwave (List.replicate 31 0)) blank).result = rc .emptyData none ∧
    (after (.ldwave (wave 1 0xFFFFFFFB 0 0 [])) blank).result = rc .badValue none ∧
    (after (.ldwave (wave 1 10 0 0 [1, 2, 3, 4, 5])) blank).result = rc .emptyData none ∧
    (after (.ldwave (wave 1 4 3 2 [1, 2, 3, 4])) blank).result = rc .loopRegion none ∧
    (let s := after (.ldwave (wave 1 4 0 0 [1, 2, 3, 4])) blank;
      s.waves = [waveRec 1 4 0 0 [1, 2, 3, 4]] ∧ s.waveTotal = 4 ∧
      (after (.ldwave (wave 1 4 0 0 [1, 2, 3, 4])) s).result = rc .duplicateWave none ∧
      (after (.ldwave (wave 1 4 0 0 [1, 2, 3, 4])) { s with waveTotal := 65501 }).result = rc .budget none) := by decide +kernel

/-- P5, V-PCM-33, V-PCM-34. -/
theorem test_unwave :
    (after (.unwave 77) blank).result = rc .waveMiss none ∧ (after (.unwave (-1)) blank).result = rc .success none ∧
    (let s := after (.unwave 5) (after (.keyonPcm 0x40 60 127) (withProg 4 2));
      s.waves = [] ∧ s.waveTotal = 0 ∧ s.pcm[0].activeOutput = false ∧ s.pcm[0].src = none) := by decide +kernel

/-- V-PCM-35. -/
theorem test_pcm_off :
    (∀ i ∈ [Instr.choffPcm 0x40, .pcmoff 0x40],
      (after i (after (.keyonPcm 0x40 60 127) (withProg 4 2))).pcm[0].activeOutput = false) ∧
    (after (.pcmoff 0x48) blank).result = rc .badChannel none := by decide +kernel

/-- A channel that plays table 5 of `withProg`, or a looped one. -/
def playing (ls ll pos : Nat) : PcmChannel :=
  { PcmChannel.reset with
    keyPressed := true, activeKey := true, activeOutput := true, envLevel := 1016, step := 0x10000, pos := pos, loopEnd := 4
    src := some { waveId := some 5, sample := (waveRec 5 4 ls ll [16, 240, 127, 128]).sample } }

/-- V-PCM-36 to V-PCM-41: one-shot, loops, and the output of a sample. -/
theorem test_playback :
    (playing 0 0 0).out tp = { left := 1905, right := 1905 } ∧
    PcmChannel.out tp { playing 0 0 0x30000 with panR := 0 } = { left := -15240, right := 0 } ∧
    (playing 0 0 0x20000).out tp = { left := 15120, right := 15120 } ∧ (playing 0 0 0x20000).advance.pos = 0x30000 ∧
    (playing 0 0 0x30000).advance.activeOutput = false ∧ (playing 1 3 0x30000).advance.pos = 0x10000 ∧
    (PcmChannel.advance { playing 3 1 0x30000 with step := 0x30000 }).pos = 0x30000 := by decide +kernel

theorem test_witness_pcmCommands :
    (∀ v ∈ [(-1 : Int), 128], v < 0 ∨ 127 < v) ∧ (∀ v ∈ [(-1 : Int), 9], v < 0 ∨ 8 < v) ∧
    (tp.reserveLimit < 8 * tp.reserveRoom + 0 ∧ 7 * tp.reserveRoom + 0 ≤ tp.reserveLimit) ∧
    ({ PcmChannel.reset with reserved := true, activeKey := true }.activeKey = true ∧ blank.pcm[(0 : PcmCh)].reserved = false) ∧
    (∀ e : Fin 8, (PcmProgram.byte blank.pcmBank[blank.pcm[(0 : PcmCh)].program] (16 * e.val + 0)).toNat < 60) ∧
    (60 ≤ (PcmProgram.byte (prog 127 100 4 4 64 0 2 5) (16 * (0 : Fin 8).val + 0)).toNat ∧
      (∀ k : Fin 8, k < 0 → (PcmProgram.byte (prog 127 100 4 4 64 0 2 5) (16 * k.val + 0)).toNat < 60)) ∧
    (let s := withProg 4 2;
      (s.waves.map fun x => x.id).Nodup ∧ waveRec 5 4 0 0 [16, 240, 127, 128] ∈ s.waves ∧
      (5 : Int) = sext32 (memRead tp s.pcmBank[(0 : Fin 32)].toList (16 * 0 + 8) 4)) ∧
    ((playing 0 0 0).activeKey = true ∧ (playing 0 0 0).keyPressed = true ∧ blank.pcm[(0 : PcmCh)].activeKey = false) ∧
    (playing 0 0 0).src.isSome = true := by decide +kernel

theorem test_witness_pcmEnvelope :
    (let c := { playing 0 0 0 with envFull := 800, envSus := 403, envStep := 200, envLevel := 300 };
      { c with envAR := 127 }.envAR = 127 ∧ c.envAR = 0 ∧ ({ c with envAR := 4 }.envAR ≠ 127 ∧ { c with envAR := 4 }.envAR ≠ 0) ∧ c.envRR = 0 ∧
      { c with envRR := 2 }.envRR ≠ 0 ∧ PcmChannel.reset.activeOutput = false ∧ c.activeOutput = true ∧
      c.envLevel + c.envStep < c.envFull ∧ c.envFull ≤ { c with envLevel := 600 }.envLevel + c.envStep ∧
      c.envSus + c.envStep < { c with envLevel := 800 }.envLevel ∧ c.envLevel ≤ c.envSus + c.envStep ∧ c.envStep ≠ 0 ∧
      c.envStep < c.envLevel ∧ { c with envLevel := 200 }.envLevel ≤ c.envStep) := by decide +kernel

/-- A running channel of the store, for the playback rule: below the end, at it, with and without a loop. -/
theorem test_witness_playback :
    (playing 0 0 0).SourceOk [waveRec 5 4 0 0 [16, 240, 127, 128]] ∧ (playing 1 3 0x30000).SourceOk [waveRec 5 4 1 3 [16, 240, 127, 128]] ∧
    (let c := playing 0 0 0;
      c.pos + c.step < c.loopEnd * 65536) ∧
    (let c := playing 0 0 0x30000;
      c.loopEnd * 65536 ≤ c.pos + c.step) := by
  refine ⟨⟨rfl, by constructor <;> decide, ⟨_, List.mem_singleton.mpr rfl, rfl, rfl⟩, rfl, by decide, by decide⟩,
    ⟨rfl, by constructor <;> decide, ⟨_, List.mem_singleton.mpr rfl, rfl, rfl⟩, rfl, by decide, by decide⟩, by decide, by decide⟩

theorem test_witness_loads :
    blank.pcmRam.wf = true ∧ (∀ d ∈ [(-1 : Int), 65536], d < 0 ∨ 65535 < d) ∧ ((0 : Int) ≤ 0 ∧ ([1, 2] : List Byte).length < (4 : Int)) ∧
    ((65536 : Int) < 65535 + 2 ∧ (65535 : Int) + 1 ≤ 65536) ∧
    (let h := fun (b : List Byte) => waveHeader params b;
      let ok := wave 1 4 0 4 [1, 2, 3, 4];
      (h (wave 1 0xFFFFFFFF 0 0 [])).size < 0 ∧ (wave 1 0xFFFFFFFF 0 0 []).length = 32 ∧
      (0 ≤ (h (wave 0 4 2 3 [])).size ∧ (h (wave 0 4 2 3 [])).size < (h (wave 0 4 2 3 [])).loopStart + (h (wave 0 4 2 3 [])).loopLen) ∧
      (h (wave 0 0 0 0 [])).size = 0 ∧ (wave 0 4 0 0 [1, 2]).length < 32 + (h (wave 0 4 0 0 [1, 2])).size ∧
      (0 < (h ok).size ∧ ((h ok).loopStart + (h ok).loopLen : Int) ≤ (h ok).size ∧ 32 + (h ok).size ≤ ok.length ∧ (h ok).id = 1) ∧
      (65504 < (65501 : Nat) + (h ok).size ∧ (65500 : Nat) + (h ok).size ≤ 65504) ∧ 128 ≤ (List.replicate 128 (waveRec 1 1 0 0 [0])).length ∧
      (blank.waves.length < 128 ∧ (∀ w ∈ blank.waves, w.id ≠ (h ok).id)) ∧ (∃ w ∈ [waveRec 1 4 0 0 [1, 2, 3, 4]], w.id = (h ok).id)) ∧
    (let s := after (.keyonPcm 0x40 60 127) (withProg 4 2);
      (s.waves.map fun w => w.id).Nodup ∧ (∃ w ∈ s.waves, w.id = 5) ∧ (∀ w ∈ s.waves, w.id ≠ 6) ∧
      (s.pcm[(0 : PcmCh)].src.bind fun x => x.waveId) = some 5 ∧ s.pcm[(1 : PcmCh)].src = none) := by decide +kernel

/-! ## SSG and rhythm -/

/-- V-SSG-1 to V-SSG-4. -/
theorem test_lfsr :
    lfsrStep 1 = 0x10000 ∧ lfsrStep 0x10000 = 0x08000 ∧ lfsrStep 0x00009 = 0x00004 ∧ lfsrStep 0x00008 = 0x10004 := by decide

/-- An SSG with tone period `p` in channel A and counter `n`. -/
def tone (p : Byte) (n : Nat) : Ssg := { Ssg.reset tp with regs := (Vector.replicate 14 0).set 0 p, toneCnt := (Vector.replicate 3 0).set 0 n }

/-- V-SSG-7 to V-SSG-9: period 2, period 0, a counter past its period. -/
theorem test_tone :
    (Ssg.tick tp (tone 2 0)).sq[0] = false ∧ (Ssg.tick tp (tone 2 0)).toneCnt[0] = 1 ∧ (Ssg.tick tp (tone 2 1)).sq[0] = true ∧
    (Ssg.tick tp (tone 0 0)).sq[0] = true ∧ (Ssg.tick tp (tone 2 4)).sq[0] = true ∧ (Ssg.tick tp (tone 2 4)).toneCnt[0] = 0 := by
  decide +kernel

/-- V-SSG-5 at its edge: the 65th write is dropped, the chip register holds it, the drain leaves the last queued one. -/
theorem test_ssg_queue :
    (let s := after (.ssgToneLow 0 65) { blank with ssg := { blank.ssg with queue := (List.range 64).map fun k => (0, BitVec.ofNat 8 (k + 1)) } };
      s.ssg.queue.length = 64 ∧ s.faults.ssgQueueOverflow = true ∧ s.chip 0 0 = 65 ∧ (ssgDrain s).ssg.regs[0] = 64 ∧
      (ssgDrain s).ssg.queue = []) := by decide +kernel

/-- V-SSG-10, V-SSG-12, V-SSG-15, V-SSG-18: the level right after a restart, and at the end of the ramp. -/
theorem test_envelope_ends :
    (let g := fun (shape : Byte) => Ssg.envRestart { Ssg.reset tp with regs := (Vector.replicate 14 0).set 13 shape };
      let last := fun (shape : Byte) => Ssg.envCycle { g shape with envCount := 0 };
      (g 13).envLvl = 0 ∧ (last 13).envLvl = 31 ∧ (last 13).envHolding = true ∧ (last 4).envLvl = 0 ∧ (g 11).envLvl = 31 ∧
      (last 11).envLvl = 31 ∧ (last 15).envLvl = 0 ∧ (last 14).envLvl = 31 ∧ (last 14).envHolding = false ∧ (last 8).envLvl = 31) := by
  decide +kernel

/-- V-SSG-19 to V-SSG-22: gates and amplitudes; the tables name their index. -/
theorem test_ssg_output :
    (let P : Params := { tp with ssgVolTab := fun k => 100 + k.val, ssgEnvTab := fun k => 200 + k.val };
      let g := fun (mixer level : Byte) => { Ssg.reset tp with regs := ((Vector.replicate 14 0).set 7 mixer).set 8 level, lfsr := 2, envCount := 7 };
      (g 0x3F 15).out P = 115 + 100 + 100 ∧ (g 0x3E 15).out P = 200 ∧ (g 0x37 15).out P = 200 ∧ (g 0x3F 0x10).out P = 207 + 100 + 100) := by
  decide +kernel

/-- V-RHY-1, V-RHY-2, V-RHY-4, V-RHY-6: nibbles, the clamps, the index; the high nibble first. -/
theorem test_rhythm_decode :
    (let c := { rhyStarted tp 0 with stop := 1 };
      (rhyDecode tp c).acc = 30 ∧ (rhyDecode tp c).idx = 8 ∧ (rhyDecode tp c).pos = 0 ∧ (rhyDecode tp (rhyDecode tp c)).acc = 34 ∧
      (rhyDecode tp (rhyDecode tp c)).pos = 1 ∧ (rhyDecode tp (rhyDecode tp (rhyDecode tp c))).active = false ∧
      (rhyDecode { tp with rhyRom := [0xF0], rhy_ok := tp.rhy_ok } c).acc = -30 ∧
      (rhyDecode tp { c with acc := 2040, idx := 48 }).acc = 2047 ∧ (rhyDecode tp { c with acc := 2040, idx := 48 }).idx = 48) := by
  decide +kernel

/-- V-RHY-10 to V-RHY-13, V-RHY-15. -/
theorem test_rhythm_output :
    (let P : Params := { tp with rhyLevel := fun _ => some { mul := 1, shift := 0, mask := -1 } };
      let c := fun (a b : Int) => { RhyChannel.reset with active := true, s0 := a, s1 := b };
      rhyMono P 0 0 (c 30 31) = 30 ∧ rhyMono P 0 0 (c (-3) 0) = -1 ∧ rhyRescale tp 63 31 30 = 224 ∧ rhyRescale tp 63 31 (-30) = -228 ∧
      rhyMono { tp with rhyAtten := fun _ _ => 63 } 0 31 (c 30 30) = 0) ∧
    (let s := { blank with chipReg := RegFile.write blank.chipReg 0 0x18 0x5F };
      rhyLeft s 0 = false ∧ rhyRight s 0 = true) := by decide +kernel

theorem test_witness_ssg :
    (List.replicate 64 ((0 : Fin 14), (0 : Byte))).length = tp.ssgQueueCap ∧ blank.ssg.queue.length ≠ tp.ssgQueueCap ∧
    (∃ v, ((13 : Fin 14), v) ∈ [((13 : Fin 14), (5 : Byte))]) ∧
    (0 + 1 < max 1 ((2 : Byte).toNat % 32) * tp.ssgNoiseUnit ∧ max 1 ((0 : Byte).toNat % 32) * tp.ssgNoiseUnit ≤ 0 + 1) ∧
    (Ssg.reset tp).lfsr ≠ 0 ∧ (Ssg.reset tp).envHolding = true ∧ (tone 0 0).envRestart.envHolding = false ∧
    ((8 : Byte).getLsbD 3 = true ∧ (8 : Byte).getLsbD 0 = false ∧ (9 : Byte).getLsbD 0 = true ∧ (4 : Byte).getLsbD 3 = false) := by
  refine ⟨by decide +kernel, by decide +kernel, ⟨5, List.mem_singleton.mpr rfl⟩, by decide +kernel, by decide +kernel, by decide +kernel,
    by decide +kernel, by decide⟩

theorem test_witness_rhythm :
    ((0x01 : Byte).getLsbD 1 = false ∧ (0x81 : Byte).getLsbD 0 = true ∧ (0x81 : Byte).getLsbD 7 = true ∧ (0x01 : Byte).getLsbD 7 = false) ∧
    (let P : Params := { tp with rhyDiv := 2, rhyDiv_pos := by decide };
      blank.rhyDivCnt + 1 < P.rhyDiv ∧ P.rhyDiv ≤ { blank with rhyDivCnt := 1 }.rhyDivCnt + 1) ∧
    ((rhyStarted tp 0).Ok tp ∧ (rhyStarted tp 0).pos < (rhyStarted tp 0).stop ∧ tp.rhyRom[(rhyStarted tp 0).pos]? = some 0x70 ∧
      (7 : Fin 8).val = 0x70 / 16 % 8) ∧
    (RhyChannel.reset.stop ≤ RhyChannel.reset.pos ∧ tp.rhyLevel (tp.rhyAtten 0 0) = some { mul := 15, shift := 1, mask := -4 } ∧
      { tp with rhyLevel := fun _ => none }.rhyLevel 0 = none) := by
  refine ⟨by decide, by decide +kernel, ⟨⟨⟨by decide, by decide⟩, ⟨by decide, by decide⟩, ⟨by decide, by decide⟩, by decide⟩, by decide, by decide, by decide⟩, by decide, by decide, rfl⟩

/-! ## Mixer, host, reset -/

/-- V-MIX-1 to V-MIX-7. -/
theorem test_volumes :
    (after (.setvol 16 0) blank).result = rc .badValue none ∧ (after (.setvol 0 128) blank).result = rc .badValue none ∧
    (let s := after (.setvol 0 64) blank;
      laneScale s 1000 0 = 503 ∧ laneScale s (-1000) 0 = -503 ∧ laneScale (after (.setmute 0 1) s) 1000 0 = 0 ∧
      (after .rstvol (after (.setmute 0 1) s)).vol[0] = 127 ∧ (after .rstvol (after (.setmute 0 1) s)).mute[0] = true) ∧
    (after (.setmute 0 2) blank).result = rc .badValue none ∧ (after (.getmute 5) (after (.setmute 5 1) blank)).result = rc .success (some 1) ∧
    (after (.setmute 5 0) (after (.setmute 5 1) blank)).mute[5] = false := by decide +kernel

/-- V-MIX-9 to V-MIX-11: the groups, and the addition into the buffer. -/
theorem test_mix :
    (let s := { blank with maskA := 1, vol := (Vector.replicate 16 127).set 2 0 };
      (mix s (fun ch => { left := if ch.val = 0 then 100 else if ch.val = 1 then 50 else 0, right := 0 }) (fun _ => { left := 0, right := 0 }) 0
        fun _ => { left := 0, right := 0 }) = { left := 50, right := 0 }) ∧
    addPair [0x7FFFFFFF, 5] 0 { left := 1, right := 3 } = [0x80000000, 8] := by decide +kernel

/-- V-MIX-8, V-MIX-12 to V-MIX-15, V-MIX-17. -/
theorem test_host :
    (setVolumeMasks 0xFF 0x1FF blank).maskA = 0x3F ∧ (setVolumeMasks 0xFF 0x1FF blank).maskB = 0xFF ∧
    (∀ x ∈ [((0 : Int), (6 : Int)), (-1, 1), (0, -1)],
      produce params (List.replicate 10 0) x.1 x.2 blank = .next { blank with faults := { blank.faults with bufferBounds := true } }) ∧
    produce params [] 0 0 blank = .next blank ∧
    nestedCall (.produce [] 0 0) blank = .next { blank with faults := { blank.faults with produceReentry := true }, refused := true } ∧
    hostStep ⟨true, .command 68 []⟩ { blank with externalLocking := true } =
      .next { blank with externalLocking := true, faults := { blank.faults with lockViolation := true }, refused := true } := by
  refine ⟨by decide +kernel, by decide +kernel, fun x hx => ?_, rfl, rfl, rfl⟩
  simp only [List.mem_cons, List.not_mem_nil, or_false] at hx
  rcases hx with rfl | rfl | rfl <;> rfl

/-- R311, R331, R363: at its period Timer A runs its procedure, which sets the masks; with its first list used up, the procedure issues its
last one. -/
theorem test_callback :
    (let h := { id := 7, upcoming := [[.setVolumeMasks 1 2]], thereafter := [.command 67 [.int 0, .int 9], .produce [] 0 0] : HostProc };
      let s := { blank with timerA := { on := true, cnt := 1023, callback := some 7 }, hostProcs := [h] };
      let t := { s with maskA := 1, maskB := 2, timerA := { s.timerA with cnt := 0 }, hostProcs := [{ h with upcoming := [] }] };
      timerTickA tp s = .next t ∧
      timerTickA tp { t with timerA := s.timerA } =
        .next { t with vol := t.vol.set 0 9, callbackResults := [rc .success none], faults := { t.faults with produceReentry := true }, refused := true }) := ⟨rfl, rfl⟩

/-- R334: masks that a callback sets leave the mix of its own tick alone, and act on the next one. Channel 0 plays the sample of V-PCM-41, and the sfx
lanes are at 0. -/
theorem test_masks_next_tick :
    (let h := { id := 7, upcoming := [], thereafter := [.setVolumeMasks 0 1] : HostProc };
      let s := { blank with
        timerA := { on := true, cnt := 1023, callback := some 7 }, hostProcs := [h], pcm := blank.pcm.set 0 (playing 0 0 0x20000)
        vol := (blank.vol.set 2 0).set 3 0, outBuffer := [0, 0] };
      (let t := afterTick s; t.maskB = 1 ∧ t.outBuffer = [15120, 15120]) ∧
      (afterTick { s with maskB := 1 }).outBuffer = [0, 0]) := by
  decide +kernel

/-- R391, R390, R14: a reset keeps timers, volumes and `pcmRam`; the key register ends at 0x06, its shadow at 0; both sides open. -/
theorem test_reset :
    (let t := after .reset { blank with timerB := { on := true, cnt := 3, callback := none }, vol := blank.vol.set 0 10, pcmRam := [(0, 0xAA)], reservedCount := 2 };
      t.timerB.cnt = 3 ∧ t.vol[0] = 10 ∧ t.pcmRam = [(0, 0xAA)] ∧ t.reservedCount = 0 ∧ t.result = rc .success none) ∧
    (after .fmreset { blank with reservedCount := 1 }).reservedCount = 1 ∧ State.reset.chip 0 0x28 = 0x06 ∧ State.reset.shad 0 0xB4 = 0xC0 := by
  decide +kernel

theorem test_witness_mixer :
    (∀ l ∈ [(-1 : Int), 16], l < 0 ∨ 15 < l) ∧ ((2 : Int) ≠ 0 ∧ (2 : Int) ≠ 1) ∧
    (∀ l : Lane, blank.mute[l] = false ∧ blank.vol[l] = 127) ∧ (after (.setmute 15 1) blank).mute[(15 : Lane)] = true := by decide +kernel

theorem test_witness_host :
    ((⟨true, .command 68 []⟩ : HostStep).overlaps = true ∧ { blank with externalLocking := true }.externalLocking = true ∧
      blank.externalLocking = false) ∧
    (blank.timerA.on = false ∧ blank.timerB.on = false ∧ 0 + 1 < { blank with outBuffer := [0, 0] }.outBuffer.length) ∧
    ({ blank with inProduce := true }.inProduce = true ∧ blank.inProduce = false) ∧
    (∀ x ∈ [((-1 : Int), (1 : Int)), (0, -1), (0, 6), (9, 1)],
      x.1 < 0 ∨ x.2 < 0 ∨ (List.replicate 10 (0 : OutElem)).length < x.1 + 2 * x.2) ∧
    (∀ x ∈ [((0 : Int), (5 : Int)), (10, 0), (8, 1)], 0 ≤ x.1 ∧ 0 ≤ x.2 ∧ x.1 + 2 * x.2 ≤ (List.replicate 10 (0 : OutElem)).length) := by
  decide +kernel

/-- A tick at the last pair of a buffer, with each timer on and off. -/
theorem test_witness_tick :
    ∀ a ∈ [true, false], ∀ b ∈ [true, false],
      let s := { blank with timerA := { on := a, cnt := 1023, callback := none }, timerB := { on := b, cnt := 255, callback := none }, outBuffer := [0, 0] };
      s.timerA.on = a ∧ s.timerB.on = b ∧ 0 + 1 < s.outBuffer.length := by decide +kernel

/-- Procedures found behind another, with a list to come and with none, and a name that the host does not have. -/
theorem test_witness_callback :
    (let h := fun (id : ProcId) (u : List (List HostCall)) => ({ id := id, upcoming := u, thereafter := [] } : HostProc);
      let s := { blank with hostProcs := [h 1 [], h 2 [[.setCallbacks none none]]] };
      s.hostProcs = [h 1 []] ++ h 2 [[.setCallbacks none none]] :: [] ∧ (h 2 [[.setCallbacks none none]]).id = 2 ∧ (∀ x ∈ [h 1 []], x.id ≠ 2) ∧
      s.hostProcs = [] ++ h 1 [] :: [h 2 [[.setCallbacks none none]]] ∧ (h 1 []).upcoming = [] ∧ (∀ x ∈ s.hostProcs, x.id ≠ 3) ∧
      s.hostProcs[1]? = some (h 2 [[.setCallbacks none none]])) := by decide +kernel

/-- For each engine a well-formed instruction outside it. -/
theorem test_witness_engines :
    ∀ x ∈ [(Engine.registers, Instr.pcmoff 0x40), (.fm, .rhythmKey 0x3F), (.pcm, .fmreset), (.sampleRam, .reset), (.ssg, .fmKey 0xF0),
      (.rhythm, .ssgEnvShape 0), (.timers, .wrreg 0 0x24 0), (.lanes, .storedOnly 1 0xAF 5)],
      x.2.wf = true ∧ x.1 ∉ enginesOf x.2 := by decide

theorem test_witness_areas :
    (∀ x ∈ [((0 : Part), 0x20), (0, 0x23), (0, 0x28), (0, 0xB6), (1, 0x30), (1, 0xB6)], fmArea x.1 x.2) ∧
    (∀ x ∈ [((0 : Part), 0x1F), (0, 0x24), (0, 0x27), (0, 0xB7), (1, 0x2F), (1, 0xB7)], ¬fmArea x.1 x.2) := by
  unfold fmArea; decide

/-- A state from which the construction rule starts. -/
theorem test_witness_construction :
    ∃ s : State, (∀ (p : Part) (r : Nat), s.chip p r = 0 ∧ s.shad p r = 0) ∧ s.pcmRam = [] ∧ s.ssg = Ssg.reset params ∧
      s.rhy = Vector.replicate 6 .reset ∧ s.rhyDivCnt = 0 ∧ s.timerA = .reset ∧ s.timerB = .reset ∧
      (∀ l : Lane, s.vol[l] = 127 ∧ s.mute[l] = false) ∧ s.maskA = 0 ∧ s.maskB = 0 ∧ s.faults = .reset ∧ s.refused = false ∧
      s.inProduce = false ∧ s.externalLocking = params.externalLocking ∧ s.pending = [] ∧ s.hostProcs = [] ∧ s.outBuffer = [] ∧
      s.result = none ∧ s.callbackResults = [] := by
  refine ⟨{ blank with externalLocking := params.externalLocking }, fun p r => ?_, rfl, rfl, rfl, rfl, rfl, rfl, fun l => ?_, rfl, rfl, rfl,
    rfl, rfl, rfl, rfl, rfl, rfl, rfl, rfl⟩
  · have h : (Vector.replicate 256 (0 : Byte))[r]?.getD 0 = 0 := by
      by_cases hr : r < 256 <;> simp [hr]
    have hp : (Vector.replicate 2 (Vector.replicate 256 (0 : Byte)))[p.val] = Vector.replicate 256 0 := by simp
    constructor
    · show (Vector.replicate 2 (Vector.replicate 256 (0 : Byte)))[p.val][r]?.getD 0 = 0
      rw [hp]; exact h
    · show (Vector.replicate 2 (Vector.replicate 256 (0 : Byte)))[p.val][r]?.getD 0 = 0
      rw [hp]; exact h
  · exact ⟨by simp [blank], by simp [blank]⟩

/-- A state that meets the invariant, and a step from it. -/
theorem test_witness_invariant : Inv blank ∧ step blank = .next blank := by
  refine ⟨⟨?_, rfl⟩, rfl⟩
  have hp : ∀ j : PcmCh, blank.pcm[j] = .reset := by decide +kernel
  have hr : ∀ i : RhyCh, blank.rhy[i] = .reset := by decide +kernel
  constructor
  · rfl
  · decide
  · decide
  · exact List.nodup_nil
  · intro w hw; cases hw
  · decide
  · intro j; rw [hp]; revert j; decide
  · intro j; rw [hp]; rfl
  · intro j; rw [hp]; exact ⟨rfl, rfl, fun h => absurd h (by decide), fun h => absurd h (by decide), rfl⟩
  · decide +kernel
  · decide +kernel
  · intro i; rw [hr]; exact ⟨⟨by decide, by decide⟩, ⟨by decide, by decide⟩, ⟨by decide, by decide⟩, Nat.zero_le _⟩
  · exact Nat.zero_le _
  · exact params.ssgLfsrInit_ne
  · rfl
  · intro h; cases h
  · intro h; cases h

end Sys2Proof.Tests
end

section
/-! Proofs of the statements about the whole state (spec 10_state.md): what every step keeps, what no step clears, what every instruction
leaves alone, and the state right after construction. -/

namespace Sys2Proof.Machine

variable {s t : State}

/-! ## One step -/

/-- An outcome that is a next state with a property gives the property of that state. -/
theorem Goes.of_eq_next {Q : State → Prop} {o : Host.Outcome State Fault Refusal} (h : Goes Q o) (e : o = .next t) : Q t := by
  obtain ⟨u, hu, hQ⟩ := h
  rw [hu] at e
  injection e with e
  exact e ▸ hQ

/-- What a step can do: nothing while the host is idle, or the host's next operation, taken off the list (R48, R373). -/
theorem goes_step {Q : State → Prop} (idle : Q s) (run : ∀ x rest, Goes Q (hostStep x { s with pending := rest })) : Goes Q (step s) := by
  unfold step
  cases s.pending with
  | nil => exact goes_next idle
  | cons x rest => exact run x rest

/-- Taking steps off the host's list does not touch what the invariant reads. -/
theorem Inv.withPending (h : Inv s) (rest : List HostStep) : Inv { s with pending := rest } := ⟨{ h.block with }, h.idle⟩

theorem kept_step (h : Inv s) : Goes Inv (step s) := goes_step h fun x rest => kept_hostStep (h.withPending rest) x

theorem sticky_step (s : State) : Goes (Sticky s) (step s) :=
  goes_step (.refl s) fun x rest =>
    have h0 : Sticky s { s with pending := rest } := .of_eq rfl rfl
    (sticky_hostStep x _).imp fun _ h => h0.trans h

/-- Settles O59: the host's operation of the step keeps the invariant, by the laws of the handlers, the engines and the callbacks. -/
theorem invariantKept : Obligations.InvariantKept := fun _ _ h e => (kept_step h).of_eq_next e

/-- Settles O9: whatever the host's operation is, it leads to a state with the marks of `s` (R26). -/
theorem faultsAreSticky : Obligations.FaultsAreSticky := by
  intro s t e
  have h : Sticky s t := (sticky_step s).of_eq_next e
  exact ⟨h.overflow, h.reentry, h.bounds, h.lock, h.refused⟩

/-- Settles O10, from the frame of every instruction and the quiet frame of every instruction but LDSMP. -/
theorem whatEveryInstructionLeavesAlone : Obligations.WhatEveryInstructionLeavesAlone := by
  intro i s t e
  have ram : (∀ a n d, i ≠ .ldsmp a n d) → t.pcmRam = s.pcmRam := fun hi => ((quiet_exec i hi s).of_eq_next e).pcmRam
  have h : InstrFrame s t := (frame_exec i s).of_eq_next e
  exact ⟨fun hi a => by rw [ram hi], h.ssg_eq, h.queue_grows, h.callbackA, h.callbackB, h.maskA, h.maskB, h.inProduce, h.externalLocking,
    h.refused, h.rhyDivCnt⟩

/-! ## Right after construction (R390) -/

@[simp] theorem reset_fm_get (ch : FmCh) : State.reset.fm[ch] = .reset := BlockInv.replicate_get ..
@[simp] theorem reset_voice_get (ch : FmCh) : State.reset.voice[ch] = .reset := BlockInv.replicate_get ..
@[simp] theorem reset_pcm_get (j : PcmCh) : State.reset.pcm[j] = .reset := BlockInv.replicate_get ..
@[simp] theorem reset_rhy_get (i : RhyCh) : State.reset.rhy[i] = .reset := BlockInv.replicate_get ..
@[simp] theorem reset_vol_get (l : Lane) : State.reset.vol[l] = 127 := BlockInv.replicate_get ..
@[simp] theorem reset_mute_get (l : Lane) : State.reset.mute[l] = false := BlockInv.replicate_get ..

/-- A silent channel has nothing to play (R22, R28). -/
theorem PcmChannel.SourceOk.reset (waves : List WaveRec) : PcmChannel.reset.SourceOk waves := rfl

theorem PcmChannel.FlagsOk.reset : PcmChannel.reset.FlagsOk := ⟨rfl, rfl, nofun, nofun, by decide⟩

theorem is12_zero : is12 0 := by unfold is12; omega

theorem RhyChannel.Ok.reset (P : Params) : RhyChannel.reset.Ok P := ⟨is12_zero, is12_zero, is12_zero, Nat.zero_le _⟩

/-- No channel is reserved after construction: the reserved ones are the top `0` of 8 (R28). -/
theorem reset_reserved_iff (j : PcmCh) : State.reset.pcm[j].reserved = decide (8 - State.reset.reservedCount ≤ j.val) := by
  rw [reset_pcm_get]
  exact (decide_eq_false (Nat.not_le.mpr j.isLt)).symm

theorem blockInv_reset : BlockInv params State.reset where
  total_eq := rfl
  total_le := Nat.zero_le _
  count_le := Nat.zero_le _
  ids_nodup := List.nodup_nil
  waves_ok := nofun
  reserved_le := Nat.zero_le _
  reserved_iff := reset_reserved_iff
  source_ok j := by rw [reset_pcm_get]; exact .reset _
  flags_ok j := by rw [reset_pcm_get]; exact .reset
  level_le ch := by rw [reset_fm_get]; exact ⟨le_refl 1023, le_refl 1023⟩
  pitch_ok ch := by rw [reset_voice_get]; decide
  rhy_ok i := by rw [reset_rhy_get]; exact .reset params
  queue_le := Nat.zero_le _
  lfsr_ne := params.ssgLfsrInit_ne
  ram_wf := rfl
  reentry_refused := nofun
  lock_refused := nofun

theorem inv_reset : Inv State.reset := ⟨blockInv_reset, rfl⟩

/-- After construction register 0x28 holds the raw key-off in the chip and 0 in the shadow (R14, R390). -/
theorem reset_key_register : State.reset.chip 0 0x28 = 0x06 ∧ State.reset.shad 0 0x28 = 0 := reset_images 0 0x28 (by decide)

/-- Settles O58, from the invariant after construction and the reset values of each engine's channels. -/
theorem resetInvariant : Obligations.ResetInvariant := by
  have voices (ch : FmCh) : State.reset.voice[ch].level = 127 ∧ State.reset.fm[ch].op1.level = 1023 := by
    rw [reset_voice_get, reset_fm_get]; exact ⟨rfl, rfl⟩
  have channels (j : PcmCh) : State.reset.pcm[j].level = 127 ∧ State.reset.pcm[j].panL = 15 ∧ State.reset.pcm[j].panR = 15 := by
    rw [reset_pcm_get]; exact ⟨rfl, rfl, rfl⟩
  have lanes (l : Lane) : State.reset.vol[l] = 127 ∧ State.reset.mute[l] = false := ⟨reset_vol_get l, reset_mute_get l⟩
  exact ⟨inv_reset, ⟨rfl, rfl⟩, reset_key_register.1, reset_key_register.2, rfl, rfl, voices, channels, lanes, rfl, rfl⟩

end Sys2Proof.Machine
end

section
/-! Proofs of the statements about the host's words (spec 20_memory.md): a step runs what the host's next command decodes to. -/

namespace Sys2Proof.Machine

variable {s : State}

/-! ## The host's next operation (R48, R366) -/

theorem step_idle (h : s.pending = []) : step s = .next s := by unfold step; rw [h]

theorem step_head {x : HostStep} {rest : List HostStep} (h : s.pending = x :: rest) : step s = hostStep x { s with pending := rest } := by
  unfold step; rw [h]

theorem hostStep_allowed {x : HostStep} (h : x.overlaps = true → s.externalLocking = false) : hostStep x s = hostCall x.call s := by
  unfold hostStep
  exact if_neg (by simpa using h)

/-- The word is taken off the list again and does not overlap. -/
theorem step_withFetchWord (s : State) (nbits w : Nat) :
    step (s.withFetchWord nbits w) = hostCall (callOfEncoded (wireEncoded (w % 2 ^ nbits))) s := rfl

theorem processCommand_decoded {code : Int} {args : List Arg} {i : Instr} (h : decode (.command code args) = .ok i) (s : State) :
    processCommand code args s = exec i s := by
  unfold processCommand; rw [h]

/-! ## A register write and the command 17 that carries it (R87, R303) -/

/-- The decoder accepts the register writes of a part, a register of its valid range and a byte alone (R87). -/
theorem decode_regWrite_ok {part reg value : Nat} {i : Instr} (h : decode (.regWrite part reg value) = .ok i) :
    ∃ (p : Part) (v : Byte), part = p.val ∧ value = v.toNat ∧ regInRange p reg = true ∧ i = decodeRow p reg v := by
  simp only [decode, decodeWith, decodeReg] at h
  split at h
  case isFalse => exact nomatch h
  case isTrue hb =>
    split at h
    case isFalse => exact nomatch h
    case isTrue hr =>
      injection h with h
      exact ⟨⟨part, hb.1⟩, BitVec.ofNat 8 value, rfl, (BitVec.toNat_ofNat value 8 ▸ Nat.mod_eq_of_lt hb.2).symm, hr, h.symm⟩

/-- An instruction that encodes to a register write makes the raw write of that triple (D1, R300). -/
theorem exec_of_encode_encReg {i : Instr} {p : Part} {r : Nat} {v : Byte} (h : encode i = encReg p r v) (s : State) :
    exec i s = .next (writeRaw params p r v s) := by
  cases i with
  | ssgToneLow | ssgToneHigh | ssgNoisePeriod | ssgEnable | ssgLevel | ssgEnvPeriod | ssgEnvShape
  | rhythmKey | rhythmTotalLevel | rhythmChannelLevel | timerAHigh | timerALow | timerB | fmKey
  | fmDtMul | fmTl | fmKsAr | fmAmDr | fmSr | fmSlRr | fmFnumLow | fmBlockFnumHigh | fmFbAlg | fmPan | storedOnly =>
    obtain ⟨rfl, rfl, rfl⟩ := encReg_inj h
    rfl
  | _ => exact nomatch h

/-- WRREG of a part, a register of its valid range and a byte makes the raw write and succeeds (R303). -/
theorem exec_wrreg_inRange {p : Part} {r : Nat} (h : regInRange p r = true) (v : Byte) (s : State) :
    exec (.wrreg p.val r v.toNat) s = .next ((writeRaw params p r v s).returning .success none) := by
  show writeRegister params p.val r v.toNat s = _
  unfold writeRegister
  rw [register?_val ((regInRange_iff p r).mp h), byte?_val]
  rfl

/-- A register write that decodes makes the same change as the command 17 that carries it, which adds its result (R87, R303). -/
theorem wrreg_of_decode_regWrite {part reg value : Nat} {i : Instr} {t : State} (hd : decode (.regWrite part reg value) = .ok i)
    (he : exec i s = .next t) : exec (.wrreg part reg value) s = .next (t.returning .success none) := by
  obtain ⟨p, v, rfl, rfl, hr, rfl⟩ := decode_regWrite_ok hd
  obtain ⟨-, henc, -⟩ := decodeRow_spec v hr
  rw [exec_of_encode_encReg henc] at he
  injection he with he
  rw [exec_wrreg_inRange hr, he]

/-- Settles O6: a command runs through the decoder, a word runs as the operation it stands for, and an idle step changes nothing. -/
theorem stepRunsDecoded : Obligations.StepRunsDecoded := by
  refine ⟨?head, ?commandWord, ?registerWord, fun _ => step_idle⟩
  case head =>
    intro s h rest code args i hp hc hl hd
    calc step s = hostStep h { s with pending := rest } := step_head hp
      _ = hostCall h.call { s with pending := rest } := hostStep_allowed hl
      _ = exec i { s with pending := rest } := by rw [hc]; exact processCommand_decoded hd _
  case commandWord =>
    intro s nbits w code args i hw hd
    rw [step_withFetchWord, hw]
    exact processCommand_decoded hd s
  case registerWord =>
    intro s t nbits w p r v i hw hd he
    rw [step_withFetchWord, hw]
    exact wrreg_of_decode_regWrite hd he

end Sys2Proof.Machine
end

section
/-! Proofs of the statements about the spec's encodings (30_encoding.md): the decoder and the encoder undo each other, what a command's
arguments have to be, and what a wrong channel gives. -/

namespace Sys2Proof.Machine

/-! ## The instructions of register writes (R15, R87, R88) -/

/-- A level-2 instruction encodes to the register write of a part, a register and a byte (D1, R87). -/
theorem encode_of_isRegWrite {i : Instr} (h : i.isRegWrite = true) : ∃ p r v, encode i = encReg p r v := by
  cases i with
  | ssgToneLow | ssgToneHigh | ssgNoisePeriod | ssgEnable | ssgLevel | ssgEnvPeriod | ssgEnvShape
  | rhythmKey | rhythmTotalLevel | rhythmChannelLevel | timerAHigh | timerALow | timerB | fmKey
  | fmDtMul | fmTl | fmKsAr | fmAmDr | fmSr | fmSlRr | fmFnumLow | fmBlockFnumHigh | fmFbAlg | fmPan | storedOnly =>
    exact ⟨_, _, _, rfl⟩
  | _ => exact nomatch h

/-- A row of R15 is in the valid range and reads as the one instruction that encodes to it: channel by channel, operator by operator. -/
theorem decodeRow_of_encode {i : Instr} {p : Part} {r : Nat} {v : Byte} (hw : i.WellFormed) (h : encode i = encReg p r v) :
    regInRange p r = true ∧ decodeRow p r v = i := by
  cases i with
  | ssgNoisePeriod | ssgEnable | ssgEnvShape | rhythmKey | rhythmTotalLevel | timerAHigh | timerALow | timerB | fmKey =>
    obtain ⟨rfl, rfl, rfl⟩ := encReg_inj h
    exact ⟨rfl, rfl⟩
  | ssgEnvPeriod high =>
    obtain ⟨rfl, rfl, rfl⟩ := encReg_inj h
    cases high <;> exact ⟨rfl, rfl⟩
  | ssgToneLow ch | ssgToneHigh ch | ssgLevel ch | rhythmChannelLevel ch
  | fmFnumLow ch | fmBlockFnumHigh ch | fmFbAlg ch | fmPan ch =>
    obtain ⟨rfl, rfl, rfl⟩ := encReg_inj h
    clear hw h
    fin_cases ch <;> exact ⟨rfl, rfl⟩
  | fmDtMul ch op | fmTl ch op | fmKsAr ch op | fmAmDr ch op | fmSr ch op | fmSlRr ch op =>
    obtain ⟨rfl, rfl, rfl⟩ := encReg_inj h
    clear hw h
    cases op <;> fin_cases ch <;> exact ⟨rfl, rfl⟩
  | storedOnly part reg value =>
    obtain ⟨rfl, rfl, rfl⟩ := encReg_inj h
    obtain ⟨-, -, _, hr⟩ := Laws.EncodesInRange.storedOnly part reg value hw
    exact ⟨hr, (decodeRow_spec value hr).2.2 hw⟩
  | _ => exact nomatch h

theorem decode_encode_regWrite {i : Instr} (hi : i.isRegWrite = true) (hw : i.WellFormed) : decode (encode i) = .ok i := by
  obtain ⟨p, r, v, h⟩ := encode_of_isRegWrite hi
  obtain ⟨hr, hd⟩ := decodeRow_of_encode hw h
  rw [h, decode_encReg v hr, hd]

/-! ## The instructions of commands (R82, R84) -/

theorem route_pcm {c : Int} (h : pcmRoute c = true) (pcm fm : Instr) : (if isPcm c then pcm else fm) = pcm := by
  rw [isPcm_eq, if_pos h]

theorem route_fm {c : Int} (h : (!pcmRoute c) = true) (pcm fm : Instr) : (if isPcm c then pcm else fm) = fm := by
  rw [isPcm_eq, if_neg (by simpa using h)]

theorem decodeCode_untabled {n : Nat} (h : (n : Int) ∉ tabledCodes) (args : List Arg) :
    decodeCode n args = .ok (.unsupported n args) := by
  unfold decodeCode
  split
  -- The last row; every other one is that of a code of the table.
  case h_43 => rfl
  all_goals exact absurd (by decide) h

/-- R83: an unlisted code without a row of its own is unsupported, whatever its arguments are. -/
theorem decode_untabled {code : Int} (h : code ∉ tabledCodes) (args : List Arg) :
    decode (.command code args) = .ok (.unsupported code args) := by
  show decodeCommand code args = _
  unfold decodeCommand
  split
  · rfl
  · obtain ⟨n, rfl⟩ := Int.eq_ofNat_of_zero_le (not_lt.mp ‹¬code < 0›)
    exact decodeCode_untabled h args

theorem unsupported_wellFormed {code : Int} {args : List Arg} : (Instr.unsupported code args).WellFormed ↔ code ∉ tabledCodes := by
  simp [Instr.WellFormed, Instr.wf]

theorem decode_encode_command {i : Instr} (hi : i.isRegWrite = false) (hw : i.WellFormed) : decode (encode i) = .ok i := by
  cases i with
  | keyonFm | keyoffFm | setpanFm | setinstFm | loadinstFm | setpitchFm | setlevelFm | choffFm =>
    exact congrArg Except.ok (route_fm hw _ _)
  | keyonPcm | keyoffPcm | setpanPcm | setinstPcm | loadinstPcm | setpitchPcm | setlevelPcm | choffPcm =>
    exact congrArg Except.ok (route_pcm hw _ _)
  | unsupported code args => exact decode_untabled (unsupported_wellFormed.mp hw) args
  | reset | wrreg | wrregb | rdregb | setta | settb | enta | entb | ldsmp | reserve | ldwave | unwave | playfx | pcmoff | fxq | fmkeyon
  | fmkeyoff | fmpan | fminst | fmload | fmpitch | fmlevel | fmreset | setvol | rstvol | getvol | setmute | cdtoggle | getvol2 | getmute
  | pcmenv | unsupported55 | unsupported74 | unsupported75 => rfl
  | _ => exact nomatch hi

/-- Settles O1: a level-2 instruction is read back from its row, a command from its code, its route and its arguments. -/
theorem decodeEncode : Obligations.DecodeEncode := by
  intro i hw
  cases hi : i.isRegWrite with
  | true => exact decode_encode_regWrite hi hw
  | false => exact decode_encode_command hi hw

/-! ## What the decoder reads (R81) -/

/-- `i` is an instruction whose encoding is the command `code` with `args`. -/
def Encodes (i : Instr) (code : Int) (args : List Arg) : Prop := i.WellFormed ∧ encode i = .command code args

/-- What decoding a command can answer (R81): an instruction that encodes to it, or, if the code is listed and the arguments do not fit, the
error that names the code. -/
inductive Reading (code : Int) (args : List Arg) : Except DecodeError Instr → Prop
  | instr {i : Instr} (enc : Encodes i code args) (shape : code ∈ listedCodes → shapeOk code args = true) : Reading code args (.ok i)
  | misfit (listed : code ∈ listedCodes) (shape : shapeOk code args = false) : Reading code args (.error (.argShape code))

/-- The code is listed, and R82 gives it arguments of these kinds. -/
structure Takes (code : Int) (kinds : List ArgKind) : Prop where
  listed : code ∈ listedCodes
  shape : ∀ args, shapeOk code args = argsFit kinds args

section
variable {code : Int} {args : List Arg} {kinds : List ArgKind}

@[simp] theorem argsFit_nil : argsFit [] args = true ↔ args = [] := by
  cases args <;> simp [argsFit]

@[simp] theorem argsFit_int : argsFit (.int :: kinds) args = true ↔ ∃ a as, argsFit kinds as = true ∧ .int a :: as = args := by
  rcases args with _ | ⟨_ | _, as⟩ <;> simp [argsFit]

@[simp] theorem argsFit_buf : argsFit (.buf :: kinds) args = true ↔ ∃ d as, argsFit kinds as = true ∧ .buf d :: as = args := by
  rcases args with _ | ⟨_ | _, as⟩ <;> simp [argsFit]

theorem Takes.reads {i : Instr} (h : Takes code kinds) (fit : argsFit kinds args = true) (enc : Encodes i code args) :
    Reading code args (.ok i) := .instr enc fun _ => (h.shape args).trans fit

theorem Takes.misfit (h : Takes code kinds) (fit : ¬argsFit kinds args = true) : Reading code args (.error (.argShape code)) :=
  .misfit h.listed ((h.shape args).trans (Bool.eq_false_iff.mpr fit))

/-! Each reader of an argument list reads as R81 says, if what it builds from fitting arguments encodes back to them. -/

theorem args0_reads {f : Instr} (h : Takes code []) (enc : Encodes f code []) :
    Reading code args (args0 code args f) := by
  unfold args0
  split
  · exact h.reads rfl enc
  next hno => exact h.misfit (by simpa [eq_comm (b := args)] using hno)

theorem args1_reads {f : Int → Instr} (h : Takes code [.int]) (enc : ∀ a, Encodes (f a) code [.int a]) :
    Reading code args (args1 code args f) := by
  unfold args1
  split
  · exact h.reads rfl (enc _)
  next hno => exact h.misfit (by simpa [eq_comm (b := args)] using hno)

theorem args2_reads {f : Int → Int → Instr} (h : Takes code [.int, .int])
    (enc : ∀ a b, Encodes (f a b) code [.int a, .int b]) :
    Reading code args (args2 code args f) := by
  unfold args2
  split
  · exact h.reads rfl (enc _ _)
  next hno => exact h.misfit (by simpa [eq_comm (b := args)] using hno)

theorem args3_reads {f : Int → Int → Int → Instr} (h : Takes code [.int, .int, .int])
    (enc : ∀ a b c, Encodes (f a b c) code [.int a, .int b, .int c]) :
    Reading code args (args3 code args f) := by
  unfold args3
  split
  · exact h.reads rfl (enc _ _ _)
  next hno => exact h.misfit (by simpa [eq_comm (b := args)] using hno)

theorem argsB_reads {f : List Byte → Instr} (h : Takes code [.buf]) (enc : ∀ a, Encodes (f a) code [.buf a]) :
    Reading code args (argsB code args f) := by
  unfold argsB
  split
  · exact h.reads rfl (enc _)
  next hno => exact h.misfit (by simpa [eq_comm (b := args)] using hno)

theorem args1B_reads {f : Int → List Byte → Instr} (h : Takes code [.int, .buf])
    (enc : ∀ a b, Encodes (f a b) code [.int a, .buf b]) :
    Reading code args (args1B code args f) := by
  unfold args1B
  split
  · exact h.reads rfl (enc _ _)
  next hno => exact h.misfit (by simpa [eq_comm (b := args)] using hno)

theorem args2B_reads {f : Int → Int → List Byte → Instr} (h : Takes code [.int, .int, .buf])
    (enc : ∀ a b c, Encodes (f a b c) code [.int a, .int b, .buf c]) :
    Reading code args (args2B code args f) := by
  unfold args2B
  split
  · exact h.reads rfl (enc _ _ _)
  next hno => exact h.misfit (by simpa [eq_comm (b := args)] using hno)

theorem args3B_reads {f : Int → Int → Int → List Byte → Instr} (h : Takes code [.int, .int, .int, .buf])
    (enc : ∀ a b c d, Encodes (f a b c d) code [.int a, .int b, .int c, .buf d]) :
    Reading code args (args3B code args f) := by
  unfold args3B
  split
  · exact h.reads rfl (enc _ _ _ _)
  next hno => exact h.misfit (by simpa [eq_comm (b := args)] using hno)

end

/-- The two routes of a shared code have one encoding, and the route that the channel selects is well-formed (R84). -/
theorem encodes_route {c code : Int} {args : List Arg} {pcm fm : Instr} (hp : pcm.wf = pcmRoute c) (hf : fm.wf = !pcmRoute c)
    (ep : encode pcm = .command code args) (ef : encode fm = .command code args) :
    Encodes (if isPcm c then pcm else fm) code args := by
  cases hc : !pcmRoute c with
  | true => rw [route_fm hc]; exact ⟨hf.trans hc, ef⟩
  | false => rw [route_pcm (by simpa using hc)]; exact ⟨hp.trans (by simpa using hc), ep⟩

/-- The opcode table's codes are the listed ones and three unsupported ones (R82, R83). -/
theorem mem_tabledCodes {code : Int} : code ∈ tabledCodes ↔ code ∈ listedCodes ∨ code = 55 ∨ code = 74 ∨ code = 75 := by
  simp only [tabledCodes, listedCodes, List.cons_append, List.nil_append, List.mem_cons, List.not_mem_nil, or_false]
  omega

theorem tabledCodes_nonneg : ∀ code ∈ tabledCodes, 0 ≤ code := by decide

theorem unsupported_reads {code : Int} (h : code ∉ tabledCodes) (args : List Arg) : Reading code args (.ok (.unsupported code args)) :=
  .instr ⟨unsupported_wellFormed.mpr h, rfl⟩ fun hl => absurd (mem_tabledCodes.mpr (.inl hl)) h

/-- Every row of the decoder's table reads as R81 says. -/
theorem decodeCode_reads (n : Nat) (args : List Arg) : Reading n args (decodeCode n args) := by
  unfold decodeCode
  split
  -- The shared codes: 1; 2 and 9; 3, 4, 7 and 8; 5.
  case h_2 => exact args3_reads ⟨by decide, fun _ => rfl⟩ fun _ _ _ => encodes_route rfl rfl rfl rfl
  case h_3 | h_9 => exact args1_reads ⟨by decide, fun _ => rfl⟩ fun _ => encodes_route rfl rfl rfl rfl
  case h_4 | h_5 | h_7 | h_8 => exact args2_reads ⟨by decide, fun _ => rfl⟩ fun _ _ => encodes_route rfl rfl rfl rfl
  case h_6 => exact args2B_reads ⟨by decide, fun _ => rfl⟩ fun _ _ _ => encodes_route rfl rfl rfl rfl
  -- No arguments: 0, 58, 68 and 80.
  case h_1 | h_32 | h_34 | h_42 => exact args0_reads ⟨by decide, fun _ => rfl⟩ ⟨rfl, rfl⟩
  -- One integer: 21 to 24, 33, 35, 39, 40, 51 and 73.
  case h_13 | h_14 | h_15 | h_16 | h_18 | h_20 | h_22 | h_23 | h_25 | h_39 =>
    exact args1_reads ⟨by decide, fun _ => rfl⟩ fun _ => ⟨rfl, rfl⟩
  -- Two integers: 20, 52, 53, 56, 57, 67 and 70.
  case h_12 | h_26 | h_27 | h_30 | h_31 | h_33 | h_36 => exact args2_reads ⟨by decide, fun _ => rfl⟩ fun _ _ => ⟨rfl, rfl⟩
  -- Three integers: 17, 19 and 50.
  case h_10 | h_11 | h_24 => exact args3_reads ⟨by decide, fun _ => rfl⟩ fun _ _ _ => ⟨rfl, rfl⟩
  -- A buffer, after no, one, two or three integers: 34, 54, 32, 37.
  case h_19 => exact argsB_reads ⟨by decide, fun _ => rfl⟩ fun _ => ⟨rfl, rfl⟩
  case h_28 => exact args1B_reads ⟨by decide, fun _ => rfl⟩ fun _ _ => ⟨rfl, rfl⟩
  case h_17 => exact args2B_reads ⟨by decide, fun _ => rfl⟩ fun _ _ _ => ⟨rfl, rfl⟩
  case h_21 => exact args3B_reads ⟨by decide, fun _ => rfl⟩ fun _ _ _ _ => ⟨rfl, rfl⟩
  -- The stubs 69, 71 and 72 and the unsupported codes 55, 74 and 75 take any arguments.
  case h_35 | h_37 | h_38 => exact .instr ⟨rfl, rfl⟩ fun _ => rfl
  case h_29 | h_40 | h_41 => exact .instr ⟨rfl, rfl⟩ fun h => absurd h (by decide)
  case h_43 =>
    have ht : (n : Int) ∉ tabledCodes := by
      simp only [imp_false] at *
      simp only [tabledCodes, List.cons_append, List.nil_append, List.mem_cons, List.not_mem_nil, or_false]
      omega
    exact unsupported_reads ht args

/-- Every command reads as R81 says. -/
theorem decode_command_reads (code : Int) (args : List Arg) : Reading code args (decode (.command code args)) := by
  show Reading code args (decodeCommand code args)
  unfold decodeCommand
  split
  · exact unsupported_reads (fun h => absurd (tabledCodes_nonneg code h) (by omega)) args
  · obtain ⟨n, rfl⟩ := Int.eq_ofNat_of_zero_le (not_lt.mp ‹¬code < 0›)
    exact decodeCode_reads n args

/-- Settles O2: a command by its reading, a register write by its row. -/
theorem encodeDecode : Obligations.EncodeDecode := by
  intro e i hd
  cases e with
  | command code args =>
    have hr := decode_command_reads code args
    rw [hd] at hr
    cases hr with
    | instr enc _ => exact enc
  | regWrite part reg value =>
    obtain ⟨p, v, rfl, rfl, hr, rfl⟩ := decode_regWrite_ok hd
    obtain ⟨hw, he, -⟩ := decodeRow_spec v hr
    exact ⟨hw, he⟩

/-! ## What a command does with its arguments (R81) -/

/-- A command that does not decode is refused (R81, R365). -/
theorem processCommand_error {code : Int} {args : List Arg} {e : DecodeError} (h : decode (.command code args) = .error e) (s : State) :
    processCommand code args s = .next (refuse s) := by
  unfold processCommand; rw [h]

/-- An unlisted code, with a row of its own in the opcode table or without, answers 4 (R81, R83). -/
theorem processCommand_unlisted {code : Int} (h : code ∉ listedCodes) (args : List Arg) (s : State) :
    processCommand code args s = .next (s.returning .unsupported none) := by
  by_cases ht : code ∈ tabledCodes
  · obtain hl | rfl | rfl | rfl := mem_tabledCodes.mp ht
    · exact absurd hl h
    all_goals rfl
  · rw [processCommand_decoded (decode_untabled ht args)]
    rfl

/-- Settles O3: the two listed cases are the two readings of a listed code. -/
theorem commandDecoding : Obligations.CommandDecoding := by
  intro code args s
  have hr := decode_command_reads code args
  generalize hd : decode (.command code args) = r at hr ⊢
  refine ⟨fun hl => processCommand_unlisted hl args s, fun hl hs => ?fits, fun hl hs => ?misfits⟩
  case fits =>
    cases hr with
    | instr => exact ⟨_, rfl, processCommand_decoded hd s⟩
    | misfit _ hs' => exact absurd (hs.symm.trans hs') (by decide)
  case misfits =>
    cases hr with
    | instr _ shape => exact absurd ((shape hl).symm.trans hs) (by decide)
    | misfit => exact processCommand_error hd s

/-- Settles O5: each of the encodings is that of the instruction named. -/
theorem decodedWords : Obligations.DecodedWords :=
  ⟨decodeEncode (.keyonFm 0 60 100) rfl, decodeEncode (.keyonPcm 0x41 60 100) rfl, decodeEncode (.wrregb 1 0xB4 0xC0) rfl,
    decodeEncode (.unsupported 6 []) rfl, decodeEncode (.fmKey 0x91) rfl, decodeEncode (.fmTl 5 .op2 0x12) rfl,
    decodeEncode (.rhythmChannelLevel 5 0xDF) rfl⟩

/-- Settles O12, by the completion of each level-2 instruction. -/
theorem levelTwoCompletes : Obligations.LevelTwoCompletes := fun _ _ _ _ s h => exec_of_encode_encReg h s

/-! ## Channels (R84) -/

/-- R84: bit 6 of a channel that is not negative selects PCM. -/
theorem pcmRoute_eq_true {c : Int} (h0 : 0 ≤ c) (h : c / 64 % 2 = 1) : pcmRoute c = true := by
  simp [pcmRoute, h0, h]

theorem pcmRoute_eq_false {c : Int} (h : c < 0 ∨ c / 64 % 2 = 0) : pcmRoute c = false := by
  unfold pcmRoute
  obtain h | h := h
  · simp [not_le.mpr h]
  · simp [h]

/-! The channel is each handler's first check (R121): its failure does not look at the other operands. -/

section
variable {P : Params} {c : Int} (a b : Int) (d : List Byte) (s : State)

theorem pcmKeyOn_badChannel (h : pcmChan? c = none) : pcmKeyOn P c a b s = reply .badChannel s := by
  unfold pcmKeyOn; rw [h]

theorem pcmKeyOff_badChannel (h : pcmChan? c = none) : pcmKeyOff c s = reply .badChannel s := by
  unfold pcmKeyOff; rw [h]

theorem pcmSetPan_badChannel (h : pcmChan? c = none) : pcmSetPan c a s = reply .badChannel s := by
  unfold pcmSetPan; rw [h]

theorem pcmSetInst_badChannel (h : pcmChan? c = none) : pcmSetInst c a s = reply .badChannel s := by
  unfold pcmSetInst; rw [h]

theorem pcmSetPitch_badChannel (h : pcmChan? c = none) : pcmSetPitch P c a s = reply .badChannel s := by
  unfold pcmSetPitch; rw [h]

theorem pcmSetLevel_badChannel (h : pcmChan? c = none) : pcmSetLevel c a s = reply .badChannel s := by
  unfold pcmSetLevel; rw [h]

theorem pcmOff_badChannel (h : pcmChan? c = none) : pcmOff c s = reply .badChannel s := by
  unfold pcmOff; rw [h]

theorem pcmPlayEffect_badChannel (h : pcmChan? c = none) : pcmPlayEffect P c a b d s = reply .badChannel s := by
  unfold pcmPlayEffect; rw [h]

theorem pcmEffectPlaying_badChannel (h : pcmChan? c = none) : pcmEffectPlaying c s = reply .badChannel s := by
  unfold pcmEffectPlaying; rw [h]

theorem fmKeyOn_badChannel (h : fmChan? c = none) : fmKeyOn P c a b s = reply .badChannel s := by
  unfold fmKeyOn; rw [h]

theorem fmKeyOff_badChannel (h : fmChan? c = none) : fmKeyOff P c s = reply .badChannel s := by
  unfold fmKeyOff; rw [h]

theorem fmSetPan_badChannel (h : fmChan? c = none) : fmSetPan P c a s = reply .badChannel s := by
  unfold fmSetPan; rw [h]

theorem fmSetInst_badChannel (h : fmChan? c = none) : fmSetInst P c a s = reply .badChannel s := by
  unfold fmSetInst; rw [h]

theorem fmSetPitch_badChannel (h : fmChan? c = none) : fmSetPitch P c a s = reply .badChannel s := by
  unfold fmSetPitch; rw [h]

theorem fmSetLevel_badChannel (h : fmChan? c = none) : fmSetLevel P c a s = reply .badChannel s := by
  unfold fmSetLevel; rw [h]

theorem fmChOff_badChannel (h : fmChan? c = none) : fmChOff P c s = reply .badChannel s := by
  unfold fmChOff; rw [h]

end

/-- Settles O4: a route is the decoding of the instruction it selects; a channel outside the range fails each handler's first check. -/
theorem channelRouting : Obligations.ChannelRouting := by
  refine ⟨fun c a b h0 h => ?pcmRoutes, fun c a b h => ?fmRoutes, fun c a b d s h => ?pcmRange, fun c a b s h => ?fmRange⟩
  case pcmRoutes =>
    have hw : pcmRoute c = true := pcmRoute_eq_true h0 h
    exact ⟨decodeEncode (.keyonPcm c a b) hw, decodeEncode (.keyoffPcm c) hw, decodeEncode (.setpanPcm c a) hw,
      decodeEncode (.setinstPcm c a) hw, decodeEncode (.setpitchPcm c a) hw, decodeEncode (.setlevelPcm c a) hw,
      decodeEncode (.choffPcm c) hw⟩
  case fmRoutes =>
    have hw : (!pcmRoute c) = true := by rw [pcmRoute_eq_false h]; rfl
    exact ⟨decodeEncode (.keyonFm c a b) hw, decodeEncode (.keyoffFm c) hw, decodeEncode (.setpanFm c a) hw,
      decodeEncode (.setinstFm c a) hw, decodeEncode (.setpitchFm c a) hw, decodeEncode (.setlevelFm c a) hw,
      decodeEncode (.choffFm c) hw⟩
  case pcmRange =>
    have hc := pcmChan?_none h
    simp only [List.forall_mem_cons]
    exact ⟨pcmKeyOn_badChannel a b s hc, pcmKeyOff_badChannel s hc, pcmSetPan_badChannel a s hc, pcmSetInst_badChannel a s hc,
      pcmSetPitch_badChannel a s hc, pcmSetLevel_badChannel a s hc, pcmOff_badChannel s hc, pcmPlayEffect_badChannel a b d s hc,
      pcmOff_badChannel s hc, pcmEffectPlaying_badChannel s hc, nofun⟩
  case fmRange =>
    have hc := fmChan?_none h
    simp only [List.forall_mem_cons]
    exact ⟨fmKeyOn_badChannel a b s hc, fmKeyOff_badChannel s hc, fmSetPan_badChannel a s hc, fmSetInst_badChannel a s hc,
      fmSetPitch_badChannel a s hc, fmSetLevel_badChannel a s hc, fmChOff_badChannel s hc,
      fmKeyOn_badChannel a b s hc, fmKeyOff_badChannel s hc, fmSetPan_badChannel a s hc, fmSetInst_badChannel a s hc,
      fmSetPitch_badChannel a s hc, fmSetLevel_badChannel a s hc, nofun⟩

/-! ## Wave-table headers (R43, R95) -/

/-- A field of two bytes in this block, the least significant byte first (R43). -/
theorem memRead_params_two (buf : List Byte) (a : Nat) :
    memRead params buf a 2 = (buf.getD a 0).toNat + (buf.getD (a + 1) 0).toNat * 256 := by
  show (buf.getD a 0).toNat + 256 * ((buf.getD (a + 1) 0).toNat + 256 * 0) = _
  omega

/-- A field of four bytes in this block, the least significant byte first (R43). -/
theorem memRead_params_four (buf : List Byte) (a : Nat) :
    memRead params buf a 4 = (buf.getD a 0).toNat + (buf.getD (a + 1) 0).toNat * 256 + (buf.getD (a + 2) 0).toNat * 65536 +
      (buf.getD (a + 3) 0).toNat * 16777216 := by
  show (buf.getD a 0).toNat + 256 * ((buf.getD (a + 1) 0).toNat + 256 * ((buf.getD (a + 2) 0).toNat +
    256 * ((buf.getD (a + 3) 0).toNat + 256 * 0))) = _
  omega

/-- The two low bytes are what is left of a field of four below 65536. -/
theorem memRead_params_four_mod (buf : List Byte) (a : Nat) : memRead params buf a 4 % 65536 = memRead params buf a 2 := by
  have h := memRead_lt params buf a 2
  rw [memRead_params_two] at h ⊢
  rw [memRead_params_four]
  omega

/-- Settles O40: each field is a field of two or four bytes; the base note keeps the low two of its four. -/
theorem waveHeaderFields : Obligations.WaveHeaderFields := by
  intro buf b h
  exact ⟨rfl, congrArg sext32 (memRead_params_four buf 8), congrArg sext32 (memRead_params_four buf 12), memRead_params_four buf 16,
    memRead_params_four buf 20, memRead_params_two buf 24, congrArg sext16 (memRead_params_two buf 26),
    (memRead_params_four_mod buf 28).trans (memRead_params_two buf 28)⟩

end Sys2Proof.Machine
end

section
/-! Proofs of the statements about the dispatch (spec 40_dispatch.md): what a command's result says about the next state, and what the two
reset commands leave. -/

namespace Sys2Proof.Machine

/-! ## Result codes and out-values (R121, R122) -/

theorem Rc.code_ne_zero {rc : Rc} : rc.code ≠ 0 ↔ rc ≠ .success := by
  cases rc <;> decide

section
variable {s t : State} {o : Host.Outcome State Fault Refusal} {rc : Rc} {out : Option Int} {r : CmdResult} {i : Instr}

/-- An outcome that returns a code and an out-value gives one next state and one result. -/
theorem eq_of_returns (h : o = .next (s.returning rc out)) (e : o = .next t) (hr : t.result = some r) :
    t = s.returning rc out ∧ r = { rc := rc, out := out } := by
  rw [h] at e
  injection e with e
  subst e
  injection hr with hr
  exact ⟨rfl, hr.symm⟩

/-- A command that only replies gives no out-value, and with a code other than 0 it changes only the result. -/
theorem Replies.result (h : Replies s o) (e : o = .next t) (hr : t.result = some r) :
    r.out = none ∧ (r.rc ≠ .success → t = s.returning r.rc none) := by
  obtain ⟨rc, u, h, same⟩ := h
  obtain ⟨rfl, rfl⟩ := eq_of_returns h e hr
  exact ⟨rfl, fun hrc => by rw [same hrc]⟩

/-- A query gives an out-value exactly when it succeeds, and otherwise it changes only the result. -/
theorem query_result (hq : Instr.isQuery i) (e : exec i s = .next t) (hr : t.result = some r) :
    (r.out.isSome = true ↔ r.rc = .success) ∧ (r.rc ≠ .success → t = s.returning r.rc none) := by
  obtain ⟨v, h⟩ | ⟨rc, hrc, h⟩ := answers_exec i hq s
  · obtain ⟨rfl, rfl⟩ := eq_of_returns h e hr
    exact ⟨iff_of_true rfl rfl, fun hne => absurd rfl hne⟩
  · obtain ⟨rfl, rfl⟩ := eq_of_returns h e hr
    exact ⟨iff_of_false nofun hrc, fun _ => rfl⟩

end

/-- Settles O8: a query answers or fails, and every other command replies. -/
theorem commandResults : Obligations.CommandResults := by
  intro i s t r hw e hr
  rw [Rc.code_ne_zero]
  by_cases hq : Instr.isQuery i
  · obtain ⟨out, fails⟩ := query_result hq e hr
    exact ⟨fails, out.trans (and_iff_left hq).symm⟩
  · obtain ⟨out, fails⟩ := (replies_exec i hw hq s).result e hr
    exact ⟨fails, iff_of_false (by simp [out]) fun h => hq h.2⟩

/-! ## The reset commands (R124, R125, R181, R391, R392) -/

/-- The FM reset leaves every FM field at its value after construction and, beside the images, every other field alone. -/
theorem fmReset_fields (s : State) :
    fmReset params s =
      { s with
        chipReg := (fmReset params s).chipReg, shadow := (fmReset params s).shadow
        fnumLatch := State.reset.fnumLatch, fm := State.reset.fm, voice := State.reset.voice, fmBank := State.reset.fmBank } := by
  obtain ⟨fm, fnumLatch, rest⟩ := (fmReset_spec (P := params) s).1
  rw [fm, fnumLatch] at rest
  rw [reset_fm, reset_fnumLatch, reset_voice, reset_fmBank]
  exact rest

theorem fmArea_lt {p : Part} {r : Nat} (h : fmArea p r) : r < 256 := by
  unfold fmArea at h
  split at h <;> omega

/-- The FM reset leaves the FM area of both images as after construction, and every other register alone. -/
theorem fmReset_images (s : State) (p : Part) (r : Nat) :
    (fmArea p r → (fmReset params s).chip p r = State.reset.chip p r ∧ (fmReset params s).shad p r = State.reset.shad p r) ∧
    (¬fmArea p r → (fmReset params s).chip p r = s.chip p r ∧ (fmReset params s).shad p r = s.shad p r) := by
  obtain ⟨inside, outside⟩ := (fmReset_spec (P := params) s).2 p r
  refine ⟨fun h => ?_, outside⟩
  obtain ⟨chip, shad⟩ := reset_images p r (fmArea_lt h)
  rw [chip, shad]
  exact inside h

/-- The PCM reset leaves every PCM field at its value after construction and every other field alone. -/
theorem pcmReset_fields (s : State) :
    pcmReset params s =
      { s with
        pcm := State.reset.pcm, pcmBank := State.reset.pcmBank, waves := [], waveTotal := 0, reservedCount := 0 } := by
  rw [reset_pcm, reset_pcmBank]
  rfl

theorem exec_fmreset (s : State) : exec .fmreset s = .next ((fmReset params s).returning .success none) := rfl

theorem exec_reset (s : State) : exec .reset s = .next ((pcmReset params (fmReset params s)).returning .success none) := rfl

@[simp] theorem returning_chip (s : State) (rc : Rc) (out : Option Int) (p : Part) (r : Nat) :
    (s.returning rc out).chip p r = s.chip p r := rfl

@[simp] theorem returning_shad (s : State) (rc : Rc) (out : Option Int) (p : Part) (r : Nat) :
    (s.returning rc out).shad p r = s.shad p r := rfl

@[simp] theorem pcmReset_chip (P : Params) (s : State) (p : Part) (r : Nat) : (pcmReset P s).chip p r = s.chip p r := rfl

@[simp] theorem pcmReset_shad (P : Params) (s : State) (p : Part) (r : Nat) : (pcmReset P s).shad p r = s.shad p r := rfl

/-- Settles O56: FMRESET is the FM reset, and RESET clears the PCM fields after it. -/
theorem resetCommands : Obligations.ResetCommands := by
  intro s
  have fields := fmReset_fields s
  have images := fmReset_images s
  rw [exec_fmreset, exec_reset]
  -- The rest of the proof never looks into the sequence of R190.
  generalize fmReset params s = t at fields images ⊢
  refine ⟨⟨_, rfl, ?fmFields, fun p r => ?fmImages⟩, ⟨_, rfl, ?allFields, fun p r => ?allImages⟩⟩
  case fmFields => rw [fields]; rfl
  case fmImages => rw [returning_chip, returning_shad]; exact images p r
  case allFields => rw [pcmReset_fields, fields]; rfl
  case allImages => rw [returning_chip, returning_shad, pcmReset_chip, pcmReset_shad]; exact images p r

end Sys2Proof.Machine
end

section
/-! Proofs of the statements about the FM operator pair (spec 41_fm_operator.md): the key register, the frequency latch, the fields and the
effective rate, the envelope, and the output of one operator and of a pair. -/

namespace Sys2Proof.Machine

variable {P : Params} {f : OpFields} {kc : Fin 32} {o : Operator} {st : EgState}

/-! ## The key register (R155) -/

theorem writeRaw_key (P : Params) (v : Byte) (s : State) : writeRaw P 0 0x28 v s = keyWrite v (s.setChip 0 0x28 v) := rfl

/-- The key bit as one update: an edge sets the state, and only the edge to on sets the phase. -/
theorem keyBit_eq (on : Bool) (o : Operator) :
    keyBit on o =
      { o with
        key := on
        eg := if on = true ∧ o.key = false then .attacking
          else if on = false ∧ o.key = true ∧ o.eg ≠ .ready then .releasing else o.eg
        phase := if on = true ∧ o.key = false then 0 else o.phase } := by
  unfold keyBit
  cases on with
  | true => cases o.key <;> simp
  | false => by_cases release : o.key = true ∧ o.eg ≠ .ready <;> simp [release]

/-- Settles O15: the key write names no channel or `ch`, and each of its operators takes its key bit. -/
theorem keyRegister : Obligations.KeyRegister := by
  intro P v s
  refine ⟨fun none => ?_, fun ch index part => ?_⟩
  · rw [writeRaw_key, keyWrite_none none]
  · rw [writeRaw_key, keyWrite_channel index part, keyBit_eq, keyBit_eq]
    rfl

/-! ## The frequency latch (R157) -/

section
variable {p : Part} {r : Nat}

theorem writeRaw_latch (h : 0xA4 ≤ r ∧ r ≤ 0xA6) (v : Byte) (s : State) :
    writeRaw P p r v s = latchWrite p v (s.setChip p r v) := by
  unfold writeRaw regEffect
  rw [if_neg (by omega), if_neg (by omega), if_neg (by omega), if_pos h]

theorem writeRaw_load (h : 0xA0 ≤ r ∧ r ≤ 0xA2) (v : Byte) (s : State) :
    writeRaw P p r v s = freqLoad p (r - 0xA0) v (s.setChip p r v) := by
  unfold writeRaw regEffect
  rw [if_neg (by omega), if_neg (by omega), if_neg (by omega), if_neg (by omega), if_pos h]

/-- The two addresses beside the load and latch rows are stored only. -/
theorem writeRaw_beside (h : r = 0xA3 ∨ r = 0xA7) (v : Byte) (s : State) : writeRaw P p r v s = s.setChip p r v := by
  unfold writeRaw regEffect
  rw [if_neg (by omega), if_neg (by omega), if_neg (by omega), if_neg (by omega), if_neg (by omega)]

end

/-- Settles O16: the latch has 6 bits and the value 8, so block and fnum are in range as R157 computes them. -/
theorem frequencyLatch : Obligations.FrequencyLatch := by
  intro P ch v s
  have hc := fmIdx_lt ch
  have block : s.fnumLatch[fmPart ch].toNat / 8 < 8 := by omega
  have fnum : s.fnumLatch[fmPart ch].toNat % 8 * 256 + v.toNat < 2048 := by omega
  refine ⟨writeRaw_latch (by omega) v s, ⟨Fin.ofNat 8 _, Fin.ofNat 2048 _, Nat.mod_eq_of_lt block, Nat.mod_eq_of_lt fnum, ?load⟩,
    fun r h => writeRaw_beside h v s⟩
  rw [writeRaw_load (by omega), Nat.add_sub_cancel_left, freqLoad_channel]
  rfl

/-! ## Fields and the effective rate (R140, R141, R143, R270) -/

/-- A field that starts at bit 0 needs no shift. -/
theorem field_val_low (n : Nat) [NeZero n] (v : Byte) : (field 0 n v).val = v.toNat % n := by
  unfold field
  rw [Fin.val_ofNat, Nat.pow_zero, Nat.div_one]

/-- A field that ends at bit 7 needs no mask. -/
theorem field_val_high {lo n : Nat} [NeZero n] (h : 2 ^ lo * n = 256) (v : Byte) : (field lo n v).val = v.toNat / 2 ^ lo :=
  Nat.mod_eq_of_lt (Nat.div_lt_of_lt_mul (h ▸ v.isLt))

theorem effRate_of_base_zero (h : baseRate f st = 0) : (effRate f kc st).val = 0 := by
  unfold effRate
  rw [if_pos h]
  rfl

theorem effRate_of_base_ne_zero (h : baseRate f st ≠ 0) :
    (effRate f kc st).val = min 63 (2 * baseRate f st + kc.val / 2 ^ (3 - f.ks.val)) := by
  unfold effRate
  rw [if_neg h]
  exact Nat.mod_eq_of_lt (by omega)

/-- Settles O17: each field is a shift and a mask of its byte, and the rate is at most 63, so it is not reduced. -/
theorem fieldsAndRate : Obligations.FieldsAndRate := by
  refine ⟨fun s ch op => ?operator, fun s ch => ?channel, fun s i => ?rhythm, fun f kc st _ => ?rate⟩
  case operator =>
    cases op <;>
      exact ⟨rfl, field_val_low _ _, field_val_low _ _, field_val_high rfl _, field_val_low _ _, field_val_low _ _, field_val_low _ _,
        field_val_high rfl _, field_val_low _ _⟩
  case channel => exact ⟨rfl, field_val_low _ _, rfl, rfl⟩
  case rhythm => exact ⟨field_val_low _ _, field_val_low _ _, rfl, rfl⟩
  case rate =>
    cases st <;> exact ⟨fun h => effRate_of_base_zero h, fun h => effRate_of_base_ne_zero h⟩

/-! ## The envelope (R144, R145, R147) -/

theorem envUpdate_attacking (inc : Nat) (h : o.eg = .attacking) :
    ((envUpdate P f inc o).level : Int) = max 0 (P.attackStep o.level inc) ∧
    (envUpdate P f inc o).eg =
      if (envUpdate P f inc o).level = 0 then (if f.sl.val = 0 then .sustaining else .decaying) else .attacking := by
  unfold envUpdate
  rw [h]
  refine ⟨Int.toNat_of_nonneg (le_max_left ..), ?_⟩
  simp only [ne_eq, Fin.val_eq_zero_iff, ite_not]

/-- In every state that is not Ready or Attacking the level rises by the increment, up to 1023. -/
theorem envUpdate_rises (inc : Nat) (hr : o.eg ≠ .ready) (ha : o.eg ≠ .attacking) :
    (envUpdate P f inc o).level = min 1023 (o.level + inc) := by
  unfold envUpdate
  split
  · contradiction
  · contradiction
  all_goals rfl

theorem envUpdate_decaying_eg (inc : Nat) (h : o.eg = .decaying) :
    (envUpdate P f inc o).eg = if (P.slTarget f.sl).val ≤ (envUpdate P f inc o).level then .sustaining else .decaying := by
  unfold envUpdate
  rw [h]

theorem envUpdate_sustaining_eg (inc : Nat) (h : o.eg = .sustaining) : (envUpdate P f inc o).eg = .sustaining := by
  unfold envUpdate
  rw [h]

theorem envUpdate_releasing_eg (inc : Nat) (h : o.eg = .releasing) :
    (envUpdate P f inc o).eg = if (envUpdate P f inc o).level = 1023 then .ready else .releasing := by
  unfold envUpdate
  rw [h]

/-- An update changes the level and the state only. -/
theorem envUpdate_eq (inc : Nat) (o : Operator) :
    envUpdate P f inc o = { o with level := (envUpdate P f inc o).level, eg := (envUpdate P f inc o).eg } := by
  unfold envUpdate
  split <;> rfl

/-- The tick that the next envelope step counts is one of the update ticks of R144. -/
def UpdateTick (P : Params) (f : OpFields) (kc : Fin 32) (o : Operator) : Prop :=
  (o.tick + 1).toNat % 2 ^ P.shiftTab (effRate f kc o.eg) = 0

/-- The increment of the next envelope step, if it updates (R144). -/
def stepInc (P : Params) (f : OpFields) (kc : Fin 32) (o : Operator) : Nat :=
  envInc P (P.rateTab (effRate f kc o.eg)) (P.shiftTab (effRate f kc o.eg)) (o.tick + 1)

theorem envStep_ready (h : o.eg = .ready) : envStep P f kc o = o := if_pos h

theorem envStep_between (hr : o.eg ≠ .ready) (h : ¬UpdateTick P f kc o) : envStep P f kc o = { o with tick := o.tick + 1 } := by
  unfold envStep
  rw [if_neg hr]
  exact if_neg h

theorem envStep_update (hr : o.eg ≠ .ready) (h : UpdateTick P f kc o) :
    envStep P f kc o = envUpdate P f (stepInc P f kc o) { o with tick := o.tick + 1 } := by
  unfold envStep
  rw [if_neg hr]
  exact if_pos h

/-- A step of an operator that is not Ready counts the tick and leaves everything but the level and the state. -/
theorem envStep_running (hr : o.eg ≠ .ready) :
    envStep P f kc o = { o with tick := o.tick + 1, level := (envStep P f kc o).level, eg := (envStep P f kc o).eg } := by
  by_cases h : UpdateTick P f kc o
  · rw [envStep_update hr h, envUpdate_eq]
  · rw [envStep_between hr h]

/-- Settles O18: a step between the update ticks only counts; on one, it is the update of its state. -/
theorem envelopeStep : Obligations.EnvelopeStep := by
  intro P f kc o _
  refine ⟨envStep_ready, fun hr => ?frame, fun hr h => ?between, fun h => ⟨fun e => ?attacking, fun e => ?decaying, fun e => ?sustaining,
    fun e => ?releasing⟩⟩
  case frame => rw [envStep_running hr]; exact ⟨rfl, rfl, rfl, rfl⟩
  case between => rw [envStep_between hr h]; exact ⟨rfl, rfl⟩
  all_goals
    have hr : o.eg ≠ .ready := by rw [e]; decide
    rw [envStep_update hr h]
  case attacking => exact envUpdate_attacking _ e
  case decaying => exact ⟨envUpdate_rises _ hr (by rw [e]; decide), envUpdate_decaying_eg _ e⟩
  case sustaining => exact ⟨envUpdate_rises _ hr (by rw [e]; decide), envUpdate_sustaining_eg _ e⟩
  case releasing => exact ⟨envUpdate_rises _ hr (by rw [e]; decide), envUpdate_releasing_eg _ e⟩

/-- An attack update does not raise the level, as R145 requires of the attack step. -/
theorem envUpdate_attacking_le (inc : Nat) (h : o.eg = .attacking) : (envUpdate P f inc o).level ≤ o.level := by
  have level := (envUpdate_attacking (P := P) (f := f) inc h).1
  have := P.attackStep_le o.level inc
  omega

/-- Every other update does not lower it. -/
theorem le_envUpdate (inc : Nat) (h : o.level ≤ 1023) (ha : o.eg ≠ .attacking) : o.level ≤ (envUpdate P f inc o).level := by
  by_cases hr : o.eg = .ready
  · unfold envUpdate
    rw [hr]
  · rw [envUpdate_rises inc hr ha]
    omega

/-- A step leaves level and state, or it is on an update tick of an operator that is not Ready (R144). -/
theorem envStep_cases (P : Params) (f : OpFields) (kc : Fin 32) (o : Operator) :
    ((envStep P f kc o).level = o.level ∧ (envStep P f kc o).eg = o.eg) ∨
    (o.eg ≠ .ready ∧ UpdateTick P f kc o ∧ envStep P f kc o = envUpdate P f (stepInc P f kc o) { o with tick := o.tick + 1 }) := by
  by_cases hr : o.eg = .ready
  · rw [envStep_ready hr]; exact .inl ⟨rfl, rfl⟩
  by_cases h : UpdateTick P f kc o
  · exact .inr ⟨hr, h, envStep_update hr h⟩
  · rw [envStep_between hr h]; exact .inl ⟨rfl, rfl⟩

/-- Settles O19: off the update ticks nothing moves, and an update moves the level one way. -/
theorem envelopeMonotone : Obligations.EnvelopeMonotone := by
  intro P f kc o bound
  obtain ⟨level, eg⟩ | ⟨running, tick, step⟩ := envStep_cases P f kc o
  · rw [level, eg]
    exact ⟨fun _ => le_rfl, fun _ => le_rfl, fun moved => moved.elim (absurd rfl) (absurd rfl)⟩
  · rw [step]
    exact ⟨envUpdate_attacking_le (o := { o with tick := o.tick + 1 }) _, le_envUpdate (o := { o with tick := o.tick + 1 }) _ bound,
      fun _ => ⟨running, tick⟩⟩

/-! ## Phase and output (R148, R150) -/

section
variable {c : FmChannel} {pm : Int}

theorem phaseInc_eq (P : Params) (f : OpFields) (c : FmChannel) :
    phaseInc P f c = BitVec.ofInt 32 ((((P.freqBase c.block c.fnum : Int) + P.dtTab f.dt (P.keycode c.block c.fnum)) * P.mul2 f.mul) / 2) := rfl

/-- The log-sine index is the one number below 1024 that is congruent to the phase index plus the modulation. -/
theorem sineIndex_eq {phase : BitVec 32} {idx : Fin 1024} (h : (((phase.toNat / 2 ^ 22 : Nat) : Int) + pm - idx.val) % 1024 = 0) :
    sineIndex phase pm = idx := by
  apply Fin.ext
  unfold sineIndex
  rw [Fin.val_ofNat]
  omega

theorem sineOut_silent (h : 832 ≤ attenuation P f o) : sineOut P f pm o = 0 := dif_neg (Nat.not_lt.mpr h)

theorem sineOut_audible (h : attenuation P f o < 832) : sineOut P f pm o = P.sinlog (sineIndex o.phase pm) ⟨attenuation P f o, h⟩ := dif_pos h

theorem opOut_ready (h : o.eg = .ready) : opOut P f c pm o = { o with out := 0 } := if_pos h

theorem opOut_running (h : o.eg ≠ .ready) :
    opOut P f c pm o = { o with out := sineOut P f pm o, phase := o.phase + phaseInc P f c } := if_neg h

end

/-- Settles O20: the phase index is determined by its congruence, and the attenuation decides between silence and the table. -/
theorem operatorOutput : Obligations.OperatorOutput := by
  intro P f c pm o idx index
  refine ⟨opOut_ready, fun running => ?_⟩
  rw [opOut_running running]
  refine ⟨by rw [phaseInc_eq], sineOut_silent, fun audible => ?_⟩
  rw [← sineIndex_eq index]
  exact sineOut_audible audible

/-! ## The pair (R152 to R154) -/

theorem feedback_eq (P : Params) (cf : ChFields) (c : FmChannel) :
    feedback P cf c = if cf.fb.val = 0 then 0 else asr (c.fb0 + c.fb1) (P.fbShift cf.fb) := by
  unfold feedback
  simp only [Fin.val_eq_zero_iff]

theorem modulation_eq (P : Params) (cf : ChFields) (out1 : Int) :
    modulation P cf out1 = if P.connect cf.alg = .serial then asr out1 P.modShift else 0 := by
  unfold modulation
  cases P.connect cf.alg <;> rfl

theorem fmChannelOut_eq (P : Params) (cf : ChFields) (c : FmChannel) :
    fmChannelOut P cf c =
      { left := if cf.left = true then (if P.connect cf.alg = .serial then c.op2.out else c.op1.out + c.op2.out) else 0
        right := if cf.right = true then (if P.connect cf.alg = .serial then c.op2.out else c.op1.out + c.op2.out) else 0 } := by
  unfold fmChannelOut
  cases P.connect cf.alg <;> rfl

/-- Settles O21: the loop over the channels runs each once, and the pair's tick is R154 with the two modulations of R152 and R153. -/
theorem operatorPairTick : Obligations.OperatorPairTick := by
  refine ⟨fun P s => ⟨fmTick_get s, fmTick_eq s⟩, fun P f1 f2 cf c => ?_⟩
  intro kc c' pm1 pm2 y
  have one : feedback P cf c = pm1 := feedback_eq ..
  have two : modulation P cf c'.op1.out = pm2 := modulation_eq ..
  exact ⟨by rw [← one]; rfl, by rw [← two]; rfl, rfl, rfl, rfl, rfl, fmChannelOut_eq ..⟩

end Sys2Proof.Machine
end

section
/-! Proofs of the statements about the FM voice engine (spec 42_fm_voice.md): the frequency of a note, the checks and effects of the FM
commands, the program loads of both banks, and what the rules of key-on and set-pitch give together. -/

namespace Sys2Proof.Machine

variable {P : Params} {s t : State}

/-! ## The frequency of a note (R170) -/

section
variable {n : Fin 96} {pitch : Int} {b : Nat} {f : Int}

theorem fmFreq_zero (h : n.val = 0) : fmFreq P n pitch = (0, P.freqFloor) := if_pos h

theorem fmFreqShifted_inside (h0 : P.freqFloor ≤ f) (h1 : f ≤ P.freqCeil) : fmFreqShifted P b f = (b, f) := by
  unfold fmFreqShifted
  rw [if_neg (not_lt.mpr h0), if_neg (not_lt.mpr h1)]

theorem fmFreqShifted_below (h : f < P.freqFloor) :
    fmFreqShifted P b f = if b = 0 then (b, (P.freqFloor : Int)) else (b - 1, f + P.freqFloor) := if_pos h

theorem fmFreqShifted_above (h : P.freqCeil < f) :
    fmFreqShifted P b f = if b = 7 then (b, (P.freqCeil : Int)) else (b + 1, f - P.freqFloor) := by
  have := P.freqFloor_le
  unfold fmFreqShifted
  rw [if_neg (by omega), if_pos h]

/-- A note other than 0 has the block of the shift, and its fnum clamped. -/
theorem fmFreq_of_shifted (hn : n.val ≠ 0)
    (h : fmFreqShifted P ((n.val - 1) / 12) ((P.fnumTab (Fin.ofNat 12 (n.val - 1)) : Int) + P.pitchScale pitch) = (b, f)) :
    (fmFreq P n pitch).1 = b ∧ ((fmFreq P n pitch).2 : Int) = max (P.freqFloor : Int) (min (P.freqCeil : Int) f) := by
  have := P.freqFloor_le
  unfold fmFreq
  rw [if_neg hn, h]
  refine ⟨rfl, ?_⟩
  show (((clamp f P.freqFloor P.freqCeil).toNat : Nat) : Int) = _
  unfold clamp
  omega

end

/-- Settles O22, by the three cases of the shift. -/
theorem fmFrequency : Obligations.FmFrequency := by
  intro P n pitch b f r
  have order := P.freqFloor_le
  obtain ⟨block, floor, ceil⟩ := fmFreq_range P n pitch
  have shifted {b' : Nat} {f' : Int} (hn : n.val ≠ 0) (h : fmFreqShifted P b f = (b', f')) :
      r.1 = b' ∧ (r.2 : Int) = max (P.freqFloor : Int) (min (P.freqCeil : Int) f') := fmFreq_of_shifted hn h
  refine ⟨fmFreq_zero, fun hn h0 h1 => ?inside, fun hn h => ⟨fun hb => ?lowest, fun hb => ?below⟩,
    fun hn h => ⟨fun hb => ?highest, fun hb => ?above⟩, block, floor, ceil⟩
  case inside =>
    obtain ⟨h2, h3⟩ := shifted hn (fmFreqShifted_inside h0 h1)
    exact ⟨h2, by omega⟩
  case lowest =>
    obtain ⟨h2, h3⟩ := shifted hn ((fmFreqShifted_below h).trans (if_pos hb))
    exact Prod.ext (h2.trans hb) (by dsimp only; omega)
  case below => exact shifted hn ((fmFreqShifted_below h).trans (if_neg hb))
  case highest =>
    obtain ⟨h2, h3⟩ := shifted hn ((fmFreqShifted_above h).trans (if_pos hb))
    exact Prod.ext (h2.trans hb) (by dsimp only; omega)
  case above => exact shifted hn ((fmFreqShifted_above h).trans (if_neg hb))

/-! ## The shared and the FM-only code of a command run one handler (R82) -/

section
variable {i : Instr} {c a b : Int} {data : List Byte}

theorem exec_of_mem_pair {i₁ i₂ : Instr} {o : Host.Outcome State Fault Refusal} (h : i ∈ [i₁, i₂]) (h₁ : exec i₁ s = o)
    (h₂ : exec i₂ s = o) : exec i s = o := by
  obtain rfl | rfl := List.mem_pair.mp h
  · exact h₁
  · exact h₂

theorem exec_fmKeyOn (h : i ∈ [Instr.keyonFm c a b, .fmkeyon c a b]) : exec i s = fmKeyOn params c a b s := exec_of_mem_pair h rfl rfl

theorem exec_fmKeyOff (h : i ∈ [Instr.keyoffFm c, .fmkeyoff c]) : exec i s = fmKeyOff params c s := exec_of_mem_pair h rfl rfl

theorem exec_fmSetPan (h : i ∈ [Instr.setpanFm c a, .fmpan c a]) : exec i s = fmSetPan params c a s := exec_of_mem_pair h rfl rfl

theorem exec_fmSetInst (h : i ∈ [Instr.setinstFm c a, .fminst c a]) : exec i s = fmSetInst params c a s := exec_of_mem_pair h rfl rfl

theorem exec_fmLoadInst (h : i ∈ [Instr.loadinstFm c a data, .fmload a data]) : exec i s = fmLoadInst a data s :=
  exec_of_mem_pair h rfl rfl

theorem exec_fmSetPitch (h : i ∈ [Instr.setpitchFm c a, .fmpitch c a]) : exec i s = fmSetPitch params c a s := exec_of_mem_pair h rfl rfl

theorem exec_fmSetLevel (h : i ∈ [Instr.setlevelFm c a, .fmlevel c a]) : exec i s = fmSetLevel params c a s := exec_of_mem_pair h rfl rfl

end

/-! ## The checks past the channel (R121, R173 to R180): a value out of range gives 3, and what passes has its effect -/

theorem fmNote?_some {x : Int} (h0 : 12 ≤ x) (h1 : x ≤ 107) : ∃ n : Fin 96, fmNote? x = some n := by
  obtain ⟨n, h, -⟩ := index?_some (n := 96) (x := x - 12) (by omega) (by omega)
  exact ⟨n, h⟩

theorem level7?_some {x : Int} (h0 : 0 ≤ x) (h1 : x ≤ 127) : ∃ v : Level7, level7? x = some v := by
  obtain ⟨v, h, -⟩ := index?_some (n := 128) h0 (by omega)
  exact ⟨v, h⟩

section
variable {ch : FmCh}

theorem fmKeyOn_badValue {chan note vel : Int} (hc : fmChan? chan = some ch) (h : fmNote? note = none ∨ level7? vel = none) :
    fmKeyOn P chan note vel s = reply .badValue s := by
  unfold fmKeyOn
  rw [hc]
  obtain h | h := h
  · rw [h]
  · rw [h]
    cases fmNote? note <;> rfl

/-- A key-on whose operands pass is busy on a playing channel, and has its effect on any other. -/
theorem fmKeyOn_checked {note vel : Int} {n : Fin 96} {v : Level7} (hn : fmNote? note = some n) (hv : level7? vel = some v) :
    fmKeyOn P ch.val note vel s = if s.voice[ch].playing = true then reply .busy s else reply .success (fmKeyOnEffect P ch n v s) := by
  unfold fmKeyOn
  rw [fmChan?_val, hn, hv]

theorem fmKeyOff_checked : fmKeyOff P ch.val s = reply .success (fmKeyOffEffect P ch s) := by
  unfold fmKeyOff
  rw [fmChan?_val]

theorem fmChOff_checked : fmChOff P ch.val s = reply .success (fmChOffEffect P ch s) := by
  unfold fmChOff
  rw [fmChan?_val]

theorem fmSetPan_badValue {pan : Int} (h : pan < 0 ∨ 127 < pan) : fmSetPan P ch.val pan s = reply .badValue s := by
  unfold fmSetPan
  rw [fmChan?_val, level7?_none h]

theorem fmSetPan_checked (pan : Level7) : fmSetPan P ch.val pan.val s = reply .success (fmSetPanEffect P ch pan s) := by
  unfold fmSetPan
  rw [fmChan?_val, level7?_val]

theorem fmSetInst_badValue {prog : Int} (h : prog < 0 ∨ 127 < prog) : fmSetInst P ch.val prog s = reply .badValue s := by
  unfold fmSetInst
  rw [fmChan?_val, level7?_none h]

theorem fmSetInst_checked (prog : Fin 128) : fmSetInst P ch.val prog.val s = reply .success (fmSetInstEffect P ch prog s) := by
  unfold fmSetInst
  rw [fmChan?_val, level7?_val]

theorem fmSetPitch_badValue {pitch : Int} (h : ¬(-8192 ≤ pitch ∧ pitch ≤ 8191)) : fmSetPitch P ch.val pitch s = reply .badValue s := by
  unfold fmSetPitch
  rw [fmChan?_val]
  exact if_neg (mt pitchInRange_iff.mp h)

theorem fmSetPitch_checked {pitch : Int} (h : -8192 ≤ pitch ∧ pitch ≤ 8191) :
    fmSetPitch P ch.val pitch s = reply .success (fmSetPitchEffect P ch pitch s) := by
  unfold fmSetPitch
  rw [fmChan?_val]
  exact if_pos (pitchInRange_iff.mpr h)

theorem fmSetLevel_badValue {level : Int} (h : level < 0 ∨ 127 < level) : fmSetLevel P ch.val level s = reply .badValue s := by
  unfold fmSetLevel
  rw [fmChan?_val, level7?_none h]

theorem fmSetLevel_checked (level : Level7) : fmSetLevel P ch.val level.val s = reply .success (fmSetLevelEffect P ch level s) := by
  unfold fmSetLevel
  rw [fmChan?_val, level7?_val]

end

/-! ## Key-on (R173) -/

/-! The registers that key-on writes, in one image: first the frequency pair and the total levels, then the key register twice and the two
sustain registers. -/

/-- The frequency pair and the total levels of channel-in-part `c`, in the order of key-on (R171, R172, R173). -/
def RegFile.writeNote (f : RegFile) (p : Part) (c : Nat) (hi lo tl1 tl2 : Byte) : RegFile :=
  RegFile.write (RegFile.write (RegFile.write (RegFile.write f p (0xA4 + c) hi) p (0xA0 + c) lo) p (0x40 + c) tl1) p (0x4C + c) tl2

/-- The key register off and on, and the sustain registers of channel-in-part `c`, in the order of key-on (R89, R173). -/
def RegFile.writeStrobe (f : RegFile) (p : Part) (c : Nat) (off on sl1 sl2 : Byte) : RegFile :=
  RegFile.write (RegFile.write (RegFile.write (RegFile.write f 0 0x28 off) 0 0x28 on) p (0x80 + c) sl1) p (0x8C + c) sl2

section
variable {f : RegFile} {p q : Part} {r x c : Nat} {v hi lo tl1 tl2 off on sl1 sl2 : Byte}

theorem RegFile.read_write_self (h : r < 256) : RegFile.read (RegFile.write f p r v) p r = v := by
  rw [RegFile.read_write, if_pos ⟨rfl, rfl, h⟩]

theorem RegFile.read_write_other (h : (q, x) ≠ (p, r)) : RegFile.read (RegFile.write f p r v) q x = RegFile.read f q x := by
  rw [RegFile.read_write, if_neg fun e => h (Prod.ext e.1 e.2.1)]

theorem RegFile.read_write_other_reg (h : x ≠ r) : RegFile.read (RegFile.write f p r v) q x = RegFile.read f q x :=
  RegFile.read_write_other fun e => h (congrArg Prod.snd e)

theorem RegFile.read_writeNote (hc : c < 3) :
    let g := RegFile.writeNote f p c hi lo tl1 tl2
    RegFile.read g p (0xA4 + c) = hi ∧ RegFile.read g p (0xA0 + c) = lo ∧ RegFile.read g p (0x40 + c) = tl1 ∧
      RegFile.read g p (0x4C + c) = tl2 := by
  unfold RegFile.writeNote
  simp (disch := omega) only [RegFile.read_write_other_reg, RegFile.read_write_self, and_self]

theorem RegFile.read_writeNote_other (h : (q, x) ∉ [(p, 0xA4 + c), (p, 0xA0 + c), (p, 0x40 + c), (p, 0x4C + c)]) :
    RegFile.read (RegFile.writeNote f p c hi lo tl1 tl2) q x = RegFile.read f q x := by
  simp only [List.mem_cons, List.not_mem_nil, or_false, not_or] at h
  obtain ⟨hA4, hA0, h40, h4C⟩ := h
  unfold RegFile.writeNote
  rw [read_write_other h4C, read_write_other h40, read_write_other hA0, read_write_other hA4]

theorem RegFile.read_writeStrobe (hc : c < 3) :
    let g := RegFile.writeStrobe f p c off on sl1 sl2
    RegFile.read g p (0x80 + c) = sl1 ∧ RegFile.read g p (0x8C + c) = sl2 ∧ RegFile.read g 0 0x28 = on := by
  unfold RegFile.writeStrobe
  simp (disch := omega) only [RegFile.read_write_other_reg, RegFile.read_write_self, and_self]

theorem RegFile.read_writeStrobe_other (h : (q, x) ∉ [(p, 0x80 + c), (p, 0x8C + c), (0, 0x28)]) :
    RegFile.read (RegFile.writeStrobe f p c off on sl1 sl2) q x = RegFile.read f q x := by
  simp only [List.mem_cons, List.not_mem_nil, or_false, not_or] at h
  obtain ⟨h80, h8C, h28⟩ := h
  unfold RegFile.writeStrobe
  rw [read_write_other h8C, read_write_other h80, read_write_other h28, read_write_other h28]

/-- The strobe and the sustain registers leave the pair and the total levels. -/
theorem RegFile.read_writeStrobe_note (hc : c < 3) (hr : r = 0xA4 ∨ r = 0xA0 ∨ r = 0x40 ∨ r = 0x4C) :
    RegFile.read (RegFile.writeStrobe f p c off on sl1 sl2) p (r + c) = RegFile.read f p (r + c) := by
  apply RegFile.read_writeStrobe_other
  simp only [List.mem_cons, Prod.mk.injEq, List.not_mem_nil, or_false]
  omega

/-- The pair and the total levels are still there after the strobe. -/
theorem RegFile.read_writeStrobe_writeNote (hc : c < 3) :
    let g := RegFile.writeStrobe (RegFile.writeNote f p c hi lo tl1 tl2) p c off on sl1 sl2
    RegFile.read g p (0xA4 + c) = hi ∧ RegFile.read g p (0xA0 + c) = lo ∧ RegFile.read g p (0x40 + c) = tl1 ∧
      RegFile.read g p (0x4C + c) = tl2 := by
  obtain ⟨hA4, hA0, h40, h4C⟩ := RegFile.read_writeNote (f := f) (p := p) (hi := hi) (lo := lo) (tl1 := tl1) (tl2 := tl2) hc
  exact ⟨(read_writeStrobe_note hc (by simp)).trans hA4, (read_writeStrobe_note hc (by simp)).trans hA0,
    (read_writeStrobe_note hc (by simp)).trans h40, (read_writeStrobe_note hc (by simp)).trans h4C⟩

/-- The pair and the total levels leave the sustain registers. -/
theorem RegFile.read_writeNote_sustain (hr : r = 0x80 ∨ r = 0x8C) :
    RegFile.read (RegFile.writeNote f p c hi lo tl1 tl2) p (r + c) = RegFile.read f p (r + c) := by
  apply RegFile.read_writeNote_other
  simp only [List.mem_cons, Prod.mk.injEq, List.not_mem_nil, or_false]
  omega

end

theorem setVoice_voice_self (s : State) (ch : FmCh) (v : FmVoice) : (s.setVoice ch v).voice[ch] = v :=
  (setVoice_get ..).trans (if_pos rfl)

/-- Key-on's effect with the register writes gathered: the pair and the total levels in both images, then, in the chip alone, the strobe and
the sustain bytes of the shadow. -/
theorem fmKeyOnEffect_images (ch : FmCh) (n : Fin 96) (v : Level7) (s : State) :
    let p := fmPart ch
    let c := fmIdx ch
    let bf := fmFreq P n s.voice[ch].pitch
    let tl := fun (k : Nat) => scaledTl P (FmProgram.byte s.fmBank[s.voice[ch].program] k) v s.voice[ch].level
    let on := fun (o : Operator) => { o with eg := .attacking, phase := 0, key := true }
    let note := fun (f : RegFile) => RegFile.writeNote f p c (BitVec.ofNat 8 (bf.1 * 8 + bf.2 / 256)) (BitVec.ofNat 8 bf.2) (tl 12) (tl 15)
    let sustain := fun (r : Nat) => RegFile.read (note s.shadow) p (r + c)
    fmKeyOnEffect P ch n v s =
      { s with
        chipReg := RegFile.writeStrobe (note s.chipReg) p c (keyValue 0 ch) (keyValue 9 ch) (sustain 0x80) (sustain 0x8C)
        shadow := note s.shadow
        fnumLatch := s.fnumLatch.set p.val (BitVec.ofNat 6 (bf.1 * 8 + bf.2 / 256))
        fm := s.fm.set ch.val
          { s.fm[ch] with
            op1 := on s.fm[ch].op1, op2 := on s.fm[ch].op2, block := Fin.ofNat 8 bf.1, fnum := Fin.ofNat 2048 bf.2 }
        voice := s.voice.set ch.val { s.voice[ch] with playing := true, note := n, velocity := v } } :=
  fmKeyOnEffect_eq ch n v s _ rfl _ _ rfl rfl _ _ rfl rfl _ rfl _ rfl _ rfl

/-- Settles O23: the checks fail in order; a register of the chip is read through the strobe, then through the buffered writes. -/
theorem Voice.fmKeyOn : Obligations.FmKeyOn := by
  refine ⟨fun chan note vel s i hi => ⟨fun h => ?channel, fun h0 h1 h => ?value⟩, fun ch n v s i hi => ?passed⟩
  case channel => exact (exec_fmKeyOn hi).trans (fmKeyOn_badChannel note vel s (fmChan?_none h))
  case value =>
    obtain ⟨ch, hc, -⟩ := fmChan?_some h0 h1
    rw [← or_assoc] at h
    exact (exec_fmKeyOn hi).trans (fmKeyOn_badValue hc (h.imp fmNote?_none level7?_none))
  case passed =>
    have run := (exec_fmKeyOn (s := s) hi).trans (fmKeyOn_checked (fmNote?_val n) (level7?_val v))
    refine ⟨fun h => run.trans (if_pos h), fun h => ⟨_, run.trans (if_neg (Bool.eq_false_iff.mp h)), ?_⟩⟩
    intro p c bf B on
    have hc : c < 3 := fmIdx_lt ch
    rw [fmKeyOnEffect_images]
    obtain ⟨sustain1, sustain2, key⟩ := RegFile.read_writeStrobe (p := p) hc
    refine ⟨rfl, rfl, rfl, rfl, ?values, sustain1.trans ?sustain, sustain2.trans ?sustain', key,
      fun q x h => RegFile.read_writeNote_other h, fun q x h => ?chip, rfl⟩
    case values =>
      rintro img (rfl | rfl)
      · exact RegFile.read_writeStrobe_writeNote hc
      · exact RegFile.read_writeNote hc
    case sustain | sustain' => exact RegFile.read_writeNote_sustain (by simp)
    case chip =>
      exact (RegFile.read_writeStrobe_other fun m => h (List.mem_append_right [_, _, _, _] m)).trans
        (RegFile.read_writeNote_other fun m => h (List.mem_append_left [_, _, _] m))

/-! ## Key-off and channel-off (R174, R180) -/

/-- A key bit that goes off releases a keyed operator that is not Ready (R155). -/
theorem keyBit_false (o : Operator) :
    keyBit false o = { o with key := false, eg := if o.key = true ∧ o.eg ≠ .ready then .releasing else o.eg } := by
  rw [keyBit_eq]
  simp only [Bool.false_eq_true, false_and, if_false, true_and]

/-- A raw key-off writes the part and the channel-in-part, with no operator bit (R89). -/
theorem keyValue_zero (ch : FmCh) : keyValue 0 ch = BitVec.ofNat 8 ((fmPart ch).val * 4 + fmIdx ch) := by
  unfold keyValue
  rw [Nat.zero_mul, Nat.zero_add]

theorem fmKeyOffEffect_eq (ch : FmCh) (s : State) :
    fmKeyOffEffect P ch s =
      { s with
        chipReg := RegFile.write s.chipReg 0 0x28 (keyValue 0 ch)
        voice := s.voice.set ch.val { s.voice[ch] with playing := false }
        fm := s.fm.set ch.val { s.fm[ch] with op1 := keyBit false s.fm[ch].op1, op2 := keyBit false s.fm[ch].op2 } } :=
  fmKeyOffWrite_eq ch (s.setPlaying ch false)

theorem fmChOffEffect_eq (ch : FmCh) (s : State) :
    fmChOffEffect P ch s =
      { s with
        chipReg := RegFile.write s.chipReg 0 0x28 (keyValue 0 ch)
        voice := s.voice.set ch.val { s.voice[ch] with playing := false }
        fm := s.fm.set ch.val
          { s.fm[ch] with op1 := (keyBit false s.fm[ch].op1).silenced, op2 := (keyBit false s.fm[ch].op2).silenced } } := by
  have released (u : State) (c : FmChannel) : fmSilence ch (u.setFm ch c) =
      u.setFm ch { c with op1 := c.op1.silenced, op2 := c.op2.silenced } := by
    unfold fmSilence
    rw [setFm_setFm, setFm_get, if_pos rfl]
  show fmSilence ch (fmKeyOffWrite P ch (s.setPlaying ch false)) = _
  rw [fmKeyOffWrite_eq, released]
  rfl

/-- Settles O24: both commands are the raw key-off write, and channel-off silences what it releases. -/
theorem fmKeyOffAndChannelOff : Obligations.FmKeyOffAndChannelOff := by
  refine ⟨fun chan s h => ?channel, fun ch s => ?passed⟩
  case channel =>
    have hc := fmChan?_none h
    simp only [List.forall_mem_cons]
    exact ⟨fmKeyOff_badChannel s hc, fmKeyOff_badChannel s hc, fmChOff_badChannel s hc, nofun⟩
  case passed =>
    intro v voice' off dead
    have value : keyValue 0 ch = v := keyValue_zero ch
    refine ⟨fun i hi => ?keyOff, ?channelOff⟩
    case keyOff =>
      rw [exec_fmKeyOff hi, fmKeyOff_checked, fmKeyOffEffect_eq, value, keyBit_false, keyBit_false]
      rfl
    case channelOff =>
      refine fmChOff_checked.trans ?_
      rw [fmChOffEffect_eq, value, keyBit_false, keyBit_false]
      rfl

/-! ## Set-pan (R175) -/

theorem fmSetPanEffect_eq (ch : FmCh) (pan : Level7) (s : State) :
    ∀ v : Byte, v = fmPanBits pan ||| (s.shad (fmPart ch) (0xB4 + fmIdx ch) &&& 0x3F) →
    fmSetPanEffect P ch pan s =
      { s with
        chipReg := RegFile.write s.chipReg (fmPart ch) (0xB4 + fmIdx ch) v
        shadow := RegFile.write s.shadow (fmPart ch) (0xB4 + fmIdx ch) v } := by
  rintro v rfl
  exact writeShadowed_plain (by unfold chReg; omega) (by unfold chReg; omega) _ _

/-- Settles O25: the write of 0xB4 + c has no effect of its own. -/
theorem Voice.fmSetPan : Obligations.FmSetPan := by
  refine ⟨fun chan a s h i hi => ?channel, fun ch pan s h => ?value, fun ch pan s i hi => ?passed⟩
  case channel => exact (exec_fmSetPan hi).trans (fmSetPan_badChannel a s (fmChan?_none h))
  case value => exact ⟨fmSetPan_badValue h, fmSetPan_badValue h⟩
  case passed =>
    intro lr v
    rw [exec_fmSetPan hi, fmSetPan_checked, fmSetPanEffect_eq ch pan s v rfl]
    rfl

/-! ## Set-instrument (R176) -/

/-- The byte of slot `j` in the operator row `row`: the second row holds the total levels, of which the operators' own are scaled. -/
theorem programByte_row (B : FmProgram) (v : FmVoice) (row : Fin 6) (j : Fin 4) :
    programByte P B v (0x30 + 16 * row.val) (8 + 4 * row.val) j.val =
      if row.val = 1 ∧ (j.val = 0 ∨ j.val = 3) then scaledTl P (FmProgram.byte B (12 + j.val)) v.velocity v.level
      else FmProgram.byte B (8 + 4 * row.val + j.val) := by
  unfold programByte
  by_cases hr : row.val = 1
  · simp only [hr, Nat.reduceMul, Nat.reduceAdd]
  · rw [if_neg (by omega), if_neg (by omega)]

/-- Settles O26, by the 25 writes of the program. -/
theorem fmSetInstrument : Obligations.FmSetInstrument := by
  refine ⟨fun chan a s h i hi => ?channel, fun ch prog s h => ⟨fmSetInst_badValue h, fmSetInst_badValue h⟩,
    fun ch prog s i hi => ⟨_, (exec_fmSetInst hi).trans (fmSetInst_checked prog), ?passed⟩⟩
  case channel => exact (exec_fmSetInst hi).trans (fmSetInst_badChannel a s (fmChan?_none h))
  case passed =>
    intro p c B
    unfold fmSetInstEffect
    have frame := fmWriteProgram_eq (P := params) ch B s.voice[ch] (s.setVoice ch { s.voice[ch] with program := prog })
    obtain ⟨listed, others⟩ :=
      fmWriteProgram_get (P := params) ch B s.voice[ch] (s.setVoice ch { s.voice[ch] with program := prog })
    obtain ⟨rows, fbAlg⟩ := mem_programWrites (P := params) ch B s.voice[ch]
    -- The rest of the proof never looks into the sequence of R176.
    generalize fmWriteProgram params ch B s.voice[ch] (s.setVoice ch { s.voice[ch] with program := prog }) = w at frame listed others ⊢
    refine ⟨?frame, ?written, fun q x h => others q x (mt (And.imp_right (mem_programRegs ch x).mp) h)⟩
    case frame => rw [frame]; rfl
    case written =>
      rintro img (rfl | rfl)
      · exact ⟨fun row j => (listed _ (rows row j)).1.trans (programByte_row ..), (listed _ fbAlg).1⟩
      · exact ⟨fun row j => (listed _ (rows row j)).2.trans (programByte_row ..), (listed _ fbAlg).2⟩

/-! ## Program loads (R177, R212) -/

/-- The bytes that a load copies are the first bytes of a buffer that is long enough. -/
theorem toList_ofFn_bufByte {n : Nat} {data : List Byte} (h : n ≤ data.length) :
    (Vector.ofFn fun k : Fin n => bufByte data k.val).toList = data.take n := by
  apply List.ext_getElem
  · simp [h]
  · intro k hk _
    have : k < data.length := lt_of_lt_of_le (by simpa using hk) h
    simp [bufByte, this]

theorem fmLoadInst_badValue {prog : Int} (h : prog < 0 ∨ 127 < prog) (data : List Byte) (s : State) :
    fmLoadInst prog data s = reply .badValue s := by
  unfold fmLoadInst
  rw [level7?_none h]

theorem fmLoadInst_short {prog : Int} {data : List Byte} (h0 : 0 ≤ prog) (h1 : prog ≤ 127) (h : data.length < 48) (s : State) :
    fmLoadInst prog data s = reply .emptyData s := by
  obtain ⟨k, hk⟩ := level7?_some h0 h1
  unfold fmLoadInst
  rw [hk]
  exact if_pos h

theorem fmLoadInst_checked {data : List Byte} (k : Fin 128) (h : 48 ≤ data.length) (s : State) :
    fmLoadInst k.val data s = reply .success { s with fmBank := s.fmBank.set k.val (fmProgramOf data) } := by
  unfold fmLoadInst
  rw [level7?_val]
  exact if_neg (not_lt.mpr h)

theorem pcmProg?_some {x : Int} (h0 : 0 ≤ x) (h1 : x ≤ 31) : ∃ k : Fin 32, pcmProg? x = some k := by
  obtain ⟨k, h, -⟩ := index?_some (n := 32) h0 (by omega)
  exact ⟨k, h⟩

theorem pcmLoadInst_badValue {prog : Int} (h : prog < 0 ∨ 31 < prog) (data : List Byte) (s : State) :
    pcmLoadInst prog data s = reply .badValue s := by
  unfold pcmLoadInst
  rw [pcmProg?_none h]

theorem pcmLoadInst_short {prog : Int} {data : List Byte} (h0 : 0 ≤ prog) (h1 : prog ≤ 31) (h : data.length < 128) (s : State) :
    pcmLoadInst prog data s = reply .emptyData s := by
  obtain ⟨k, hk⟩ := pcmProg?_some h0 h1
  unfold pcmLoadInst
  rw [hk]
  exact if_pos h

theorem pcmLoadInst_checked {data : List Byte} (k : Fin 32) (h : 128 ≤ data.length) (s : State) :
    pcmLoadInst k.val data s = reply .success { s with pcmBank := s.pcmBank.set k.val (pcmProgramOf data) } := by
  unfold pcmLoadInst
  rw [pcmProg?_val]
  exact if_neg (not_lt.mpr h)

/-- Settles O27: each load checks the program, then the length, then copies. -/
theorem loadInstrument : Obligations.LoadInstrument := by
  refine fun chanType prog data s => ⟨fun i hi => ?fm, fun h => pcmLoadInst_badValue h data s,
    fun h0 h1 h => pcmLoadInst_short h0 h1 h s, fun k hk h => ⟨pcmProgramOf data, toList_ofFn_bufByte h, ?pcm⟩⟩
  case fm =>
    unfold Fails
    rw [exec_fmLoadInst hi]
    refine ⟨fun h => fmLoadInst_badValue h data s, fun h0 h1 h => fmLoadInst_short h0 h1 h s,
      fun k hk h => ⟨fmProgramOf data, toList_ofFn_bufByte h, ?_⟩⟩
    rw [hk]
    exact fmLoadInst_checked k h s
  case pcm =>
    rw [hk]
    exact pcmLoadInst_checked k h s

/-! ## Set-pitch (R178, R171) -/

theorem fmSetPitchEffect_eq (ch : FmCh) (pitch : Int) (s : State) :
    let p := fmPart ch
    let c := fmIdx ch
    let bf := fmFreq P s.voice[ch].note pitch
    let hi := BitVec.ofNat 8 (bf.1 * 8 + bf.2 / 256)
    let lo := BitVec.ofNat 8 bf.2
    fmSetPitchEffect P ch pitch s =
      { s with
        chipReg := RegFile.write (RegFile.write s.chipReg p (0xA4 + c) hi) p (0xA0 + c) lo
        shadow := RegFile.write (RegFile.write s.shadow p (0xA4 + c) hi) p (0xA0 + c) lo
        fnumLatch := s.fnumLatch.set p.val (BitVec.ofNat 6 (bf.1 * 8 + bf.2 / 256))
        fm := s.fm.set ch.val { s.fm[ch] with block := Fin.ofNat 8 bf.1, fnum := Fin.ofNat 2048 bf.2 }
        voice := s.voice.set ch.val { s.voice[ch] with pitch := pitch } } :=
  fmWriteFreq_eq ch _ _ (by rw [setVoice_voice_self]) _ _ rfl rfl

/-- Settles O28, by the frequency pair of the stored note at the new pitch. -/
theorem Voice.fmSetPitch : Obligations.FmSetPitch := by
  refine ⟨fun chan a s h i hi => ?channel, fun ch pitch s h => ?value, fun ch pitch s h0 h1 i hi => ?passed⟩
  case channel => exact (exec_fmSetPitch hi).trans (fmSetPitch_badChannel a s (fmChan?_none h))
  case value =>
    have fails := fmSetPitch_badValue (P := params) (ch := ch) (s := s) (pitch := pitch) (by omega)
    exact ⟨fails, fails⟩
  case passed =>
    rw [exec_fmSetPitch hi, fmSetPitch_checked ⟨h0, h1⟩, fmSetPitchEffect_eq]
    rfl

/-! ## Set-level and the scaling of total levels (R179, R172) -/

/-- The low seven bits of a scaled total level byte are the scaled level. -/
theorem scaledTl_mod (b : Byte) (v l : Level7) : (scaledTl P b v l).toNat % 128 = (P.tlScale (field 0 128 b) v l).val := by
  have low : (b &&& 0x80).toNat % 2 ^ 7 = 0 := by
    rw [BitVec.toNat_and, Nat.and_mod_two_pow]
    exact Nat.and_zero _
  unfold scaledTl
  generalize P.tlScale (field 0 128 b) v l = x
  calc ((b &&& 0x80) ||| BitVec.ofNat 8 x.val).toNat % 2 ^ 7
      = (b &&& 0x80).toNat % 2 ^ 7 ||| (BitVec.ofNat 8 x.val).toNat % 2 ^ 7 := by rw [BitVec.toNat_or, Nat.or_mod_two_pow]
    _ = x.val := by rw [low, Nat.zero_or, BitVec.toNat_ofNat]; omega

/-- Bit 7 of a scaled total level byte is that of the program's byte. -/
theorem scaledTl_bit7 (b : Byte) (v l : Level7) : (scaledTl P b v l).getLsbD 7 = b.getLsbD 7 := by
  have level (x : Level7) : (BitVec.ofNat 8 x.val).getLsbD 7 = false := by
    rw [BitVec.getLsbD_ofNat, Nat.testBit_lt_two_pow x.isLt, Bool.and_false]
  unfold scaledTl
  rw [BitVec.getLsbD_or, BitVec.getLsbD_and, level, Bool.or_false]
  exact Bool.and_true _

theorem scaledTl_full (b : Byte) : scaledTl P b 127 127 = b := by
  unfold scaledTl
  rw [P.tlScale_full]
  revert b
  decide

theorem scaledTl_mono (b : Byte) {v v' l l' : Level7} (hv : v ≤ v') (hl : l ≤ l') :
    (scaledTl P b v' l').toNat % 128 ≤ (scaledTl P b v l).toNat % 128 := by
  rw [scaledTl_mod, scaledTl_mod]
  exact (P.tlScale_level _ v' l l' hl).trans (P.tlScale_velocity _ v v' l hv)

theorem fmSetLevelEffect_eq (ch : FmCh) (level : Level7) (s : State) :
    let p := fmPart ch
    let c := fmIdx ch
    let tl := fun (k : Nat) => scaledTl P (FmProgram.byte s.fmBank[s.voice[ch].program] k) s.voice[ch].velocity level
    fmSetLevelEffect P ch level s =
      { s with
        chipReg := RegFile.write (RegFile.write s.chipReg p (0x40 + c) (tl 12)) p (0x4C + c) (tl 15)
        shadow := RegFile.write (RegFile.write s.shadow p (0x40 + c) (tl 12)) p (0x4C + c) (tl 15)
        voice := s.voice.set ch.val { s.voice[ch] with level := level } } :=
  fmWriteTl_eq ch _ _ _ (by simp only [setVoice_voice_self]; rfl) (by simp only [setVoice_voice_self]; rfl)

/-- Settles O29, by the scaled byte as a number and the requirements of R172 on the scaling. -/
theorem Voice.fmSetLevel : Obligations.FmSetLevel := by
  refine ⟨fun chan a s h i hi => ?channel, fun ch level s h => ⟨fmSetLevel_badValue h, fmSetLevel_badValue h⟩,
    fun P b v v' l l' => ?scaling, fun ch level s i hi => ?passed⟩
  case channel => exact (exec_fmSetLevel hi).trans (fmSetLevel_badChannel a s (fmChan?_none h))
  case scaling => exact ⟨scaledTl_bit7 b v l, scaledTl_full b, scaledTl_mono b⟩
  case passed =>
    rw [exec_fmSetLevel hi, fmSetLevel_checked, fmSetLevelEffect_eq]
    rfl

/-! ## A second key-on, and note 0 under every pitch (R182) -/

/-- A reply whose result is a success replied with code 0, to the state it went on from. -/
theorem rc_success_of_reply {rc : Rc} {u : State} (e : reply rc u = .next t) (hr : t.result = some { rc := .success, out := none }) :
    rc = .success ∧ t = u.returning .success none := by
  obtain ⟨rfl, h⟩ := eq_of_returns rfl e hr
  injection h with h
  exact ⟨h.symm, by rw [← h]⟩

/-- After a key-on that succeeds the channel plays. -/
theorem fmKeyOn_success {ch : FmCh} {note vel : Int} (e : fmKeyOn P ch.val note vel s = .next t)
    (hr : t.result = some { rc := .success, out := none }) : t.voice[ch].playing = true := by
  by_cases bad : fmNote? note = none ∨ level7? vel = none
  · rw [fmKeyOn_badValue (fmChan?_val ch) bad] at e
    exact nomatch (rc_success_of_reply e hr).1
  · obtain ⟨hn, hv⟩ := not_or.mp bad
    obtain ⟨n, hn⟩ := Option.ne_none_iff_exists'.mp hn
    obtain ⟨v, hv⟩ := Option.ne_none_iff_exists'.mp hv
    rw [fmKeyOn_checked hn hv] at e
    split at e
    · exact nomatch (rc_success_of_reply e hr).1
    · rw [(rc_success_of_reply e hr).2, fmKeyOnEffect_images]
      exact congrArg FmVoice.playing (setVoice_voice_self s ch _)

/-- With stored note 0, a set-pitch that succeeds leaves block 0 and the floor. -/
theorem fmSetPitch_floor {ch : FmCh} {pitch : Int} (hn : s.voice[ch].note = 0) (e : fmSetPitch P ch.val pitch s = .next t)
    (hr : t.result = some { rc := .success, out := none }) : t.fm[ch].block.val = 0 ∧ t.fm[ch].fnum.val = P.freqFloor := by
  by_cases range : -8192 ≤ pitch ∧ pitch ≤ 8191
  · rw [fmSetPitch_checked range] at e
    have fm : t.fm[ch] = { s.fm[ch] with block := Fin.ofNat 8 0, fnum := Fin.ofNat 2048 P.freqFloor } := by
      rw [(rc_success_of_reply e hr).2, fmSetPitchEffect_eq, hn, fmFreq_zero rfl]
      exact (setFm_get s ch ch _).trans (if_pos rfl)
    have order := P.freqFloor_le
    have ceil := P.freqCeil_le
    rw [fm]
    exact ⟨rfl, Nat.mod_eq_of_lt (by omega)⟩
  · rw [fmSetPitch_badValue range] at e
    exact nomatch (rc_success_of_reply e hr).1

/-- Settles O30, from what a key-on and a set-pitch that succeed leave. -/
theorem busyAndFloor : Obligations.BusyAndFloor := by
  refine ⟨fun ch note note' vel vel' s t e hr h0 h1 h2 h3 => ?busy, fun ch pitch s t hn e hr => fmSetPitch_floor hn e hr⟩
  case busy =>
    obtain ⟨n, hn⟩ := fmNote?_some h0 h1
    obtain ⟨v, hv⟩ := level7?_some h2 h3
    exact (fmKeyOn_checked hn hv).trans (if_pos (fmKeyOn_success e hr))

end Sys2Proof.Machine
end

section
/-! Proofs of the statements about the PCM engine (spec 43_pcm.md): the lookup and the start of a note, the envelope, playback, the channel
parameters, the sample RAM, the effect partition, and the wave store. -/

namespace Sys2Proof.Machine

variable {P : Params} {s : State} {j : PcmCh}

/-- Writing back the channel that stands there changes nothing. -/
theorem setPcm_self (s : State) (j : PcmCh) : s.setPcm j s.pcm[j] = s := by
  unfold State.setPcm
  rw [show s.pcm.set j.val s.pcm[j] = s.pcm from Vector.set_getElem_self j.isLt]

/-! ## The lookup (R201) -/

/-- Entry `e` is the least one whose breakpoint the note does not pass. -/
def PcmProgram.LeastEntry (B : PcmProgram) (n : Level7) (e : Fin 8) : Prop :=
  n.val ≤ (PcmProgram.byte B (16 * e.val)).toNat ∧ ∀ k : Fin 8, k < e → (PcmProgram.byte B (16 * k.val)).toNat < n.val

theorem pcmEntryFor?_eq (B : PcmProgram) (n : Level7) :
    pcmEntryFor? B n = (List.range 8).find? fun i => decide (n.val ≤ (PcmProgram.byte B (16 * i)).toNat) := rfl

theorem pcmEntryFor?_none {B : PcmProgram} {n : Level7} (h : ∀ e : Fin 8, (PcmProgram.byte B (16 * e.val)).toNat < n.val) :
    pcmEntryFor? B n = none := by
  rw [pcmEntryFor?_eq, List.find?_range_eq_none]
  intro i hi
  simpa using h ⟨i, hi⟩

theorem pcmEntryFor?_least {B : PcmProgram} {n : Level7} {e : Fin 8} (h : B.LeastEntry n e) : pcmEntryFor? B n = some e.val := by
  obtain ⟨reached, below⟩ := h
  rw [pcmEntryFor?_eq, List.find?_range_eq_some]
  refine ⟨decide_eq_true reached, List.mem_range.mpr e.isLt, fun k hk => ?_⟩
  simpa using below ⟨k, hk.trans e.isLt⟩ hk

section
variable {prog : Fin 32} {n : Level7} {e : Fin 8}

theorem pcmLookup_instrumentMiss (h : ∀ e : Fin 8, (PcmProgram.byte s.pcmBank[prog] (16 * e.val)).toNat < n.val) :
    pcmLookup P prog n s = .error .instrumentMiss := by
  unfold pcmLookup
  rw [pcmEntryFor?_none h]

theorem pcmEntry_waveId (B : PcmProgram) (i : Nat) : (pcmEntry P B i).waveId = sext32 (memRead P B.toList (16 * i + 8) 4) := rfl

theorem pcmLookup_waveMiss (least : PcmProgram.LeastEntry s.pcmBank[prog] n e)
    (h : ∀ w ∈ s.waves, w.id ≠ sext32 (memRead P s.pcmBank[prog].toList (16 * e.val + 8) 4)) : pcmLookup P prog n s = .error .waveMiss := by
  unfold pcmLookup
  rw [pcmEntryFor?_least least]
  dsimp only
  rw [pcmEntry_waveId, findWave?_none.mpr h]

theorem pcmLookup_found (least : PcmProgram.LeastEntry s.pcmBank[prog] n e) {w : WaveRec} (hw : w ∈ s.waves)
    (nodup : (s.waves.map fun x => x.id).Nodup) (hid : w.id = sext32 (memRead P s.pcmBank[prog].toList (16 * e.val + 8) 4)) :
    pcmLookup P prog n s = .ok (pcmEntry P s.pcmBank[prog] e.val, w) := by
  unfold pcmLookup
  rw [pcmEntryFor?_least least]
  dsimp only
  rw [pcmEntry_waveId, ← hid, findWave?_eq_some nodup hw]

end

/-! ## Key-on and key-off (R208, R209) -/

section
variable {n v : Level7}

theorem exec_keyonPcm (chan note vel : Int) : exec (.keyonPcm chan note vel) s = pcmKeyOn params chan note vel s := rfl

theorem pcmKeyOn_badValue {note vel : Int} (h : level7? note = none ∨ level7? vel = none) :
    pcmKeyOn P (0x40 + j.val) note vel s = reply .badValue s := by
  unfold pcmKeyOn
  rw [pcmChan?_val]
  obtain h | h := h
  · rw [h]
  · rw [h]
    cases level7? note <;> rfl

theorem pcmKeyOn_busy (h : s.pcm[j].reserved = true ∧ s.pcm[j].activeKey = true) :
    pcmKeyOn P (0x40 + j.val) n.val v.val s = reply .busy s := by
  unfold pcmKeyOn
  rw [pcmChan?_val, level7?_val, level7?_val]
  exact if_pos (Bool.and_eq_true_iff.mpr h)

theorem pcmKeyOn_miss (free : ¬(s.pcm[j].reserved = true ∧ s.pcm[j].activeKey = true)) {rc : Rc}
    (hl : pcmLookup P s.pcm[j].program n s = .error rc) : pcmKeyOn P (0x40 + j.val) n.val v.val s = reply rc s := by
  unfold pcmKeyOn
  rw [pcmChan?_val, level7?_val, level7?_val]
  dsimp only
  rw [if_neg (mt Bool.and_eq_true_iff.mp free), hl]

theorem pcmKeyOn_found (free : ¬(s.pcm[j].reserved = true ∧ s.pcm[j].activeKey = true)) {e : PcmEntry} {w : WaveRec}
    (hl : pcmLookup P s.pcm[j].program n s = .ok (e, w)) :
    pcmKeyOn P (0x40 + j.val) n.val v.val s = reply .success (s.setPcm j (s.pcm[j].keyedOn P e w n v)) := by
  unfold pcmKeyOn
  rw [pcmChan?_val, level7?_val, level7?_val]
  dsimp only
  rw [if_neg (mt Bool.and_eq_true_iff.mp free), hl]

end

/-- The start of a note in one update: the values of R202 to R204 from the entry, the table and the channel, then the attack. -/
theorem PcmChannel.keyedOn_eq (c : PcmChannel) (e : PcmEntry) (w : WaveRec) (n v : Level7) :
    let full := P.pcmEnvScale * (e.tl.toNat * c.level.val * v.val / 16129)
    c.keyedOn P e w n v =
      PcmChannel.enterAttack
        { c with
          keyPressed := true, activeKey := true, activeEffect := false, activeOutput := true, note := n, velocity := v
          src := some { waveId := some w.id, sample := w.sample }
          loopEnd := if 0 < w.sample.loopLen then w.sample.loopStart + w.sample.loopLen else w.sample.size
          pos := 0, step := P.pcmStep w.sample.rate w.sample.rateOffset w.sample.baseNote n.val (P.pcmPitchStep c.pitch)
          envState := .off, envLevel := 0, envStep := 0, envFull := full, envSus := min full (full * e.sl.toNat / 127)
          envTL := e.tl, envAR := e.ar, envDR := e.dr, envSL := e.sl, envSR := e.sr, envRR := e.rr } := rfl

/-- Settles O31: the checks fail in order, the lookup answers for the least entry, and the channel starts from what it found. -/
theorem Pcm.pcmKeyOn : Obligations.PcmKeyOn := by
  refine ⟨fun chan a b s h => pcmKeyOn_badChannel a b s (pcmChan?_none h), fun j note vel s h => ?value, fun j n v s => ?passed⟩
  case value =>
    rw [← or_assoc] at h
    exact pcmKeyOn_badValue (h.imp level7?_none level7?_none)
  case passed =>
    intro i B byte id busy
    have handler : exec i s = _ := exec_keyonPcm (0x40 + j.val) n.val v.val
    unfold Fails
    rw [handler]
    refine ⟨fun hb => pcmKeyOn_busy hb, fun free below => pcmKeyOn_miss free (pcmLookup_instrumentMiss below),
      fun e free reached below => ?_⟩
    have least : PcmProgram.LeastEntry B n e := ⟨reached, below⟩
    refine ⟨fun absent => pcmKeyOn_miss free (pcmLookup_waveMiss least absent), fun w hw nodup hid => ?_⟩
    have found := pcmLookup_found (P := params) least hw nodup hid
    refine (pcmKeyOn_found free found).trans ?_
    rw [PcmChannel.keyedOn_eq]
    rfl

theorem pcmKeyOff_checked : pcmKeyOff (0x40 + j.val) s = reply .success (s.setPcm j s.pcm[j].keyedOff) := by
  unfold pcmKeyOff
  rw [pcmChan?_val]

theorem PcmChannel.keyedOff_held {c : PcmChannel} (key : c.activeKey = true) (pressed : c.keyPressed = true) :
    c.keyedOff = PcmChannel.enterRelease { c with keyPressed := false } := if_pos (Bool.and_eq_true_iff.mpr ⟨key, pressed⟩)

theorem PcmChannel.keyedOff_idle {c : PcmChannel} (h : c.activeKey = false ∨ c.keyPressed = false) : c.keyedOff = c :=
  if_neg (Bool.eq_false_iff.mp (Bool.and_eq_false_iff.mpr h))

/-- Settles O34: a held note is released; any other channel is written back as it stands. -/
theorem Pcm.pcmKeyOff : Obligations.PcmKeyOff := by
  refine ⟨fun chan s h => pcmKeyOff_badChannel s (pcmChan?_none h), fun j s => ⟨fun key pressed => ?held, fun h => ?idle⟩⟩
  case held =>
    refine pcmKeyOff_checked.trans ?_
    rw [PcmChannel.keyedOff_held key pressed]
    rfl
  case idle =>
    refine pcmKeyOff_checked.trans ?_
    rw [PcmChannel.keyedOff_idle h, setPcm_self]
    rfl

/-! ## The envelope (R204 to R206) -/

section
variable {c : PcmChannel}

theorem byte_toNat_eq_zero {b : Byte} : b.toNat = 0 ↔ b = 0 := BitVec.toNat_inj (y := 0)

theorem byte_toNat_eq_127 {b : Byte} : b.toNat = 127 ↔ b = 127 := BitVec.toNat_inj (y := 127)

/-- What `EnterSustain` makes of a channel that comes to it with level `l` (R205). -/
def PcmChannel.sustainedAt (c : PcmChannel) (l : Nat) : PcmChannel :=
  { c with envState := .sustain, envLevel := l, envStep := if c.envSR = 0 then 0 else max 1 (c.envSus / c.envSR.toNat) }

/-- What `EnterDecay` makes of a channel that comes to it with level `l` (R205). -/
def PcmChannel.decayedAt (c : PcmChannel) (l : Nat) : PcmChannel :=
  if c.envDR = 0 then c.sustainedAt (min l c.envSus)
  else if l ≤ c.envSus then c.sustainedAt l
  else { c with envState := .decay, envLevel := l, envStep := max 1 ((c.envFull - c.envSus) / c.envDR.toNat) }

theorem PcmChannel.enterSustain_at (c : PcmChannel) (l : Nat) : PcmChannel.enterSustain { c with envLevel := l } = c.sustainedAt l := by
  unfold PcmChannel.enterSustain PcmChannel.sustainedAt
  simp only [byte_toNat_eq_zero]

theorem PcmChannel.enterDecay_at (c : PcmChannel) (l : Nat) : PcmChannel.enterDecay { c with envLevel := l } = c.decayedAt l := by
  have stays : PcmChannel.enterSustain { c with envLevel := l } = c.sustainedAt l := c.enterSustain_at l
  have falls := c.enterSustain_at (min l c.envSus)
  unfold PcmChannel.enterDecay PcmChannel.decayedAt
  simp only [byte_toNat_eq_zero, stays, falls]

theorem PcmChannel.enterAttack_zero (h : c.envAR = 127) : c.enterAttack = c.decayedAt 0 := by
  unfold PcmChannel.enterAttack
  rw [if_pos (byte_toNat_eq_127.mpr h), c.enterDecay_at]

theorem PcmChannel.enterAttack_full (h : c.envAR = 0) : c.enterAttack = c.decayedAt c.envFull := by
  unfold PcmChannel.enterAttack
  rw [if_neg (by rw [h]; decide), if_pos (byte_toNat_eq_zero.mpr h), c.enterDecay_at]

theorem PcmChannel.enterAttack_rising (h127 : c.envAR ≠ 127) (h0 : c.envAR ≠ 0) :
    c.enterAttack = { c with envState := .attack, envLevel := 0, envStep := max 1 (c.envFull / c.envAR.toNat) } := by
  unfold PcmChannel.enterAttack
  rw [if_neg fun h => h127 (byte_toNat_eq_127.mp h), if_neg fun h => h0 (byte_toNat_eq_zero.mp h)]

theorem PcmChannel.enterRelease_stops (h : c.envRR = 0) : c.enterRelease = c.stopped := if_pos (byte_toNat_eq_zero.mpr h)

theorem PcmChannel.enterRelease_falls (h : c.envRR ≠ 0) :
    c.enterRelease = { c with envState := .release, envStep := max 1 (c.envLevel / c.envRR.toNat) } :=
  if_neg fun e => h (byte_toNat_eq_zero.mp e)

theorem PcmChannel.fall_above (h : c.envStep < c.envLevel) : c.fall = { c with envLevel := c.envLevel - c.envStep } :=
  if_neg (Nat.sub_ne_zero_of_lt h)

theorem PcmChannel.fall_stops (h : c.envLevel ≤ c.envStep) : c.fall = c.stopped := if_pos (Nat.sub_eq_zero_of_le h)

/-! One advance of the envelope, for each phase (R206). -/

theorem PcmChannel.envAdvance_idle (h : c.activeOutput = false) : c.envAdvance = c := by
  unfold PcmChannel.envAdvance
  simp [h]

theorem PcmChannel.envAdvance_attack (h : c.activeOutput = true) (phase : c.envState = .attack) :
    c.envAdvance =
      if c.envFull ≤ c.envLevel + c.envStep then PcmChannel.enterDecay { c with envLevel := c.envFull }
      else { c with envLevel := c.envLevel + c.envStep } := by
  unfold PcmChannel.envAdvance
  simp [h, phase]

theorem PcmChannel.envAdvance_decay (h : c.activeOutput = true) (phase : c.envState = .decay) :
    c.envAdvance =
      if c.envLevel ≤ c.envSus + c.envStep then PcmChannel.enterSustain { c with envLevel := c.envSus }
      else { c with envLevel := c.envLevel - c.envStep } := by
  unfold PcmChannel.envAdvance
  by_cases reached : c.envLevel ≤ c.envSus + c.envStep
  · simp [h, phase, reached]
  · have high : max c.envSus (c.envLevel - c.envStep) = c.envLevel - c.envStep := by omega
    have above : ¬c.envLevel - c.envStep ≤ c.envSus := by omega
    simp [h, phase, high, above, reached]

theorem PcmChannel.envAdvance_sustain (h : c.activeOutput = true) (phase : c.envState = .sustain) :
    c.envAdvance = if c.envStep = 0 then c else c.fall := by
  unfold PcmChannel.envAdvance
  simp [h, phase]

theorem PcmChannel.envAdvance_release (h : c.activeOutput = true) (phase : c.envState = .release) : c.envAdvance = c.fall := by
  unfold PcmChannel.envAdvance
  simp [h, phase]

theorem PcmChannel.envAdvance_effect_off (h : c.activeOutput = true) (phase : c.envState = .effect ∨ c.envState = .off) :
    c.envAdvance = c := by
  unfold PcmChannel.envAdvance
  obtain phase | phase := phase <;> simp [h, phase]

theorem PcmChannel.envAdvance_falling (h : c.activeOutput = true)
    (phase : (c.envState = .sustain ∧ c.envStep ≠ 0) ∨ c.envState = .release) : c.envAdvance = c.fall := by
  obtain ⟨phase, step⟩ | phase := phase
  · rw [PcmChannel.envAdvance_sustain h phase, if_neg step]
  · exact PcmChannel.envAdvance_release h phase

end

/-- Settles O32: PCMENV is one advance of each channel; the entry procedures by their rates, the advance by the phase it is in. -/
theorem pcmEnvelope : Obligations.PcmEnvelope := by
  refine ⟨fun s => ⟨pcmEnvAll s, rfl, pcmEnvAll_eq s, pcmEnvAll_get s⟩, fun c => ?entries,
    fun c => ⟨PcmChannel.envAdvance_idle, fun run => ?running⟩⟩
  case entries =>
    exact ⟨c.enterSustain_at c.envLevel, c.enterDecay_at c.envLevel, PcmChannel.enterAttack_zero, PcmChannel.enterAttack_full,
      PcmChannel.enterAttack_rising, PcmChannel.enterRelease_stops, PcmChannel.enterRelease_falls⟩
  case running =>
    refine ⟨fun phase => ?attack, fun phase => ?decay, fun phase still => ?held, fun phase => ?falling,
      PcmChannel.envAdvance_effect_off run⟩
    case attack =>
      rw [PcmChannel.envAdvance_attack run phase]
      exact ⟨fun h => if_neg (not_le.mpr h), fun h => if_pos h⟩
    case decay =>
      rw [PcmChannel.envAdvance_decay run phase]
      exact ⟨fun h => if_neg (not_le.mpr h), fun h => if_pos h⟩
    case held => rw [PcmChannel.envAdvance_sustain run phase, if_pos still]
    case falling =>
      rw [PcmChannel.envAdvance_falling run phase]
      exact ⟨PcmChannel.fall_above, PcmChannel.fall_stops⟩

/-! ## Playback (R203, R207) -/

section
variable {c : PcmChannel} {waves : List WaveRec} {src : Source}

/-- What a well-formed channel that has a source satisfies (R203, R207). -/
theorem PcmChannel.SourceOk.source (h : c.SourceOk waves) (hs : c.src = some src) :
    c.activeOutput = true ∧ src.sample.Ok ∧ c.loopEnd = src.sample.loopEndOf ∧ c.pos < c.loopEnd * 65536 := by
  unfold PcmChannel.SourceOk at h
  rw [hs] at h
  obtain ⟨output, sample, -, loopEnd, pos, -⟩ := h
  exact ⟨output, sample, loopEnd, pos⟩

theorem Sample.Ok.loopEndOf_le {w : Sample} (h : w.Ok) : w.loopEndOf ≤ w.size := by
  unfold Sample.loopEndOf
  split
  · exact h.loop_le
  · exact le_rfl

theorem Sample.loopLen_le_loopEndOf (w : Sample) : w.loopLen ≤ w.loopEndOf := by
  unfold Sample.loopEndOf
  split <;> omega

/-- The cursor of a well-formed channel lies inside its data. -/
theorem PcmChannel.SourceOk.cursor_lt (h : c.SourceOk waves) (hs : c.src = some src) : c.pos / 65536 < src.sample.data.length := by
  obtain ⟨-, sample, loopEnd, pos⟩ := h.source hs
  have inside := sample.loopEndOf_le
  rw [← sample.data_length, ← loopEnd] at inside
  omega

/-- One loop more would pass the end: the wrapped cursor goes back by the least number of loops (R207). -/
theorem le_wrapCursor_add {pos loopEnd loopLen : Nat} (h : loopEnd * 65536 ≤ pos) :
    loopEnd * 65536 ≤ wrapCursor pos loopEnd loopLen + loopLen * 65536 := by
  unfold wrapCursor
  rw [if_pos h, Nat.add_mul, Nat.one_mul]
  have wrapped := Nat.div_mul_le_self (pos - loopEnd * 65536) (loopLen * 65536)
  omega

/-- A cursor at or past the end goes back by at least one loop, to the last place below the end (R207). -/
theorem wrapCursor_spec {pos loopEnd loopLen : Nat} (h : loopEnd * 65536 ≤ pos) (loops : 0 < loopLen) (fits : loopLen ≤ loopEnd) :
    ∃ k, 0 < k ∧ pos = wrapCursor pos loopEnd loopLen + k * (loopLen * 65536) ∧ wrapCursor pos loopEnd loopLen < loopEnd * 65536 ∧
      loopEnd * 65536 ≤ wrapCursor pos loopEnd loopLen + loopLen * 65536 := by
  obtain ⟨k, whole⟩ := wrapCursor_eq (pos := pos) fits
  have below := wrapCursor_lt (pos := pos) loops fits
  refine ⟨k, Nat.pos_of_ne_zero fun zero => ?_, whole, below, le_wrapCursor_add h⟩
  rw [zero, Nat.zero_mul] at whole
  omega

theorem PcmChannel.out_idle (h : c.activeOutput = false) : c.out P = { left := 0, right := 0 } := by
  unfold PcmChannel.out
  rw [h]
  rfl

theorem PcmChannel.advance_idle (h : c.activeOutput = false) : c.advance = c := by
  unfold PcmChannel.advance
  simp [h]

theorem PcmChannel.out_running (run : c.activeOutput = true) (hs : c.src = some src) {b : Byte}
    (hb : src.sample.data[c.pos / 65536]? = some b) :
    c.out P = { left := asr (b.toInt * c.envLevel * c.panL.val) P.pcmOutShift
                right := asr (b.toInt * c.envLevel * c.panR.val) P.pcmOutShift } := by
  have sample : c.sampleAt src.sample = b.toInt := by
    unfold PcmChannel.sampleAt sext8
    rw [List.getD_eq_getElem?_getD, hb]
    rfl
  unfold PcmChannel.out
  rw [run, hs, ← sample]
  rfl

theorem PcmChannel.advance_below (run : c.activeOutput = true) (hs : c.src = some src) (h : c.pos + c.step < c.loopEnd * 65536) :
    c.advance = { c with pos := c.pos + c.step } := by
  unfold PcmChannel.advance
  simp [run, hs, not_le.mpr h]

theorem PcmChannel.advance_ends (run : c.activeOutput = true) (hs : c.src = some src) (h : c.loopEnd * 65536 ≤ c.pos + c.step)
    (noLoop : src.sample.loopLen = 0) : c.advance = c.stopped := by
  unfold PcmChannel.advance
  simp [run, hs, h, noLoop, PcmChannel.stopped]

theorem PcmChannel.advance_wraps (run : c.activeOutput = true) (hs : c.src = some src) (h : c.loopEnd * 65536 ≤ c.pos + c.step)
    (loops : 0 < src.sample.loopLen) : c.advance = { c with pos := wrapCursor (c.pos + c.step) c.loopEnd src.sample.loopLen } := by
  unfold PcmChannel.advance
  simp [run, hs, h, loops]

end

/-- Settles O33: a well-formed source holds the sample, and the cursor moves on, ends, or wraps. -/
theorem pcmPlayback : Obligations.PcmPlayback := by
  refine ⟨fun P c idle => ⟨PcmChannel.out_idle idle, PcmChannel.advance_idle idle⟩, fun P waves c src ok hs => ?_⟩
  obtain ⟨run, -, loopEnd, -⟩ := ok.source hs
  refine ⟨ok.cursor_lt hs, fun b hb => PcmChannel.out_running run hs hb, PcmChannel.advance_below run hs,
    PcmChannel.advance_ends run hs, fun h loops => ?_⟩
  have fits : src.sample.loopLen ≤ c.loopEnd := by
    rw [loopEnd]
    exact src.sample.loopLen_le_loopEndOf
  obtain ⟨k, back, whole, below, last⟩ := wrapCursor_spec h loops fits
  exact ⟨k, _, back, whole, below, last, PcmChannel.advance_wraps run hs h loops⟩

end Sys2Proof.Machine
end

section
/-! Proofs of the statements about the PCM commands (spec 43_pcm.md) that store parameters, stop channels, load samples, set the effect
partition, play effects, and change the wave store. -/

namespace Sys2Proof.Machine

variable {s : State} {j : PcmCh}

/-! ## Parameters (R210, R211, R214, R215) -/

section
variable {P : Params}

theorem exec_setpanPcm (chan pan : Int) : exec (.setpanPcm chan pan) s = pcmSetPan chan pan s := rfl

theorem exec_setinstPcm (chan prog : Int) : exec (.setinstPcm chan prog) s = pcmSetInst chan prog s := rfl

theorem exec_setpitchPcm (chan pitch : Int) : exec (.setpitchPcm chan pitch) s = pcmSetPitch params chan pitch s := rfl

theorem exec_setlevelPcm (chan level : Int) : exec (.setlevelPcm chan level) s = pcmSetLevel chan level s := rfl

theorem pcmSetPan_badValue {pan : Int} (h : pan < 0 ∨ 127 < pan) : pcmSetPan (0x40 + j.val) pan s = reply .badValue s := by
  unfold pcmSetPan
  rw [pcmChan?_val, level7?_none h]

theorem pcmSetPan_checked (pan : Level7) :
    pcmSetPan (0x40 + j.val) pan.val s = reply .success (s.setPcm j { s.pcm[j] with panL := pcmPanL pan, panR := pcmPanR pan }) := by
  unfold pcmSetPan
  rw [pcmChan?_val, level7?_val]

theorem pcmSetInst_badValue {prog : Int} (h : prog < 0 ∨ 31 < prog) : pcmSetInst (0x40 + j.val) prog s = reply .badValue s := by
  unfold pcmSetInst
  rw [pcmChan?_val, pcmProg?_none h]

theorem pcmSetInst_checked (prog : Fin 32) :
    pcmSetInst (0x40 + j.val) prog.val s = reply .success (s.setPcm j { s.pcm[j] with program := prog }) := by
  unfold pcmSetInst
  rw [pcmChan?_val, pcmProg?_val]

theorem pcmSetLevel_badValue {level : Int} (h : level < 0 ∨ 127 < level) : pcmSetLevel (0x40 + j.val) level s = reply .badValue s := by
  unfold pcmSetLevel
  rw [pcmChan?_val, level7?_none h]

theorem pcmSetLevel_checked (level : Level7) :
    pcmSetLevel (0x40 + j.val) level.val s = reply .success (s.setPcm j { s.pcm[j] with level := level }) := by
  unfold pcmSetLevel
  rw [pcmChan?_val, level7?_val]

theorem pcmSetPitch_badValue {pitch : Int} (h : ¬(-8192 ≤ pitch ∧ pitch ≤ 8191)) :
    pcmSetPitch P (0x40 + j.val) pitch s = reply .badValue s := by
  unfold pcmSetPitch
  rw [pcmChan?_val]
  exact if_neg (mt pitchInRange_iff.mp h)

theorem pcmSetPitch_checked {pitch : Int} (h : -8192 ≤ pitch ∧ pitch ≤ 8191) :
    pcmSetPitch P (0x40 + j.val) pitch s = reply .success (s.setPcm j (s.pcm[j].pitched P pitch)) := by
  unfold pcmSetPitch
  rw [pcmChan?_val]
  exact if_pos (pitchInRange_iff.mpr h)

theorem pcmPanL_val (pan : Level7) : (pcmPanL pan).val = (127 - pan.val) / 8 := Nat.mod_eq_of_lt (by omega)

theorem pcmPanR_val (pan : Level7) : (pcmPanR pan).val = pan.val / 8 := Nat.mod_eq_of_lt (by omega)

theorem PcmChannel.pitched_silent {c : PcmChannel} (h : c.activeKey = false) (pitch : Int) : c.pitched P pitch = { c with pitch := pitch } :=
  if_neg (Bool.eq_false_iff.mp h)

theorem PcmChannel.pitched_sounding {c : PcmChannel} {src : Source} (h : c.activeKey = true) (hs : c.src = some src) (pitch : Int) :
    c.pitched P pitch = { c with pitch := pitch, step := pcmStepOf P src.sample c.note pitch } := by
  unfold PcmChannel.pitched
  rw [if_pos h, hs]

end

/-- Settles O35: each value is checked and stored; a new pitch gives a sounding note its step. -/
theorem pcmParameters : Obligations.PcmParameters := by
  refine ⟨fun chan a s h => ?channel, fun j x s => ⟨fun h => ⟨pcmSetPan_badValue h, pcmSetLevel_badValue h⟩,
    fun h => pcmSetInst_badValue h, fun h => pcmSetPitch_badValue (P := params) (by omega)⟩, fun j s => ?passed⟩
  case channel =>
    have hc := pcmChan?_none h
    simp only [List.forall_mem_cons]
    exact ⟨pcmSetPan_badChannel a s hc, pcmSetInst_badChannel a s hc, pcmSetPitch_badChannel a s hc, pcmSetLevel_badChannel a s hc, nofun⟩
  case passed =>
    refine ⟨fun pan => ⟨pcmPanL pan, pcmPanR pan, pcmPanL_val pan, pcmPanR_val pan, ?pan⟩, fun prog => ?inst, fun level => ?level,
      fun pitch h0 h1 => ⟨fun silent => ?silent, fun src sounding hs => ?sounding⟩⟩
    case pan =>
      rw [exec_setpanPcm, pcmSetPan_checked]
      rfl
    case inst =>
      rw [exec_setinstPcm, pcmSetInst_checked]
      rfl
    case level =>
      rw [exec_setlevelPcm, pcmSetLevel_checked]
      rfl
    case silent =>
      rw [exec_setpitchPcm, pcmSetPitch_checked ⟨h0, h1⟩, PcmChannel.pitched_silent silent]
      rfl
    case sounding =>
      rw [exec_setpitchPcm, pcmSetPitch_checked ⟨h0, h1⟩, PcmChannel.pitched_sounding sounding hs]
      rfl

/-! ## Channel-off and the effect query (R200, R216, R219) -/

theorem pcmOff_checked : pcmOff (0x40 + j.val) s = reply .success (s.setPcm j s.pcm[j].stopped) := by
  unfold pcmOff
  rw [pcmChan?_val]
  rfl

/-- Settles O37: both codes run one handler, which stops the channel. -/
theorem pcmChannelOff : Obligations.PcmChannelOff := by
  refine ⟨fun chan s h i hi => ?channel, fun j s i hi => exec_of_mem_pair hi pcmOff_checked pcmOff_checked⟩
  case channel =>
    have fails := pcmOff_badChannel s (pcmChan?_none h)
    exact exec_of_mem_pair hi fails fails

theorem pcmEffectPlaying_checked :
    pcmEffectPlaying (0x40 + j.val) s = answer (if s.pcm[j].reserved = true ∧ s.pcm[j].activeEffect = true then 1 else 0) s := by
  unfold pcmEffectPlaying
  rw [pcmChan?_val]
  simp only [Bool.and_eq_true]

/-- Settles O41, by the two flags that the answer reads. -/
theorem effectQuery : Obligations.EffectQuery :=
  ⟨fun _ s h => pcmEffectPlaying_badChannel s (pcmChan?_none h), fun _ _ => pcmEffectPlaying_checked⟩

/-! ## The sample RAM (R213) -/

section
variable {dest size : Int} {data : List Byte}

theorem pcmLoadSamples_badValue (h : dest < 0 ∨ 65535 < dest) : pcmLoadSamples dest size data s = reply .badValue s := by
  unfold pcmLoadSamples
  rw [index?_none (by omega)]

theorem pcmLoadSamples_emptyData (h0 : 0 ≤ dest) (h1 : dest ≤ 65535) (h : size ≤ 0 ∨ data.length < size) :
    pcmLoadSamples dest size data s = reply .emptyData s := by
  obtain ⟨a, ha, -⟩ := index?_some (n := 65536) h0 (by omega)
  unfold pcmLoadSamples
  rw [ha]
  by_cases empty : size ≤ 0
  · exact if_pos empty
  · exact (if_neg empty).trans (if_pos (h.resolve_left empty))

theorem pcmLoadSamples_budget (h0 : 0 ≤ dest) (h1 : dest ≤ 65535) (pos : 0 < size) (held : size ≤ data.length) (h : 65536 < dest + size) :
    pcmLoadSamples dest size data s = reply .budget s := by
  obtain ⟨a, ha, -⟩ := index?_some (n := 65536) h0 (by omega)
  unfold pcmLoadSamples
  rw [ha]
  dsimp only
  rw [if_neg (not_le.mpr pos), if_neg (not_lt.mpr held), if_pos h]

theorem pcmLoadSamples_checked (h0 : 0 ≤ dest) (pos : 0 < size) (held : size ≤ data.length) (h : dest + size ≤ 65536) :
    pcmLoadSamples dest size data s =
      reply .success { s with pcmRam := Memory.writeBytes s.pcmRam dest.toNat (data.take size.toNat) } := by
  obtain ⟨a, ha, val⟩ := index?_some (n := 65536) h0 (by omega)
  have addr : a.val = dest.toNat := by omega
  unfold pcmLoadSamples
  rw [ha]
  dsimp only
  rw [if_neg (not_le.mpr pos), if_neg (not_lt.mpr held), if_neg (not_lt.mpr h), addr]

theorem getD_take {k n : Nat} (h : k < n) (d : Byte) : (data.take n).getD k d = data.getD k d := by
  rw [List.getD_eq_getElem?_getD, List.getD_eq_getElem?_getD, List.getElem?_take_of_lt h]

end

/-- Settles O36: the checks fail in order; what passes writes the first `size` bytes of the buffer into a canonical memory. -/
theorem loadSamples : Obligations.LoadSamples := by
  refine fun dest size data s wf => ⟨fun h => pcmLoadSamples_badValue h, fun h0 h1 h => pcmLoadSamples_emptyData h0 h1 h,
    fun h0 h1 pos held h => pcmLoadSamples_budget h0 h1 pos held h,
    fun h0 pos held h => ⟨_, pcmLoadSamples_checked h0 pos held h, rfl, ?_⟩⟩
  have len : (data.take size.toNat).length = size.toNat := List.length_take_of_le (by omega)
  have fits : dest.toNat + (data.take size.toNat).length ≤ 65536 := by omega
  refine ⟨Memory.wf_writeBytes wf fits, fun k hk => ?copied, fun a ha => ?other⟩
  case copied =>
    refine (Memory.read_writeBytes wf fits _).trans ?_
    rw [if_pos (by omega), Nat.add_sub_cancel_left, getD_take (by omega)]
  case other =>
    refine (Memory.read_writeBytes wf fits a).trans (if_neg ?_)
    omega

/-! ## The effect partition (R217) -/

section
variable {P : Params}

theorem pcmReserve_badValue {n : Int} (h : n < 0 ∨ 8 < n) : pcmReserve P n s = reply .badValue s := by
  unfold pcmReserve
  rw [index?_none (by omega)]

theorem index?_nat {m n : Nat} (h : n < m) : index? m (n : Int) = some ⟨n, h⟩ := index?_of_fin (⟨n, h⟩ : Fin m)

theorem pcmReserve_budget {n : Nat} (hn : n ≤ 8) (h : P.reserveLimit < n * P.reserveRoom + s.waveTotal) :
    pcmReserve P n s = reply .budget s := by
  unfold pcmReserve
  rw [index?_nat (Nat.lt_succ_of_le hn)]
  exact if_pos h

theorem pcmReserve_checked {n : Nat} (hn : n ≤ 8) (h : n * P.reserveRoom + s.waveTotal ≤ P.reserveLimit) :
    pcmReserve P n s = reply .success (pcmReserveEffect n s) := by
  unfold pcmReserve
  rw [index?_nat (Nat.lt_succ_of_le hn)]
  exact if_neg (not_lt.mpr h)

theorem PcmChannel.repartitioned_same {c : PcmChannel} {n : Nat} (h : c.reserved = decide (8 - n ≤ j.val)) : c.repartitioned n j = c :=
  if_pos h.symm

theorem PcmChannel.repartitioned_changed {c : PcmChannel} {n : Nat} (h : c.reserved ≠ decide (8 - n ≤ j.val)) :
    c.repartitioned n j = { c.stopped with reserved := decide (8 - n ≤ j.val) } := if_neg h.symm

end

/-- Settles O38: past its checks RESERVE re-partitions each channel and stores the count. -/
theorem reserve : Obligations.Reserve := by
  refine ⟨fun n s h => pcmReserve_badValue (P := params) h, fun n s hn => ⟨fun h => pcmReserve_budget (P := params) hn h, fun h => ?passed⟩⟩
  case passed =>
    refine ⟨(pcmReserveEffect n s).returning .success none, pcmReserve_checked (P := params) hn h, ?frame, fun j => ?_⟩
    case frame =>
      rw [pcmReserveEffect_eq]
      rfl
    have channel : ((pcmReserveEffect n s).returning .success none).pcm[j] = s.pcm[j].repartitioned n j := pcmReserveEffect_get n s j
    rw [channel]
    exact ⟨PcmChannel.repartitioned_same, PcmChannel.repartitioned_changed⟩

/-! ## Effects (R218) -/

section
variable {P : Params} {n v : Level7} {data : List Byte}

theorem pcmPlayEffect_badValue {note vel : Int} (h : level7? note = none ∨ level7? vel = none) :
    pcmPlayEffect P (0x40 + j.val) note vel data s = reply .badValue s := by
  unfold pcmPlayEffect
  rw [pcmChan?_val]
  obtain h | h := h
  · rw [h]
  · rw [h]
    cases level7? note <;> rfl

theorem pcmPlayEffect_needsReserved (h : s.pcm[j].reserved = false) :
    pcmPlayEffect P (0x40 + j.val) n.val v.val data s = reply .needsReserved s := by
  unfold pcmPlayEffect
  rw [pcmChan?_val, level7?_val, level7?_val]
  exact if_pos (by rw [h]; rfl)

theorem pcmPlayEffect_busy (reserved : s.pcm[j].reserved = true) (h : s.pcm[j].activeEffect = true) :
    pcmPlayEffect P (0x40 + j.val) n.val v.val data s = reply .busy s := by
  unfold pcmPlayEffect
  rw [pcmChan?_val, level7?_val, level7?_val]
  dsimp only
  rw [if_neg (by rw [reserved]; decide), if_pos h]

theorem pcmPlayEffect_badHeader (reserved : s.pcm[j].reserved = true) (idle : s.pcm[j].activeEffect = false) {rc : Rc}
    (h : effectCheck P data = some rc) : pcmPlayEffect P (0x40 + j.val) n.val v.val data s = reply rc s := by
  unfold pcmPlayEffect
  rw [pcmChan?_val, level7?_val, level7?_val]
  dsimp only
  rw [if_neg (by rw [reserved]; decide), if_neg (by rw [idle]; decide), h]

theorem pcmPlayEffect_checked (reserved : s.pcm[j].reserved = true) (idle : s.pcm[j].activeEffect = false)
    (h : effectCheck P data = none) :
    pcmPlayEffect P (0x40 + j.val) n.val v.val data s =
      reply .success (s.setPcm j (s.pcm[j].effectOn P ((waveHeader P data).sample data) n v)) := by
  unfold pcmPlayEffect
  rw [pcmChan?_val, level7?_val, level7?_val]
  dsimp only
  rw [if_neg (by rw [reserved]; decide), if_neg (by rw [idle]; decide), h]

/-! The header checks of PLAYFX, in order: what each one answers once those before it pass. -/

theorem effectCheck_short (h : data.length < 32) : effectCheck P data = some .emptyData := if_pos h

theorem effectCheck_badSize (len : 32 ≤ data.length) (h : (waveHeader P data).size < 0) : effectCheck P data = some .badValue := by
  unfold effectCheck
  rw [if_neg (not_lt.mpr len)]
  exact if_pos h

theorem effectCheck_loop (len : 32 ≤ data.length) (size : 0 ≤ (waveHeader P data).size)
    (h : (waveHeader P data).size < (waveHeader P data).loopStart + (waveHeader P data).loopLen) :
    effectCheck P data = some .loopRegion := by
  unfold effectCheck
  rw [if_neg (not_lt.mpr len)]
  dsimp only
  rw [if_neg (not_lt.mpr size), if_pos h]

theorem effectCheck_noData (len : 32 ≤ data.length) (size : 0 ≤ (waveHeader P data).size)
    (loop : ((waveHeader P data).loopStart + (waveHeader P data).loopLen : Int) ≤ (waveHeader P data).size)
    (h : (waveHeader P data).size = 0 ∨ data.length < 32 + (waveHeader P data).size) : effectCheck P data = some .emptyData := by
  unfold effectCheck
  rw [if_neg (not_lt.mpr len)]
  dsimp only
  rw [if_neg (not_lt.mpr size), if_neg (not_lt.mpr loop)]
  by_cases empty : (waveHeader P data).size = 0
  · exact if_pos empty
  · rw [if_neg empty, if_pos (h.resolve_left empty)]

theorem effectCheck_passes (size : 0 < (waveHeader P data).size)
    (loop : ((waveHeader P data).loopStart + (waveHeader P data).loopLen : Int) ≤ (waveHeader P data).size)
    (held : 32 + (waveHeader P data).size ≤ data.length) : effectCheck P data = none := by
  unfold effectCheck
  rw [if_neg (by omega)]
  dsimp only
  rw [if_neg (not_lt.mpr size.le), if_neg (not_lt.mpr loop), if_neg size.ne', if_neg (not_lt.mpr held)]

end

/-- Settles O39: the checks fail in order, the header's among them, and the channel plays its own copy of the table. -/
theorem playEffect : Obligations.PlayEffect := by
  refine ⟨fun chan a b d s h => pcmPlayEffect_badChannel a b d s (pcmChan?_none h), fun j note vel data s h => ?value,
    fun j n v data s => ?passed⟩
  case value =>
    rw [← or_assoc] at h
    exact pcmPlayEffect_badValue (P := params) (h.imp level7?_none level7?_none)
  case passed =>
    intro i h
    have handler : exec i s = pcmPlayEffect params (0x40 + j.val) n.val v.val data s := rfl
    unfold Fails
    rw [handler]
    refine ⟨pcmPlayEffect_needsReserved, pcmPlayEffect_busy, fun reserved idle => ?_⟩
    have fails {rc : Rc} (e : effectCheck params data = some rc) := pcmPlayEffect_badHeader (n := n) (v := v) reserved idle e
    exact ⟨fun short => fails (effectCheck_short short), fun len bad => fails (effectCheck_badSize len bad),
      fun len size bad => fails (effectCheck_loop len size bad), fun len size loop bad => fails (effectCheck_noData len size loop bad),
      fun size loop held => pcmPlayEffect_checked reserved idle (effectCheck_passes size loop held)⟩

/-! ## The wave store (R221, R222) -/

section
variable {P : Params} {data : List Byte}

theorem pcmLoadWave_fails {rc : Rc} (h : loadCheck P data s = some rc) : pcmLoadWave P data s = reply rc s := by
  unfold pcmLoadWave
  rw [h]

theorem pcmLoadWave_checked (h : loadCheck P data s = none) :
    pcmLoadWave P data s =
      reply .success { s with waves := s.waves ++ [waveRecOf P data], waveTotal := s.waveTotal + (waveRecOf P data).sample.size } := by
  unfold pcmLoadWave
  rw [h]

theorem loadCheck_full (h : 128 ≤ s.waves.length) : loadCheck P data s = some .budget := if_pos h

theorem loadCheck_short (room : s.waves.length < 128) (h : data.length < 32) : loadCheck P data s = some .emptyData := by
  unfold loadCheck
  rw [if_neg (not_le.mpr room), if_pos h]

theorem loadCheck_badSize (room : s.waves.length < 128) (len : 32 ≤ data.length) (h : (waveHeader P data).size < 0) :
    loadCheck P data s = some .badValue := by
  unfold loadCheck
  rw [if_neg (not_le.mpr room), if_neg (not_lt.mpr len)]
  exact if_pos h

theorem loadCheck_noData (room : s.waves.length < 128) (len : 32 ≤ data.length) (size : 0 ≤ (waveHeader P data).size)
    (h : (waveHeader P data).size = 0 ∨ data.length < 32 + (waveHeader P data).size) : loadCheck P data s = some .emptyData := by
  unfold loadCheck
  rw [if_neg (not_le.mpr room), if_neg (not_lt.mpr len)]
  dsimp only
  rw [if_neg (not_lt.mpr size)]
  by_cases empty : (waveHeader P data).size = 0
  · exact if_pos empty
  · rw [if_neg empty, if_pos (h.resolve_left empty)]

/-- The table fits: a place is free, and the buffer holds the bytes that its header names. -/
def FitsStore (P : Params) (data : List Byte) (s : State) : Prop :=
  s.waves.length < 128 ∧ 0 < (waveHeader P data).size ∧ 32 + (waveHeader P data).size ≤ data.length

/-- The checks of LDWAVE that are left for a table that fits: the total, the id, the loop region. -/
theorem loadCheck_fits (h : FitsStore P data s) :
    loadCheck P data s =
      if 65504 < s.waveTotal + (waveHeader P data).size then some .budget
      else if (findWave? s.waves (waveHeader P data).id).isSome then some .duplicateWave
      else if (waveHeader P data).size < (waveHeader P data).loopStart + (waveHeader P data).loopLen then some .loopRegion
      else none := by
  obtain ⟨room, size, held⟩ := h
  unfold loadCheck
  rw [if_neg (not_le.mpr room), if_neg (by omega)]
  dsimp only
  rw [if_neg (not_lt.mpr size.le), if_neg size.ne', if_neg (not_lt.mpr held)]

theorem findWave?_isSome {waves : List WaveRec} {id : Int} : (findWave? waves id).isSome = true ↔ ∃ w ∈ waves, w.id = id := by
  unfold findWave?
  simp

end

/-- Settles O42: the checks fail in order; what passes appends the record of the buffer. -/
theorem loadWave : Obligations.LoadWave := by
  intro data s i h fits
  have handler : exec i s = pcmLoadWave params data s := rfl
  unfold Fails
  rw [handler]
  have check (hf : fits) := loadCheck_fits (P := params) hf
  refine ⟨fun full => pcmLoadWave_fails (loadCheck_full full), fun room short => pcmLoadWave_fails (loadCheck_short room short),
    fun room len bad => pcmLoadWave_fails (loadCheck_badSize room len bad),
    fun room len size bad => pcmLoadWave_fails (loadCheck_noData room len size bad),
    fun hf excess => pcmLoadWave_fails ((check hf).trans (if_pos excess)), fun hf total dup => ?duplicate, fun hf total new bad => ?loop,
    fun hf total new loop => ?passed⟩
  case duplicate =>
    apply pcmLoadWave_fails
    rw [check hf, if_neg (not_lt.mpr total), if_pos (findWave?_isSome.mpr dup)]
  case loop =>
    apply pcmLoadWave_fails
    rw [check hf, if_neg (not_lt.mpr total), findWave?_none.mpr new]
    exact if_pos bad
  case passed =>
    refine (pcmLoadWave_checked ?_).trans rfl
    rw [check hf, if_neg (not_lt.mpr total), findWave?_none.mpr new]
    exact if_neg (not_lt.mpr loop)

section
variable {id : Int} {c : PcmChannel} {plays : Int → Bool}

theorem PcmChannel.stopIf_plays {src : Source} {k : Int} (hs : c.src = some src) (hk : src.waveId = some k) (h : plays k = true) :
    c.stopIf plays = c.stopped := by
  obtain ⟨waveId, sample⟩ := src
  subst hk
  unfold PcmChannel.stopIf
  rw [hs]
  exact if_pos h

theorem PcmChannel.stopIf_other (h : ∀ src k, c.src = some src → src.waveId = some k → plays k = false) : c.stopIf plays = c := by
  unfold PcmChannel.stopIf
  split
  · rename_i k sample hs
    exact if_neg (Bool.eq_false_iff.mp (h _ k hs rfl))
  · rfl

/-- A state whose players were stopped and whose store was replaced: the frame, and each channel. -/
theorem unloaded (h : ∀ k, plays k = true ↔ id = -1 ∨ k = id) (waves : List WaveRec) (total : Nat) :
    let t := State.returning { stopPlaying plays s with waves := waves, waveTotal := total } .success none
    t = State.returning { s with pcm := t.pcm, waves := t.waves, waveTotal := t.waveTotal } .success none ∧
    ∀ j : PcmCh,
      ((∃ src k, s.pcm[j].src = some src ∧ src.waveId = some k ∧ (id = -1 ∨ k = id)) → t.pcm[j] = s.pcm[j].stopped) ∧
      ((∀ src k, s.pcm[j].src = some src → src.waveId = some k → id ≠ -1 ∧ k ≠ id) → t.pcm[j] = s.pcm[j]) := by
  have channel := stopPlaying_get plays s
  rw [stopPlaying_eq]
  generalize (stopPlaying plays s).pcm = q at channel ⊢
  refine ⟨rfl, fun j => ?_⟩
  show (_ → q[j] = _) ∧ (_ → q[j] = _)
  rw [channel]
  refine ⟨fun ⟨src, k, hs, hk, named⟩ => PcmChannel.stopIf_plays hs hk ((h k).mpr named), fun other => ?_⟩
  refine PcmChannel.stopIf_other fun src k hs hk => Bool.eq_false_iff.mpr fun named => ?_
  exact not_or.mpr (other src k hs hk) ((h k).mp named)

theorem pcmUnloadWave_all (h : id = -1) :
    pcmUnloadWave id s = reply .success { stopPlaying (fun _ => true) s with waves := [], waveTotal := 0 } := if_pos h

theorem pcmUnloadWave_missing (h : id ≠ -1) (absent : ∀ w ∈ s.waves, w.id ≠ id) : pcmUnloadWave id s = reply .waveMiss s := by
  unfold pcmUnloadWave
  rw [if_neg h, findWave?_none.mpr absent]

theorem pcmUnloadWave_one (h : id ≠ -1) {w : WaveRec} (hw : findWave? s.waves id = some w) :
    pcmUnloadWave id s =
      reply .success
        { stopPlaying (fun k => decide (k = id)) s with
          waves := s.waves.filter fun x => decide (x.id ≠ id), waveTotal := s.waveTotal - w.sample.size } := by
  unfold pcmUnloadWave
  rw [if_neg h, hw]

end

/-- Settles O43: both forms stop the channels that play a table they remove, and set the store and its total. -/
theorem unloadWave : Obligations.UnloadWave := by
  refine fun id s nodup => ⟨fun one absent => pcmUnloadWave_missing one absent, fun removes => ?_⟩
  by_cases all : id = -1
  case pos =>
    obtain ⟨frame, channels⟩ := unloaded (s := s) (id := id) (plays := fun _ => true) (fun _ => iff_of_true rfl (.inl all)) [] 0
    exact ⟨_, pcmUnloadWave_all all, frame, fun _ => ⟨rfl, rfl⟩, fun _ _ _ one => absurd all one, channels⟩
  case neg =>
    obtain ⟨w, hw, hid⟩ := removes.resolve_left all
    have found : findWave? s.waves id = some w := hid ▸ findWave?_eq_some nodup hw
    obtain ⟨frame, channels⟩ := unloaded (s := s) (id := id) (plays := fun k => decide (k = id)) (fun k => by simp [all])
      (s.waves.filter fun x => decide (x.id ≠ id)) (s.waveTotal - w.sample.size)
    refine ⟨_, pcmUnloadWave_one all found, frame, fun every => absurd every all, fun x hx hxid _ => ⟨rfl, ?total⟩, channels⟩
    case total =>
      have same : w = x := Option.some.inj (found.symm.trans (hxid ▸ findWave?_eq_some nodup hx))
      rw [← same]

end Sys2Proof.Machine
end

section
/-! Proofs of the statements about the SSG (spec 44_ssg.md): the write queue and its drain, the counters of a tick and the output, and the
shapes of the envelope. -/

namespace Sys2Proof.Machine

variable {P : Params} {g : Ssg}

/-! ## The write queue (R241) -/

section
variable {w : Fin 14 × Byte} {l : List (Fin 14 × Byte)}

theorem Ssg.apply_shape (h : w.1 = 13) : g.apply w = Ssg.envRestart { g with regs := g.regs.set w.1.val w.2 } := if_pos h

theorem Ssg.apply_other (h : w.1 ≠ 13) : g.apply w = { g with regs := g.regs.set w.1.val w.2 } := if_neg h

/-- A drained write sets its register, and of the rest it can change the envelope's state only. -/
theorem Ssg.apply_frame (w : Fin 14 × Byte) (g : Ssg) :
    g.apply w =
      { g with
        regs := g.regs.set w.1.val w.2, envCount := (g.apply w).envCount, envAttack := (g.apply w).envAttack
        envHolding := (g.apply w).envHolding, envCnt := (g.apply w).envCnt } := by
  by_cases shape : w.1 = 13
  · rw [apply_shape shape]; rfl
  · rw [apply_other shape]

theorem Ssg.apply_regs (w : Fin 14 × Byte) (g : Ssg) (r : Fin 14) : (g.apply w).regs[r] = if r = w.1 then w.2 else g.regs[r] := by
  rw [apply_frame, vector_getElem_set_fin]

/-- What no write of the list changes, the list does not change. -/
theorem applyFold_keeps {α : Type} (f : Ssg → α) (kept : ∀ w ∈ l, ∀ g : Ssg, f (g.apply w) = f g) (g : Ssg) :
    f (l.foldl Ssg.apply g) = f g :=
  List.foldlRecOn (motive := fun g' => f g' = f g) l Ssg.apply rfl fun g' ih w hw => (kept w hw g').trans ih

/-- The last write queued for a register is the one it keeps. -/
theorem applyFold_regs (l : List (Fin 14 × Byte)) (g : Ssg) (r : Fin 14) :
    (l.foldl Ssg.apply g).regs[r] = (((l.filter fun w => decide (w.1 = r)).getLast?).map fun w => w.2).getD g.regs[r] := by
  induction l using List.reverseRecOn with
  | nil => rfl
  | append_singleton l w ih =>
    rw [List.foldl_concat, Ssg.apply_regs, ih, List.filter_append]
    by_cases named : w.1 = r
    · simp [named]
    · simp [named, Ne.symm named]

/-- The envelope stands at the top of the shape that register 13 selects (R244). -/
structure Ssg.AtRestart (g : Ssg) : Prop where
  count : g.envCount = 31
  attack : g.envAttack = g.regs[(13 : Fin 14)].getLsbD 2
  holding : g.envHolding = false
  cnt : g.envCnt = 0

theorem Ssg.atRestart_envRestart (g : Ssg) : g.envRestart.AtRestart := ⟨rfl, rfl, rfl, rfl⟩

/-- A later write leaves the envelope at a restart: of the old shape, or of the one it writes. -/
theorem Ssg.AtRestart.apply (h : g.AtRestart) (w : Fin 14 × Byte) : (g.apply w).AtRestart := by
  by_cases shape : w.1 = 13
  case pos => rw [apply_shape shape]; exact atRestart_envRestart _
  case neg =>
    have same : (g.apply w).regs[(13 : Fin 14)] = g.regs[(13 : Fin 14)] := by rw [apply_regs, if_neg (Ne.symm shape)]
    rw [apply_other shape] at same ⊢
    exact ⟨h.count, h.attack.trans (by rw [same]), h.holding, h.cnt⟩

theorem applyFold_restarted {v : Byte} (queued : (13, v) ∈ l) : (l.foldl Ssg.apply g).AtRestart := by
  induction l using List.reverseRecOn with
  | nil => nomatch queued
  | append_singleton l w ih =>
    rw [List.foldl_concat]
    rcases List.mem_append.mp queued with earlier | last
    · exact (ih earlier).apply w
    · rw [Ssg.apply_shape (by rw [← List.mem_singleton.mp last])]
      exact Ssg.atRestart_envRestart _

end

/-- Settles O44: the drain applies the queued writes in order; each sets its register and, for register 13, restarts the envelope. -/
theorem ssgQueue : Obligations.SsgQueue := by
  refine ⟨fun P r v s => ⟨fun full => if_pos full, fun room => if_neg room⟩, fun s => ?drain⟩
  refine ⟨rfl, rfl, applyFold_regs s.ssg.queue s.ssg, fun ⟨v, queued⟩ => ?restarted, fun other => ?other,
    applyFold_keeps Ssg.toneCnt (fun w _ g => ?_) s.ssg, applyFold_keeps Ssg.sq (fun w _ g => ?_) s.ssg,
    applyFold_keeps Ssg.noiseCnt (fun w _ g => ?_) s.ssg, BlockInv.applyFold_lfsr s.ssg.queue s.ssg⟩
  case restarted =>
    obtain ⟨count, attack, holding, cnt⟩ := applyFold_restarted (g := s.ssg) queued
    exact ⟨count, attack, holding, cnt⟩
  case other =>
    have notShape (w) (hw : w ∈ s.ssg.queue) : w.1 ≠ 13 := fun shape => other ⟨w.2, shape ▸ hw⟩
    refine ⟨applyFold_keeps Ssg.envCount (fun w hw g => ?_) s.ssg, applyFold_keeps Ssg.envAttack (fun w hw g => ?_) s.ssg,
      applyFold_keeps Ssg.envHolding (fun w hw g => ?_) s.ssg, applyFold_keeps Ssg.envCnt (fun w hw g => ?_) s.ssg⟩
    all_goals rw [Ssg.apply_other (notShape w hw)]
  all_goals rw [Ssg.apply_frame]

/-! ## One tick (R242 to R246) -/

theorem Ssg.tonePeriod_eq (g : Ssg) (i : SsgCh) :
    g.tonePeriod i =
      g.regs[(⟨2 * i.val + 1, by omega⟩ : Fin 14)].toNat % 16 * 256 + g.regs[(⟨2 * i.val, by omega⟩ : Fin 14)].toNat := by
  unfold Ssg.tonePeriod
  rw [field_val_low, Vector.getElem?_eq_getElem (by omega), Vector.getElem?_eq_getElem (by omega)]
  rfl

theorem Ssg.noisePeriod_eq (g : Ssg) : g.noisePeriod = g.regs[(6 : Fin 14)].toNat % 32 := field_val_low 32 _

theorem noiseStep_counts (h : g.noiseCnt + 1 < max 1 g.noisePeriod * P.ssgNoiseUnit) :
    Ssg.noiseStep P g = { g with noiseCnt := g.noiseCnt + 1 } := if_neg (Nat.not_le.mpr h)

theorem noiseStep_shifts (h : max 1 g.noisePeriod * P.ssgNoiseUnit ≤ g.noiseCnt + 1) :
    Ssg.noiseStep P g = { g with noiseCnt := 0, lfsr := lfsrStep g.lfsr } := if_pos h

theorem noiseStep_lfsr_ne (h : g.lfsr ≠ 0) : (Ssg.noiseStep P g).lfsr ≠ 0 := by
  rcases Nat.lt_or_ge (g.noiseCnt + 1) (max 1 g.noisePeriod * P.ssgNoiseUnit) with before | reached
  · rw [noiseStep_counts before]; exact h
  · rw [noiseStep_shifts reached]; exact BlockInv.lfsrStep_ne h

theorem envPeriodStep_holds (h : g.envHolding = true) : Ssg.envPeriodStep P g = g := if_pos h

theorem envPeriodStep_counts (h : g.envHolding = false) (before : g.envCnt + 1 < max 1 g.envPeriod * P.ssgEnvUnit) :
    Ssg.envPeriodStep P g = { g with envCnt := g.envCnt + 1 } := by
  unfold Ssg.envPeriodStep
  rw [h]
  exact if_neg (Nat.not_le.mpr before)

theorem envPeriodStep_steps (h : g.envHolding = false) (reached : max 1 g.envPeriod * P.ssgEnvUnit ≤ g.envCnt + 1) :
    Ssg.envPeriodStep P g = Ssg.envCycle { g with envCnt := 0 } := by
  unfold Ssg.envPeriodStep
  rw [h]
  exact if_pos reached

/-! The parts of a tick neither read nor change each other's state. -/

/-- `g` with the tones of `t`. -/
def Ssg.tonesInto (t g : Ssg) : Ssg := { g with toneCnt := t.toneCnt, sq := t.sq }

/-- `g` with the tones and the noise of `u`. -/
def Ssg.tonesNoiseInto (u g : Ssg) : Ssg := { u.tonesInto g with noiseCnt := u.noiseCnt, lfsr := u.lfsr }

theorem noiseStep_tonesInto (t g : Ssg) : Ssg.noiseStep P (t.tonesInto g) = t.tonesInto (Ssg.noiseStep P g) := by
  unfold Ssg.noiseStep
  dsimp only
  rw [apply_ite t.tonesInto]
  rfl

theorem envCycle_tonesNoiseInto (u g : Ssg) : (u.tonesNoiseInto g).envCycle = u.tonesNoiseInto g.envCycle := by
  unfold Ssg.envCycle
  rw [apply_ite u.tonesNoiseInto, apply_ite u.tonesNoiseInto, apply_ite u.tonesNoiseInto]
  rfl

theorem envPeriodStep_tonesNoiseInto (u g : Ssg) :
    Ssg.envPeriodStep P (u.tonesNoiseInto g) = u.tonesNoiseInto (Ssg.envPeriodStep P g) := by
  unfold Ssg.envPeriodStep
  dsimp only
  rw [apply_ite u.tonesNoiseInto, apply_ite u.tonesNoiseInto, ← envCycle_tonesNoiseInto]
  rfl

theorem envCycle_withCnt (g : Ssg) (n : Nat) : Ssg.envCycle { g with envCnt := n } = { g.envCycle with envCnt := n } := by
  unfold Ssg.envCycle
  simp only [apply_ite fun u : Ssg => { u with envCnt := n }]
  rfl

/-- A tick of three independent parts, each its own step of the state before the tick (R246). -/
theorem tick_eq (P : Params) (g : Ssg) :
    Ssg.tick P g =
      ((ssgChannels.foldl (Ssg.toneStep P) g).tonesInto (Ssg.noiseStep P g)).tonesNoiseInto (Ssg.envPeriodStep P g) := by
  unfold Ssg.tick
  have tones := (toneSteps_spec (P := P) g).1
  generalize ssgChannels.foldl (Ssg.toneStep P) g = t at tones ⊢
  have noise : Ssg.noiseStep P t = t.tonesInto (Ssg.noiseStep P g) := by rw [← noiseStep_tonesInto]; exact congrArg _ tones
  have both : t.tonesInto (Ssg.noiseStep P g) = (t.tonesInto (Ssg.noiseStep P g)).tonesNoiseInto g :=
    congrArg t.tonesInto (noiseStep_frame g)
  rw [noise, ← envPeriodStep_tonesNoiseInto, ← both]

/-! ## The output (R245) -/

theorem gate_iff (g : Ssg) (i : SsgCh) :
    g.gate i = true ↔
      (g.sq[i] = true ∨ g.regs[(7 : Fin 14)].getLsbD i.val = true) ∧
      (g.lfsr.getLsbD 0 = true ∨ g.regs[(7 : Fin 14)].getLsbD (3 + i.val) = true) := by
  unfold Ssg.gate
  rw [Bool.and_eq_true, Bool.or_eq_true, Bool.or_eq_true]
  rfl

theorem Ssg.levelReg_eq (g : Ssg) (i : SsgCh) : g.regs[8 + i.val]?.getD 0 = g.regs[(⟨8 + i.val, by omega⟩ : Fin 14)] := by
  rw [Vector.getElem?_eq_getElem (by omega)]
  rfl

theorem Ssg.envLvl_eq (g : Ssg) : g.envLvl = if g.envAttack = true then 31 - g.envCount else g.envCount := by
  unfold Ssg.envLvl
  have down : ∀ c : Fin 32, Fin.ofNat 32 (31 - c.val) = 31 - c := by decide
  rw [down]

theorem amp_eq (g : Ssg) (i : SsgCh) :
    let level := g.regs[(⟨8 + i.val, by omega⟩ : Fin 14)]
    Ssg.amp P g i =
      if level.getLsbD 4 = true then P.ssgEnvTab (if g.envAttack = true then 31 - g.envCount else g.envCount)
      else P.ssgVolTab ⟨level.toNat % 16, Nat.mod_lt _ (by decide)⟩ := by
  have vol : g.vol i = ⟨g.regs[(⟨8 + i.val, by omega⟩ : Fin 14)].toNat % 16, Nat.mod_lt _ (by decide)⟩ :=
    Fin.ext (by unfold Ssg.vol; rw [Ssg.levelReg_eq, field_val_low])
  unfold Ssg.amp Ssg.envSelect
  rw [Ssg.levelReg_eq, Ssg.envLvl_eq, vol]
  rfl

theorem out_eq (P : Params) (g : Ssg) : Ssg.out P g = ∑ i : SsgCh, if g.gate i = true then (Ssg.amp P g i : Int) else 0 := by
  unfold Ssg.out
  rw [show ssgChannels = List.finRange 3 from rfl, ← Fin.sum_univ_def]
  push_cast
  rfl

/-- Settles O45: the parts of a tick do not read each other's state, so each is its own step of the state before the tick. -/
theorem ssgTickRule : Obligations.SsgTickRule := by
  intro P g
  dsimp only
  rw [tick_eq, ← Ssg.noisePeriod_eq]
  refine ⟨fun i => ?tone, fun before => ?count, fun reached => ?shift, noiseStep_lfsr_ne, ?regs, ?queue,
    ⟨fun hold => ?held, fun run before => ?env, fun run reached => ?step⟩, ?out⟩
  case tone => rw [← Ssg.tonePeriod_eq]; exact (toneSteps_spec g).2 i
  case count => rw [noiseStep_counts before]; exact ⟨rfl, rfl⟩
  case shift => rw [noiseStep_shifts reached]; exact ⟨rfl, fun k => lfsrStep_bit g.lfsr⟩
  case regs => rw [envPeriodStep_frame]; rfl
  case queue => rw [envPeriodStep_frame]; rfl
  case held => rw [envPeriodStep_holds hold]; exact ⟨rfl, rfl⟩
  case env => rw [envPeriodStep_counts run before]; exact ⟨rfl, rfl⟩
  case step => rw [envPeriodStep_steps run reached, envCycle_withCnt]; exact ⟨rfl, rfl⟩
  case out =>
    rw [out_eq]
    refine Finset.sum_congr rfl fun i _ => ?_
    rw [amp_eq]
    exact if_congr (gate_iff g i) rfl rfl

/-! ## The envelope's shapes (R244) -/

/-- Register 13 chooses one of three ends for a ramp. -/
theorem envEnd_stop (a : Bool) (cont : g.cont = false) : (g.envAt 0 a false).envCycle = g.envAt 0 false true := by
  rw [envEnd, if_pos cont]

theorem ite_not_eq_xor (alt a : Bool) : (if alt = true then !a else a) = Bool.xor a alt := by
  revert alt a
  decide

theorem envEnd_hold (a : Bool) (cont : g.cont = true) (hold : g.hold = true) :
    (g.envAt 0 a false).envCycle = g.envAt 0 (Bool.xor a g.alt) true := by
  rw [envEnd, if_neg (ne_false_of_eq_true cont), if_pos hold, ite_not_eq_xor]

theorem envEnd_repeat (a : Bool) (cont : g.cont = true) (hold : g.hold = false) :
    (g.envAt 0 a false).envCycle = g.envAt 31 (Bool.xor a g.alt) false := by
  rw [envEnd, if_neg (ne_false_of_eq_true cont), if_neg (ne_true_of_eq_false hold), ite_not_eq_xor]

/-- A ramp of 32 levels, up or down. -/
def rampLevel (up : Bool) (k : Nat) : Nat := if up = true then k else 31 - k

theorem envAt_rampLevel (a h : Bool) {k : Nat} (hk : k < 32) : (g.envAt (31 - k) a h).envLvl.val = rampLevel a k := by
  rw [envAt_level g a h (by omega)]
  unfold rampLevel
  cases a with
  | true => exact Nat.sub_sub_self (by omega)
  | false => rfl

/-- The level in the ramp that begins at the top count. -/
theorem envRamp_level (g : Ssg) (a : Bool) {n : Nat} (h : n < 32) :
    (Ssg.envPeriodOnce^[n] (g.envAt 31 a false)).envLvl.val = rampLevel a n := by
  rw [envRamp g a n (by omega) (by decide)]
  exact envAt_rampLevel a false h

/-- From the second ramp on: the state at the end of the first decides. -/
theorem iterate_after_ramp (g : Ssg) (a : Bool) {n : Nat} (h : 32 ≤ n) :
    Ssg.envPeriodOnce^[n] (g.envAt 31 a false) = Ssg.envPeriodOnce^[n - 32] (g.envAt 0 a false).envCycle := by
  conv_lhs => rw [← Nat.sub_add_cancel h, Function.iterate_add_apply, envWhole]

theorem envStops_level (a : Bool) {n : Nat} (h : 32 ≤ n) (cont : g.cont = false) :
    (Ssg.envPeriodOnce^[n] (g.envAt 31 a false)).envLvl.val = 0 := by
  rw [iterate_after_ramp g a h, envEnd_stop a cont, envHeld _ rfl]
  exact envAt_level g false true (by decide)

theorem envHolds_level (a : Bool) {n : Nat} (h : 32 ≤ n) (cont : g.cont = true) (hold : g.hold = true) :
    (Ssg.envPeriodOnce^[n] (g.envAt 31 a false)).envLvl.val = rampLevel (Bool.xor a g.alt) 31 := by
  rw [iterate_after_ramp g a h, envEnd_hold a cont hold, envHeld _ rfl]
  exact envAt_rampLevel (k := 31) _ true (by decide)

/-- The direction that an alternating shape takes after one more ramp. -/
theorem xor_alt_turn (a alt odd : Bool) : Bool.xor (Bool.xor a (alt && odd)) alt = Bool.xor a (alt && !odd) := by
  revert a alt odd
  decide

/-- Whole ramps of a repeating shape: the direction turns after each one if ALT. -/
theorem envRepeats (g : Ssg) (a : Bool) (cont : g.cont = true) (hold : g.hold = false) (m : Nat) :
    Ssg.envPeriodOnce^[32 * m] (g.envAt 31 a false) = g.envAt 31 (Bool.xor a (g.alt && decide (m % 2 = 1))) false := by
  induction m with
  | zero => simp
  | succ m ih =>
    have parity : decide ((m + 1) % 2 = 1) = !decide (m % 2 = 1) := by rw [← decide_not, decide_eq_decide]; omega
    rw [Nat.mul_succ, Nat.add_comm, Function.iterate_add_apply, ih, envWhole, envEnd_repeat _ cont hold, xor_alt_turn, parity]

theorem envRepeats_level (a : Bool) (n : Nat) (cont : g.cont = true) (hold : g.hold = false) :
    (Ssg.envPeriodOnce^[n] (g.envAt 31 a false)).envLvl.val = rampLevel (Bool.xor a (g.alt && decide (n / 32 % 2 = 1))) (n % 32) := by
  conv_lhs => rw [← Nat.mod_add_div n 32, Function.iterate_add_apply, envRepeats g a cont hold]
  exact envRamp_level g _ (Nat.mod_lt n (by decide))

/-- Settles O46: a restart begins a ramp at the top count, and the shape bits decide what follows it. -/
theorem ssgEnvelopeShapes : Obligations.SsgEnvelopeShapes := by
  intro g n
  have start : g.envRestart = Ssg.envAt { g with envCnt := 0 } 31 g.att false := rfl
  rw [start]
  exact ⟨fun h => envRamp_level _ _ h, fun h cont => envStops_level _ h cont, fun h cont hold => envHolds_level _ h cont hold,
    fun cont hold => envRepeats_level _ n cont hold⟩

end Sys2Proof.Machine
end

section
/-! Proofs of the statements about the rhythm unit (spec 45_rhythm.md): the key register, and the divider, the decoder and the output of a
tick. -/

namespace Sys2Proof.Machine

variable {P : Params}

/-! ## The key register (R271) -/

section
variable {v : Byte} {i : RhyCh}

theorem rhyKeyed_outside (h : v.getLsbD i.val = false) (c : RhyChannel) : rhyKeyed P v i c = c :=
  if_neg (ne_true_of_eq_false h)

theorem rhyKeyed_dump (h : v.getLsbD i.val = true) (dump : v.getLsbD 7 = true) (c : RhyChannel) :
    rhyKeyed P v i c = { c with active := false } :=
  (if_pos h).trans (if_pos dump)

theorem rhyKeyed_start (h : v.getLsbD i.val = true) (on : v.getLsbD 7 = false) (c : RhyChannel) : rhyKeyed P v i c = rhyStarted P i :=
  (if_pos h).trans (if_neg (ne_true_of_eq_false on))

end

/-- Settles O47: each channel is keyed by its own bit and DUMP. -/
theorem rhythmKey : Obligations.RhythmKey := by
  intro P v s
  refine ⟨rhyKeyWrite_eq P v s, fun i => ?_⟩
  rw [rhyKeyWrite_get]
  exact ⟨fun h => rhyKeyed_outside h _, fun h dump => rhyKeyed_dump h dump _, fun h on => rhyKeyed_start h on _⟩

/-! ## The decoder (R272) -/

section
variable {c : RhyChannel} {b : Byte}

theorem clamp_eq_max_min {lo hi : Int} (h : lo ≤ hi) (x : Int) : clamp x lo hi = max lo (min hi x) := by
  unfold clamp
  omega

/-- The index of the step table moves within 0..48. -/
theorem clampIndex_val (x : Int) : ((Fin.ofNat 49 (clamp x 0 48).toNat).val : Int) = max 0 (min 48 x) := by
  rw [clamp_eq_max_min (by decide), Fin.val_ofNat]
  omega

/-- The nibble of a byte that the channel decodes: the high one first. -/
theorem nextNibble_val (high : Bool) (b : Byte) :
    (if high = true then field 4 16 b else field 0 16 b).val = if high = true then b.toNat / 16 else b.toNat % 16 := by
  cases high with
  | true => exact field_val_high (by decide) b
  | false => exact field_val_low 16 b

/-- A nibble is a sign bit over a magnitude `m` of three bits. -/
theorem rhyNibble_eq (P : Params) {x : Fin 16} {m : Fin 8} (hm : m.val = x.val % 8) (c : RhyChannel) :
    let acc := max (-2048) (min 2047 (c.acc + if x.val < 8 then (rhyDelta P c.idx m : Int) else -rhyDelta P c.idx m))
    rhyNibble P x c =
      { c with acc := acc, idx := Fin.ofNat 49 (clamp ((c.idx.val : Int) + P.rhyAdj m) 0 48).toNat, s0 := c.s1, s1 := acc } := by
  obtain rfl : m = Fin.ofNat 8 x.val := Fin.ext hm
  unfold rhyNibble
  dsimp only
  rw [clamp_eq_max_min (by decide), ← ite_not]
  simp only [Nat.not_le]

theorem rhyDecode_ends (h : c.stop ≤ c.pos) : rhyDecode P c = { c with active := false } := if_pos h

/-- Before its end offset the channel decodes a nibble of the byte at its offset and passes to the next nibble. -/
theorem rhyDecode_runs (run : c.pos < c.stop) (read : P.rhyRom[c.pos]? = some b) :
    rhyDecode P c =
      rhyNibble P (if c.high = true then field 4 16 b else field 0 16 b)
        { c with pos := if c.high = true then c.pos else c.pos + 1, high := !c.high } := by
  unfold rhyDecode
  rw [if_neg (Nat.not_le.mpr run), List.getD_eq_getElem?_getD, read]
  rfl

end

/-! ## The output (R274, R275) -/

section
variable {rtl : Fin 64} {il : Fin 32} {c : RhyChannel}

theorem rhyRescale_silent (h : P.rhyLevel (P.rhyAtten rtl il) = none) (x : Int) : rhyRescale P rtl il x = 0 := by
  unfold rhyRescale
  rw [h]

theorem rhyRescale_audible {k : RhyScale} (h : P.rhyLevel (P.rhyAtten rtl il) = some k) (x : Int) :
    rhyRescale P rtl il x = intAnd (asr (x * k.mul) k.shift) k.mask := by
  unfold rhyRescale
  rw [h]

theorem rhyMono_inactive (h : c.active = false) : rhyMono P rtl il c = 0 := if_neg (ne_true_of_eq_false h)

theorem rhyMono_active (h : c.active = true) :
    rhyMono P rtl il c = Int.tdiv (rhyRescale P rtl il c.s0 + rhyRescale P rtl il c.s1) 2 := if_pos h

end

/-- Settles O48: a tick waits or runs each active channel's decoder, a decode ends the channel or takes one nibble, and the output is by the
entry of the level table. -/
theorem rhythmTick : Obligations.RhythmTick := by
  refine ⟨fun P s => ⟨rhyTick_wait, rhyTick_decode⟩, fun P c => rhyDecode_ends, fun P c b m _ run read => ?nibble,
    fun P c ok run => run.trans_le ok.stop_le, fun P rtl il c => ⟨rhyMono_inactive, fun on silent => ?silent, fun k on level => ?audible⟩⟩
  case nibble =>
    intro x hm
    refine ⟨_, clampIndex_val _, ?_⟩
    rw [rhyDecode_runs run read, rhyNibble_eq P (by rw [nextNibble_val]; exact hm), nextNibble_val]
    rfl
  case silent =>
    rw [rhyMono_active on, rhyRescale_silent silent, rhyRescale_silent silent]
    rfl
  case audible => rw [rhyMono_active on, rhyRescale_audible level, rhyRescale_audible level]

end Sys2Proof.Machine
end

section
/-! Proofs of the statements about the register images (spec 46_registers_timers.md): the effect of each address, the register commands under
the block's map and under every other, and the value that WRREGB and RDREGB carry. -/

namespace Sys2Proof.Machine

variable {P : Params} {p : Part} {r : Nat} {s : State}

/-! ## The effect of each address (R302) -/

theorem writeRaw_ssgRow (h : r ≤ 0x0D) (v : Byte) (s : State) :
    ∃ r14 : Fin 14, r14.val = r ∧ writeRaw P 0 r v s = ssgEnqueue P r14 v (s.setChip 0 r v) :=
  ⟨Fin.ofNat 14 r, Nat.mod_eq_of_lt (by omega), if_pos ⟨rfl, h⟩⟩

theorem writeRaw_rhythmKey (v : Byte) (s : State) : writeRaw P 0 0x10 v s = rhyKeyWrite P v (s.setChip 0 0x10 v) := rfl

theorem writeRaw_noEffect (part0 : ¬(p = 0 ∧ (r ≤ 0x0D ∨ r = 0x10 ∨ r = 0x28))) (latch : ¬(0xA4 ≤ r ∧ r ≤ 0xA6))
    (load : ¬(0xA0 ≤ r ∧ r ≤ 0xA2)) (v : Byte) (s : State) : writeRaw P p r v s = s.setChip p r v := by
  unfold writeRaw regEffect
  rw [if_neg (by tauto), if_neg (by tauto), if_neg (by tauto), if_neg latch, if_neg load]

/-! ## The images (R300, R301) -/

theorem writeRaw_chip_self (hr : r < 256) (v : Byte) (s : State) : (writeRaw P p r v s).chip p r = v := by
  rw [writeRaw_chip, if_pos ⟨rfl, rfl, hr⟩]

theorem writeRaw_chipSame (v : Byte) (s : State) : ChipSame s (writeRaw P p r v s) [(p, r)] := by
  intro q x other
  rw [writeRaw_chip, if_neg fun ⟨hq, hx, _⟩ => other (by rw [hq, hx]; exact List.mem_singleton_self _)]

theorem writeShadowed_chipSame (v : Byte) (s : State) : ChipSame s (writeShadowed P p r v s) [(p, r)] :=
  writeRaw_chipSame v (s.setShad p r v)

theorem writeShadowed_shad_self (hr : r < 256) (v : Byte) (s : State) : (writeShadowed P p r v s).shad p r = v := by
  rw [writeShadowed_shad, if_pos ⟨rfl, rfl, hr⟩]

theorem writeShadowed_shadSame (v : Byte) (s : State) : ShadSame s (writeShadowed P p r v s) [(p, r)] := by
  intro q x other
  rw [writeShadowed_shad, if_neg fun ⟨hq, hx, _⟩ => other (by rw [hq, hx]; exact List.mem_singleton_self _)]

/-- Settles O11: each clause is the effect of its address, and the images of a buffered write are those of its two writes. -/
theorem registerWrites : Obligations.RegisterWrites := by
  intro P p r v s hr
  refine ⟨writeRaw_chip_self hr v s, writeRaw_chipSame v s, writeRaw_shadow .., ?ssg, ?rhythm, ?key,
    fun h0 h1 => writeRaw_latch ⟨h0, h1⟩ v s, fun h0 h1 => writeRaw_load ⟨h0, h1⟩ v s,
    fun part0 latch load => writeRaw_noEffect part0 latch load v s,
    rfl, writeShadowed_shad_self hr v s, writeRaw_chip_self hr v _, writeShadowed_chipSame v s, writeShadowed_shadSame v s⟩
  case ssg => rintro rfl h; exact writeRaw_ssgRow h v s
  case rhythm => rintro rfl rfl; exact writeRaw_rhythmKey v s
  case key => rintro rfl rfl; exact writeRaw_key P v s

/-! ## The register commands under a map (R8, R303 to R305) -/

section
variable (h : regInRange p r = true) (v : Byte) (s : State)
include h

theorem writeRegister_inRange :
    writeRegister P p.val r v.toNat s =
      .next ((writeRaw P (P.regMap.row (p, r)).1 (P.regMap.row (p, r)).2 (P.regMap.layout (p, r) v) s).returning .success none) := by
  unfold writeRegister
  rw [register?_val ((regInRange_iff p r).mp h), byte?_val]
  rfl

theorem writeRegisterBuffered_inRange :
    writeRegisterBuffered P p.val r v.toNat s =
      .next ((writeShadowed P (P.regMap.row (p, r)).1 (P.regMap.row (p, r)).2 (P.regMap.layout (p, r) v) s).returning .success none) := by
  unfold writeRegisterBuffered
  rw [register?_val ((regInRange_iff p r).mp h), byte?_val]
  rfl

theorem readRegisterBuffered_inRange :
    readRegisterBuffered P p.val r s =
      .next (s.returning .success
        (some ((P.regMap.layout (p, r)).symm (s.shad (P.regMap.row (p, r)).1 (P.regMap.row (p, r)).2)).toNat)) := by
  unfold readRegisterBuffered
  rw [register?_val ((regInRange_iff p r).mp h)]
  rfl

/-- The row that an address of the valid range selects is in the valid range too (R85). -/
theorem row_inRange (M : RegMap) : regInRange (M.row (p, r)).1 (M.row (p, r)).2 = true := (M.valid (p, r)).trans h

/-- The value that RDREGB gives after WRREGB is the one written, whatever the map (R306). -/
theorem readRegisterBuffered_writeRegisterBuffered :
    ∃ t, writeRegisterBuffered P p.val r v.toNat s = .next t ∧ t.result = some { rc := .success, out := none } ∧
      ∃ u, readRegisterBuffered P p.val r t = .next u ∧ u.result = some { rc := .success, out := some (v.toNat : Int) } := by
  refine ⟨_, writeRegisterBuffered_inRange h v s, rfl, _, readRegisterBuffered_inRange h _, ?_⟩
  have row := regInRange_lt (row_inRange h P.regMap)
  rw [returning_shad, writeShadowed_shad_self (by omega), Equiv.symm_apply_apply]
  rfl

/-- A register write decodes to the write that WRREG makes (R87). -/
theorem decodeWith_regWrite_inRange (M : RegMap) :
    decodeWith M (.regWrite p.val r v.toNat) = .ok (decodeRow (M.row (p, r)).1 (M.row (p, r)).2 (M.layout (p, r) v)) := by
  have hb : p.val < 2 ∧ v.toNat < 256 := ⟨p.isLt, v.isLt⟩
  simp only [decodeWith, decodeReg]
  rw [dif_pos hb, if_pos h, BitVec.ofNat_toNat, BitVec.setWidth_eq]

end

section
variable {part reg value : Int}

theorem writeRegister_badValue (h : register? part reg = none ∨ byte? value = none) :
    writeRegister P part reg value s = reply .badValue s := by
  unfold writeRegister
  obtain h | h := h
  · rw [h]
  · rw [h]
    cases register? part reg <;> rfl

theorem writeRegisterBuffered_badValue (h : register? part reg = none ∨ byte? value = none) :
    writeRegisterBuffered P part reg value s = reply .badValue s := by
  unfold writeRegisterBuffered
  obtain h | h := h
  · rw [h]
  · rw [h]
    cases register? part reg <;> rfl

theorem readRegisterBuffered_badValue (h : register? part reg = none) : readRegisterBuffered P part reg s = reply .badValue s := by
  unfold readRegisterBuffered
  rw [h]

end

/-! ## The block's own map is R15's (R15) -/

@[simp] theorem params_row (a : Part × Nat) : params.regMap.row a = a := rfl

@[simp] theorem params_layout (a : Part × Nat) (v : Byte) : params.regMap.layout a v = v := rfl

theorem exec_wrregb_inRange (h : regInRange p r = true) (v : Byte) (s : State) :
    exec (.wrregb p.val r v.toNat) s = .next ((writeShadowed params p r v s).returning .success none) :=
  writeRegisterBuffered_inRange h v s

theorem exec_rdregb_inRange (h : regInRange p r = true) (s : State) :
    exec (.rdregb p.val r) s = .next (s.returning .success (some (s.shad p r).toNat)) :=
  readRegisterBuffered_inRange h s

/-- Settles O13: in range each command is its operation on the register named; each failure is a failed operand check. -/
theorem registerCommands : Obligations.RegisterCommands := by
  refine ⟨fun p r v s h => ?inRange, fun part reg value s h => ?badRegister, fun part reg value s h => ?badValue⟩
  case inRange =>
    have h := (regInRange_iff p r).mpr h
    exact ⟨exec_wrreg_inRange h v s, exec_wrregb_inRange h v s, exec_rdregb_inRange h s⟩
  case badRegister =>
    have h := register?_none h
    exact ⟨writeRegister_badValue (.inl h), writeRegisterBuffered_badValue (.inl h), readRegisterBuffered_badValue h⟩
  case badValue =>
    have h := byte?_none h
    exact ⟨writeRegister_badValue (.inr h), writeRegisterBuffered_badValue (.inr h)⟩

/-- An address outside the valid range of its part selects no register (R85). -/
theorem register?_outside {p : Part} {reg : Int} (h : ¬(if p = 0 then 0 ≤ reg ∧ reg ≤ 0xB6 else 0x30 ≤ reg ∧ reg ≤ 0xB6)) :
    register? p.val reg = none := by
  have parts : ∀ q : Part, q = 0 ∨ q = 1 := by decide
  apply register?_none
  obtain rfl | rfl := parts p
  · simpa using h
  · simpa using h

/-- Settles O14: a map sends the valid range to itself and can be undone, so its rows and bytes come back. -/
theorem registerMapAndRoundTrip : Obligations.RegisterMapAndRoundTrip := by
  refine ⟨fun p r v s h => ?block, fun P p r v s h => ?anyMap, fun p reg s h => readRegisterBuffered_badValue (register?_outside h),
    fun P p r v s h => ?rows, fun P a b => P.regMap.row.injective.eq_iff.mp, fun a v => ⟨params_row a, params_layout a v⟩⟩
  case block | anyMap => exact readRegisterBuffered_writeRegisterBuffered ((regInRange_iff p r).mpr h) v s
  case rows =>
    have h := (regInRange_iff p r).mpr h
    have row := row_inRange h P.regMap
    obtain ⟨wf, enc, -⟩ := decodeRow_spec (P.regMap.layout (p, r) v) row
    exact ⟨(regInRange_iff _ _).mp row, writeRegister_inRange h v s, writeRegisterBuffered_inRange h v s,
      ⟨_, Equiv.apply_symm_apply _ _, readRegisterBuffered_inRange h s⟩, _, decodeWith_regWrite_inRange h v P.regMap, wf, enc⟩

end Sys2Proof.Machine
end

section
/-! Proofs of the statements about the timers (spec 46_registers_timers.md): their commands, one tick of a timer, and what a callback
issues. -/

namespace Sys2Proof.Machine

variable {P : Params} {s : State}

/-! ## The timer values (R91, R307 to R309) -/

/-- The byte of register 0x25 that a Timer A value gives: bits 7-2 of the byte there, and the value's low two bits. -/
def timerALowByte (old : Byte) (v : Nat) : Byte := (old &&& 0xFC) ||| BitVec.ofNat 8 (v % 4)

theorem timerALowByte_mod (old : Byte) (v : Nat) : (timerALowByte old v).toNat % 4 = v % 4 := by
  have old0 : (old.toNat &&& 0xFC) % 2 ^ 2 = 0 := by rw [Nat.and_mod_two_pow]; exact Nat.and_zero _
  have low : (v % 4 % 2 ^ 8) % 2 ^ 2 = v % 4 := by omega
  unfold timerALowByte
  rw [BitVec.toNat_or, BitVec.toNat_and, BitVec.toNat_ofNat]
  calc (old.toNat &&& 0xFC ||| v % 4 % 2 ^ 8) % 2 ^ 2
      _ = (old.toNat &&& 0xFC) % 2 ^ 2 ||| (v % 4 % 2 ^ 8) % 2 ^ 2 := Nat.or_mod_two_pow ..
      _ = v % 4 := by rw [old0, low, Nat.zero_or]

/-- The timer registers have no effect of their own. -/
theorem writeShadowed_timer {r : Nat} (h0 : 0x24 ≤ r) (h1 : r ≤ 0x26) (v : Byte) (s : State) :
    writeShadowed P 0 r v s = { s with chipReg := RegFile.write s.chipReg 0 r v, shadow := RegFile.write s.shadow 0 r v } :=
  writeRaw_noEffect (by omega) (by omega) (by omega) v (s.setShad 0 r v)

/-- The second write of a Timer A value reads the shadow as it was before the first. -/
theorem writeTimerA_as (v : Nat) (s : State) :
    writeTimerA P v s =
      writeShadowed P 0 0x25 (timerALowByte (s.shad 0 0x25) v) (writeShadowed P 0 0x24 (BitVec.ofNat 8 (v / 4)) s) := by
  unfold writeTimerA
  dsimp only
  rw [writeShadowed_shad, if_neg (by decide)]
  rfl

theorem writeTimerA_eq (v : Nat) (s : State) :
    writeTimerA P v s =
      { s with
        chipReg := RegFile.write (RegFile.write s.chipReg 0 0x24 (BitVec.ofNat 8 (v / 4))) 0 0x25 (timerALowByte (s.shad 0 0x25) v)
        shadow := RegFile.write (RegFile.write s.shadow 0 0x24 (BitVec.ofNat 8 (v / 4))) 0 0x25 (timerALowByte (s.shad 0 0x25) v) } := by
  rw [writeTimerA_as, writeShadowed_timer (by decide) (by decide), writeShadowed_timer (by decide) (by decide)]

theorem timerAValue_eq (s : State) : timerAValue s = (s.chip 0 0x24).toNat * 4 + (s.chip 0 0x25).toNat % 4 := by
  unfold timerAValue
  rw [field_val_low]

theorem timerAValue_writeTimerA {v : Nat} (h : v ≤ 1023) (s : State) : timerAValue (writeTimerA P v s) = v := by
  have hi : (writeTimerA P v s).chip 0 0x24 = BitVec.ofNat 8 (v / 4) := by simp [writeTimerA_as]
  have lo : (writeTimerA P v s).chip 0 0x25 = timerALowByte (s.shad 0 0x25) v := by simp [writeTimerA_as]
  rw [timerAValue_eq, hi, lo, timerALowByte_mod, BitVec.toNat_ofNat]
  omega

/-! ## The timer commands (R308 to R310) -/

theorem exec_setta {v : Nat} (h : v ≤ 1023) (s : State) :
    exec (.setta v) s = .next ((writeTimerA params v s).returning .success none) := by
  show execSetta v s = _
  unfold execSetta
  rw [index?_nat (show v < 1024 by omega)]
  rfl

theorem exec_settb (v : Byte) (s : State) : exec (.settb v.toNat) s = .next ((writeShadowed params 0 0x26 v s).returning .success none) := by
  show execSettb v.toNat s = _
  unfold execSettb
  rw [byte?_val]
  rfl

section
variable {x : Int}

theorem fails_setta (h : x < 0 ∨ 1023 < x) (s : State) : Fails (.setta x) s .badValue := by
  show execSetta x s = _
  unfold execSetta
  rw [index?_none (by omega)]
  rfl

theorem fails_settb (h : x < 0 ∨ 255 < x) (s : State) : Fails (.settb x) s .badValue := by
  show execSettb x s = _
  unfold execSettb
  rw [byte?_none h]
  rfl

theorem fails_enta (h : flag? x = none) (s : State) : Fails (.enta x) s .badValue := by
  show execEnta x s = _
  unfold execEnta
  rw [h]
  rfl

theorem fails_entb (h : flag? x = none) (s : State) : Fails (.entb x) s .badValue := by
  show execEntb x s = _
  unfold execEntb
  rw [h]
  rfl

end

/-- Settles O49: the values go through the buffered writes of registers without an effect, the enables are by the two flags. -/
theorem timerCommands : Obligations.TimerCommands := by
  refine ⟨fun x s => ⟨(fails_setta · s), (fails_settb · s), fun h0 h1 => ⟨fails_enta (flag?_none h0 h1) s, fails_entb (flag?_none h0 h1) s⟩⟩,
    fun s => ⟨fun v h => ?setta, fun v => ?settb, rfl, rfl, rfl, rfl⟩⟩
  case setta =>
    rw [exec_setta h, writeTimerA_eq]
    rfl
  case settb => rw [exec_settb, writeShadowed_timer (by decide) (by decide)]

/-! ## One tick of a timer (R307, R311) -/

theorem periodA_eq (P : Params) (s : State) :
    periodA P s = (1024 - ((s.chip 0 0x24).toNat * 4 + (s.chip 0 0x25).toNat % 4)) * P.taUnit := by
  unfold periodA
  rw [timerAValue_eq]

theorem one_le_periodA (P : Params) (s : State) : 1 ≤ periodA P s := by
  rw [periodA_eq]
  exact Nat.mul_pos (by omega) P.taUnit_pos

theorem one_le_periodB (P : Params) (s : State) : 1 ≤ periodB P s := by
  have := (s.chip 0 0x26).isLt
  exact Nat.mul_pos (Nat.sub_pos_of_lt this) P.tbUnit_pos

theorem timerTickA_off (h : s.timerA.on = false) : timerTickA P s = .next s := by
  unfold timerTickA
  rw [h]
  rfl

theorem timerTickA_counts (on : s.timerA.on = true) (h : s.timerA.cnt + 1 < periodA P s) :
    timerTickA P s = .next { s with timerA := { s.timerA with cnt := s.timerA.cnt + 1 } } := by
  unfold timerTickA
  rw [if_neg (by simp [on]), if_neg (Nat.not_le.mpr h)]

theorem timerTickA_fires (on : s.timerA.on = true) (h : periodA P s ≤ s.timerA.cnt + 1) :
    timerTickA P s = runCallback s.timerA.callback { s with timerA := { s.timerA with cnt := 0 } } := by
  unfold timerTickA
  rw [if_neg (by simp [on]), if_pos h]

theorem timerTickB_off (h : s.timerB.on = false) : timerTickB P s = .next s := by
  unfold timerTickB
  rw [h]
  rfl

theorem timerTickB_counts (on : s.timerB.on = true) (h : s.timerB.cnt + 1 < periodB P s) :
    timerTickB P s = .next { s with timerB := { s.timerB with cnt := s.timerB.cnt + 1 } } := by
  unfold timerTickB
  rw [if_neg (by simp [on]), if_neg (Nat.not_le.mpr h)]

theorem timerTickB_fires (on : s.timerB.on = true) (h : periodB P s ≤ s.timerB.cnt + 1) {t : State}
    (callback : runCallback s.timerB.callback { s with timerB := { s.timerB with cnt := 0 } } = .next t) :
    timerTickB P s = .next (pcmEnvAll t) := by
  unfold timerTickB
  rw [if_neg (by simp [on]), if_pos h, callback]
  rfl

/-! ## What a callback issues (R363) -/

theorem nestedCalls_cons {c : HostCall} {cs : List HostCall} {t : State} (h : nestedCall c s = .next t) :
    nestedCalls (c :: cs) s = nestedCalls cs t := by
  show andThen (nestedCall c s) _ = _
  rw [h]
  rfl

/-! ## Host procedures (assumption log entry 5) -/

section
variable {id : ProcId} {before after : List HostProc} {h : HostProc}

/-- The first procedure of a name is the one that the name stands for. -/
theorem procCalls_eq (hs : s.hostProcs = before ++ h :: after) (name : h.id = id) (first : ∀ x ∈ before, x.id ≠ id) :
    procCalls id s = h.callsNow := by
  have skipped : before.find? (fun x => x.id == id) = none := List.find?_eq_none.mpr fun x hx => by simpa using first x hx
  unfold procCalls
  rw [hs, List.find?_append, skipped, Option.none_or, List.find?_cons_of_pos (by simpa using name)]

theorem callsNow_upcoming {c : List HostCall} {cs : List (List HostCall)} (hu : h.upcoming = c :: cs) : h.callsNow = c := by
  unfold HostProc.callsNow
  rw [hu]

theorem callsNow_usedUp (hu : h.upcoming = []) : h.callsNow = h.thereafter := by
  unfold HostProc.callsNow
  rw [hu]

theorem procCalls_unnamed (absent : ∀ x ∈ s.hostProcs, x.id ≠ id) : procCalls id s = [] := by
  unfold procCalls
  rw [List.find?_eq_none.mpr fun x hx => by simpa using absent x hx]

theorem procCalled_unnamed (absent : ∀ x ∈ s.hostProcs, x.id ≠ id) : procCalled id s = s := by
  unfold procCalled
  rw [List.map_congr_left fun x hx => if_neg (by simpa using absent x hx), List.map_id']

theorem procCalled_get {k : Nat} (hk : s.hostProcs[k]? = some h) :
    (procCalled id s).hostProcs[k]? = some (if h.id = id then { h with upcoming := h.upcoming.tail } else h) := by
  show (s.hostProcs.map _)[k]? = _
  rw [List.getElem?_map, hk]
  simp [HostProc.called]

end

/-- Settles O50: each clause is the lemma of its case of the tick, of the nested calls, or of the procedures. -/
theorem timersAndCallbacks : Obligations.TimersAndCallbacks := by
  refine ⟨fun P s => ⟨periodA_eq P s, one_le_periodA P s, rfl, one_le_periodB P s, timerTickA_off, timerTickB_off,
      fun on => ⟨timerTickA_counts on, timerTickA_fires on⟩, fun on => ⟨timerTickB_counts on, fun h t => timerTickB_fires on h⟩⟩,
    fun s => rfl, fun s id => rfl, fun s t v h e => ?setta, fun code args s => ?command, fun s => rfl, fun c cs s => ?calls,
    fun id before after h s hs name first => ?proc, fun id s absent => ⟨procCalls_unnamed absent, procCalled_unnamed absent⟩,
    fun id s => ⟨rfl, List.length_map .., fun k h => procCalled_get⟩⟩
  case setta =>
    rw [exec_setta h] at e
    injection e with e
    rw [← e]
    exact timerAValue_writeTimerA h s
  case command =>
    obtain ⟨t, e, -, results⟩ := processCommand_goes code args s
    exact ⟨t, e, results, results ▸ nestedCall_command e⟩
  case calls =>
    obtain ⟨t, first, -⟩ := nestedCall_goes c s
    obtain ⟨u, rest, -⟩ := nestedCalls_goes cs t
    exact ⟨t, u, first, rest, (nestedCalls_cons first).trans rest⟩
  case proc =>
    rw [procCalls_eq hs name first]
    exact ⟨fun c cs => callsNow_upcoming, callsNow_usedUp⟩

end Sys2Proof.Machine
end

section
/-! Proofs of the statement about the engines (R82, R302): what each instruction may change. -/

namespace Sys2Proof.Machine

variable {P : Params} {s t : State} {es : List Engine}

/-! ## Staying in a list of engines -/

/-- `t` has the engines of `s` but for those listed. -/
structure StaysIn (es : List Engine) (s t : State) : Prop where
  registers : .registers ∉ es → t.chipReg = s.chipReg ∧ t.shadow = s.shadow
  fm : .fm ∉ es → t.fm = s.fm ∧ t.fnumLatch = s.fnumLatch ∧ t.voice = s.voice ∧ t.fmBank = s.fmBank
  pcm : .pcm ∉ es → t.pcm = s.pcm ∧ t.pcmBank = s.pcmBank ∧ t.waves = s.waves ∧ t.waveTotal = s.waveTotal ∧
    t.reservedCount = s.reservedCount
  sampleRam : .sampleRam ∉ es → t.pcmRam = s.pcmRam
  ssg : .ssg ∉ es → t.ssg = s.ssg ∧ t.faults = s.faults
  rhythm : .rhythm ∉ es → t.rhy = s.rhy
  timers : .timers ∉ es → t.timerA = s.timerA ∧ t.timerB = s.timerB
  lanes : .lanes ∉ es → t.vol = s.vol ∧ t.mute = s.mute

theorem StaysIn.refl (es : List Engine) (s : State) : StaysIn es s s where
  registers _ := ⟨rfl, rfl⟩
  fm _ := ⟨rfl, rfl, rfl, rfl⟩
  pcm _ := ⟨rfl, rfl, rfl, rfl, rfl⟩
  sampleRam _ := rfl
  ssg _ := ⟨rfl, rfl⟩
  rhythm _ := rfl
  timers _ := ⟨rfl, rfl⟩
  lanes _ := ⟨rfl, rfl⟩

theorem StaysIn.mono {fs : List Engine} (h : StaysIn es s t) (hs : es ⊆ fs) : StaysIn fs s t where
  registers k := h.registers (k ∘ @hs _)
  fm k := h.fm (k ∘ @hs _)
  pcm k := h.pcm (k ∘ @hs _)
  sampleRam k := h.sampleRam (k ∘ @hs _)
  ssg k := h.ssg (k ∘ @hs _)
  rhythm k := h.rhythm (k ∘ @hs _)
  timers k := h.timers (k ∘ @hs _)
  lanes k := h.lanes (k ∘ @hs _)

/-- A result is no part of any engine. -/
theorem staysIn_reply (rc : Rc) (h : StaysIn es s t) : Goes (StaysIn es s) (reply rc t) := ⟨_, rfl, { h with }⟩

theorem staysIn_answer (v : Int) (s : State) : Goes (StaysIn es s) (answer v s) := ⟨_, rfl, { StaysIn.refl es s with }⟩

theorem FmOnly.staysIn (h : FmOnly s t) : StaysIn [.registers, .fm] s t := by
  unfold FmOnly at h
  rw [h]
  exact { StaysIn.refl _ s with registers := absurd (by decide), fm := absurd (by decide) }

theorem PcmOnly.staysIn (h : PcmOnly s t) : StaysIn [.pcm] s t := by
  unfold PcmOnly at h
  rw [h]
  exact { StaysIn.refl _ s with pcm := absurd (by decide) }

/-! ## Register writes (R302) -/

/-- The engines that a write of row `r` of part `p` reaches: the images, and the engine of the row's effect. -/
def rowEngines (p : Part) (r : Nat) : List Engine :=
  if p = 0 ∧ r ≤ 0x0D then [.registers, .ssg]
  else if p = 0 ∧ r = 0x10 then [.registers, .rhythm]
  else if (p = 0 ∧ r = 0x28) ∨ (0xA0 ≤ r ∧ r ≤ 0xA2) ∨ (0xA4 ≤ r ∧ r ≤ 0xA6) then [.registers, .fm]
  else [.registers]

theorem rowEngines_subset (p : Part) (r : Nat) : rowEngines p r ⊆ [.registers, .fm, .ssg, .rhythm] := by
  unfold rowEngines
  repeat' split
  all_goals decide

section
variable {p : Part} {r : Nat}

theorem registers_mem_rowEngines (p : Part) (r : Nat) : .registers ∈ rowEngines p r := by
  unfold rowEngines
  repeat' split
  all_goals decide

theorem ssg_mem_rowEngines (h : p = 0 ∧ r ≤ 0x0D) : .ssg ∈ rowEngines p r := by
  unfold rowEngines
  rw [if_pos h]
  decide

theorem rhythm_mem_rowEngines (h : p = 0 ∧ r = 0x10) : .rhythm ∈ rowEngines p r := by
  unfold rowEngines
  rw [if_neg (by omega), if_pos h]
  decide

theorem fm_mem_rowEngines (h : (p = 0 ∧ r = 0x28) ∨ (0xA0 ≤ r ∧ r ≤ 0xA2) ∨ (0xA4 ≤ r ∧ r ≤ 0xA6)) : .fm ∈ rowEngines p r := by
  unfold rowEngines
  rw [if_neg (by omega), if_neg (by omega), if_pos h]
  decide

end

theorem staysIn_writeRaw (p : Part) (r : Nat) (v : Byte) (s : State) : StaysIn (rowEngines p r) s (writeRaw P p r v s) where
  registers h := absurd (registers_mem_rowEngines p r) h
  fm h := by
    have row := mt fm_mem_rowEngines h
    rw [writeRaw_fm, if_neg (by tauto), if_neg (by tauto), writeRaw_fnumLatch, if_neg (by tauto)]
    exact ⟨rfl, rfl, writeRaw_voice .., writeRaw_fmBank ..⟩
  pcm _ := ⟨writeRaw_pcm .., writeRaw_pcmBank .., writeRaw_waves .., writeRaw_waveTotal .., writeRaw_reservedCount ..⟩
  sampleRam _ := writeRaw_pcmRam ..
  ssg h := by
    have row := mt ssg_mem_rowEngines h
    rw [writeRaw_ssg, if_neg row, writeRaw_faults, if_neg (by tauto)]
    exact ⟨rfl, rfl⟩
  rhythm h := by rw [writeRaw_rhy, if_neg (mt rhythm_mem_rowEngines h)]
  timers _ := ⟨writeRaw_timerA .., writeRaw_timerB ..⟩
  lanes _ := ⟨writeRaw_vol .., writeRaw_mute ..⟩

/-- The shadow is a register image too, so a buffered write reaches what its raw write reaches. -/
theorem staysIn_writeShadowed (p : Part) (r : Nat) (v : Byte) (s : State) : StaysIn (rowEngines p r) s (writeShadowed P p r v s) :=
  { staysIn_writeRaw p r v (s.setShad p r v) with registers := absurd (registers_mem_rowEngines p r) }

theorem rowEngines_storedOnly {p : Part} {r : Nat} (h : storedOnlyReg p r = true) : rowEngines p r = [.registers] := by
  simp only [storedOnlyReg, Bool.or_eq_true, Bool.and_eq_true, beq_iff_eq, decide_eq_true_eq] at h
  unfold rowEngines
  rw [if_neg (by omega), if_neg (by omega), if_neg (by omega)]

/-- The engines of a register write are those of its row. -/
theorem enginesOf_regWrite {i : Instr} {p : Part} {r : Nat} {v : Byte} (hw : i.WellFormed) (h : encode i = encReg p r v) :
    enginesOf i = rowEngines p r := by
  cases i with
  | ssgNoisePeriod | ssgEnable | ssgEnvShape | rhythmKey | rhythmTotalLevel | timerAHigh | timerALow | timerB | fmKey =>
    obtain ⟨rfl, rfl, rfl⟩ := encReg_inj h
    rfl
  | ssgEnvPeriod high =>
    obtain ⟨rfl, rfl, rfl⟩ := encReg_inj h
    cases high <;> rfl
  | ssgToneLow ch | ssgToneHigh ch | ssgLevel ch | rhythmChannelLevel ch
  | fmFnumLow ch | fmBlockFnumHigh ch | fmFbAlg ch | fmPan ch =>
    obtain ⟨rfl, rfl, rfl⟩ := encReg_inj h
    clear hw h
    fin_cases ch <;> rfl
  | fmDtMul ch op | fmTl ch op | fmKsAr ch op | fmAmDr ch op | fmSr ch op | fmSlRr ch op =>
    obtain ⟨rfl, rfl, rfl⟩ := encReg_inj h
    clear hw h
    cases op <;> fin_cases ch <;> rfl
  | storedOnly part reg value =>
    obtain ⟨rfl, rfl, rfl⟩ := encReg_inj h
    exact (rowEngines_storedOnly hw).symm
  | _ => exact nomatch h

theorem staysIn_regWrite {i : Instr} (hi : i.isRegWrite = true) (hw : i.WellFormed) (s : State) :
    Goes (StaysIn (enginesOf i) s) (exec i s) := by
  obtain ⟨p, r, v, h⟩ := encode_of_isRegWrite hi
  rw [exec_of_encode_encReg h, enginesOf_regWrite hw h]
  exact goes_next (staysIn_writeRaw p r v s)

/-! ## Commands (R82) -/

theorem staysIn_writeRegister (part reg value : Int) (s : State) :
    Goes (StaysIn [.registers, .fm, .ssg, .rhythm] s) (writeRegister P part reg value s) := by
  unfold writeRegister
  split
  · exact staysIn_reply _ ((staysIn_writeRaw ..).mono (rowEngines_subset ..))
  · exact staysIn_reply _ (.refl ..)

theorem staysIn_writeRegisterBuffered (part reg value : Int) (s : State) :
    Goes (StaysIn [.registers, .fm, .ssg, .rhythm] s) (writeRegisterBuffered P part reg value s) := by
  unfold writeRegisterBuffered
  split
  · exact staysIn_reply _ ((staysIn_writeShadowed ..).mono (rowEngines_subset ..))
  · exact staysIn_reply _ (.refl ..)

theorem staysIn_readRegisterBuffered (part reg : Int) (s : State) : Goes (StaysIn es s) (readRegisterBuffered P part reg s) := by
  unfold readRegisterBuffered
  split
  · exact staysIn_answer ..
  · exact staysIn_reply _ (.refl ..)

theorem staysIn_setta (value : Int) (s : State) : Goes (StaysIn [.registers] s) (execSetta value s) := by
  unfold execSetta
  split
  · refine staysIn_reply _ ?_
    rw [writeTimerA_eq]
    exact { StaysIn.refl _ s with registers := absurd (by decide) }
  · exact staysIn_reply _ (.refl ..)

theorem staysIn_settb (value : Int) (s : State) : Goes (StaysIn [.registers] s) (execSettb value s) := by
  unfold execSettb
  split
  · exact staysIn_reply _ (staysIn_writeShadowed 0 0x26 _ s)
  · exact staysIn_reply _ (.refl ..)

theorem staysIn_enta (on : Int) (s : State) : Goes (StaysIn [.timers] s) (execEnta on s) := by
  unfold execEnta
  split
  · exact staysIn_reply _ { StaysIn.refl _ s with timers := absurd (by decide) }
  · exact staysIn_reply _ (.refl ..)

theorem staysIn_entb (on : Int) (s : State) : Goes (StaysIn [.timers] s) (execEntb on s) := by
  unfold execEntb
  split
  · exact staysIn_reply _ { StaysIn.refl _ s with timers := absurd (by decide) }
  · exact staysIn_reply _ (.refl ..)

/-- An FM program load reaches the bank alone, not the register images. -/
theorem staysIn_fmLoadInst (prog : Int) (data : List Byte) (s : State) : Goes (StaysIn [.fm] s) (fmLoadInst prog data s) := by
  unfold fmLoadInst
  split
  · exact staysIn_reply _ (.refl ..)
  split
  · exact staysIn_reply _ (.refl ..)
  · exact staysIn_reply _ { StaysIn.refl _ s with fm := absurd (by decide) }

theorem staysIn_pcmLoadSamples (dest size : Int) (data : List Byte) (s : State) :
    Goes (StaysIn [.sampleRam] s) (pcmLoadSamples dest size data s) := by
  unfold pcmLoadSamples
  split
  · exact staysIn_reply _ (.refl ..)
  split
  · exact staysIn_reply _ (.refl ..)
  split
  · exact staysIn_reply _ (.refl ..)
  split
  · exact staysIn_reply _ (.refl ..)
  · exact staysIn_reply _ { StaysIn.refl _ s with sampleRam := absurd (by decide) }

theorem staysIn_pcmEffectPlaying (chan : Int) (s : State) : Goes (StaysIn es s) (pcmEffectPlaying chan s) := by
  unfold pcmEffectPlaying
  split
  · exact staysIn_reply _ (.refl ..)
  · exact staysIn_answer ..

theorem staysIn_setvol (lane level : Int) (s : State) : Goes (StaysIn [.lanes] s) (execSetvol lane level s) := by
  unfold execSetvol
  split
  · exact staysIn_reply _ { StaysIn.refl _ s with lanes := absurd (by decide) }
  · exact staysIn_reply _ (.refl ..)

theorem staysIn_setmute (lane mute : Int) (s : State) : Goes (StaysIn [.lanes] s) (execSetmute lane mute s) := by
  unfold execSetmute
  split
  · exact staysIn_reply _ { StaysIn.refl _ s with lanes := absurd (by decide) }
  · exact staysIn_reply _ (.refl ..)

theorem staysIn_getmute (lane : Int) (s : State) : Goes (StaysIn es s) (execGetmute lane s) := by
  unfold execGetmute
  split
  · exact staysIn_answer ..
  · exact staysIn_reply _ (.refl ..)

/-- RESET: the PCM reset after the FM reset; `t` is the state between them, so that no proof evaluates the FM reset. -/
theorem FmOnly.staysIn_pcmReset (h : FmOnly s t) : Goes (StaysIn [.registers, .fm, .pcm] s) (reply .success (pcmReset P t)) :=
  staysIn_reply _ { h.staysIn.mono (by decide) with pcm := absurd (by decide) }

theorem staysIn_command {i : Instr} (hi : i.isRegWrite = false) (s : State) : Goes (StaysIn (enginesOf i) s) (exec i s) := by
  cases i with
  | reset => exact (FmOnly.fmReset s).staysIn_pcmReset
  | keyonFm | fmkeyon => exact (fmOnly_fmKeyOn ..).imp fun _ => FmOnly.staysIn
  | keyoffFm | fmkeyoff => exact (fmOnly_fmKeyOff ..).imp fun _ => FmOnly.staysIn
  | setpanFm | fmpan => exact (fmOnly_fmSetPan ..).imp fun _ => FmOnly.staysIn
  | setinstFm | fminst => exact (fmOnly_fmSetInst ..).imp fun _ => FmOnly.staysIn
  | setpitchFm | fmpitch => exact (fmOnly_fmSetPitch ..).imp fun _ => FmOnly.staysIn
  | setlevelFm | fmlevel => exact (fmOnly_fmSetLevel ..).imp fun _ => FmOnly.staysIn
  | choffFm => exact (fmOnly_fmChOff ..).imp fun _ => FmOnly.staysIn
  | fmreset => exact staysIn_reply _ (FmOnly.fmReset s).staysIn
  | loadinstFm | fmload => exact staysIn_fmLoadInst ..
  | keyonPcm => exact (pcmOnly_pcmKeyOn ..).imp fun _ => PcmOnly.staysIn
  | keyoffPcm => exact (pcmOnly_pcmKeyOff ..).imp fun _ => PcmOnly.staysIn
  | setpanPcm => exact (pcmOnly_pcmSetPan ..).imp fun _ => PcmOnly.staysIn
  | setinstPcm => exact (pcmOnly_pcmSetInst ..).imp fun _ => PcmOnly.staysIn
  | setpitchPcm => exact (pcmOnly_pcmSetPitch ..).imp fun _ => PcmOnly.staysIn
  | setlevelPcm => exact (pcmOnly_pcmSetLevel ..).imp fun _ => PcmOnly.staysIn
  | loadinstPcm => exact (pcmOnly_pcmLoadInst ..).imp fun _ => PcmOnly.staysIn
  | choffPcm | pcmoff => exact (pcmOnly_pcmOff ..).imp fun _ => PcmOnly.staysIn
  | reserve => exact (pcmOnly_pcmReserve ..).imp fun _ => PcmOnly.staysIn
  | ldwave => exact (pcmOnly_pcmLoadWave ..).imp fun _ => PcmOnly.staysIn
  | unwave => exact (pcmOnly_pcmUnloadWave ..).imp fun _ => PcmOnly.staysIn
  | playfx => exact (pcmOnly_pcmPlayEffect ..).imp fun _ => PcmOnly.staysIn
  | pcmenv => exact staysIn_reply _ (PcmOnly.pcmEnvAll s).staysIn
  | ldsmp => exact staysIn_pcmLoadSamples ..
  | wrreg => exact staysIn_writeRegister ..
  | wrregb => exact staysIn_writeRegisterBuffered ..
  | rdregb => exact staysIn_readRegisterBuffered ..
  | setta => exact staysIn_setta ..
  | settb => exact staysIn_settb ..
  | enta => exact staysIn_enta ..
  | entb => exact staysIn_entb ..
  | fxq => exact staysIn_pcmEffectPlaying ..
  | setvol => exact staysIn_setvol ..
  | rstvol => exact staysIn_reply _ { StaysIn.refl _ s with lanes := absurd (by decide) }
  | setmute => exact staysIn_setmute ..
  | getmute => exact staysIn_getmute ..
  | getvol | cdtoggle | getvol2 | unsupported55 | unsupported74 | unsupported75 | unsupported => exact staysIn_reply _ (.refl ..)
  | _ => exact nomatch hi

/-- Settles O60: a register write stays in the engines of its row, a command in those of its handler. -/
theorem eachInstructionKeepsToItsEngines : Obligations.EachInstructionKeepsToItsEngines := by
  intro i s hw
  have stays : Goes (StaysIn (enginesOf i) s) (exec i s) := by
    cases hi : i.isRegWrite with
    | true => exact staysIn_regWrite hi hw s
    | false => exact staysIn_command hi s
  obtain ⟨t, e, h⟩ := stays
  exact ⟨t, e, h.registers, h.fm, h.pcm, h.sampleRam, h.ssg, h.rhythm, h.timers, h.lanes⟩

end Sys2Proof.Machine
end

section
/-! Proofs of the statements about the mixer and the host's operations (spec 47_mixer.md, R330 to R339; R334, R362 to R366). -/

namespace Sys2Proof.Machine

/-! ## One tick (R331) -/

section
variable (P : Params) (e : Nat) (a : BitVec 6) (b : BitVec 8) (s : State)

@[simp] theorem engines_fm : (engines P e a b s).fm = (fmTick P s).fm := by rw [engines_eq]

@[simp] theorem engines_pcm_get (j : PcmCh) : (engines P e a b s).pcm[j] = s.pcm[j].advance := by
  rw [engines_eq]
  exact pcmTick_get s j

@[simp] theorem engines_ssg : (engines P e a b s).ssg = Ssg.tick P s.ssg := by rw [engines_eq]

@[simp] theorem engines_rhy : (engines P e a b s).rhy = (rhyTick P s).rhy := by rw [engines_eq]

@[simp] theorem engines_rhyDivCnt : (engines P e a b s).rhyDivCnt = (rhyTick P s).rhyDivCnt := by rw [engines_eq]

theorem engines_frame :
    engines P e a b s =
      { s with
        fm := (engines P e a b s).fm, pcm := (engines P e a b s).pcm, ssg := (engines P e a b s).ssg, rhy := (engines P e a b s).rhy
        rhyDivCnt := (engines P e a b s).rhyDivCnt, outBuffer := (engines P e a b s).outBuffer } := by
  have h := engines_eq (P := P) e a b s
  generalize engines P e a b s = u at h ⊢
  rw [h]

end

/-- Both timers go on, and leave the buffer as it was. -/
theorem timers_go (P : Params) (s : State) : ∃ a b, timerTickA P (ssgDrain s) = .next a ∧ timerTickB P a = .next b ∧
    a.outBuffer = s.outBuffer ∧ b.outBuffer = s.outBuffer := by
  obtain ⟨a, ha, outA⟩ := timerTickA_goes (P := P) (ssgDrain s)
  obtain ⟨b, hb, outB⟩ := timerTickB_goes (P := P) a
  have bufA : a.outBuffer = s.outBuffer := outA.outBuffer
  exact ⟨a, b, ha, hb, bufA, outB.outBuffer.trans bufA⟩

/-- Settles O51: the timers go on without touching the buffer, and from the state they leave each engine does its own tick and the pair is
added. -/
theorem tickRule : Obligations.TickRule := by
  intro P e s
  obtain ⟨a, b, ha, hb, bufA, bufB⟩ := timers_go P s
  refine ⟨a, b, ha, hb, bufA, bufB, fun off => ?offA, fun off => ?offB, fun inside => ?engines⟩
  case offA =>
    rw [timerTickA_off (show (ssgDrain s).timerA.on = false from off)] at ha
    injection ha with ha
    exact ha.symm
  case offB =>
    rw [timerTickB_off off] at hb
    injection hb with hb
    exact hb.symm
  case engines =>
    refine ⟨engines P e s.maskA s.maskB b, tick_of_timers e ha hb, engines_fm .., fun j => engines_pcm_get .., engines_ssg .., engines_rhy ..,
      engines_rhyDivCnt .., engines_frame .., ?pair⟩
    intro y
    have added : (engines P e s.maskA s.maskB b).outBuffer = addPair s.outBuffer e y := by
      rw [engines_pair, bufB, ← engines_fm P e s.maskA s.maskB b, ← engines_ssg P e s.maskA s.maskB b,
        ← engines_rhy P e s.maskA s.maskB b]
      rfl
    rw [added]
    exact ⟨addPair_length .., addPair_get y inside⟩

/-! ## `produce` (R330) -/

/-- The buffers `u` and `v` have one length, and are the same outside the elements from `lo` to before `hi`. -/
structure SameOutside (lo hi : Nat) (u v : List OutElem) : Prop where
  length : v.length = u.length
  get : ∀ k, k < lo ∨ hi ≤ k → v[k]? = u[k]?

theorem SameOutside.refl (lo hi : Nat) (u : List OutElem) : SameOutside lo hi u u := ⟨rfl, fun _ _ => rfl⟩

/-- Writes in two adjoining windows are writes in the window of both. -/
theorem SameOutside.append {lo mid hi : Nat} {u v w : List OutElem} (h : SameOutside lo mid u v) (k : SameOutside mid hi v w)
    (hl : lo ≤ mid) (hm : mid ≤ hi) : SameOutside lo hi u w where
  length := k.length.trans h.length
  get i hi := (k.get i (by omega)).trans (h.get i (by omega))

theorem addPair_sameOutside (b : List OutElem) (e : Nat) (y : Stereo) : SameOutside e (e + 2) b (addPair b e y) where
  length := addPair_length b e y
  get k hk := by
    unfold addPair addElem
    rw [List.getElem?_set_ne (by omega), List.getElem?_set_ne (by omega)]

section
variable {P : Params}

/-- A tick goes on, and writes no element but its two. -/
theorem tick_writes (e : Nat) (s : State) : Goes (fun t => SameOutside e (e + 2) s.outBuffer t.outBuffer) (tick P e s) := by
  obtain ⟨a, b, ha, hb, -, buf⟩ := timers_go P s
  refine ⟨_, tick_of_timers e ha hb, ?_⟩
  dsimp only
  rw [engines_pair, buf]
  exact addPair_sameOutside ..

/-- `n` ticks go on, and write no element outside their window. -/
theorem ticks_write (n e : Nat) (s : State) : Goes (fun t => SameOutside e (e + 2 * n) s.outBuffer t.outBuffer) (ticks P n e s) := by
  induction n generalizing e s with
  | zero => exact goes_next (.refl ..)
  | succ n ih =>
    refine goes_andThen (tick_writes e s) fun t first => (ih (e + 2) t).imp fun u rest => ?_
    rw [show e + 2 * (n + 1) = e + 2 + 2 * n by omega]
    exact first.append rest (by omega) (by omega)

end

section
variable {P : Params} {s : State} {buffer : List OutElem} {offset count : Int}

theorem windowOk_iff : windowOk buffer offset count = true ↔ 0 ≤ offset ∧ 0 ≤ count ∧ offset + 2 * count ≤ buffer.length := by
  unfold windowOk
  simp [and_assoc]

/-- The state in which the first tick of a `produce` call begins. -/
def produceStart (buffer : List OutElem) (s : State) : State :=
  { s with inProduce := true, outBuffer := buffer, callbackResults := [], result := none }

theorem produceStart_ended (idle : s.inProduce = false) :
    { produceStart buffer s with inProduce := false } = { s with outBuffer := buffer, callbackResults := [], result := none } := by
  unfold produceStart
  rw [← idle]

theorem produce_reenters (h : s.inProduce = true) : produce P buffer offset count s = .next (reenter s) := if_pos h

theorem produce_outOfBounds (idle : s.inProduce = false) (h : ¬(0 ≤ offset ∧ 0 ≤ count ∧ offset + 2 * count ≤ buffer.length)) :
    produce P buffer offset count s = .next { raiseBufferBounds s with result := none } := by
  unfold produce
  rw [if_neg (by simp [idle]), if_pos (by simpa using mt windowOk_iff.mp h)]

theorem produce_runs (idle : s.inProduce = false) (h : 0 ≤ offset ∧ 0 ≤ count ∧ offset + 2 * count ≤ buffer.length) {t : State}
    (run : ticks P count.toNat offset.toNat (produceStart buffer s) = .next t) :
    produce P buffer offset count s = .next { t with inProduce := false } := by
  unfold produceStart at run
  unfold produce
  rw [if_neg (by simp [idle]), if_neg (by simpa using windowOk_iff.mpr h), run]
  rfl

end

/-- Settles O52: a call in bounds runs its ticks one by one, and each writes the two elements of its place in the window. -/
theorem produceRule : Obligations.ProduceRule := by
  intro buffer offset count s
  refine ⟨produce_reenters, fun idle outside => produce_outOfBounds idle (by omega), fun idle h0 hn hw => ?_⟩
  obtain ⟨t, ht, outside⟩ := ticks_write (P := params) count.toNat offset.toNat (produceStart buffer s)
  obtain ⟨run, first, last, each⟩ := ticks_run count.toNat offset.toNat _ t ht
  refine ⟨run, { t with inProduce := false }, produce_runs idle ⟨h0, hn, hw⟩ ht, first, fun k hk => each k (by omega), by rw [last],
    outside.length, fun k hk => outside.get k (by omega), fun empty => ?_⟩
  have same : t = produceStart buffer s := by rw [← last, ← first, empty]; rfl
  rw [same, produceStart_ended idle]

/-! ## The mix (R332) -/

section
variable {s : State} {l : Lane}

theorem laneScale_muted (h : s.mute[l] = true) (x : Int) : laneScale s x l = 0 := if_pos h

theorem laneScale_open (h : s.mute[l] = false) (x : Int) : laneScale s x l = Int.tdiv (x * s.vol[l].val) 127 :=
  if_neg (by simp [h])

/-- At the highest volume a lane gives the sum as it is. -/
theorem laneScale_full (h : s.mute[l] = false) (full : s.vol[l] = 127) (x : Int) : laneScale s x l = x := by
  rw [laneScale_open h, full]
  exact Int.mul_tdiv_cancel x (by decide)

end

theorem musicSum_eq (s : State) (fm : FmCh → Int) (pcm : PcmCh → Int) (ssg : Int) (rhy : RhyCh → Int) :
    musicSum s fm pcm ssg rhy = groupSum s false fm pcm + ssg + ∑ i : RhyCh, rhy i := by
  unfold musicSum
  rw [rhyChannels_sum]

/-- The two groups of one side are every engine once. -/
theorem musicSum_add_sfx (s : State) (fm : FmCh → Int) (pcm : PcmCh → Int) (ssg : Int) (rhy : RhyCh → Int) :
    musicSum s fm pcm ssg rhy + groupSum s true fm pcm = (∑ ch : FmCh, fm ch) + (∑ j : PcmCh, pcm j) + ssg + ∑ i : RhyCh, rhy i := by
  rw [musicSum_eq, ← groupSum_both s fm pcm]
  ring

/-- Settles O53: the groups are sums by mask bit, and lanes at full volume leave the sum of both groups. -/
theorem mixRule : Obligations.MixRule := by
  refine ⟨fun s x l => ⟨(laneScale_muted · x), (laneScale_open · x), (laneScale_full · · x)⟩,
    fun s fm pcm ssg rhy => ⟨?groups, fun full => ?plain⟩⟩
  case groups =>
    unfold mix
    simp only [musicSum_eq, groupSum_eq]
  case plain =>
    have scale (x : Int) (l : Lane) : laneScale s x l = x := laneScale_full (full l).1 (full l).2 x
    unfold mix
    simp only [scale, musicSum_add_sfx]

/-! ## Volume and mute commands (R335 to R339) -/

section
variable {lane x : Int}

theorem fails_setvol (h : lane? lane = none ∨ level7? x = none) (s : State) : Fails (.setvol lane x) s .badValue := by
  show execSetvol lane x s = _
  unfold execSetvol
  split
  next hl hv => simp [hl, hv] at h
  · rfl

theorem fails_setmute (h : lane? lane = none ∨ flag? x = none) (s : State) : Fails (.setmute lane x) s .badValue := by
  show execSetmute lane x s = _
  unfold execSetmute
  split
  next hl hm => simp [hl, hm] at h
  · rfl

theorem fails_getmute (h : lane? lane = none) (s : State) : Fails (.getmute lane) s .badValue := by
  show execGetmute lane s = _
  unfold execGetmute
  rw [h]
  rfl

end

section
variable (l : Lane) (s : State)

theorem exec_setvol (v : Level7) :
    exec (.setvol l.val v.val) s = .next (State.returning { s with vol := s.vol.set l.val v } .success none) := by
  show execSetvol l.val v.val s = _
  unfold execSetvol
  rw [lane?_val, level7?_val]
  rfl

theorem exec_setmute {x : Int} {m : Bool} (h : flag? x = some m) :
    exec (.setmute l.val x) s = .next (State.returning { s with mute := s.mute.set l.val m } .success none) := by
  show execSetmute l.val x s = _
  unfold execSetmute
  rw [lane?_val, h]
  rfl

theorem exec_getmute : exec (.getmute l.val) s = .next (s.returning .success (some (if s.mute[l] = true then 1 else 0))) := by
  show execGetmute l.val s = _
  unfold execGetmute
  rw [lane?_val]
  rfl

end

/-- Settles O54: each failure is a failed operand check, each success the update of its lane; stubs and unsupported codes reply at once. -/
theorem volumeAndStubs : Obligations.VolumeAndStubs := by
  refine ⟨fun lane x s => ⟨fun h => ?badLane, fun h => fails_setvol (.inr (level7?_none h)) s,
      fun h0 h1 => fails_setmute (.inr (flag?_none h0 h1)) s⟩,
    fun l v s => ⟨exec_setvol l s v, exec_setmute l s rfl, exec_setmute l s rfl, exec_getmute l s⟩,
    fun s => ⟨Vector.replicate 16 127, rfl, BlockInv.replicate_get 127⟩, fun args code s => ⟨?stubs, ?unsupported⟩⟩
  case badLane =>
    have outside := lane?_none h
    exact ⟨fails_setvol (.inl outside) s, fails_setmute (.inl outside) s, fails_getmute outside s⟩
  case stubs =>
    simp only [List.forall_mem_cons]
    exact ⟨rfl, rfl, rfl, List.forall_mem_nil _⟩
  case unsupported =>
    simp only [List.forall_mem_cons]
    exact ⟨rfl, rfl, rfl, rfl, List.forall_mem_nil _⟩

/-! ## The host's operations (R334, R362, R364 to R366) -/

/-- The masks are their arguments cut to 6 and 8 bits. -/
theorem setVolumeMasks_toNat (a b : Int) (s : State) :
    ((setVolumeMasks a b s).maskA.toNat : Int) = a % 64 ∧ ((setVolumeMasks a b s).maskB.toNat : Int) = b % 256 := by
  have cut (n : Nat) (x : Int) : ((BitVec.ofInt n x).toNat : Int) = x % (2 ^ n : Nat) := by
    rw [BitVec.toNat_ofInt]
    exact Int.toNat_of_nonneg (Int.emod_nonneg x (by positivity))
  exact ⟨cut 6 a, cut 8 b⟩

/-- An overlapping step is refused under external locking. -/
theorem hostStep_overlap {s : State} {h : HostStep} (overlaps : h.overlaps = true) (locking : s.externalLocking = true) :
    hostStep h s = .next (lockViolated s) := if_pos (by rw [overlaps, locking]; rfl)

/-- Settles O55: a call of the host and a callback's call set the same fields, a callback's `produce` is the re-entry, and an overlap is
decided by the lock setting. -/
theorem hostOperations : Obligations.HostOperations := by
  refine ⟨fun a b s => ?callbacks, fun a b s => ?masks, fun b o n s => rfl, fun h s => ⟨hostStep_overlap, fun free => ?runs⟩⟩
  case callbacks =>
    simp only [List.forall_mem_cons]
    exact ⟨rfl, rfl, List.forall_mem_nil _⟩
  case masks =>
    have sets : ∃ t, .next (setVolumeMasks a b s) = (.next t : Host.Outcome State Fault Refusal) ∧
        t = { s with maskA := t.maskA, maskB := t.maskB, result := none } ∧
        (t.maskA.toNat : Int) = a % 64 ∧ (t.maskB.toNat : Int) = b % 256 := ⟨_, rfl, rfl, setVolumeMasks_toNat a b s⟩
    simp only [List.forall_mem_cons]
    exact ⟨sets, sets, List.forall_mem_nil _⟩
  case runs =>
    refine hostStep_allowed fun overlaps => ?_
    simpa [overlaps] using free

end Sys2Proof.Machine
end

section
/-! Proofs of the statements about failures and construction (spec 60_exceptions.md R360; 70_reset_and_hazards.md R390). -/

namespace Sys2Proof.Machine

/-! ## No failure stops the block (R360) -/

/-- A query ends with an out-value or a result code (R122). -/
theorem query_gives_result {i : Instr} (query : Instr.isQuery i) (s : State) : Goes (·.result.isSome = true) (exec i s) := by
  obtain ⟨v, h⟩ | ⟨rc, -, h⟩ := answers_exec i query s
  · exact ⟨_, h, rfl⟩
  · exact ⟨_, h, rfl⟩

/-- Every command ends with a result: a query answers or fails, any other command replies (R80, R122). -/
theorem command_gives_result {i : Instr} (command : i.isRegWrite = false) (s : State) : Goes (·.result.isSome = true) (exec i s) := by
  by_cases query : Instr.isQuery i
  · exact query_gives_result query s
  · obtain ⟨rc, t, h, -⟩ := replies_exec i command query s
    exact ⟨_, h, rfl⟩

/-- Settles O7: every host operation goes on, every instruction goes on, and a command leaves a result. -/
theorem nothingStops : Obligations.NothingStops := by
  refine ⟨fun s => ?steps, fun i s => ?runs⟩
  case steps =>
    obtain ⟨t, next, -⟩ := sticky_step s
    exact ⟨t, next⟩
  case runs =>
    obtain ⟨t, next, -⟩ := frame_exec i s
    exact ⟨t, next, fun command => (command_gives_result command s).of_eq_next next⟩

/-! ## Construction (R390) -/

section
variable {s : State} {p : Part} {r : Nat}

/-- Outside the FM area the reset values of both images are zero: the program rows and the pan registers lie inside it. -/
theorem resetFmReg_outside (P : Params) (outside : ¬fmArea p r) : resetFmReg P r = 0 := by
  have noRow : ¬(0x30 ≤ r ∧ r ≤ 0xB6) := fun inside => outside (by unfold fmArea; split <;> omega)
  unfold resetFmReg
  rw [if_neg (by omega), if_neg (by omega), if_neg (by omega)]

/-- Outside the FM area every register of the block is zero after construction. -/
theorem reset_images_outside (outside : ¬fmArea p r) (hr : r < 256) : State.reset.chip p r = 0 ∧ State.reset.shad p r = 0 := by
  obtain ⟨chip, shad⟩ := reset_images p r hr
  have notKey : ¬(p = 0 ∧ r = 0x28) := fun ⟨hp, key⟩ => outside (by rw [hp, key]; unfold fmArea; decide)
  rw [if_neg notKey] at chip
  rw [chip, shad]
  exact ⟨resetFmReg_outside params outside, resetFmReg_outside params outside⟩

/-- From zero images the FM reset leaves both images as after construction. -/
theorem fmReset_images_of_zero (zero : ∀ (p : Part) (r : Nat), s.chip p r = 0 ∧ s.shad p r = 0) :
    (fmReset params s).chipReg = State.reset.chipReg ∧ (fmReset params s).shadow = State.reset.shadow := by
  have same (p : Part) (r : Nat) (hr : r < 256) :
      (fmReset params s).chip p r = State.reset.chip p r ∧ (fmReset params s).shad p r = State.reset.shad p r := by
    obtain ⟨inside, outside⟩ := fmReset_images s p r
    by_cases area : fmArea p r
    · exact inside area
    · obtain ⟨chip, shad⟩ := outside area
      obtain ⟨chip0, shad0⟩ := reset_images_outside area hr
      rw [chip, shad, chip0, shad0]
      exact zero p r
  exact ⟨RegFile.ext_read fun p r hr => (same p r hr).1, RegFile.ext_read fun p r hr => (same p r hr).2⟩

theorem eq_replicate_of_get {α : Type} {n : Nat} {v : Vector α n} {x : α} (all : ∀ i : Fin n, v[i] = x) : v = Vector.replicate n x :=
  Vector.ext fun i hi => (all ⟨i, hi⟩).trans (Vector.getElem_replicate hi).symm

end

/-- Settles O57: the two resets leave the FM and the PCM fields, the FM reset the images, and the blank block has every other field. -/
theorem construction : Obligations.Construction := by
  intro blank zero pcmRam ssg rhy rhyDivCnt timerA timerB lanes maskA maskB faults refused inProduce externalLocking pending hostProcs
    outBuffer result callbackResults
  have vol : blank.vol = Vector.replicate 16 127 := eq_replicate_of_get fun l => (lanes l).1
  have mute : blank.mute = Vector.replicate 16 false := eq_replicate_of_get fun l => (lanes l).2
  obtain ⟨chipReg, shadow⟩ := fmReset_images_of_zero zero
  rw [pcmReset_fields, fmReset_fields, chipReg, shadow]
  simp only [pcmRam, ssg, rhy, rhyDivCnt, timerA, timerB, vol, mute, maskA, maskB, faults, refused, inProduce, externalLocking, pending,
    hostProcs, outBuffer, result, callbackResults]
  rfl

end Sys2Proof.Machine
end
